-- ==== Sys2Proof/Word.lean ====
section
/-!
DEFINITION. The word types of the Chorbel CS-12: bytes of the line, the service port and the flash, the 16-bit key
and samples, the 32-bit station time, and the numbered things of the spec's Numbering table (00_scope.md).
-/

namespace Sys2Proof

/-- One payload value, key character, service byte or flash byte. -/
abbrev Byte := BitVec 8

/-- Station time: a 32-bit count of microseconds that wraps (00_scope.md, Station time; R1). -/
abbrev StationTime := BitVec 32

/-- The 16-bit key that opens a frame: class, subject and sender (R7). -/
abbrev Key := BitVec 16

/-- One 16-bit signed audio sample (R127). -/
abbrev Sample := BitVec 16

/-- A set of seats 0..15; bit n stands for seat n, as in the seat-set layout of 11_formats.md. -/
abbrev SeatSet := BitVec 16

/-- A set of voices 0..11; bit n stands for voice n. -/
abbrev VoiceSet := BitVec 12

/-- A seat 0..15. -/
abbrev Seat := Fin 16

/-- A voice 0..11. -/
abbrev VoiceNo := Fin 12

/-- A cue slot 0..47. -/
abbrev SlotNo := Fin 48

end Sys2Proof
end

