-- ==== Sys2Proof/Syntax.lean ====
section
/-!
DEFINITION. The commands of the CS-12: one constructor for each row of spec/opcode_table.json, and the operands they
carry. Every command carries the instant `t` at which it falls, counted in master clock periods since the last reset
(DESIGN CHOICE, safe, log entry 1); the other operands are what the station sees of the outside at that instant.
-/

namespace Sys2Proof

/-- A level of the cue line (01_the_cue_line.md): dominant is 0, recessive is 1. -/
inductive Level where
  | dominant
  | recessive
  deriving DecidableEq, Repr

/-- One character time of the cue line as the receiver samples it (R3): the level where the start bit is due, eight
data bits, the parity bit, and the level of the stop bit. -/
structure LineChar where
  start : Level
  data : Byte
  parity : Bool
  stop : Level
  deriving DecidableEq, Repr

/-- What the receiver of the service port meets on its line (R184, R185): a start bit, a high-to-low edge; the ten levels it
reads in the middle of the bit times after a start bit, in the order received, bit n of `levels` being 1 where the nth
reads high; or the line having stood high for one whole bit time. That the row reports all three is the form of the model
(DESIGN CHOICE, safe, log entry 36). -/
inductive PortEvent where
  | startBit
  | character (levels : BitVec 10)
  | lineHigh
  deriving DecidableEq, Repr

/-- The commands of the block, in the order of spec/opcode_table.json. -/
inductive Instr where
  /-- POWER_ON (R175); `lineLow`: the reset line is held low while power comes up. -/
  | powerOn (t : Nat) (lineLow : Bool)
  /-- RESET_LINE (R175): the reset line is released. -/
  | resetLine (t : Nat)
  /-- START_RECORD_READ (R176): the Start Loader's read of the record ends. -/
  | startRecordRead (t : Nat)
  /-- LOAD_COMPLETION (R181): the clip directory read ends. -/
  | loadCompletion (t : Nat)
  /-- QUIET_GAP (R5): the recessive count reaches its next multiple of 13. -/
  | quietGap (t : Nat)
  /-- ATTEMPT_START (R15); `run`: the recessive count of R5 as it stands at this bit time. -/
  | attemptStart (t : Nat) (run : Nat)
  /-- SOF_EDGE (R6): another station's start of frame; `run` as in ATTEMPT_START. -/
  | sofEdge (t : Nat) (run : Nat)
  /-- CHARACTER_RECEIVED (R4); inside an ack window, the character time that the window is (R12). -/
  | characterReceived (t : Nat) (c : LineChar)
  /-- SPOIL_END (R10). -/
  | spoilEnd (t : Nat)
  /-- SPOIL_SEEN (R11). -/
  | spoilSeen (t : Nat)
  /-- ARBITRATION_LOST (R16); `bit`: the key data bit, 0 the first on the line (the top of the key). -/
  | arbitrationLost (t : Nat) (bit : Fin 16)
  /-- BIT_ERROR (R17); `run`: the recessive count of R5 after the bit that read back wrong. -/
  | bitError (t : Nat) (run : Nat)
  /-- ACK_MISS (R18). -/
  | ackMiss (t : Nat)
  /-- OWN_FRAME_SPOILED (R18). -/
  | ownFrameSpoiled (t : Nat)
  /-- OWN_FRAME_COMPLETE (R19). -/
  | ownFrameComplete (t : Nat)
  /-- FRAME_COMPLETE (R13). -/
  | frameComplete (t : Nat)
  /-- STALE_DROP (R46) of the entry with this key. -/
  | staleDrop (t : Nat) (key : Key)
  /-- WINDOW_EXPIRY (R71). -/
  | windowExpiry (t : Nat)
  /-- PENALTY_END (R57) of this seat. -/
  | penaltyEnd (t : Nat) (seat : Seat)
  /-- VOICE_START (R114). -/
  | voiceStart (t : Nat) (v : VoiceNo)
  /-- SAMPLE_PERIOD (R152). -/
  | samplePeriod (t : Nat)
  /-- VOICE_NATURAL_END (R117). -/
  | voiceNaturalEnd (t : Nat) (v : VoiceNo)
  /-- FADING_RUN_DRY (R123). -/
  | fadingRunDry (t : Nat) (v : VoiceNo)
  /-- SILENCE_REACHED (R122). -/
  | silenceReached (t : Nat) (v : VoiceNo)
  /-- ENVELOPE_TICK (R144). -/
  | envelopeTick (t : Nat)
  /-- FETCH_READ_ISSUE (R134). -/
  | fetchReadIssue (t : Nat)
  /-- FETCH_READ_COMPLETE (R135). -/
  | fetchReadComplete (t : Nat)
  /-- INPUT_SCAN (R160); bit n of `closed` is 1 when INn is at the level CLOSED; `order`: the order in which the
  inputs of this scan are taken (R164 allows any). -/
  | inputScan (t : Nat) (closed : Byte) (order : List (Fin 8))
  /-- LAMP_PERIOD (R166). -/
  | lampPeriod (t : Nat)
  /-- CUE_LAMP_DURATION_END (R171) of this lamp. -/
  | cueLampDurationEnd (t : Nat) (lamp : Fin 8)
  /-- SERVICE_CHARACTER (R184, R185): sent at the start bit of a character, again with its levels at its stop bit, and after
  a framing error when the line has stood high for one whole bit time. -/
  | serviceCharacter (t : Nat) (c : PortEvent)
  /-- GAP_TIMEOUT (R185). -/
  | gapTimeout (t : Nat)
  /-- STATUS (R188): a whole STATUS packet is taken. -/
  | status (t : Nat)
  /-- ENTER (R189): a whole ENTER packet is taken. -/
  | enter (t : Nat)
  /-- ERASE (R190): a whole ERASE packet with this three-byte address is taken. -/
  | erase (t : Nat) (addr : BitVec 24)
  /-- PROGRAM (R190): a whole PROGRAM packet with this address and these data bytes is taken. -/
  | program (t : Nat) (addr : BitVec 24) (data : List Byte)
  /-- READ (R190): a whole READ packet with this address and count is taken. -/
  | read (t : Nat) (addr : BitVec 24) (count : Byte)
  /-- ERRORS (R193): a whole ERRORS packet with this argument byte is taken. -/
  | errors (t : Nat) (arg : Byte)
  /-- RESTART (R191): a whole RESTART packet is taken. -/
  | restart (t : Nat)
  /-- ERASE_DONE (R138). -/
  | eraseDone (t : Nat)
  /-- PROGRAM_DONE (R139). -/
  | programDone (t : Nat)
  /-- READ_TRANSFER_END (R140). -/
  | readTransferEnd (t : Nat)
  /-- RESPONSE_SENT (R187). -/
  | responseSent (t : Nat)
  /-- FRAME_SPOILED_IN_WINDOW (R12). -/
  | frameSpoiledInWindow (t : Nat)
  /-- RESET_LINE_LOW (R28, R175). -/
  | resetLineLow (t : Nat)
  /-- POWER_LOSS (R141). -/
  | powerLoss (t : Nat)
  deriving DecidableEq, Repr

end Sys2Proof
end

