-- ==== Sys2Proof/Config.lean ====
section
/-!
DEFINITION. The values the spec leaves open for good: which bits of the clip flash an ERASE or PROGRAM had reached
when the power went away ("Which bits were reached is not recorded anywhere", R141), and where within the tolerance of
R166 a lamp line goes off. They have no body, so a claim about them holds whatever they are (log entries 12 and 35).
-/

namespace Sys2Proof

/-- The bits of one byte that a PROGRAM cut short by a power loss had reached (1: reached), for the `n`-th such loss
and the byte's address. DESIGN CHOICE, log entry 12: a free value, safe. -/
opaque Config.programReached (n : Nat) (address : Nat) : Byte

/-- The bits of one byte that an ERASE cut short by a power loss had reached (1: reached), for the `n`-th such loss
and the byte's address. DESIGN CHOICE, log entry 12: a free value, safe. -/
opaque Config.eraseReached (n : Nat) (address : Nat) : Byte

/-- Which of the times that R166 allows ("to within one master clock period") a lamp line is on, for the lamp, the lamp
period and its level. DESIGN CHOICE, log entry 35: a free value, safe. -/
opaque Config.lampEdge (lamp : Nat) (period : Nat) (level : Nat) : Nat

end Sys2Proof
end

