-- ==== Sys2Proof/Machine/State.lean ====
section
/-!
DEFINITION. The state of one CS-12 station, as plain data: every piece of state the spec gives the block, the queue of
commands that wait, and the state right after reset. Field docstrings name the rule that gives the field.
-/

namespace Sys2Proof.Machine

/-- Why a step stops. -/
inductive Fault where
  /-- A transfer would touch a byte past the end of the clip flash (R127). Raised by FETCH_READ_COMPLETE,
  READ_TRANSFER_END and PROGRAM_DONE, only in states no run reaches: R129 and R186 refuse such addresses. Safe. -/
  | flashRange (address : Nat)
  deriving DecidableEq, Repr

/-- Why a command has no meaning. -/
inductive Refusal where
  /-- The command has no meaning in this model yet. Raised by `exec` alone. Safe. -/
  | notModelled (mnemonic : String)
  deriving DecidableEq, Repr

/-! ## Start Loader (R174, R175) and reset -/

inductive StationMode where
  | loading
  | online
  | service
  deriving DecidableEq, Repr

inductive StartFault where
  | none
  | noRecord
  | badSum
  | badValue
  deriving DecidableEq, Repr

inductive ResetCause where
  | power
  | line
  | restart
  deriving DecidableEq, Repr

/-- The reset line (R175): released, pulled low while powered, or held low since power came up. -/
inductive ResetLine where
  | released
  | low
  | lowFromPowerUp
  deriving DecidableEq, Repr

/-! ## Configuration: the start record as decoded (9.3, 11.3) -/

inductive BitRate where
  | kbit125
  | kbit250
  | kbit500
  deriving DecidableEq, Repr

inductive ReboundMode where
  | queue
  | reopen
  deriving DecidableEq, Repr

/-- The four ARM fields (2.1): the answer window in 0.1 s units, the penalty time in 10 ms units. -/
structure ArmFields where
  rebound : ReboundMode
  window : Nat
  penalty : Nat
  eligible : SeatSet
  deriving DecidableEq, Repr

/-- The five verbs of JUDGE (2.1). -/
inductive Verb where
  | arm
  | openBuzzers
  | right
  | wrong
  | void
  deriving DecidableEq, Repr

/-- The ten round events, in the order of R58's table and of the event codes of 11.3. -/
inductive RoundEvent where
  | armed
  | opened
  | win
  | late
  | timeout
  | right
  | wrong
  | void
  | allout
  | penalty
  deriving DecidableEq, Repr

/-- Configuration the Dispatcher, Send Queue, Round Tracker, Cue Matcher and Lamp Driver take (R181). -/
structure StationConfig where
  /-- Station number 1..15 (R7, R32). -/
  number : BitVec 4
  /-- Shadow flag (R26). -/
  shadow : Bool
  /-- Fire lead L, ms (R58, R85). -/
  fireLead : Nat
  /-- Late limit, ms; 0 for none (R37, R46). -/
  lateLimit : Nat
  /-- Dim level (R168). -/
  dimLevel : Nat
  /-- ARM preset (R165). -/
  armPreset : ArmFields
  /-- Event codes, in the order of `RoundEvent`; none for NONE (R58). -/
  eventCode : Vector (Option Byte) 10
  /-- Add-seat flags of WIN, LATE, TIMEOUT, RIGHT, WRONG (R58). -/
  addSeat : Vector Bool 5
  deriving DecidableEq, Repr

/-- What an input does on a press (R159). -/
inductive InputAction where
  | none
  | buzz (seat : Seat)
  | go (code : Byte) (seat : Option Seat) (singleTry : Bool)
  | localCode (code : Byte)
  | cut (code : Byte)
  | judge (verb : Verb)
  | stop
  deriving DecidableEq, Repr

/-- Configuration of one input (R159): debounce time in ms, long time in 10 ms units. -/
structure InputConfig where
  debounce : Nat
  longTime : Nat
  short : InputAction
  long : InputAction
  deriving DecidableEq, Repr

/-- What a lamp is assigned to (R166). -/
inductive LampAssign where
  | seat (s : Seat)
  | cue
  deriving DecidableEq, Repr

inductive SourceFilter where
  | any
  | line
  | local
  deriving DecidableEq, Repr

inductive Selection where
  | fixed
  | cycle
  | seat
  deriving DecidableEq, Repr

inductive Retrigger where
  | restart
  | layer
  | ignore
  deriving DecidableEq, Repr

inductive EndRoute where
  | local
  | line
  deriving DecidableEq, Repr

inductive PatternKind where
  | off
  | steady
  | blink
  deriving DecidableEq, Repr

/-- Configuration of a PLAY slot (R81); fades and pre-delay in 10 ms units. -/
structure PlayConfig where
  clipList : List Byte
  selection : Selection
  priority : Nat
  choke : Nat
  airSend : Nat
  houseSend : Nat
  duckDepth : Nat
  fadeIn : Nat
  fadeOut : Nat
  preDelay : Nat
  loopFlag : Bool
  retrigger : Retrigger
  endCode : Option Byte
  endRoute : EndRoute
  deriving DecidableEq, Repr

/-- Configuration of a LAMP slot (R82): period in 10 ms units, duty in percent, duration in 100 ms units. -/
structure LampOrder where
  lamp : Fin 8
  pattern : PatternKind
  level : Nat
  period : Nat
  duty : Nat
  duration : Nat
  deriving DecidableEq, Repr

/-- The action of a slot with its fields (R81, R82). -/
inductive SlotAction where
  | play (p : PlayConfig)
  | stopGroup (group : Nat) (override : Option Nat)
  | lamp (l : LampOrder)
  | emit (code : Byte) (singleTry seatThrough : Bool)
  deriving DecidableEq, Repr

/-- Configuration of a slot apart from its enabled field (R80). -/
structure SlotConfig where
  code : Byte
  mask : Byte
  filter : SourceFilter
  action : SlotAction
  deriving DecidableEq, Repr

/-- One slot record of the start record (11.3). -/
structure SlotRecord where
  enabled : Bool
  config : SlotConfig
  deriving DecidableEq, Repr

/-- A start record that passed R178, decoded (R196). -/
structure StartRecord where
  station : StationConfig
  bitRate : BitRate
  warningLevel : Nat
  holdoff : Nat
  attackMs : Nat
  releaseMs : Nat
  airMaster : Nat
  houseMaster : Nat
  inputs : Vector InputConfig 8
  lamps : Vector LampAssign 8
  slots : Vector SlotRecord 48
  deriving DecidableEq, Repr

/-- The record the Start Loader holds between its read and load completion (R176, R177), and the instant, in master
clock periods, at which its read ended. -/
structure HeldRecord where
  record : StartRecord
  readAt : Nat
  deriving DecidableEq, Repr

/-- The four fields of R174 and the record held. -/
structure Loader where
  mode : StationMode
  loaded : Bool
  fault : StartFault
  cause : ResetCause
  record : Option HeldRecord
  deriving DecidableEq, Repr

/-! ## Line Port (Chapter 1) -/

inductive LineState where
  | active
  | warning
  | passive
  | off
  deriving DecidableEq, Repr

/-- What the station drives on the line: nothing, the frame of its attempt, an ack bit, or a spoil. -/
inductive Drive where
  | released
  | frame
  | ack
  | spoil
  deriving DecidableEq, Repr

/-- The frame being followed: its SOF capture and the characters taken so far, K1 first (R6, R7). -/
structure Followed where
  sof : StationTime
  chars : List Byte
  deriving DecidableEq, Repr

/-- The attempt in flight (R15, R42): the key and payload taken at its SOF, the check, whether it is a single-try
attempt, and for a TELL the argument recorded with it. `portCleared` notes that the service port has cleared the
reported group since an attempt of this entry first reported it (R50, R193; log entry 24). -/
structure Attempt where
  key : Key
  payload : List Byte
  check : BitVec 16
  singleTry : Bool
  tellArg : Option Byte
  portCleared : Bool
  deriving DecidableEq, Repr

structure LinePort where
  /-- Bit rate; none until load completion (R2, R28). -/
  bitRate : Option BitRate
  /-- Warning level of the start record (R22). -/
  warningLevel : Nat
  /-- Holdoff of the start record, bit times (R14). -/
  holdoff : Nat
  /-- Transmit error count 0..255 (R21). -/
  tec : Nat
  /-- Receive error count 0..255 (R21). -/
  recCount : Nat
  lineState : LineState
  /-- Count of consecutive recessive bit times (R5; log entry 6). -/
  recessiveRun : Nat
  followed : Option Followed
  attempt : Option Attempt
  drive : Drive
  /-- Holdoff owed (R20). -/
  holdoffOwed : Bool
  listening : Bool
  joined : Bool
  framesReceived : BitVec 32
  framesSent : BitVec 32
  deriving DecidableEq, Repr

/-! ## Send Queue (R36) -/

/-- What an entry sends: a fixed payload, or a TELL whose payload is built at each attempt from this argument. -/
inductive Content where
  | fixed (payload : List Byte)
  | tell (arg : Byte)
  deriving DecidableEq, Repr

inductive EntryState where
  | waiting
  | inFlight
  deriving DecidableEq, Repr

structure Entry where
  key : Key
  content : Content
  enqueued : StationTime
  /-- Late limit in ms, if any. -/
  lateLimit : Option Nat
  singleTry : Bool
  state : EntryState
  /-- The group of error counts that the last attempt of this entry carried, for a TELL ERRORS that is to be retried
  (R50, R193; the model's own field, log entry 24). -/
  reported : Option Nat
  /-- The service port has cleared that group since (R193; the model's own field, log entry 24). -/
  portCleared : Bool
  deriving DecidableEq, Repr

/-! ## Round Tracker (R53) -/

inductive RoundState where
  | idle
  | ready
  | open
  | locked
  | expired
  deriving DecidableEq, Repr

structure Round where
  state : RoundState
  number : Byte
  synced : Bool
  winner : Option Seat
  order : List Seat
  excluded : SeatSet
  eligible : SeatSet
  rebound : ReboundMode
  /-- Answer window in ms; 0 for none. -/
  windowMs : Nat
  /-- Penalty time in ms. -/
  penaltyMs : Nat
  windowEnd : Option StationTime
  deriving DecidableEq, Repr

/-! ## Cue Table (R80 to R85) -/

/-- Where a trigger comes from (R85): the line, with the frame's sender, or this station. -/
inductive Source where
  | line (sender : BitVec 4)
  | local
  deriving DecidableEq, Repr

structure Trigger where
  code : Byte
  source : Source
  seat : Option Seat
  fireTime : StationTime
  deriving DecidableEq, Repr

/-- The pending trigger of a held slot (R83, R89). -/
structure PendingTrigger where
  fireTime : StationTime
  seat : Option Seat
  deriving DecidableEq, Repr

structure Slot where
  enabled : Bool
  /-- The other configuration; none until load completion (R80). -/
  config : Option SlotConfig
  held : Bool
  pending : Option PendingTrigger
  lost : Nat
  voices : VoiceSet
  cycle : Nat
  fires : Nat
  deriving DecidableEq, Repr

/-! ## Voice Pool (R101, R106, R107) -/

inductive VoiceState where
  | free
  | scheduled
  | running
  | fading
  | draining
  deriving DecidableEq, Repr

inductive Channels where
  | mono
  | stereo
  deriving DecidableEq, Repr

/-- One frame of a clip: its one or two samples (R127). -/
inductive Frame where
  | mono (s : Sample)
  | stereo (l r : Sample)
  deriving DecidableEq, Repr

/-- A voice request as a PLAY action hands it (R101); fades in 10 ms units. -/
structure VoiceRequest where
  slot : SlotNo
  clip : Byte
  startTime : StationTime
  seat : Option Seat
  priority : Nat
  choke : Nat
  airSend : Nat
  houseSend : Nat
  duckDepth : Nat
  fadeIn : Nat
  fadeOut : Nat
  loopFlag : Bool
  endCode : Option Byte
  endRoute : EndRoute
  deriving DecidableEq, Repr

structure Voice where
  state : VoiceState
  owner : Option SlotNo
  generation : Byte
  clip : Byte
  channels : Channels
  /-- Frame number of the next frame to be read. -/
  cursor : Nat
  loop : Bool
  priority : Nat
  choke : Nat
  airSend : Nat
  houseSend : Nat
  duckDepth : Nat
  fadeInRate : Nat
  fadeOutRate : Nat
  rate : Nat
  envelope : Nat
  target : Nat
  duck : Nat
  duckTarget : Nat
  startTime : StationTime
  endCode : Option Byte
  endRoute : EndRoute
  fifo : List Frame
  exhausted : Bool
  underrun : Bool
  successor : Option VoiceRequest
  /-- The Mixer has reported this voice silent and the Voice Pool has not yet taken the report (R122, R145; the
  model's own field, log entry 17). -/
  silent : Bool
  deriving DecidableEq, Repr

/-- The voice that the arbiter grants at once because it is the first to request a refill: what its read is to carry,
as its record stood when it began to request, its fetch cursor at frame 0 (R133, R134). -/
structure Grant where
  voice : VoiceNo
  generation : Byte
  clip : Byte
  loop : Bool
  deriving DecidableEq, Repr

/-- The cue slots, the voices, the allocation order and the grant: the state PLAY, CUT, STOP and the fades work on. -/
structure Pool where
  slots : Vector Slot 48
  voices : Vector Voice 12
  /-- Least recently allocated first (R107). -/
  order : List VoiceNo
  /-- The voice granted at once, until its read is issued (R133; the model's own field, log entry 30). -/
  grant : Option Grant
  deriving DecidableEq, Repr

/-! ## Clip Table, Fetch Engine, flash (Chapter 6) -/

/-- A loop from `first` up to, not including, `last` (R128). -/
structure Loop where
  first : Nat
  last : Nat
  deriving DecidableEq, Repr

/-- A present clip (R128). -/
structure Clip where
  address : Nat
  frames : Nat
  channels : Channels
  loop : Option Loop
  deriving DecidableEq, Repr

/-- 256 entries, none for an absent clip, and the dropped count (R128). -/
structure ClipTable where
  entries : Vector (Option Clip) 256
  dropped : Nat
  deriving DecidableEq, Repr

/-- The read in flight (R134) and the instant its transfer ends (R137). -/
structure FetchRead where
  voice : VoiceNo
  generation : Byte
  size : Nat
  address : Nat
  channels : Channels
  dueAt : Nat
  deriving DecidableEq, Repr

inductive FlashJob where
  | erase (address : Nat)
  | program (address : Nat) (data : List Byte)
  deriving DecidableEq, Repr

/-- An ERASE or PROGRAM under way in the flash, and the instant it finishes. -/
structure FlashOp where
  job : FlashJob
  dueAt : Nat
  deriving DecidableEq, Repr

/-- The clip flash (R127): its bytes in canonical form, the operation that keeps it busy, and the instant since which
the interface has been free of one. -/
structure Flash where
  mem : List Host.Cell
  op : Option FlashOp
  freeSince : Nat
  deriving DecidableEq, Repr

/-! ## Mixer and Output Port (Chapter 7) -/

/-- A bus master (R150). -/
structure Master where
  current : Nat
  target : Nat
  deriving DecidableEq, Repr

/-- The clamped sums of one sample period (R156). -/
structure BusMix where
  airLeft : Sample
  airRight : Sample
  houseLeft : Sample
  houseRight : Sample
  deriving DecidableEq, Repr

/-- The four 24-bit slots being shifted out (R157). -/
structure OutputSlots where
  airLeft : BitVec 24
  airRight : BitVec 24
  houseLeft : BitVec 24
  houseRight : BitVec 24
  deriving DecidableEq, Repr

structure Mixer where
  air : Master
  house : Master
  attack : Nat
  release : Nat
  /-- The number of the next sample period to be mixed, counted from reset (R144). -/
  nextSample : Nat
  /-- The number of the next envelope tick to be taken; tick n falls n ms after reset (R144). -/
  nextTick : Nat
  /-- The mix of the latest sample period, which goes out in the next (R157). -/
  mix : BusMix
  out : OutputSlots
  deriving DecidableEq, Repr

/-! ## Inputs and lamps (Chapter 8) -/

inductive Contact where
  | open
  | closed
  deriving DecidableEq, Repr

inductive Hold where
  | none
  | waiting
  | spent
  deriving DecidableEq, Repr

structure Input where
  config : Option InputConfig
  level : Option Contact
  run : Nat
  pressTime : Option StationTime
  hold : Hold
  deriving DecidableEq, Repr

/-- The rows of R168's table. -/
inductive SeatRow where
  | penalised
  | idle
  | ready
  | openIn
  | openOut
  | winnerLocked
  | winnerExpired
  | listed
  | notListed
  deriving DecidableEq, Repr

/-- A pattern with its values (R167). -/
structure LampPattern where
  kind : PatternKind
  level : Nat
  periodMs : Nat
  duty : Nat
  deriving DecidableEq, Repr

structure Lamp where
  assign : LampAssign
  /-- The row in force of a SEAT lamp (R169). -/
  row : SeatRow
  /-- The cue pattern of a CUE lamp (R170). -/
  pattern : LampPattern
  durationEnd : Option StationTime
  /-- The lamp period from which the pattern in force counts (R167). -/
  phaseStart : Nat
  /-- The level shown in the present lamp period, 0..255 (R166). -/
  level : Nat
  deriving DecidableEq, Repr

/-! ## Service port and error record (Chapter 10) -/

inductive Assembly where
  | hunt
  | command
  | length (cmd : Byte)
  | payload (cmd : Byte) (len : Nat) (got : List Byte)
  | check (cmd : Byte) (got : List Byte)
  deriving DecidableEq, Repr

/-- What the receiver of the service port does: it seeks a start bit, takes a character, or waits after a framing error until
the line has stood high for one whole bit time (R184). -/
inductive Receiver where
  | seeking
  | receiving
  | waitingHigh
  deriving DecidableEq, Repr

inductive InProgress where
  | none
  | erase
  | program
  deriving DecidableEq, Repr

inductive PacketStatus where
  | ok
  | busy
  | badSum
  | badArg
  | notService
  | unknown
  deriving DecidableEq, Repr

/-- A response (R187): the command byte as sent, with bit 7 set, its status and its payload. -/
structure Response where
  command : Byte
  status : PacketStatus
  payload : List Byte
  deriving DecidableEq, Repr

/-- A READ transfer under way (R190). -/
structure ServiceRead where
  address : Nat
  count : Nat
  dueAt : Nat
  deriving DecidableEq, Repr

structure ServicePort where
  assembly : Assembly
  receiver : Receiver
  /-- The instant the gap timer started, while it runs (R185). -/
  gapFrom : Option Nat
  inProgress : InProgress
  reads : List ServiceRead
  answers : List Response
  /-- The instant at which the first response of the list began to go out, while there is one (R184, R187; log entry 41). -/
  sendingFrom : Option Nat
  restartPending : Bool
  deriving DecidableEq, Repr

/-- The eighteen counts of the error record, in the order of R192. -/
inductive ErrorCount where
  | parityErrors
  | framingErrors
  | checkErrors
  | spoilsSeen
  | ackMisses
  | lineOffEntries
  | sendOverflows
  | staleDrops
  | singleTryDrops
  | badFrames
  | strayBuzzes
  | earlyPresses
  | lostTriggers
  | noVoiceRefusals
  | badClipRefusals
  | underruns
  | lateStarts
  | outputClamps
  deriving DecidableEq, Repr

/-- The error record: eighteen counts, three to a group (R192). -/
structure ErrorRecord where
  counts : Vector Nat 18
  deriving DecidableEq, Repr

/-! ## The station -/

/-- The whole state of the station. -/
structure State where
  /-- Master clock periods since the last reset (R144, R175); station time is read from it. -/
  clock : Nat
  powered : Bool
  resetLine : ResetLine
  loader : Loader
  station : StationConfig
  line : LinePort
  queue : List Entry
  round : Round
  /-- The penalty end of each seat (R57). -/
  penalties : Vector (Option StationTime) 16
  pool : Pool
  clips : ClipTable
  fetch : Option FetchRead
  flash : Flash
  mixer : Mixer
  inputs : Vector Input 8
  /-- The number of the next input scan; scan n falls n ms after reset (R160). -/
  nextScan : Nat
  lamps : Vector Lamp 8
  /-- The number of the next lamp period; period n begins n ms after reset (R166). -/
  nextLampPeriod : Nat
  service : ServicePort
  errors : ErrorRecord
  /-- How many free values have been used (log entry 12; the model's own field). -/
  freeCount : Nat
  /-- The commands that wait, first in first out. -/
  pending : List Instr
  deriving DecidableEq, Repr

/-! ## Reset values -/

/-- R174 and R175: what a reset leaves in the Start Loader. -/
def Loader.reset (cause : ResetCause) : Loader :=
  { mode := .loading, loaded := false, fault := .none, cause := cause, record := none }

/-- Before load completion no block has a configuration (R177); the values are DESIGN CHOICE, unsafe, log entry 10. -/
def StationConfig.reset : StationConfig :=
  { number := 0, shadow := false, fireLead := 0, lateLimit := 0, dimLevel := 0
    armPreset := { rebound := .queue, window := 0, penalty := 0, eligible := 0 }
    eventCode := Vector.replicate 10 none, addSeat := Vector.replicate 5 false }

/-- R28. The warning level and holdoff before load completion are DESIGN CHOICE, unsafe, log entry 10. -/
def LinePort.reset : LinePort :=
  { bitRate := none, warningLevel := 0, holdoff := 0, tec := 0, recCount := 0, lineState := .active, recessiveRun := 0
    followed := none, attempt := none, drive := .released, holdoffOwed := false, listening := false, joined := false
    framesReceived := 0, framesSent := 0 }

/-- R53. -/
def Round.reset : Round :=
  { state := .idle, number := 0, synced := false, winner := none, order := [], excluded := 0, eligible := 0
    rebound := .queue, windowMs := 0, penaltyMs := 0, windowEnd := none }

/-- R80 and R83. -/
def Slot.reset : Slot :=
  { enabled := false, config := none, held := false, pending := none, lost := 0, voices := 0, cycle := 0, fires := 0 }

/-- R106. The fields that R106 gives as "none" are DESIGN CHOICE, unsafe, log entry 11. -/
def Voice.reset : Voice :=
  { state := .free, owner := none, generation := 0, clip := 0, channels := .mono, cursor := 0, loop := false
    priority := 0, choke := 0, airSend := 0, houseSend := 0, duckDepth := 0, fadeInRate := 0, fadeOutRate := 0
    rate := 0, envelope := 30720, target := 30720, duck := 0, duckTarget := 0, startTime := 0, endCode := none
    endRoute := .local, fifo := [], exhausted := false, underrun := false, successor := none, silent := false }

/-- R83, R106 and R107. -/
def Pool.reset : Pool :=
  { slots := Vector.replicate 48 Slot.reset, voices := Vector.replicate 12 Voice.reset
    order := [0, 1, 2, 3, 4, 5, 6, 7, 8, 9, 10, 11], grant := none }

/-- R128. -/
def ClipTable.reset : ClipTable :=
  { entries := Vector.replicate 256 none, dropped := 0 }

/-- The clip flash of a new station: erased. DESIGN CHOICE, unsafe, log entry 9. -/
def Flash.erased : Flash :=
  { mem := [], op := none, freeSince := 0 }

/-- No sound on any channel. -/
def BusMix.silence : BusMix :=
  { airLeft := 0, airRight := 0, houseLeft := 0, houseRight := 0 }

/-- R158. -/
def Mixer.reset : Mixer :=
  { air := { current := 120, target := 120 }, house := { current := 120, target := 120 }, attack := 30720
    release := 30720, nextSample := 0, nextTick := 1, mix := BusMix.silence
    out := { airLeft := 0, airRight := 0, houseLeft := 0, houseRight := 0 } }

/-- R159. -/
def Input.reset : Input :=
  { config := none, level := none, run := 0, pressTime := none, hold := .none }

/-- The OFF pattern. -/
def LampPattern.dark : LampPattern :=
  { kind := .off, level := 0, periodMs := 0, duty := 0 }

/-- R166 and R170. The assignment before load completion is DESIGN CHOICE, unsafe, log entry 10. -/
def Lamp.reset : Lamp :=
  { assign := .cue, row := .idle, pattern := LampPattern.dark, durationEnd := none, phaseStart := 0, level := 0 }

/-- R184. -/
def ServicePort.reset : ServicePort :=
  { assembly := .hunt, receiver := .seeking, gapFrom := none, inProgress := .none, reads := [], answers := []
    sendingFrom := none, restartPending := false }

/-- R175 and R192. -/
def ErrorRecord.reset : ErrorRecord :=
  { counts := Vector.replicate 18 0 }

/-- The machine right after power-on (R175), with a new flash (log entry 9) and no command waiting. -/
def State.reset : State :=
  { clock := 0, powered := true, resetLine := .released, loader := Loader.reset .power, station := StationConfig.reset
    line := LinePort.reset, queue := [], round := Round.reset, penalties := Vector.replicate 16 none
    pool := Pool.reset, clips := ClipTable.reset, fetch := none, flash := Flash.erased, mixer := Mixer.reset
    inputs := Vector.replicate 8 Input.reset, nextScan := 1, lamps := Vector.replicate 8 Lamp.reset
    nextLampPeriod := 0, service := ServicePort.reset, errors := ErrorRecord.reset, freeCount := 0, pending := [] }

end Sys2Proof.Machine
end

