-- ==== Sys2Proof/Machine/Clock.lean ====
section
/-!
DEFINITION. Time: the master clock and station time (00_scope.md, R1, R144), the instants of periodic events, and the
frame in which every command is taken (log entries 1, 3, 4, 5).
-/

namespace Sys2Proof.Machine

/-- Master clock periods in one sample period (R144). -/
def sampleClocks : Nat := 512

/-- Master clock periods in one millisecond at 24.576 MHz (R144, R160, R166). -/
def milliClocks : Nat := 24576

/-- Station time after `clock` master clock periods: whole microseconds, modulo 2^32 (00_scope.md, Station time). -/
def stationTimeAt (clock : Nat) : StationTime :=
  BitVec.ofNat 32 (clock * 125 / 3072)

/-- The first master clock period whose station time is `us` microseconds, before the first wrap. -/
def clockOfMicros (us : Nat) : Nat :=
  (us * 3072 + 124) / 125

/-- Station time now. -/
def State.now (s : State) : StationTime :=
  stationTimeAt s.clock

/-- Station time `a` is at or after `b`: their difference modulo 2^32, read as signed, is not negative (R1). -/
def reached (a b : StationTime) : Bool :=
  decide (0 ≤ (a - b).toInt)

/-- A station time `ms` milliseconds after `a`. -/
def afterMs (a : StationTime) (ms : Nat) : StationTime :=
  a + BitVec.ofNat 32 (ms * 1000)

/-- The age of `since` at `now` in microseconds, signed (R1). -/
def ageMicros (now since : StationTime) : Int :=
  (now - since).toInt

/-- Whether an age at `now` has reached `ms` milliseconds (R46). -/
def ageReached (now since : StationTime) (ms : Nat) : Bool :=
  decide ((ms * 1000 : Int) ≤ ageMicros now since)

/-- Time moves on to the command's instant; a command whose instant has passed is taken now (log entry 1). -/
def State.advance (s : State) (t : Nat) : State :=
  { s with clock := max s.clock t }

/-- The station runs: it has power and its reset line is not held low (R141, R175). -/
def State.running (s : State) : Bool :=
  s.powered && decide (s.resetLine = .released)

/-- The frame of every command but the power, reset and flash ones: time moves on, and the command's effect happens
if the station runs. A command whose own condition does not hold changes nothing else (log entry 3). -/
def State.onEvent (s : State) (t : Nat) (effect : State → State) : State :=
  if (s.advance t).running then effect (s.advance t) else s.advance t

/-- Now is the beginning of a period of `clocks` master clock periods, and that period's number is `next` or later
(log entry 5). -/
def State.periodBegins (s : State) (clocks next : Nat) : Bool :=
  decide (s.clock % clocks = 0) && decide (next ≤ s.clock / clocks)

/-- Now is the beginning of a sample period that has not been mixed yet (R114, R117, R123, R144; log
entry 18). -/
def State.sampleBegins (s : State) : Bool :=
  s.periodBegins sampleClocks s.mixer.nextSample

/-- The number of the first lamp period that begins at or after now (R167). At the very beginning of a lamp period it is that
period, whether its LAMP_PERIOD has been taken or not; taken before, it has shown the level of the pattern before, and the
period of count 0 is not shown (DESIGN CHOICE, unsafe, log entry 38). -/
def State.lampPhase (s : State) : Nat :=
  (s.clock + (milliClocks - 1)) / milliClocks

end Sys2Proof.Machine
end

