-- ==== Sys2Proof/Machine/Ops.lean ====
section
/-!
DEFINITION. Shared operations: one entry of a table of fixed length, counts of the error record (R192), and the clip
flash as a memory (R127, R138 to R141).
-/

namespace Sys2Proof.Machine

/-- One entry of a table changes. -/
def update {α : Type} {n : Nat} (v : Vector α n) (i : Fin n) (f : α → α) : Vector α n :=
  v.set i (f v[i])

/-- Every entry of a table changes, each by its own number. -/
def mapEach {α β : Type} {n : Nat} (v : Vector α n) (f : Fin n → α → β) : Vector β n :=
  Vector.ofFn fun i => f i v[i]

/-- Membership of seat or voice `i` in a set held as bits. -/
def inSet {w n : Nat} (set : BitVec w) (i : Fin n) : Bool :=
  set.getLsbD i

/-- The set that holds `i` alone. -/
def single {n : Nat} (w : Nat) (i : Fin n) : BitVec w :=
  BitVec.twoPow w i

/-! ## The error record (R192) -/

/-- The place of a count in the record: group `index / 3`, the `index % 3`-th of its group. -/
def ErrorCount.index : ErrorCount → Fin 18
  | .parityErrors => 0
  | .framingErrors => 1
  | .checkErrors => 2
  | .spoilsSeen => 3
  | .ackMisses => 4
  | .lineOffEntries => 5
  | .sendOverflows => 6
  | .staleDrops => 7
  | .singleTryDrops => 8
  | .badFrames => 9
  | .strayBuzzes => 10
  | .earlyPresses => 11
  | .lostTriggers => 12
  | .noVoiceRefusals => 13
  | .badClipRefusals => 14
  | .underruns => 15
  | .lateStarts => 16
  | .outputClamps => 17

/-- The value of a count. -/
def ErrorRecord.get (e : ErrorRecord) (c : ErrorCount) : Nat :=
  e.counts[c.index]

/-- A count goes up by 1 and saturates at 65535 (R192). -/
def ErrorRecord.bump (e : ErrorRecord) (c : ErrorCount) : ErrorRecord :=
  { counts := update e.counts c.index fun n => min 65535 (n + 1) }

/-- The record with a count raised when `b` holds. -/
def ErrorRecord.bumpIf (e : ErrorRecord) (b : Bool) (c : ErrorCount) : ErrorRecord :=
  if b then e.bump c else e

/-- A count goes up by `n`, one event at a time. -/
def ErrorRecord.bumpTimes (e : ErrorRecord) (c : ErrorCount) : Nat → ErrorRecord
  | 0 => e
  | n + 1 => (e.bumpTimes c n).bump c

/-- The three counts of a group, in the order of R192. -/
def ErrorRecord.group (e : ErrorRecord) (g : Nat) : List Nat :=
  (e.counts.toList.drop (3 * g)).take 3

/-- The three counts of a group are set to what `f` gives for each: its place in the group, 0 to 2, and its value. -/
def ErrorRecord.mapGroup (e : ErrorRecord) (g : Nat) (f : Nat → Nat → Nat) : ErrorRecord :=
  { counts := mapEach e.counts fun i n => if i.val / 3 = g then f (i.val % 3) n else n }

/-- A count of the error record goes up. -/
def State.count (s : State) (c : ErrorCount) : State :=
  { s with errors := s.errors.bump c }

/-! ## The clip flash as a memory (R127) -/

/-- Bytes of the clip flash (R127). -/
def flashSize : Nat := 16777216

/-- Bytes of one erase sector (R127). -/
def sectorSize : Nat := 4096

/-- The erased value, which an unlisted address reads as (R127). -/
def erasedByte : Byte := 0xFF

/-- The canonical form: addresses strictly rising and inside the flash, no entry equal to the erased byte. -/
abbrev Memory.wf (m : List Host.Cell) : Prop :=
  m.Pairwise (fun a b => a.1 < b.1) ∧ ∀ c ∈ m, c.1 < flashSize ∧ c.2 ≠ erasedByte

/-- The byte at an address. -/
def Memory.read : List Host.Cell → Nat → Byte
  | [], _ => erasedByte
  | (k, b) :: rest, a => if k = a then b else Memory.read rest a

/-- The byte at an address becomes `b`. -/
def Memory.write : List Host.Cell → Nat → Byte → List Host.Cell
  | [], a, b => if b = erasedByte then [] else [(a, b)]
  | (k, v) :: rest, a, b =>
    if a < k then (if b = erasedByte then (k, v) :: rest else (a, b) :: (k, v) :: rest)
    else if a = k then (if b = erasedByte then rest else (a, b) :: rest)
    else (k, v) :: Memory.write rest a b

/-- `n` bytes from address `a` on, of cells whose addresses are `a` or above. -/
def Memory.walk : List Host.Cell → Nat → Nat → List Byte
  | _, _, 0 => []
  | [], a, n + 1 => erasedByte :: Memory.walk [] (a + 1) n
  | (k, b) :: rest, a, n + 1 =>
    if k = a then b :: Memory.walk rest (a + 1) n else erasedByte :: Memory.walk ((k, b) :: rest) (a + 1) n

/-- `n` bytes from address `a` on, in address order (R140). -/
def Memory.readRun (m : List Host.Cell) (a n : Nat) : List Byte :=
  Memory.walk (m.dropWhile fun c => decide (c.1 < a)) a n

/-- Whether an address lies in the sector that begins at `a`. -/
def inSector (a k : Nat) : Bool :=
  decide (a ≤ k) && decide (k < a + sectorSize)

/-- An ERASE of the sector at `a`: its bytes read FF, others are unchanged (R138). -/
def Memory.erase (m : List Host.Cell) (a : Nat) : List Host.Cell :=
  m.filter fun c => !inSector a c.1

/-- A PROGRAM from `a`: each byte becomes its old value AND the new one (R139). -/
def Memory.program : List Host.Cell → Nat → List Byte → List Host.Cell
  | m, _, [] => m
  | m, a, d :: ds => Memory.program (Memory.write m a (Memory.read m a &&& d)) (a + 1) ds

/-- An ERASE cut short by the `n`-th power loss: each bit of the sector is its old value, or 1 where it was reached
(R141; free values, log entry 12). -/
def Memory.eraseCut (m : List Host.Cell) (a n : Nat) : List Host.Cell :=
  (m.map fun c => if inSector a c.1 then (c.1, c.2 ||| Config.eraseReached n c.1) else c).filter
    fun c => decide (c.2 ≠ erasedByte)

/-- The data a PROGRAM cut short by the `n`-th power loss has programmed: a bit it was to clear is 0 where it was
reached (R141; free values, log entry 12). -/
def programCut (n : Nat) : Nat → List Byte → List Byte
  | _, [] => []
  | a, d :: ds => (d ||| ~~~Config.programReached n a) :: programCut n (a + 1) ds

/-- The flash is busy: an ERASE or PROGRAM is under way (R137). -/
def Flash.busy (f : Flash) : Bool :=
  f.op.isSome

/-- Master clock periods a read of `n` bytes takes (R137). -/
def readClocks (n : Nat) : Nat :=
  24 + 2 * n

end Sys2Proof.Machine
end

