-- ==== Sys2Proof/Machine/Operands.lean ====
section
/-!
DEFINITION. The formats: keys, characters and frames of the cue line (R3, R4, R7, R8, 11.1), seat sets, and the packets
and responses of the service port (11.4).
-/

namespace Sys2Proof.Machine

/-! ## Keys and frames -/

/-- class × 4096 + subject × 16 + sender (R7). -/
def makeKey (cls : BitVec 4) (subject : Byte) (sender : BitVec 4) : Key :=
  cls ++ subject ++ sender

/-- The class of a key (R7). -/
def keyClass (k : Key) : BitVec 4 :=
  k.extractLsb' 12 4

/-- The subject of a key (R7). -/
def keySubject (k : Key) : Byte :=
  k.extractLsb' 4 8

/-- The sender of a key (R7). -/
def keySender (k : Key) : BitVec 4 :=
  k.extractLsb' 0 4

/-- The high byte of a 16-bit value. -/
def hiByte (w : BitVec 16) : Byte :=
  w.extractLsb' 8 8

/-- The low byte of a 16-bit value. -/
def loByte (w : BitVec 16) : Byte :=
  w.extractLsb' 0 8

/-- A 16-bit value from its high and low byte. -/
def word16 (hi lo : Byte) : BitVec 16 :=
  hi ++ lo

/-- A byte that reports a count: its low 8 bits. -/
def byteOf (n : Nat) : Byte :=
  BitVec.ofNat 8 n

/-- A 16-bit value on the line or in a response, high byte first (Chapter 11): its low 16 bits. -/
def wordBytes (n : Nat) : List Byte :=
  [hiByte (BitVec.ofNat 16 n), loByte (BitVec.ofNat 16 n)]

/-- One covered bit enters the check register (R8). -/
def checkBit (reg : BitVec 16) (bit : Bool) : BitVec 16 :=
  if Bool.xor bit reg.msb then (reg <<< 1) ^^^ 0x1021 else reg <<< 1

/-- One character enters the check register, most significant bit first (R8). -/
def checkByte (reg : BitVec 16) (b : Byte) : BitVec 16 :=
  [0, 1, 2, 3, 4, 5, 6, 7].foldl (fun r i => checkBit r (b.getMsbD i)) reg

/-- The check over K1, K2, LEN and the payload, from all ones (R8). -/
def checkOf (chars : List Byte) : BitVec 16 :=
  chars.foldl checkByte 0xFFFF

/-- The characters a check covers: K1, K2, LEN and the payload (R7, R8). -/
def frameHead (key : Key) (payload : List Byte) : List Byte :=
  hiByte key :: loByte key :: byteOf payload.length :: payload

/-- All the characters of a frame, K1 to C2 (R7). -/
def frameChars (key : Key) (payload : List Byte) (check : BitVec 16) : List Byte :=
  frameHead key payload ++ [hiByte check, loByte check]

/-- The characters a frame being followed will have, once its LEN is known: LEN + 5 (R7). -/
def Followed.length? (f : Followed) : Option Nat :=
  f.chars[2]?.map fun len => len.toNat + 5

/-- Every character through C2 has been taken: the frame is in its ack window (R12). -/
def Followed.inWindow (f : Followed) : Bool :=
  f.length? = some f.chars.length

/-- The key of a frame whose K1 and K2 have been taken. -/
def Followed.key (f : Followed) : Key :=
  word16 (f.chars[0]?.getD 0) (f.chars[1]?.getD 0)

/-- The payload of a frame taken through C2. -/
def Followed.payload (f : Followed) : List Byte :=
  (f.chars.drop 3).dropLast.dropLast

/-! ## Characters of the cue line -/

/-- The parity bit that makes the count of 1s even (R3). -/
def evenParity (b : Byte) : Bool :=
  [0, 1, 2, 3, 4, 5, 6, 7].foldl (fun p i => Bool.xor p (b.getLsbD i)) false

/-- A character as a transmitter sends it (R3). -/
def goodChar (b : Byte) : LineChar :=
  { start := .dominant, data := b, parity := evenParity b, stop := .recessive }

/-- One more bit time of the line in the count of R5. -/
def countLevel (run : Nat) : Level → Nat
  | .dominant => 0
  | .recessive => run + 1

/-- The level that a bit shows on the line: 0 is dominant, 1 is recessive. -/
def levelOf : Bool → Level
  | false => .dominant
  | true => .recessive

/-- The count of R5 after all eleven bit times of a character time (R3). -/
def countTime (run : Nat) (c : LineChar) : Nat :=
  countLevel (countLevel
    ([0, 1, 2, 3, 4, 5, 6, 7].foldl (fun r i => countLevel r (levelOf (c.data.getMsbD i))) (countLevel run c.start))
    (levelOf c.parity)) c.stop

/-- The count of R5 after a character of a frame body. One whose start bit is missing is a single recessive bit time: its
fault is found there (R4). -/
def countChar (run : Nat) (c : LineChar) : Nat :=
  match c.start with
  | .recessive => run + 1
  | .dominant => countTime run c

/-- The count of R5 at the end of the stop bit of C2, which the last character of the frame alone decides (R3). -/
def Followed.closingRun (f : Followed) : Nat :=
  countChar 0 (goodChar (f.chars.getLast?.getD 0))

/-- The first fault of a character of a frame, in the order in which its bits come: a missing start bit, the parity
bit, the stop bit, a LEN above 8 (R4), the check (R8). `taken` are the characters before it. -/
def charFault (taken : List Byte) (c : LineChar) : Option ErrorCount :=
  if c.start = .recessive then some .framingErrors
  else if c.parity ≠ evenParity c.data then some .parityErrors
  else if c.stop = .dominant then some .framingErrors
  else if taken.length = 2 ∧ 8 < c.data.toNat then some .framingErrors
  else if taken[2]?.map (fun len => len.toNat + 4) = some taken.length then
    (if word16 (taken.getLast?.getD 0) c.data = checkOf taken.dropLast then none else some .checkErrors)
  else none

/-! ## Sets on the line (Chapter 11) -/

/-- A seat set, seats 15..8 first. -/
def seatSetBytes (set : SeatSet) : List Byte :=
  [hiByte set, loByte set]

/-- A voice set in the layout of a seat set; bits 7..4 of its first byte are 0. -/
def voiceSetBytes (set : VoiceSet) : List Byte :=
  seatSetBytes (set.setWidth 16)

/-- The seat that a byte 0..15 names. -/
def seatOf (b : Byte) : Option Seat :=
  if h : b.toNat < 16 then some ⟨b.toNat, h⟩ else none

/-- The byte of a seat. -/
def seatByte (s : Seat) : Byte :=
  byteOf s.val

/-- The byte of an optional seat, FF for none (11.1). -/
def seatByteOr : Option Seat → Byte
  | some s => seatByte s
  | none => 0xFF

/-- A rebound mode byte (11.1). -/
def reboundOf (b : Byte) : Option ReboundMode :=
  if b = 0 then some .queue else if b = 1 then some .reopen else none

/-- The byte of a rebound mode. -/
def reboundByte : ReboundMode → Byte
  | .queue => 0
  | .reopen => 1

/-- A verb by its code (11.1). -/
def verbOf (b : Byte) : Option Verb :=
  match b.toNat with
  | 0 => some .arm
  | 1 => some .openBuzzers
  | 2 => some .right
  | 3 => some .wrong
  | 4 => some .void
  | _ => none

/-- The code of a verb. -/
def verbByte : Verb → Byte
  | .arm => 0
  | .openBuzzers => 1
  | .right => 2
  | .wrong => 3
  | .void => 4

/-- The bytes of an ARM payload (11.1). -/
def armBytes (a : ArmFields) : List Byte :=
  reboundByte a.rebound :: byteOf a.window :: byteOf a.penalty :: seatSetBytes a.eligible

/-- An ARM payload read back, when its rebound mode is QUEUE or REOPEN (R31). -/
def armOf : List Byte → Option ArmFields
  | [mode, window, penalty, hi, lo] =>
    (reboundOf mode).map fun rebound =>
      { rebound := rebound, window := window.toNat, penalty := penalty.toNat, eligible := word16 hi lo }
  | _ => none

/-- The code of a line state (11.1). -/
def lineStateByte : LineState → Byte
  | .active => 0
  | .warning => 1
  | .passive => 2
  | .off => 3

/-- The code of a round state (11.1). -/
def roundStateCode : RoundState → Byte
  | .idle => 0
  | .ready => 1
  | .open => 2
  | .locked => 3
  | .expired => 4

/-- A round state by its code. -/
def roundStateOf (n : Nat) : Option RoundState :=
  match n with
  | 0 => some .idle
  | 1 => some .ready
  | 2 => some .open
  | 3 => some .locked
  | 4 => some .expired
  | _ => none

/-! ## Service packets (11.4) -/

/-- The start byte of packets and responses. -/
def startByte : Byte := 0x5A

/-- The sum of bytes modulo 256. -/
def byteSum (bs : List Byte) : Byte :=
  bs.foldl (· + ·) 0

/-- The check byte of a command packet (R186). -/
def packetCheck (cmd : Byte) (payload : List Byte) : Byte :=
  byteSum (cmd :: byteOf payload.length :: payload)

/-- A three-byte address, high byte first. -/
def addressBytes (a : BitVec 24) : List Byte :=
  [a.extractLsb' 16 8, a.extractLsb' 8 8, a.extractLsb' 0 8]

/-- The address of three bytes, high byte first. -/
def addressOf (hi mid lo : Byte) : Nat :=
  hi.toNat * 65536 + mid.toNat * 256 + lo.toNat

/-- The code of a status (11.4). -/
def packetStatusByte : PacketStatus → Byte
  | .ok => 0
  | .busy => 1
  | .badSum => 2
  | .badArg => 3
  | .notService => 4
  | .unknown => 5

/-- The characters of a response on the wire (R197). -/
def responseBytes (r : Response) : List Byte :=
  startByte :: r.command :: packetStatusByte r.status :: byteOf r.payload.length ::
    (r.payload ++ [byteSum (r.command :: packetStatusByte r.status :: byteOf r.payload.length :: r.payload)])

/-- One character of the service port as received (R184): eight data bits, the parity bit, and whether the stop bit
read high. -/
structure PortChar where
  data : Byte
  parity : Bool
  stopHigh : Bool
  deriving DecidableEq, Repr

/-- The character that ten levels after a start bit hold: the data bits, least significant first, the parity bit, the stop
bit (R184). -/
def PortChar.ofLevels (levels : BitVec 10) : PortChar :=
  { data := levels.extractLsb' 0 8, parity := levels.getLsbD 8, stopHigh := levels.getLsbD 9 }

/-- The eleven bit times of a character as the transmitter sends it, true for high: a start bit, the data bits least
significant first, the even parity bit and a stop bit (R184). -/
def portBits (b : Byte) : List Bool :=
  false :: ((List.range 8).map b.getLsbD ++ [evenParity b, true])

/-- What the transmitter sends for a response, bit time after bit time: its characters back to back (R184). -/
def Response.serial (r : Response) : List Bool :=
  (responseBytes r).flatMap portBits

/-- All of a response has been sent, when it has gone out since instant `start`: each of its characters takes 11 bit times of
1 / 230400 s, which are 3520 / 3 master clock periods (R184). -/
def Response.sentBy (r : Response) (start now : Nat) : Bool :=
  decide (3 * start + 3520 * (responseBytes r).length ≤ 3 * now)

end Sys2Proof.Machine
end

