-- ==== Sys2Proof/Machine/LampOps.lean ====
section
/-!
DEFINITION. The Lamp Driver's operations: patterns and levels (R167), seat rows (R168, R169), cue patterns (R170), and
what other blocks ask of it.
-/

namespace Sys2Proof.Machine

/-- An action is a BUZZ action for this seat (R57). -/
def InputAction.buzzes (a : InputAction) (seat : Seat) : Bool :=
  decide (a = .buzz seat)

/-- A seat is hosted when an input has a BUZZ action for it, short or long (R57). -/
def State.hosts (s : State) (seat : Seat) : Bool :=
  s.inputs.toList.any fun i =>
    match i.config with
    | none => false
    | some c => c.short.buzzes seat || c.long.buzzes seat

/-- A seat is penalised now: its penalty end is present and still ahead (R57). -/
def State.penalised (s : State) (seat : Seat) : Bool :=
  match s.penalties[seat] with
  | none => false
  | some e => !reached s.now e

/-- The row of R168's table that the round gives a seat. -/
def Round.seatRow (r : Round) (seat : Seat) : SeatRow :=
  if r.synced = false ∨ r.state = .idle then .idle
  else
    match r.state with
    | .idle => .idle
    | .ready => .ready
    | .open => if inSet r.eligible seat && !inSet r.excluded seat then .openIn else .openOut
    | .locked =>
      if r.winner = some seat then .winnerLocked else if seat ∈ r.order then .listed else .notListed
    | .expired =>
      if r.winner = some seat then .winnerExpired else if seat ∈ r.order then .listed else .notListed

/-- The first row of R168's table that applies. -/
def State.seatRow (s : State) (seat : Seat) : SeatRow :=
  if s.hosts seat && s.penalised seat then .penalised else s.round.seatRow seat

/-- The pattern of a row (R168); `dim` is the dim level. -/
def SeatRow.pattern (dim : Nat) : SeatRow → LampPattern
  | .penalised => { kind := .blink, level := 255, periodMs := 60, duty := 50 }
  | .idle | .openOut | .notListed => LampPattern.dark
  | .ready | .listed => { kind := .steady, level := dim, periodMs := 0, duty := 0 }
  | .openIn => { kind := .steady, level := 255, periodMs := 0, duty := 0 }
  | .winnerLocked => { kind := .blink, level := 255, periodMs := 250, duty := 50 }
  | .winnerExpired => { kind := .blink, level := 255, periodMs := 100, duty := 50 }

/-- A SEAT lamp takes a row: a different row is put in force with a phase start of its own, the same row keeps its
phase unless `again` puts it in force anew (R169). -/
def Lamp.takeRow (l : Lamp) (row : SeatRow) (again : Bool) (phase : Nat) : Lamp :=
  if row ≠ l.row ∨ again then { l with row := row, phaseStart := phase } else l

/-- The seat patterns are worked out again (R168, R169). `again` names a seat whose early press restarts a penalty
blink that is already in force. -/
def State.refreshSeatLamps (s : State) (again : Option Seat) : State :=
  { s with
    lamps := mapEach s.lamps fun _ l =>
      match l.assign with
      | .cue => l
      | .seat seat =>
        l.takeRow (s.seatRow seat) (decide (again = some seat) && decide (s.seatRow seat = .penalised)) s.lampPhase }

/-- The pattern in force of a lamp. -/
def Lamp.inForce (l : Lamp) (dim : Nat) : LampPattern :=
  match l.assign with
  | .cue => l.pattern
  | .seat _ => l.row.pattern dim

/-- The on time of a blink in ms (R167). -/
def LampPattern.onTime (p : LampPattern) : Nat :=
  p.periodMs * p.duty / 100

/-- The level of a pattern in the lamp period that is the `count`-th from its phase start (R167). -/
def LampPattern.levelAt (p : LampPattern) (count : Nat) : Nat :=
  match p.kind with
  | .off => 0
  | .steady => p.level
  | .blink => if count % p.periodMs < p.onTime then p.level else 0

/-- A LAMP action is handed to the Lamp Driver: a CUE lamp takes the pattern, a SEAT lamp sets it aside (R103, R170). -/
def State.lampAction (s : State) (o : LampOrder) : State :=
  { s with
    lamps := update s.lamps o.lamp fun l =>
      match l.assign with
      | .seat _ => l
      | .cue =>
        { l with
          pattern := { kind := o.pattern, level := o.level, periodMs := o.period * 10, duty := o.duty }
          durationEnd := if o.duration = 0 then none else some (afterMs s.now (o.duration * 100))
          phaseStart := s.lampPhase } }

/-- Every CUE lamp becomes OFF with no duration end (R173). -/
def State.darkenCueLamps (s : State) : State :=
  { s with
    lamps := mapEach s.lamps fun _ l =>
      match l.assign with
      | .seat _ => l
      | .cue => { l with pattern := LampPattern.dark, durationEnd := none, phaseStart := s.lampPhase } }

end Sys2Proof.Machine
end

