-- ==== Sys2Proof/Machine/Flags.lean ====
section
/-!
DEFINITION. The line state and the Line Port's permissions (R22, R25), and the error counters TEC and REC (R21, R23,
R24).
-/

namespace Sys2Proof.Machine

/-- The line state that the two counts give while joined and not OFF (R22). -/
def lineStateOf (warning tec recCount : Nat) : LineState :=
  if 128 ≤ tec ∨ 128 ≤ recCount then .passive
  else if warning ≤ tec ∨ warning ≤ recCount then .warning
  else .active

/-- The line state is worked out again after a count has changed (R22). -/
def LinePort.refresh (l : LinePort) : LinePort :=
  if l.joined ∧ l.lineState ≠ .off then { l with lineState := lineStateOf l.warningLevel l.tec l.recCount } else l

/-- A receive error: REC + 1, at most 255, except while OFF (R21, R24). -/
def LinePort.receiveError (l : LinePort) : LinePort :=
  if l.lineState = .off then l else LinePort.refresh { l with recCount := min 255 (l.recCount + 1) }

/-- A completed frame of another station: REC − 1, except while OFF (R13, R21). -/
def LinePort.receiveGood (l : LinePort) : LinePort :=
  if l.lineState = .off then l else LinePort.refresh { l with recCount := l.recCount - 1 }

/-- An own frame completed: TEC − 1 (R19, R21). -/
def LinePort.sendGood (l : LinePort) : LinePort :=
  LinePort.refresh { l with tec := l.tec - 1 }

/-- A transmit error would take TEC above 255, so the Line Port enters OFF (R21, R23). -/
def LinePort.goesOff (l : LinePort) : Bool :=
  decide (255 < l.tec + 4)

/-- A transmit error: TEC + 4, or entry to OFF with TEC 255 and REC 0 and every drive stopped (R21, R23). -/
def LinePort.sendError (l : LinePort) : LinePort :=
  if l.goesOff then { l with tec := 255, recCount := 0, lineState := .off, drive := .released }
  else LinePort.refresh { l with tec := l.tec + 4 }

/-- A quiet gap counted while OFF: REC + 1, and recovery when it reaches 96 (R24). -/
def LinePort.countGap (l : LinePort) : LinePort :=
  if l.lineState = .off then
    (if 96 ≤ l.recCount + 1 then { l with tec := 0, recCount := 0, lineState := .active }
     else { l with recCount := l.recCount + 1 })
  else l

/-- The station may drive the line at all: joined, ONLINE, not a shadow, not OFF (R25). -/
def State.mayDrive (s : State) : Bool :=
  s.line.joined && decide (s.loader.mode = .online) && !s.station.shadow && decide (s.line.lineState ≠ .off)

/-- The station may send (R25). -/
def State.maySend (s : State) : Bool :=
  s.mayDrive

/-- The station may ack (R25). -/
def State.mayAck (s : State) : Bool :=
  s.mayDrive

/-- The station may spoil (R25). -/
def State.maySpoil (s : State) : Bool :=
  s.mayDrive && decide (s.line.lineState ≠ .passive)

/-- Completed frames are handed to the Dispatcher (R13, R25). -/
def State.handsOn (s : State) : Bool :=
  s.line.joined && decide (s.loader.mode ≠ .service)

/-- The required run of R14. -/
def LinePort.requiredRun (l : LinePort) : Nat :=
  13 + (if l.holdoffOwed then l.holdoff else 0) + (if l.lineState = .passive then 8 else 0)

end Sys2Proof.Machine
end

