-- ==== Sys2Proof/Machine/Queue.lean ====
section
/-!
DEFINITION. The Send Queue: requests, ordering, merging, eviction, offers, and what becomes of an entry when its
attempt ends (R36 to R48, R51, R52).
-/

namespace Sys2Proof.Machine

/-- A request for a frame (R37). -/
structure FrameRequest where
  cls : BitVec 4
  subject : Byte
  content : Content
  /-- Whether the entry is to carry the late limit. -/
  late : Bool
  singleTry : Bool
  deriving DecidableEq, Repr

/-- The entry's age has reached its late limit (R46). -/
def Entry.stale (e : Entry) (now : StationTime) : Bool :=
  match e.lateLimit with
  | none => false
  | some ms => ageReached now e.enqueued ms

/-- The queue holds an entry with this key. -/
def holdsKey (q : List Entry) (k : Key) : Bool :=
  q.any fun e => decide (e.key = k)

/-- A new entry takes the place of its key in the ascending order (R38). -/
def insertEntry (e : Entry) : List Entry → List Entry
  | [] => [e]
  | x :: xs => if e.key < x.key then e :: x :: xs else x :: insertEntry e xs

/-- A request merges into the entry that holds its key: the payload or argument alone is replaced (R39). -/
def mergeEntry (k : Key) (c : Content) (q : List Entry) : List Entry :=
  q.map fun e => if e.key = k then { e with content := c } else e

/-- The WAITING entry with the highest key, given ascending order (R40). -/
def lastWaiting (q : List Entry) : Option Entry :=
  (q.filter fun e => decide (e.state = .waiting)).getLast?

/-- The WAITING entry with the lowest key, given ascending order (R41). -/
def firstWaiting (q : List Entry) : Option Entry :=
  q.find? fun e => decide (e.state = .waiting)

/-- The entry IN FLIGHT (R36). -/
def flying (q : List Entry) : Option Entry :=
  q.find? fun e => decide (e.state = .inFlight)

/-- The queue without the entry of a key. -/
def dropKey (k : Key) (q : List Entry) : List Entry :=
  q.filter fun e => decide (e.key ≠ k)

/-- A new entry joins the queue: merged, inserted, or weighed against the highest WAITING key when 8 are held (R38 to
R40). The second part says whether this is a send overflow. -/
def enqueue (q : List Entry) (e : Entry) : List Entry × Bool :=
  if holdsKey q e.key then (mergeEntry e.key e.content q, false)
  else if q.length < 8 then (insertEntry e q, false)
  else
    match lastWaiting q with
    | some high => if e.key < high.key then (insertEntry e (dropKey high.key q), true) else (q, true)
    | none => (q, true)

/-- The entry a request makes at this station now (R36 to R38). -/
def State.newEntry (s : State) (r : FrameRequest) : Entry :=
  { key := makeKey r.cls r.subject s.station.number
    content := r.content
    enqueued := s.now
    lateLimit := if r.late ∧ s.station.lateLimit ≠ 0 then some s.station.lateLimit else none
    singleTry := r.singleTry
    state := .waiting
    reported := none
    portCleared := false }

/-- The Send Queue takes a request when ONLINE and not a shadow, and drops it otherwise (R37). -/
def State.requestFrame (s : State) (r : FrameRequest) : State :=
  if s.loader.mode = .online ∧ s.station.shadow = false then
    { s with
      queue := (enqueue s.queue (s.newEntry r)).1
      errors := s.errors.bumpIf (enqueue s.queue (s.newEntry r)).2 .sendOverflows }
  else s

/-- The entry offered to the Line Port (R41). -/
def State.offered (s : State) : Option Entry :=
  if s.maySend ∧ (flying s.queue).isNone then firstWaiting s.queue else none

/-- The entry of this key becomes IN FLIGHT and its single-try flag moves to the attempt (R42). -/
def markInFlight (k : Key) (q : List Entry) : List Entry :=
  q.map fun e => if e.key = k then { e with state := .inFlight, singleTry := false } else e

/-- The entry IN FLIGHT leaves the queue. -/
def dropFlying (q : List Entry) : List Entry :=
  q.filter fun e => decide (e.state ≠ .inFlight)

/-- The group of error counts that a TELL with this key and argument reports; none for any other entry (R48, R49). -/
def errorsGroup (k : Key) (arg : Option Byte) : Option Nat :=
  if keyClass k = 7 ∧ keySubject k = 4 then arg.map fun x => (x &&& 0x7F).toNat else none

/-- The entry IN FLIGHT returns to WAITING after the attempt `a`, with what a TELL ERRORS remembers of it (R193); a
single-try flag taken by the attempt is set again when `restore` holds (R44, R45). -/
def landFlying (a : Attempt) (restore : Bool) (q : List Entry) : List Entry :=
  q.map fun e =>
    if e.state = .inFlight then
      { e with
        state := .waiting, singleTry := e.singleTry || restore, reported := errorsGroup a.key a.tellArg
        portCleared := a.portCleared }
    else e

/-- The entry IN FLIGHT, if it has gone stale by now. -/
def flyingStale (q : List Entry) (now : StationTime) : Bool :=
  match flying q with
  | some e => e.stale now
  | none => false

/-- The attempt ended lost or abandoned: the entry returns to WAITING, or is dropped if stale (R44). -/
def State.attemptReturned (s : State) (a : Attempt) : State :=
  if flyingStale s.queue s.now then
    State.count { s with queue := dropFlying s.queue } .staleDrops
  else { s with queue := landFlying a a.singleTry s.queue }

/-- The attempt failed: the entry is dropped as stale or as single-try, or returns to WAITING (R45). -/
def State.attemptFailed (s : State) (a : Attempt) : State :=
  if flyingStale s.queue s.now then
    State.count { s with queue := dropFlying s.queue } .staleDrops
  else if a.singleTry ∧ (flying s.queue).isSome then
    State.count { s with queue := dropFlying s.queue } .singleTryDrops
  else { s with queue := landFlying a false s.queue }

/-- The value a TELL ERRORS payload reported for the `i`-th count of its group (11.1). -/
def reportedCount (payload : List Byte) (i : Nat) : Nat :=
  (word16 (payload[1 + 2 * i]?.getD 0) (payload[2 + 2 * i]?.getD 0)).toNat

/-- The clear a completed TELL ERRORS carries: each count of its group falls by the value reported, or is 0 if the
service port has cleared the group since this or an earlier attempt of the entry reported it (R50, R193). -/
def ErrorRecord.afterTell (e : ErrorRecord) (a : Attempt) : ErrorRecord :=
  match a.tellArg with
  | none => e
  | some arg =>
    if keyClass a.key = 7 ∧ keySubject a.key = 4 ∧ arg.msb then
      e.mapGroup (arg &&& 0x7F).toNat fun i n =>
        if a.portCleared then 0 else n - reportedCount a.payload i
    else e

/-- The attempt completed: the entry is removed and the clear of a TELL ERRORS is made (R43). -/
def State.attemptCompleted (s : State) (a : Attempt) : State :=
  { s with queue := dropFlying s.queue, errors := s.errors.afterTell a }

/-- BUZZ withdrawal: every WAITING entry of class BUZZ is removed (R47). -/
def withdrawBuzzes (q : List Entry) : List Entry :=
  q.filter fun e => !(decide (e.state = .waiting) && decide (keyClass e.key = 1))

end Sys2Proof.Machine
end

