-- ==== Sys2Proof/Machine/Gain.lean ====
section
/-!
DEFINITION. The gain arithmetic: rates from fade times (R143), attenuation (R153), gain factors (R154), contributions
(R155) and the clamp (R156).
-/

namespace Sys2Proof.Machine

/-- Silence, and the whole range of an envelope, in fine steps (R142). -/
def fullRange : Nat := 30720

/-- The rate of the 5 ms steal and RESTART fade (R112, R143). -/
def stealRate : Nat := 6144

/-- The rate of a fade or duck time in milliseconds: 30720 / F to the nearest, a half up, never below 1 (R143). -/
def rateOf (ms : Nat) : Nat :=
  if ms = 0 then fullRange else max 1 ((2 * fullRange + ms) / (2 * ms))

/-- A value steps up by `rate` toward `top`, or down by `rate` toward `bottom`. -/
def stepUp (x rate top : Nat) : Nat :=
  min top (x + rate)

/-- A value steps down by `rate`, but not below `bottom`. -/
def stepDown (x rate bottom : Nat) : Nat :=
  max bottom (x - rate)

/-- A fine-step value in gain steps, the remainder dropped (R142). -/
def gainSteps (fine : Nat) : Nat :=
  fine / 256

/-- The attenuation of a voice on a bus (R153). -/
def attenuation (send envelope duck master : Nat) : Nat :=
  send + gainSteps envelope + gainSteps duck + master

/-- The gain table of R154, by position. -/
def gainTable : Nat → Nat
  | 0 => 32768
  | 1 => 30929
  | 2 => 29193
  | 3 => 27554
  | 4 => 26008
  | 5 => 24548
  | 6 => 23170
  | 7 => 21870
  | 8 => 20643
  | 9 => 19484
  | 10 => 18390
  | _ => 17358

/-- The gain factor of an attenuation of 0..119 (R154). -/
def gainFactor (a : Nat) : Nat :=
  gainTable (a % 12) / 2 ^ (a / 12)

/-- The contribution of a sample at a gain factor, rounded toward minus infinity (R155). -/
def contribution (s : Sample) (factor : Nat) : Int :=
  Int.fdiv (s.toInt * factor) 32768

/-- What a sample gives to a bus at an attenuation: nothing at 120 or more (R153, R155). -/
def contributionAt (s : Sample) (a : Nat) : Int :=
  if a < 120 then contribution s (gainFactor a) else 0

/-- The clamped value of a bus sum (R156). -/
def clamp (x : Int) : Int :=
  max (-32768) (min 32767 x)

/-- The clamped sum as a 16-bit sample. -/
def clampSample (x : Int) : Sample :=
  BitVec.ofInt 16 (clamp x)

/-- Whether a sum is clamped (R156). -/
def clamps (x : Int) : Bool :=
  decide (x < -32768) || decide (32767 < x)

/-- The left sample of a frame, or its only one (R127). -/
def Frame.left : Frame → Sample
  | .mono s => s
  | .stereo l _ => l

/-- The right sample of a frame, or its only one: a mono sample feeds both channels (R155). -/
def Frame.right : Frame → Sample
  | .mono s => s
  | .stereo _ r => r

/-- The 24-bit slot of a clamped sum: the sum in the top 16 bits, the low 8 bits 0 (R157). -/
def outputSlot (s : Sample) : BitVec 24 :=
  s ++ (0 : BitVec 8)

end Sys2Proof.Machine
end

