-- ==== Sys2Proof/Machine/Voices.lean ====
section
/-!
DEFINITION. The Voice Pool: allocation, successors, victims, choke, the fades and the ends of voices, and the slot voice
sets it reports to the Cue Table (R84, R106 to R113, R118 to R125). Every operation works on a `Pool` and so leaves the
rest of the station alone.
-/

namespace Sys2Proof.Machine

/-- One voice record changes. -/
def Pool.setVoice (p : Pool) (v : VoiceNo) (f : Voice → Voice) : Pool :=
  { p with voices := update p.voices v f }

/-- One slot changes. -/
def Pool.setSlot (p : Pool) (n : SlotNo) (f : Slot → Slot) : Pool :=
  { p with slots := update p.slots n f }

/-- The operation `f` for every voice in number order. -/
def Pool.eachVoice (p : Pool) (f : Pool → VoiceNo → Pool) : Pool :=
  (List.finRange 12).foldl f p

/-- The voices that satisfy `f`. -/
def Pool.voicesWhere (p : Pool) (f : Voice → Bool) : VoiceSet :=
  (List.finRange 12).foldl (fun set v => if f p.voices[v] then set ||| single 12 v else set) 0

/-- Voice `v` leaves the voice set of a slot (R84). -/
def Slot.lose (v : VoiceNo) (x : Slot) : Slot :=
  { x with voices := x.voices &&& ~~~single 12 v }

/-- Voice `v` joins the voice set of a slot (R84). -/
def Slot.gain (v : VoiceNo) (x : Slot) : Slot :=
  { x with voices := x.voices ||| single 12 v }

/-- The report that voice `v` leaves the set of its owner slot (R84). -/
def Pool.leaveSet (p : Pool) (v : VoiceNo) : Pool :=
  match p.voices[v].owner with
  | none => p
  | some n => p.setSlot n (Slot.lose v)

/-- The report that voice `v` joins the set of slot `n` (R84). -/
def Pool.joinSet (p : Pool) (v : VoiceNo) (n : SlotNo) : Pool :=
  p.setSlot n (Slot.gain v)

/-- The record of a voice that becomes FREE: the generation is kept (R108). -/
def Voice.freed (x : Voice) : Voice :=
  { x with
    state := .free, owner := none, fifo := [], exhausted := false, underrun := false, envelope := fullRange
    target := fullRange, silent := false }

/-- A voice becomes FREE (R108). -/
def Pool.free (p : Pool) (v : VoiceNo) : Pool :=
  (p.leaveSet v).setVoice v Voice.freed

/-- A voice moves to the end of the allocation order (R107). -/
def Pool.toEnd (p : Pool) (v : VoiceNo) : Pool :=
  { p with order := p.order.filter (fun u => decide (u ≠ v)) ++ [v] }

/-- A voice record set up for a request as SCHEDULED (R110), its generation raised by 1 (R107). `clip` is the entry of
the request's clip in the Clip Table. -/
def Voice.setUp (x : Voice) (clip : Option Clip) (r : VoiceRequest) : Voice :=
  { state := .scheduled
    owner := some r.slot
    generation := x.generation + 1
    clip := r.clip
    channels := (clip.map Clip.channels).getD .mono
    cursor := 0
    loop := r.loopFlag && (clip.bind Clip.loop).isSome
    priority := r.priority
    choke := r.choke
    airSend := r.airSend
    houseSend := r.houseSend
    duckDepth := r.duckDepth
    fadeInRate := rateOf (r.fadeIn * 10)
    fadeOutRate := rateOf (r.fadeOut * 10)
    rate := x.rate
    envelope := fullRange
    target := fullRange
    duck := 0
    duckTarget := x.duckTarget
    startTime := r.startTime
    endCode := r.endCode
    endRoute := r.endRoute
    fifo := []
    exhausted := false
    underrun := false
    successor := none
    silent := false }

/-- The entry of a clip in the Clip Table. -/
def ClipTable.clip (c : ClipTable) (n : Byte) : Option Clip :=
  c.entries[n.toNat]

/-- The voice requests a refill while no read is in flight (R132). -/
def Voice.requests (x : Voice) : Bool :=
  (decide (x.state = .scheduled) || decide (x.state = .running) || decide (x.state = .fading)) && !x.exhausted &&
    decide (x.fifo.length ≤ 32)

/-- Voice `v` begins to request. Where no other voice requests and none has been granted, it is the first and is granted
at once (R133): the read it gets stays its own until FETCH_READ_ISSUE, whatever follows in the same instant. A read in
flight voids the grant when it completes. -/
def Pool.grantFirst (p : Pool) (v : VoiceNo) : Pool :=
  if p.grant.isNone && (List.finRange 12).all (fun u => decide (u = v) || !p.voices[u].requests) then
    { p with
      grant :=
        some
          { voice := v, generation := p.voices[v].generation, clip := p.voices[v].clip, loop := p.voices[v].loop } }
  else p

/-- Voice `v` is given to a request: from FREE (R110), as a SCHEDULED victim (R112), or handed to its successor
(R122). It leaves the set it was in, joins the set of the request's slot (R84), and begins to request frames (R132). -/
def Pool.allocate (p : Pool) (clips : ClipTable) (v : VoiceNo) (r : VoiceRequest) : Pool :=
  ((((p.leaveSet v).joinSet v r.slot).toEnd v).setVoice v fun x => x.setUp (clips.clip r.clip) r).grantFirst v

/-- The faster rate moves the envelope; the voice is FADING toward silence (R112, R113, R118, R120, R124). -/
def Voice.startFade (x : Voice) (rate : Nat) : Voice :=
  { x with state := .fading, rate := rate, target := fullRange }

/-- The rate a fade gives: exactly this rate, the voice's own fade-out rate, or the faster of the two. -/
inductive FadeRate where
  | exactly (rate : Nat)
  | own
  | faster (rate : Nat)
  deriving DecidableEq, Repr

/-- The rate of a fade for a voice that is not yet FADING (R118, the table of rates). -/
def FadeRate.forVoice (x : Voice) : FadeRate → Nat
  | .exactly rate => rate
  | .own => x.fadeOutRate
  | .faster rate => max x.fadeOutRate rate

/-- The rate a voice already FADING compares with its rate in force (R118, the table of rates). -/
def FadeRate.forFading (x : Voice) : FadeRate → Nat
  | .exactly rate => rate
  | .own => x.fadeOutRate
  | .faster rate => rate

/-- A fade reaches a voice: a SCHEDULED voice becomes FREE (R119), a RUNNING or DRAINING voice enters FADING, a FADING
voice takes the faster rate (R118, R120, R124). -/
def Pool.fade (p : Pool) (rate : FadeRate) (v : VoiceNo) : Pool :=
  match p.voices[v].state with
  | .free => p
  | .scheduled => p.free v
  | .running | .draining => p.setVoice v fun x => x.startFade (rate.forVoice x)
  | .fading => p.setVoice v fun x => { x with rate := max x.rate (rate.forFading x) }

/-- Successors that satisfy `f` are discarded (R113, R120, R121, R124). -/
def Pool.discard (p : Pool) (f : VoiceRequest → Bool) : Pool :=
  { p with voices := mapEach p.voices fun _ x => if x.successor.any f then { x with successor := none } else x }

/-- A successor names the slot (R100, R121). -/
def Pool.successorNames (p : Pool) (n : SlotNo) : Bool :=
  p.voices.toList.any fun x => x.successor.any fun r => decide (r.slot = n)

/-! ## Settling a request (R109) -/

/-- Choice 1: the lowest-numbered FREE voice. -/
def Pool.freeVoice (p : Pool) : Option VoiceNo :=
  (List.finRange 12).find? fun v => decide (p.voices[v].state = .free)

/-- A FADING voice without a successor. -/
def Voice.canWait (x : Voice) : Bool :=
  decide (x.state = .fading) && x.successor.isNone

/-- Choice 2: the FADING voice without a successor with the highest E, the lowest-numbered among equals. -/
def Pool.nearestSilence (p : Pool) : Option VoiceNo :=
  (List.finRange 12).foldl
    (fun best v =>
      if p.voices[v].canWait then
        match best with
        | none => some v
        | some b => if p.voices[b].envelope < p.voices[v].envelope then some v else best
      else best)
    none

/-- A voice a request of this priority may steal. -/
def Voice.canSteal (x : Voice) (priority : Nat) : Bool :=
  (decide (x.state = .scheduled) || decide (x.state = .running) || decide (x.state = .draining)) &&
    decide (x.priority ≤ priority)

/-- Choice 3: the lowest priority, and among equals the nearest the front of the allocation order. -/
def Pool.victim (p : Pool) (priority : Nat) : Option VoiceNo :=
  p.order.foldl
    (fun best v =>
      if p.voices[v].canSteal priority then
        match best with
        | none => some v
        | some b => if p.voices[v].priority < p.voices[b].priority then some v else best
      else best)
    none

/-- A request becomes the successor of voice `v` (R111). -/
def Pool.attach (p : Pool) (v : VoiceNo) (r : VoiceRequest) : Pool :=
  p.setVoice v fun x => { x with successor := some r }

/-- Voice `v` is taken as a victim: a SCHEDULED voice is given to the request, a sounding one fades with the request
as its successor (R112). The sounding one keeps its generation and its place in the allocation order until it is handed
over (R107, R122; DEDUCED, unsafe, log entry 29). -/
def Pool.steal (p : Pool) (clips : ClipTable) (v : VoiceNo) (r : VoiceRequest) : Pool :=
  if p.voices[v].state = .scheduled then p.allocate clips v r
  else (p.setVoice v fun x => x.startFade (max x.fadeOutRate stealRate)).attach v r

/-- The choke of one voice other than the chosen one (R113). -/
def Pool.chokeVoice (chosen : VoiceNo) (group : Nat) (p : Pool) (v : VoiceNo) : Pool :=
  if v ≠ chosen ∧ p.voices[v].choke = group then
    match p.voices[v].state with
    | .scheduled => p.free v
    | .running | .draining => p.setVoice v fun x => x.startFade x.fadeOutRate
    | .free | .fading => p
  else p

/-- The choke a settled request makes: the group's other voices, and every successor of the group but the request
itself, which waits on the chosen voice (R113). -/
def Pool.choke (p : Pool) (chosen : VoiceNo) (r : VoiceRequest) : Pool :=
  if r.choke = 0 then p
  else
    let p := p.eachVoice (Pool.chokeVoice chosen r.choke)
    { p with
      voices := mapEach p.voices fun v x =>
        if v ≠ chosen ∧ x.successor.any (fun q => decide (q.choke = r.choke)) then { x with successor := none } else x }

/-- A request is settled by the first choice that applies, with its choke; none is the refusal (R109). -/
def Pool.settle (p : Pool) (clips : ClipTable) (r : VoiceRequest) : Option Pool :=
  match p.freeVoice with
  | some v => some ((p.allocate clips v r).choke v r)
  | none =>
    match p.nearestSilence with
    | some v => some ((p.attach v r).choke v r)
    | none =>
      match p.victim r.priority with
      | some v => some ((p.steal clips v r).choke v r)
      | none => none

/-! ## Stops and ends -/

/-- A group stop order (R120). -/
def Pool.groupStop (p : Pool) (group : Nat) (rate : FadeRate) : Pool :=
  (p.eachVoice fun p v => if p.voices[v].choke = group then p.fade rate v else p).discard
    fun r => decide (r.choke = group)

/-- A STOP with its fade time in ms (R124). -/
def Pool.stop (p : Pool) (ms : Nat) : Pool :=
  (p.discard fun _ => true).eachVoice fun p v => p.fade (.faster (rateOf ms)) v

/-- Entry to SERVICE: every successor is discarded, every voice that is not FREE becomes FREE (R125). -/
def Pool.freeAll (p : Pool) : Pool :=
  (p.discard fun _ => true).eachVoice fun p v => if p.voices[v].state = .free then p else p.free v

/-- A FADING voice has reached silence: FREE, or handed to its successor (R122). -/
def Pool.silence (p : Pool) (clips : ClipTable) (v : VoiceNo) : Pool :=
  match p.voices[v].successor with
  | none => p.free v
  | some r => p.allocate clips v r

end Sys2Proof.Machine
end

