-- ==== Sys2Proof/Machine/Cue.lean ====
section
/-!
DEFINITION. The Cue Matcher and Cue Table: matching, the hold stage, the four actions, and what ADJUST, CUT, STOP and
entry to SERVICE do to slots (R85 to R105).
-/

namespace Sys2Proof.Machine

/-! ## Matching (R87) -/

/-- Every bit set in the mask has the same value in the code as in the match code (R87, R95). -/
def SlotConfig.codeAgrees (c : SlotConfig) (code : Byte) : Bool :=
  decide (code &&& c.mask = c.code &&& c.mask)

/-- The source filter lets a source through (R87). -/
def SourceFilter.admits : SourceFilter → Source → Bool
  | .any, _ => true
  | .line, .line _ => true
  | .line, .local => false
  | .local, .local => true
  | .local, .line _ => false

/-- An EMIT slot passes by what its own station sent (R87). -/
def SlotAction.passesOwn (a : SlotAction) (src : Source) (own : BitVec 4) : Bool :=
  match a with
  | .emit .. => decide (src = .line own)
  | .play _ | .stopGroup .. | .lamp _ => false

/-- The slot matches the trigger at a station of this number (R87). -/
def Slot.matchesTrigger (x : Slot) (t : Trigger) (own : BitVec 4) : Bool :=
  match x.config with
  | none => false
  | some c => x.enabled && c.codeAgrees t.code && c.filter.admits t.source && !c.action.passesOwn t.source own

/-! ## PLAY (R98 to R101) -/

/-- The entry of the clip list that a fire chooses (R98). -/
def PlayConfig.choose (c : PlayConfig) (cycle : Nat) (seat : Option Seat) : Nat :=
  match c.selection with
  | .fixed => 0
  | .cycle => cycle
  | .seat =>
    match seat with
    | none => 0
    | some k => k.val % c.clipList.length

/-- The clip of an entry of the clip list. -/
def PlayConfig.entryClip (c : PlayConfig) (k : Nat) : Byte :=
  c.clipList[k]?.getD 0

/-- The cycle index after a fire (R98). -/
def PlayConfig.nextCycle (c : PlayConfig) (cycle : Nat) : Nat :=
  match c.selection with
  | .cycle => if cycle + 1 = c.clipList.length then 0 else cycle + 1
  | .fixed | .seat => cycle

/-- A voice that counts as sounding for the retrigger policy (R100). -/
def Voice.sounding (x : Voice) : Bool :=
  decide (x.state = .scheduled) || decide (x.state = .running) || decide (x.state = .draining)

/-- The slot has at least one sounding voice (R100). -/
def Pool.slotSounds (p : Pool) (n : SlotNo) : Bool :=
  (List.finRange 12).any fun v => inSet p.slots[n].voices v && p.voices[v].sounding

/-- RESTART: every sounding voice of the slot takes the steal fade and every successor that names it is discarded
(R100). -/
def Pool.restartSlot (p : Pool) (n : SlotNo) : Pool :=
  (p.eachVoice fun q v =>
    if inSet p.slots[n].voices v && p.voices[v].sounding then q.fade (.faster stealRate) v else q).discard
      fun r => decide (r.slot = n)

/-- The voice request a PLAY hands over (R101). -/
def PlayConfig.request (c : PlayConfig) (n : SlotNo) (clip : Byte) (fire : StationTime) (seat : Option Seat) :
    VoiceRequest :=
  { slot := n, clip := clip, startTime := afterMs fire (c.preDelay * 10), seat := seat, priority := c.priority
    choke := c.choke, airSend := c.airSend, houseSend := c.houseSend, duckDepth := c.duckDepth, fadeIn := c.fadeIn
    fadeOut := c.fadeOut, loopFlag := c.loopFlag, endCode := c.endCode, endRoute := c.endRoute }

/-- How a PLAY ended. -/
inductive PlayResult where
  | settled
  | ignored
  | badClip
  | noVoice
  deriving DecidableEq, Repr

/-- The last step of PLAY, once the retrigger policy is applied (R101, R109). -/
def Pool.request (p : Pool) (clips : ClipTable) (r : VoiceRequest) : Pool × PlayResult :=
  match p.settle clips r with
  | some q => (q, .settled)
  | none => (p, .noVoice)

/-- The retrigger policy and the request of a PLAY whose clip is present (R100, R101). -/
def Pool.retrigger (p : Pool) (clips : ClipTable) (n : SlotNo) (policy : Retrigger) (r : VoiceRequest) :
    Pool × PlayResult :=
  match policy with
  | .ignore => if p.slotSounds n || p.successorNames n then (p, .ignored) else p.request clips r
  | .restart => (p.restartSlot n).request clips r
  | .layer => p.request clips r

/-- A PLAY action (R98 to R101). -/
def Pool.play (p : Pool) (clips : ClipTable) (n : SlotNo) (c : PlayConfig) (fire : StationTime) (seat : Option Seat) :
    Pool × PlayResult :=
  let clip := c.entryClip (c.choose p.slots[n].cycle seat)
  let moved := p.setSlot n fun x => { x with cycle := c.nextCycle x.cycle }
  if (clips.clip clip).isNone then (moved, .badClip)
  else moved.retrigger clips n c.retrigger (c.request n clip fire seat)

/-- The count a PLAY raises, if any (R99, R109). -/
def PlayResult.counted (r : PlayResult) (e : ErrorRecord) : ErrorRecord :=
  match r with
  | .settled | .ignored => e
  | .badClip => e.bump .badClipRefusals
  | .noVoice => e.bump .noVoiceRefusals

/-! ## Acting (R88, R98 to R104) -/

/-- The slot's action (R88): what PLAY, STOPGROUP, LAMP and EMIT hand to the other blocks. -/
def State.runAction (s : State) (n : SlotNo) (a : SlotAction) (fire : StationTime) (seat : Option Seat) : State :=
  match a with
  | .play c =>
    { s with
      pool := (s.pool.play s.clips n c fire seat).1
      errors := (s.pool.play s.clips n c fire seat).2.counted s.errors }
  | .stopGroup group override =>
    { s with
      pool := s.pool.groupStop group
        (match override with
        | some x => .exactly (rateOf (x * 10))
        | none => .own) }
  | .lamp o => s.lampAction o
  | .emit code singleTry seatThrough =>
    s.requestFrame
      { cls := 4, subject := code
        content := .fixed (if seatThrough then (seat.map seatByte).toList else [])
        late := true, singleTry := singleTry }

/-- A slot acts: its fire count rises and it goes through its action (R88). -/
def State.act (s : State) (n : SlotNo) (fire : StationTime) (seat : Option Seat) : State :=
  match s.pool.slots[n].config with
  | none => s
  | some c =>
    State.runAction { s with pool := s.pool.setSlot n fun x => { x with fires := min 65535 (x.fires + 1) } }
      n c.action fire seat

/-- A matching slot goes through the hold stage and acts if it is not held (R88, R89). -/
def State.slotTake (s : State) (t : Trigger) (n : SlotNo) : State :=
  if s.pool.slots[n].held then
    { s with
      pool := s.pool.setSlot n fun x =>
        { x with
          pending := some { fireTime := t.fireTime, seat := t.seat }
          lost := if x.pending.isSome then min 255 (x.lost + 1) else x.lost }
      errors := s.errors.bumpIf s.pool.slots[n].pending.isSome .lostTriggers }
  else s.act n t.fireTime t.seat

/-- The slots a trigger matches, settled at the instant it is taken, in ascending order (R87, R88). -/
def State.matching (s : State) (t : Trigger) : List SlotNo :=
  (List.finRange 48).filter fun n => s.pool.slots[n].matchesTrigger t s.station.number

/-- The Cue Matcher takes a trigger whole, and discards it when the station is not ONLINE (R86, R88). -/
def State.takeTrigger (s : State) (t : Trigger) : State :=
  if s.loader.mode = .online then (s.matching t).foldl (fun s n => s.slotTake t n) s else s

/-- Triggers handed one after another (R59, R86). -/
def State.takeTriggers (s : State) (ts : List Trigger) : State :=
  ts.foldl State.takeTrigger s

/-! ## ADJUST on slots (R90 to R93) -/

/-- HOLD (R90). -/
def State.holdSlot (s : State) (n : SlotNo) : State :=
  { s with pool := s.pool.setSlot n fun x => { x with held := true } }

/-- RELEASE with the fire time it gives a pending trigger (R91). -/
def State.releaseSlot (s : State) (n : SlotNo) (fire : StationTime) : State :=
  let released := { s with pool := s.pool.setSlot n fun x => { x with held := false, pending := none } }
  if s.pool.slots[n].held then
    match s.pool.slots[n].pending with
    | none => released
    | some w => released.act n fire w.seat
  else s

/-- ENABLE (R92). -/
def State.enableSlot (s : State) (n : SlotNo) : State :=
  { s with pool := s.pool.setSlot n fun x => { x with enabled := true } }

/-- DISABLE (R92). -/
def State.disableSlot (s : State) (n : SlotNo) : State :=
  { s with pool := s.pool.setSlot n fun x => { x with enabled := false, pending := none } }

/-- CLEARLOST (R93). -/
def State.clearLostSlot (s : State) (n : SlotNo) : State :=
  { s with pool := s.pool.setSlot n fun x => { x with lost := 0 } }

/-- One entry of a PLAY slot's clip list names another clip (R93). -/
def SlotConfig.swap (c : SlotConfig) (k : Nat) (clip : Byte) : SlotConfig :=
  match c.action with
  | .play p => { c with action := .play { p with clipList := p.clipList.set k clip } }
  | .stopGroup .. | .lamp _ | .emit .. => c

/-- SWAP (R93). -/
def State.swapSlot (s : State) (n : SlotNo) (k : Nat) (clip : Byte) : State :=
  { s with pool := s.pool.setSlot n fun x => { x with config := x.config.map fun c => c.swap k clip } }

/-! ## CUT, STOP and entry to SERVICE (R95 to R97, R105) -/

/-- The fade time of a CUT at a slot, in ms: the override, or the slot's own fade-out (R96). -/
def SlotConfig.cutMs (c : SlotConfig) (override : Option Nat) : Nat :=
  match override with
  | some ms => ms
  | none =>
    match c.action with
    | .play p => p.fadeOut * 10
    | .stopGroup .. | .lamp _ | .emit .. => 0

/-- What a CUT does to a slot it has found (R96). -/
def Pool.cutSlot (p : Pool) (n : SlotNo) (ms : Nat) : Pool :=
  let q := p.setSlot n fun x => { x with pending := none }
  (q.eachVoice fun r v => if inSet p.slots[n].voices v then r.fade (.exactly (rateOf ms)) v else r).discard
    fun r => decide (r.slot = n)

/-- A CUT at one slot: found when its code agrees, and then treated under R96 (R95). -/
def Pool.cutIfFound (code : Byte) (override : Option Nat) (p : Pool) (n : SlotNo) : Pool :=
  match p.slots[n].config with
  | none => p
  | some c => if c.codeAgrees code then p.cutSlot n (c.cutMs override) else p

/-- A CUT with its fade override in ms (R95, R96). -/
def Pool.cut (p : Pool) (code : Byte) (override : Option Nat) : Pool :=
  (List.finRange 48).foldl (Pool.cutIfFound code override) p

/-- Every pending trigger is removed, without a loss (R97, R105). -/
def Pool.dropPending (p : Pool) : Pool :=
  { p with slots := mapEach p.slots fun _ x => { x with pending := none } }

end Sys2Proof.Machine
end

