-- ==== Sys2Proof/Machine/VoiceEvents.lean ====
section
/-!
DEFINITION. The meanings of the commands of the Voice Pool: VOICE_START (R114), VOICE_NATURAL_END (R117),
FADING_RUN_DRY (R123), SILENCE_REACHED (R122).
-/

namespace Sys2Proof.Machine

/-- The start of a voice: its envelope, the underrun flag, and DRAINING at once when it is marked (R114, R116). R114 names
no rate in force for a fade-in of 0; the model puts the fade-in rate, 30720, in force there too (DESIGN CHOICE, unsafe, log
entry 31). -/
def Voice.start (x : Voice) : Voice :=
  { x with
    state := if x.exhausted then .draining else .running
    envelope := if x.fadeInRate < fullRange then fullRange else 0
    target := 0
    rate := x.fadeInRate
    underrun := false }

/-- The sample period before this one also began at or after the start time (R114). -/
def State.startsLate (s : State) (x : Voice) : Bool :=
  decide (sampleClocks ≤ s.clock) && reached (stationTimeAt (s.clock - sampleClocks)) x.startTime

/-- VOICE_START (R114). A voice allocated at the very beginning of a sample period may be started in that period or in
the next, as the commands are ordered (DESIGN CHOICE, safe, log entry 18). -/
def execVoiceStart (t : Nat) (v : VoiceNo) (s : State) : Host.Outcome State Fault Refusal :=
  .next (s.onEvent t fun s =>
    let x := s.pool.voices[v]
    if s.sampleBegins ∧ x.state = .scheduled ∧ reached s.now x.startTime then
      { s with pool := s.pool.setVoice v Voice.start, errors := s.errors.bumpIf (s.startsLate x) .lateStarts }
    else s)

/-- A read is in flight for this voice number (R131). -/
def State.readingFor (s : State) (v : VoiceNo) : Bool :=
  match s.fetch with
  | none => false
  | some r => decide (r.voice = v)

/-- The data of a voice is at its end: it carries the exhausted mark, its FIFO is empty and no read is in flight for it
(R117, R123). -/
def State.dataEnded (s : State) (v : VoiceNo) : Bool :=
  s.pool.voices[v].exhausted && s.pool.voices[v].fifo.isEmpty && !s.readingFor v

/-- The end code of a voice that has played its clip to the end (R117). -/
def State.raiseEndCode (s : State) (code : Option Byte) (route : EndRoute) : State :=
  match code, route with
  | none, _ => s
  | some c, .local => s.takeTrigger { code := c, source := .local, seat := none, fireTime := s.now }
  | some c, .line =>
    s.requestFrame { cls := 4, subject := c, content := .fixed [], late := false, singleTry := false }

/-- VOICE_NATURAL_END (R117). -/
def execVoiceNaturalEnd (t : Nat) (v : VoiceNo) (s : State) : Host.Outcome State Fault Refusal :=
  .next (s.onEvent t fun s =>
    let x := s.pool.voices[v]
    if s.sampleBegins ∧ x.state = .draining ∧ s.dataEnded v then
      State.raiseEndCode { s with pool := s.pool.free v } x.endCode x.endRoute
    else s)

/-- FADING_RUN_DRY (R123). -/
def execFadingRunDry (t : Nat) (v : VoiceNo) (s : State) : Host.Outcome State Fault Refusal :=
  .next (s.onEvent t fun s =>
    if s.sampleBegins ∧ s.pool.voices[v].state = .fading ∧ s.dataEnded v then
      { s with pool := s.pool.silence s.clips v }
    else s)

/-- SILENCE_REACHED (R122): the Mixer has reported the voice at a tick (log entry 17). A voice handed over here has its duck
current set to 0 after the duck step of that tick (R146 allows either order; DESIGN CHOICE, unsafe, log entry 40). -/
def execSilenceReached (t : Nat) (v : VoiceNo) (s : State) : Host.Outcome State Fault Refusal :=
  .next (s.onEvent t fun s =>
    if s.pool.voices[v].state = .fading ∧ s.pool.voices[v].silent then
      { s with pool := s.pool.silence s.clips v }
    else s)

end Sys2Proof.Machine
end

