-- ==== Sys2Proof/Machine/Fetch.lean ====
section
/-!
DEFINITION. The Fetch Engine: refill requests, the arbiter, reads and their completion (R116, R131 to R137).
-/

namespace Sys2Proof.Machine

/-- How many samples one frame of a clip has (R127). -/
def Channels.count : Channels → Nat
  | .mono => 1
  | .stereo => 2

/-- Frames in flight for a voice number, current or stale (R131). -/
def State.framesInFlight (s : State) (v : VoiceNo) : Nat :=
  match s.fetch with
  | none => 0
  | some r => if r.voice = v then r.size else 0

/-- The voice requests a refill (R132). -/
def State.requestsRefill (s : State) (v : VoiceNo) : Bool :=
  let x := s.pool.voices[v]
  (decide (x.state = .scheduled) || decide (x.state = .running) || decide (x.state = .fading)) && !x.exhausted &&
    decide (x.fifo.length + s.framesInFlight v ≤ 32)

/-- The arbiter's choice: of the requesting voices the one with the fewest frames held, the lowest-numbered among equals
(R133). Of voices that fall to 32 frames at one sample period R133 lets any be the first; the model takes the
lowest-numbered (DESIGN CHOICE, unsafe, log entry 30). -/
def State.refillChoice (s : State) : Option VoiceNo :=
  (List.finRange 12).foldl
    (fun best v =>
      if s.requestsRefill v then
        match best with
        | none => some v
        | some b => if s.pool.voices[v].fifo.length < s.pool.voices[b].fifo.length then some v else best
      else best)
    none

/-- The limit of a read: the loop end of a looping voice, the frame count otherwise (R134). -/
def readLimit (clip : Clip) (looping : Bool) : Nat :=
  match clip.loop, looping with
  | some l, true => l.last
  | _, _ => clip.frames

/-- The frame a looping voice goes back to (R134). -/
def loopStart (clip : Clip) : Nat :=
  match clip.loop with
  | some l => l.first
  | none => 0

/-- The size of the next read of a voice: 32 frames, or fewer up to the limit (R134). -/
def Voice.readSize (x : Voice) (clip : Clip) : Nat :=
  min 32 (readLimit clip x.loop - x.cursor)

/-- The cursor moves past a read of `size` frames; at the limit it goes back to the loop start, or the voice is marked
exhausted and a RUNNING voice enters DRAINING (R116, R134). -/
def Voice.advanceCursor (x : Voice) (clip : Clip) (size : Nat) : Voice :=
  if x.cursor + size = readLimit clip x.loop then
    (if x.loop then { x with cursor := loopStart clip }
     else
      { x with
        cursor := x.cursor + size, exhausted := true
        state := if x.state = .running then .draining else x.state })
  else { x with cursor := x.cursor + size }

/-- The flash address of frame `f` of a clip (R127). -/
def Clip.frameAddress (c : Clip) (f : Nat) : Nat :=
  c.address + 2 * c.channels.count * f

/-- The read a voice is given (R134, R137). -/
def State.readFor (s : State) (v : VoiceNo) (clip : Clip) : FetchRead :=
  let x := s.pool.voices[v]
  { voice := v
    generation := x.generation
    size := x.readSize clip
    address := clip.frameAddress x.cursor
    channels := clip.channels
    dueAt := s.clock + readClocks (x.readSize clip * 2 * clip.channels.count) }

/-- A read is issued for voice `v` (R134). -/
def State.issueRead (s : State) (v : VoiceNo) (clip : Clip) : State :=
  { s with
    fetch := some (s.readFor v clip)
    pool := s.pool.setVoice v fun x => x.advanceCursor clip (x.readSize clip) }

/-- Voice `v` gets the next read of its clip (R134). -/
def State.refill (s : State) (v : VoiceNo) : State :=
  match s.clips.clip s.pool.voices[v].clip with
  | none => s
  | some clip => s.issueRead v clip

/-- The grant still stands for its voice: the voice has its generation and requests (R132, R133). -/
def State.grantStands (s : State) (g : Grant) : Bool :=
  s.requestsRefill g.voice && decide (s.pool.voices[g.voice].generation = g.generation)

/-- The read of a grant whose voice has since become FREE or been given away: the first frames of the clip it had then,
stale from the start (R133 to R135). -/
def Grant.read (g : Grant) (clip : Clip) (clock : Nat) : FetchRead :=
  { voice := g.voice
    generation := g.generation
    size := min 32 (readLimit clip g.loop)
    address := clip.address
    channels := clip.channels
    dueAt := clock + readClocks (min 32 (readLimit clip g.loop) * 2 * clip.channels.count) }

/-- The voice granted at once gets its read (R133). -/
def State.issueGrant (s : State) (g : Grant) : State :=
  let s := { s with pool := { s.pool with grant := none } }
  if s.grantStands g then s.refill g.voice
  else
    match s.clips.clip g.clip with
    | none => s
    | some clip => { s with fetch := some (g.read clip s.clock) }

/-- The read that is due with none in flight: of the voice granted at once, or else of the arbiter's choice (R133). -/
def State.issueNext (s : State) : State :=
  match s.pool.grant with
  | some g => s.issueGrant g
  | none =>
    match s.refillChoice with
    | none => s
    | some v => s.refill v

/-- FETCH_READ_ISSUE (R133, R134). -/
def execFetchReadIssue (t : Nat) (s : State) : Host.Outcome State Fault Refusal :=
  .next (s.onEvent t fun s =>
    if s.loader.mode = .online ∧ s.fetch.isNone ∧ s.flash.busy = false then s.issueNext else s)

/-- A 16-bit sample from two bytes, low byte first (R127). -/
def sampleOf (lo hi : Byte) : Sample :=
  word16 hi lo

/-- The frames of a run of bytes (R127). -/
def framesOf : Channels → List Byte → List Frame
  | .mono, lo :: hi :: rest => .mono (sampleOf lo hi) :: framesOf .mono rest
  | .stereo, ll :: lh :: rl :: rh :: rest => .stereo (sampleOf ll lh) (sampleOf rl rh) :: framesOf .stereo rest
  | .mono, _ => []
  | .stereo, _ => []

/-- How many bytes a fetch read carries (R134). -/
def FetchRead.bytes (r : FetchRead) : Nat :=
  r.size * 2 * r.channels.count

/-- The read is current: its voice is not FREE and has the generation recorded at issue (R135). -/
def Pool.current (p : Pool) (r : FetchRead) : Bool :=
  decide (p.voices[r.voice].state ≠ .free) && decide (p.voices[r.voice].generation = r.generation)

/-- A read completes: a current one fills its voice's FIFO, a stale one is discarded (R135). The next choice is made
among all that then request, so no voice is granted (R133). -/
def State.finishRead (s : State) (r : FetchRead) : State :=
  let s := { s with fetch := none, pool := { s.pool with grant := none } }
  if s.pool.current r then
    { s with
      pool := s.pool.setVoice r.voice fun x =>
        { x with fifo := x.fifo ++ framesOf r.channels (Memory.readRun s.flash.mem r.address r.bytes) } }
  else s

/-- The fetch read whose transfer has ended by now (R137). -/
def State.readEnded (s : State) : Option FetchRead :=
  match s.fetch with
  | none => none
  | some r => if s.running ∧ r.dueAt ≤ s.clock then some r else none

/-- FETCH_READ_COMPLETE (R135). A current read past the end of the flash, which R129 rules out, is the fault
`flashRange` (log entry 25). -/
def execFetchReadComplete (t : Nat) (s : State) : Host.Outcome State Fault Refusal :=
  match (s.advance t).readEnded with
  | none => .next (s.advance t)
  | some r =>
    if (s.advance t).pool.current r ∧ flashSize < r.address + r.bytes then .fault (.flashRange (r.address + r.bytes))
    else .next ((s.advance t).finishRead r)

end Sys2Proof.Machine
end

