-- ==== Sys2Proof/Machine/Round.lean ====
section
/-!
DEFINITION. The Round Tracker: how each judgment, buzz, expiry and adoption changes the round record and what it hands
on, and local BUZZ presses (R53 to R79).
-/

namespace Sys2Proof.Machine

/-- What the Round Tracker hands on, in order: a round event with its seat context (R58, R59), or the order for BUZZ
withdrawal (R47, R70). -/
inductive RoundOutput where
  | event (e : RoundEvent) (seat : Option Seat)
  | withdraw
  deriving DecidableEq, Repr

/-- The round record after a change, and what is handed on. -/
structure RoundStep where
  round : Round
  outputs : List RoundOutput
  deriving DecidableEq, Repr

/-- Nothing changes and nothing is handed on. -/
def Round.ignore (r : Round) : RoundStep :=
  { round := r, outputs := [] }

/-- The record entering IDLE (R70). -/
def Round.enterIdle (r : Round) : Round :=
  { r with state := .idle, winner := none, order := [], excluded := 0, windowEnd := none }

/-- The window end of a turn whose winner's fire time is `fire` (R63, R67). -/
def Round.turnEnd (r : Round) (fire : StationTime) : Option StationTime :=
  if r.windowMs = 0 then none else some (afterMs fire r.windowMs)

/-- ARM (R60). R60 names the BUZZ withdrawal and ARMED without an order between them, and an EMIT that answers ARMED may
find the Send Queue full: the withdrawal comes first (DESIGN CHOICE, unsafe, log entry 37). -/
def Round.arm (r : Round) (a : ArmFields) : RoundStep :=
  { round :=
      { state := .ready, number := r.number + 1, synced := true, winner := none, order := []
        excluded := ~~~a.eligible, eligible := a.eligible, rebound := a.rebound, windowMs := a.window * 100
        penaltyMs := a.penalty * 10, windowEnd := none }
    outputs := [.withdraw, .event .armed none] }

/-- OPEN (R61). -/
def Round.openBuzzers (r : Round) : RoundStep :=
  if r.state = .ready then { round := { r with state := .open }, outputs := [.event .opened none] } else r.ignore

/-- A BUZZ of this seat would be valid (R62). -/
def Round.validBuzz (r : Round) (seat : Seat) : Bool :=
  (decide (r.state = .open) || decide (r.state = .locked) || decide (r.state = .expired)) &&
    inSet r.eligible seat && !inSet r.excluded seat && decide (seat ∉ r.order)

/-- A valid BUZZ: it wins in OPEN (R63) and is appended in LOCKED and EXPIRED (R64). `fire` is SOF capture + L. -/
def Round.buzz (r : Round) (seat : Seat) (fire : StationTime) : RoundStep :=
  if r.state = .open then
    { round := { r with state := .locked, winner := some seat, order := [seat], windowEnd := r.turnEnd fire }
      outputs := [.event .win (some seat)] }
  else { round := { r with order := r.order ++ [seat] }, outputs := [.event .late (some seat)] }

/-- A winner holds the turn: the state is LOCKED or EXPIRED. -/
def Round.hasTurn (r : Round) : Bool :=
  decide (r.state = .locked) || decide (r.state = .expired)

/-- RIGHT (R65). -/
def Round.right (r : Round) : RoundStep :=
  if r.hasTurn then { round := r.enterIdle, outputs := [.event .right r.winner, .withdraw] } else r.ignore

/-- Step 2 of WRONG: the winner is excluded and leaves the list (R66). -/
def Round.excludeWinner (r : Round) : Round :=
  match r.winner with
  | none => { r with windowEnd := none }
  | some w =>
    { r with
      excluded := r.excluded ||| single 16 w, order := r.order.filter (fun x => decide (x ≠ w)), winner := none
      windowEnd := none }

/-- A rebound by REOPEN (R68), after the outputs `before`. -/
def Round.reopen (r : Round) (before : List RoundOutput) : RoundStep :=
  if r.eligible &&& ~~~r.excluded ≠ 0 then
    { round := { r with state := .open, order := [] }, outputs := before ++ [.event .opened none] }
  else { round := r.enterIdle, outputs := before ++ [.event .allout none, .withdraw] }

/-- A rebound by the round's mode (R67, R68), after the outputs `before`. -/
def Round.reboundStep (r : Round) (fire : StationTime) (before : List RoundOutput) : RoundStep :=
  match r.rebound, r.order with
  | .queue, next :: _ =>
    { round := { r with state := .locked, winner := some next, windowEnd := r.turnEnd fire }
      outputs := before ++ [.event .win (some next)] }
  | .queue, [] => r.reopen before
  | .reopen, _ => r.reopen before

/-- WRONG (R66). -/
def Round.wrong (r : Round) (fire : StationTime) : RoundStep :=
  if r.hasTurn then r.excludeWinner.reboundStep fire [.event .wrong r.winner] else r.ignore

/-- VOID (R69). -/
def Round.void (r : Round) : RoundStep :=
  if r.state = .idle then r.ignore
  else { round := r.enterIdle, outputs := [.event .void r.winner, .withdraw] }

/-- The answer window expires (R71). -/
def Round.expire (r : Round) : RoundStep :=
  { round := { r with state := .expired, windowEnd := none }, outputs := [.event .timeout r.winner] }

/-- The fields of a good TELL ROUND that adoption takes (R35, R77): the remaining time in 0.1 s units, the penalty time
in 10 ms units. -/
structure RoundAnswer where
  number : Byte
  state : RoundState
  rebound : ReboundMode
  winner : Option Seat
  excluded : SeatSet
  remaining : Nat
  penalty : Nat
  deriving DecidableEq, Repr

/-- Adoption (R77); `fire` is the TELL's SOF capture + L. -/
def RoundAnswer.adopted (a : RoundAnswer) (fire : StationTime) : Round :=
  { state := a.state, number := a.number, synced := true, winner := a.winner, order := a.winner.toList
    excluded := a.excluded, eligible := ~~~a.excluded, rebound := a.rebound, windowMs := 0
    penaltyMs := a.penalty * 10
    windowEnd := if a.state = .locked ∧ a.remaining ≠ 0 then some (afterMs fire (a.remaining * 100)) else none }

/-- Entry to SERVICE (R79): IDLE and unsynced. -/
def Round.enterService (r : Round) : Round :=
  { r.enterIdle with synced := false }

/-! ## Handing on (R58, R59) -/

/-- The place of an event in the list of event codes (11.3). -/
def RoundEvent.codeIndex : RoundEvent → Fin 10
  | .armed => 0
  | .opened => 1
  | .win => 2
  | .late => 3
  | .timeout => 4
  | .right => 5
  | .wrong => 6
  | .void => 7
  | .allout => 8
  | .penalty => 9

/-- The add-seat flag of an event, for the five that have one (R58). -/
def StationConfig.addsSeat (c : StationConfig) : RoundEvent → Bool
  | .win => c.addSeat[0]
  | .late => c.addSeat[1]
  | .timeout => c.addSeat[2]
  | .right => c.addSeat[3]
  | .wrong => c.addSeat[4]
  | .armed | .opened | .void | .allout | .penalty => false

/-- The trigger of a round event; none when its code is NONE (R58). -/
def StationConfig.trigger (c : StationConfig) (e : RoundEvent) (seat : Option Seat) (fire : StationTime) :
    Option Trigger :=
  match c.eventCode[e.codeIndex] with
  | none => none
  | some code =>
    some
      { code :=
          (match seat with
          | some k => if c.addsSeat e then code + seatByte k else code
          | none => code)
        source := .local, seat := seat, fireTime := fire }

/-- One output of the Round Tracker reaches its owner. -/
def State.handOutput (fire : StationTime) (s : State) (o : RoundOutput) : State :=
  match o with
  | .withdraw => { s with queue := withdrawBuzzes s.queue }
  | .event e seat =>
    match s.station.trigger e seat fire with
    | none => s
    | some t => s.takeTrigger t

/-- A change of the round takes effect: the record, what it hands on in order, and the seat lamps (R59, R168). -/
def State.applyRound (s : State) (step : RoundStep) (fire : StationTime) : State :=
  (step.outputs.foldl (State.handOutput fire) { s with round := step.round }).refreshSeatLamps none

/-- The fire time of what a frame causes: its SOF capture + L (R58, R85). -/
def State.fireTime (s : State) (sof : StationTime) : StationTime :=
  afterMs sof s.station.fireLead

/-- An ARM is taken; it also removes every penalty end (R60). -/
def State.takeArm (s : State) (a : ArmFields) (sof : StationTime) : State :=
  State.applyRound { s with penalties := Vector.replicate 16 none } (s.round.arm a) (s.fireTime sof)

/-- A BUZZ frame is taken: valid, or a stray (R62). -/
def State.takeBuzz (s : State) (seat : Seat) (sof : StationTime) : State :=
  if s.round.validBuzz seat then s.applyRound (s.round.buzz seat (s.fireTime sof)) (s.fireTime sof)
  else s.count .strayBuzzes

/-- A TELL ROUND is taken: adopted while unsynced and from another station (R77). -/
def State.takeAnswer (s : State) (a : RoundAnswer) (sender : BitVec 4) (sof : StationTime) : State :=
  if s.round.synced = false ∧ sender ≠ s.station.number then
    State.refreshSeatLamps { s with round := a.adopted (s.fireTime sof) } none
  else s

/-- An early press (R74). In the very instant of the seat's penalty end the press finds the seat not penalised (R57): taken
before PENALTY_END it finds the penalty row still in force and keeps its phase, and taken after it the row, and the blink,
begin anew. R169 does not say whether the blink restarts there (DESIGN CHOICE, unsafe, log entry 39). -/
def State.earlyPress (s : State) (seat : Seat) (press : StationTime) : State :=
  let again := s.penalised seat
  let s := State.count
    { s with penalties := s.penalties.set seat (some (afterMs press s.round.penaltyMs)) } .earlyPresses
  (s.handOutput press (.event .penalty (some seat))).refreshSeatLamps (if again then some seat else none)

/-- A local BUZZ press reaches the Round Tracker (R73). -/
def State.buzzPress (s : State) (seat : Seat) (press : StationTime) : State :=
  if s.round.synced = false then s
  else if s.round.state = .ready then s.earlyPress seat press
  else if s.penalised seat then s
  else if s.round.validBuzz seat then
    s.requestFrame { cls := 1, subject := seatByte seat, content := .fixed [], late := false, singleTry := false }
  else s

/-- The Round Tracker's entry to SERVICE (R79). -/
def State.roundEntersService (s : State) : State :=
  State.refreshSeatLamps
    { s with
      round := s.round.enterService, penalties := Vector.replicate 16 none, queue := withdrawBuzzes s.queue }
    none

end Sys2Proof.Machine
end

