-- ==== Sys2Proof/Machine/Inputs.lean ====
section
/-!
DEFINITION. The Input Scanner: debounce, presses, releases, holds, and the handing on of actions (R159 to R165), and
the meaning of INPUT_SCAN.
-/

namespace Sys2Proof.Machine

/-- The change taken at a scan (R160). -/
inductive Change where
  | none
  | press
  | release
  deriving DecidableEq, Repr

/-- The long action is in use: it is not NONE and the long time is not 0 (R159). -/
def InputConfig.longInUse (c : InputConfig) : Bool :=
  decide (c.long ≠ .none) && decide (c.longTime ≠ 0)

/-- The change to a level. -/
def Change.to : Contact → Change
  | .closed => .press
  | .open => .release

/-- The level of one input line from the levels of a scan. -/
def lineLevel (closed : Byte) (i : Fin 8) : Contact :=
  if inSet closed i then .closed else .open

/-- Adoption of a level: no change, no action (R161). -/
def Input.adopt (x : Input) (lvl : Contact) : Input :=
  { x with level := some lvl, run := 0, hold := .none }

/-- The debounce step (R160): the record after it and the change taken. -/
def Input.debounceStep (x : Input) (c : InputConfig) (lvl : Contact) : Input × Change :=
  if x.level = some lvl then ({ x with run := 0 }, .none)
  else if c.debounce ≤ x.run + 1 then ({ x with level := some lvl, run := 0 }, Change.to lvl)
  else ({ x with run := x.run + 1 }, .none)

/-- The long time of an input has run since its press (R163). -/
def Input.longReached (x : Input) (c : InputConfig) (now : StationTime) : Bool :=
  match x.pressTime with
  | none => false
  | some p => decide (now = afterMs p (c.longTime * 10))

/-- The hold step (R162, R163): the record after it and the action that fires, NONE for none. -/
def Input.holdStep (x : Input) (c : InputConfig) (change : Change) (now : StationTime) : Input × InputAction :=
  match change with
  | .press =>
    if c.longInUse then ({ x with pressTime := some now, hold := .waiting }, .none)
    else ({ x with pressTime := some now }, c.short)
  | .release => ({ x with hold := .none }, if c.longInUse ∧ x.hold = .waiting then c.short else .none)
  | .none =>
    if c.longInUse ∧ x.hold = .waiting ∧ x.longReached c now then ({ x with hold := .spent }, c.long)
    else (x, .none)

/-- One input at a scan: adoption at the first, the two steps at every later one (R160, R161). -/
def Input.scan (x : Input) (lvl : Contact) (now : StationTime) : Input × InputAction :=
  match x.config with
  | none => (x, .none)
  | some c =>
    if x.level.isNone then (x.adopt lvl, .none)
    else (x.debounceStep c lvl).1.holdStep c (x.debounceStep c lvl).2 now

/-! ## Handing on (R164, R165) -/

/-- The payload of a GO action: its seat, or none (R165). -/
def goPayload : Option Seat → List Byte
  | some k => [seatByte k]
  | none => []

/-- The payload of a JUDGE action: the ARM preset for ARM, none otherwise (R165). -/
def judgePayload (preset : ArmFields) : Verb → List Byte
  | .arm => armBytes preset
  | .openBuzzers | .right | .wrong | .void => []

/-- An action fires at this scan and is handed to its owner (R164, R165). -/
def State.fireAction (s : State) (a : InputAction) : State :=
  match a with
  | .none => s
  | .buzz seat => s.buzzPress seat s.now
  | .go code seat singleTry =>
    s.requestFrame
      { cls := 4, subject := code, content := .fixed (goPayload seat), late := true, singleTry := singleTry }
  | .localCode code => s.takeTrigger { code := code, source := .local, seat := none, fireTime := s.now }
  | .cut code =>
    s.requestFrame { cls := 3, subject := code, content := .fixed [], late := true, singleTry := false }
  | .judge verb =>
    s.requestFrame
      { cls := 2, subject := verbByte verb, content := .fixed (judgePayload s.station.armPreset verb), late := false
        singleTry := false }
  | .stop => s.requestFrame { cls := 0, subject := 0, content := .fixed [], late := false, singleTry := false }

/-- One input is scanned and what it fires is handed on. -/
def State.scanInput (closed : Byte) (s : State) (i : Fin 8) : State :=
  State.fireAction { s with inputs := s.inputs.set i (s.inputs[i].scan (lineLevel closed i) s.now).1 }
    (s.inputs[i].scan (lineLevel closed i) s.now).2

/-- The order in which a scan takes the inputs: those named, each once, then the others in number order (R164, log
entry 19). -/
def scanOrder (order : List (Fin 8)) : List (Fin 8) :=
  order.dedup ++ (List.finRange 8).filter fun i => decide (i ∉ order)

/-- A scan of all eight inputs (R160). -/
def State.scan (s : State) (closed : Byte) (order : List (Fin 8)) : State :=
  (scanOrder order).foldl (State.scanInput closed) { s with nextScan := s.clock / milliClocks + 1 }

/-- INPUT_SCAN (R160). -/
def execInputScan (t : Nat) (closed : Byte) (order : List (Fin 8)) (s : State) :
    Host.Outcome State Fault Refusal :=
  .next (s.onEvent t fun s => if s.periodBegins milliClocks s.nextScan then s.scan closed order else s)

end Sys2Proof.Machine
end

