-- ==== Sys2Proof/Machine/Lamps.lean ====
section
/-!
DEFINITION. The meanings of the Lamp Driver's commands: LAMP_PERIOD (R166, R167) and CUE_LAMP_DURATION_END (R171), and
what the lamp lines show at an instant (R166).
-/

namespace Sys2Proof.Machine

/-- The level of a lamp in lamp period `period` (R166, R167). -/
def Lamp.levelIn (l : Lamp) (dim period : Nat) : Nat :=
  (l.inForce dim).levelAt (period - l.phaseStart)

/-- Lamp period `period` begins: every lamp takes its level for it (R166). -/
def State.beginLampPeriod (s : State) (period : Nat) : State :=
  { s with
    lamps := mapEach s.lamps fun _ l => { l with level := l.levelIn s.station.dimLevel period }
    nextLampPeriod := period + 1 }

/-- LAMP_PERIOD (R166). -/
def execLampPeriod (t : Nat) (s : State) : Host.Outcome State Fault Refusal :=
  .next (s.onEvent t fun s =>
    if s.periodBegins milliClocks s.nextLampPeriod then s.beginLampPeriod (s.clock / milliClocks) else s)

/-- The master clock periods from the start of a lamp period for which a lamp line is on: none at level 0, all at 255, and
else level/255 of the period to within one master clock period (R166). Which of the whole numbers within it is open (a free
value: DESIGN CHOICE, log entry 35). -/
def onClocks (lamp period level : Nat) : Nat :=
  if level = 0 then 0
  else if 255 ≤ level then milliClocks
  else if level * milliClocks % 255 = 0 then
    level * milliClocks / 255 - 1 + Config.lampEdge lamp period level % 3
  else level * milliClocks / 255 + Config.lampEdge lamp period level % 2

/-- A lamp line is on at the present instant: on from the start of the lamp period for the time of its level, and off for
the rest (R166). -/
def State.lampLine (s : State) (lamp : Fin 8) : Bool :=
  decide (s.clock % milliClocks < onClocks lamp.val (s.clock / milliClocks) s.lamps[lamp].level)

/-- Station time has reached the duration end of a CUE lamp (R171). -/
def Lamp.durationOver (l : Lamp) (now : StationTime) : Bool :=
  decide (l.assign = .cue) &&
    match l.durationEnd with
    | none => false
    | some e => reached now e

/-- The cue pattern of a lamp becomes OFF and its duration end absent (R171). -/
def Lamp.goDark (l : Lamp) (phase : Nat) : Lamp :=
  { l with pattern := LampPattern.dark, durationEnd := none, phaseStart := phase }

/-- CUE_LAMP_DURATION_END (R171). -/
def execCueLampDurationEnd (t : Nat) (lamp : Fin 8) (s : State) : Host.Outcome State Fault Refusal :=
  .next (s.onEvent t fun s =>
    if s.lamps[lamp].durationOver s.now then
      { s with lamps := update s.lamps lamp fun l => l.goDark s.lampPhase }
    else s)

end Sys2Proof.Machine
end

