-- ==== Sys2Proof/Machine/Mixer.lean ====
section
/-!
DEFINITION. The Mixer and Output Port: the sample period (R115, R152 to R158) and the envelope tick (R144 to R150).
-/

namespace Sys2Proof.Machine

/-! ## The sample period -/

/-- The voice plays: it needs a frame each sample period (R115). -/
def Voice.playing (x : Voice) : Bool :=
  decide (x.state = .running) || decide (x.state = .fading) || decide (x.state = .draining)

/-- The voice ends at this period instead of needing a frame: R117 for DRAINING, R123 for FADING (R115). -/
def State.endsHere (s : State) (v : VoiceNo) : Bool :=
  (decide (s.pool.voices[v].state = .draining) || decide (s.pool.voices[v].state = .fading)) && s.dataEnded v

/-- The voice needs a frame at this period (R115). -/
def State.needsFrame (s : State) (v : VoiceNo) : Bool :=
  s.pool.voices[v].playing && !s.endsHere v

/-- The frame a voice gives the Mixer at this period, if any (R115, R152). -/
def State.frameOfVoice (s : State) (v : VoiceNo) : Option Frame :=
  if s.needsFrame v then s.pool.voices[v].fifo.head? else none

/-- The voice underruns at this period and its episode begins here (R115). -/
def State.underrunBegins (s : State) (v : VoiceNo) : Bool :=
  s.needsFrame v && s.pool.voices[v].fifo.isEmpty && !s.pool.voices[v].underrun

/-- A voice that needs a frame takes the first of its FIFO, or underruns (R115). -/
def Voice.takeFrame (x : Voice) : Voice :=
  { x with fifo := x.fifo.tail, underrun := x.fifo.isEmpty }

/-- The attenuation of a voice on a bus with this send and master (R153). -/
def Voice.attenuationOn (x : Voice) (send master : Nat) : Nat :=
  attenuation send x.envelope x.duck master

/-- The contributions of a voice to the four channels: AIR left and right, HOUSE left and right (R155). -/
def State.contributions (s : State) (v : VoiceNo) : Int × Int × Int × Int :=
  let x := s.pool.voices[v]
  match s.frameOfVoice v with
  | none => (0, 0, 0, 0)
  | some f =>
    let air := x.attenuationOn x.airSend s.mixer.air.current
    let house := x.attenuationOn x.houseSend s.mixer.house.current
    (contributionAt f.left air, contributionAt f.right air, contributionAt f.left house, contributionAt f.right house)

/-- Channel by channel. -/
def addChannels (a b : Int × Int × Int × Int) : Int × Int × Int × Int :=
  (a.1 + b.1, a.2.1 + b.2.1, a.2.2.1 + b.2.2.1, a.2.2.2 + b.2.2.2)

/-- The exact sums of a sample period (R156). -/
def State.busSums (s : State) : Int × Int × Int × Int :=
  (List.finRange 12).foldl (fun acc v => addChannels acc (s.contributions v)) (0, 0, 0, 0)

/-- The outputs carry sound: LOADING has ended and the station is not in SERVICE (R158). -/
def State.outputsLive (s : State) : Bool :=
  s.loader.loaded && decide (s.loader.mode ≠ .service)

/-- The clamped mix of a sample period (R156, R158). -/
def State.mixNow (s : State) : BusMix :=
  if s.outputsLive then
    { airLeft := clampSample s.busSums.1, airRight := clampSample s.busSums.2.1
      houseLeft := clampSample s.busSums.2.2.1, houseRight := clampSample s.busSums.2.2.2 }
  else BusMix.silence

/-- How many buses clamp in this period (R156). -/
def State.clampCount (s : State) : Nat :=
  if s.outputsLive then
    (if clamps s.busSums.1 || clamps s.busSums.2.1 then 1 else 0) +
    (if clamps s.busSums.2.2.1 || clamps s.busSums.2.2.2 then 1 else 0)
  else 0

/-- The slots that carry a mix (R157). -/
def BusMix.slots (m : BusMix) : OutputSlots :=
  { airLeft := outputSlot m.airLeft, airRight := outputSlot m.airRight, houseLeft := outputSlot m.houseLeft
    houseRight := outputSlot m.houseRight }

/-- One channel's half of a serial word, in the order sent: its slot, most significant bit first, then 8 bits of 0
(R157). -/
def serialHalf (slot : BitVec 24) : List Bool :=
  (List.range 24).map slot.getMsbD ++ List.replicate 8 false

/-- What the Output Port drives in one bit clock period: the word clock, low for the left channel, and the data of both
outputs, in step (R157). -/
structure SerialBit where
  wordClockHigh : Bool
  air : Bool
  house : Bool
  deriving DecidableEq, Repr

/-- One channel of both outputs, side by side under one level of the word clock (R157). -/
def serialChannel (wordClockHigh : Bool) (air house : BitVec 24) : List SerialBit :=
  (serialHalf air).zipWith (fun a h => { wordClockHigh := wordClockHigh, air := a, house := h }) (serialHalf house)

/-- The 64 bit clock periods of a sample period, in the order sent: the left channel with the word clock low, then the
right with it high (R157). -/
def OutputSlots.serial (o : OutputSlots) : List SerialBit :=
  serialChannel false o.airLeft o.houseLeft ++ serialChannel true o.airRight o.houseRight

/-- Master clock periods of a bit clock period (R157). -/
def bitClocks : Nat := 8

/-- What the Output Port drives at the present instant: bit clock period n of a sample period, n = 0..63, begins 8 × n
master clock periods after its beginning (R144, R157). -/
def State.serialNow (s : State) : SerialBit :=
  s.mixer.out.serial[s.clock % sampleClocks / bitClocks]?.getD { wordClockHigh := false, air := false, house := false }

/-- How many underrun episodes begin in this period (R115). -/
def State.newUnderruns (s : State) : Nat :=
  (List.finRange 12).countP s.underrunBegins

/-- The sample period is mixed: voices take frames, the buses are summed and clamped, the last mix goes out (R115, R152
to R157). -/
def State.mixPeriod (s : State) : State :=
  { s with
    pool := { s.pool with voices := mapEach s.pool.voices fun v x => if s.needsFrame v then x.takeFrame else x }
    errors := (s.errors.bumpTimes .underruns s.newUnderruns).bumpTimes .outputClamps s.clampCount
    mixer :=
      { s.mixer with
        nextSample := s.clock / sampleClocks + 1, mix := s.mixNow, out := s.mixer.mix.slots } }

/-- SAMPLE_PERIOD (R152). -/
def execSamplePeriod (t : Nat) (s : State) : Host.Outcome State Fault Refusal :=
  .next (s.onEvent t fun s => if s.sampleBegins then s.mixPeriod else s)

/-! ## The envelope tick -/

/-- The step of a voice's envelope (R145). -/
def Voice.envelopeStep (x : Voice) : Nat :=
  match x.state with
  | .free | .scheduled => x.envelope
  | .running | .draining => stepDown x.envelope x.rate 0
  | .fading => stepUp x.envelope x.rate fullRange

/-- A voice that lowers others: RUNNING or DRAINING (R147). -/
def Voice.ducks (x : Voice) : Bool :=
  decide (x.state = .running) || decide (x.state = .draining)

/-- The duck depth voice `u` pushes on voice `v`, 0 for none (R147). -/
def Pool.push (p : Pool) (v u : VoiceNo) : Nat :=
  if u ≠ v ∧ p.voices[u].ducks ∧ p.voices[v].priority < p.voices[u].priority then p.voices[u].duckDepth else 0

/-- The duck target of voice `v` in fine steps (R147). -/
def Pool.duckTarget (p : Pool) (v : VoiceNo) : Nat :=
  ((List.finRange 12).foldl (fun top u => max top (p.push v u)) 0) * 256

/-- The step of a duck current toward a target (R148). -/
def duckStep (attack release duck target : Nat) : Nat :=
  if duck < target then stepUp duck attack target
  else if target < duck then stepDown duck release target
  else duck

/-- What a tick does to voice `v` (R145, R147, R148): its envelope, the report of silence, its duck. A voice that the report
hands to its successor has taken the duck step of this tick before; its duck current is set to 0 after it (R146 allows
either order; DESIGN CHOICE, unsafe, log entry 40). -/
def Pool.tickVoice (p : Pool) (attack release : Nat) (v : VoiceNo) (x : Voice) : Voice :=
  { x with
    envelope := x.envelopeStep
    silent := decide (x.state = .fading) && decide (x.envelopeStep = fullRange)
    duckTarget := if x.state = .free then x.duckTarget else p.duckTarget v
    duck := if x.state = .free then x.duck else duckStep attack release x.duck (p.duckTarget v) }

/-- A master moves one step toward its target (R150). -/
def Master.step (m : Master) : Master :=
  if m.current < m.target then { m with current := m.current + 1 }
  else if m.target < m.current then { m with current := m.current - 1 }
  else m

/-- The envelope tick (R144, R145, R147, R148, R150). -/
def State.tick (s : State) : State :=
  { s with
    pool :=
      { s.pool with
        voices := mapEach s.pool.voices (s.pool.tickVoice s.mixer.attack s.mixer.release) }
    mixer :=
      { s.mixer with
        air := s.mixer.air.step, house := s.mixer.house.step, nextTick := s.clock / milliClocks + 1 } }

/-- ENVELOPE_TICK (R144): at the beginning of every 48th sample period, before that period is mixed. -/
def execEnvelopeTick (t : Nat) (s : State) : Host.Outcome State Fault Refusal :=
  .next (s.onEvent t fun s =>
    if s.periodBegins milliClocks s.mixer.nextTick ∧ s.sampleBegins then s.tick else s)

end Sys2Proof.Machine
end

