-- ==== Sys2Proof/Machine/Answers.lean ====
section
/-!
DEFINITION. The answers a TELL carries, built from the state of the station at the start of its attempt (R49, R126,
11.1).
-/

namespace Sys2Proof.Machine

/-- The answer time remaining in 0.1 s units: rounded up, at most 255 (R49). -/
def remainingTenths (now : StationTime) (windowEnd : Option StationTime) : Nat :=
  match windowEnd with
  | none => 0
  | some e => if ageMicros e now ≤ 0 then 0 else min 255 (((ageMicros e now).toNat + 99999) / 100000)

/-- TELL ROUND (R49). -/
def State.roundAnswer (s : State) : List Byte :=
  [s.round.number, roundStateCode s.round.state ||| (reboundByte s.round.rebound <<< 4),
    seatByteOr s.round.winner, byteOf s.round.order.length] ++
  seatSetBytes s.round.excluded ++
  [byteOf (remainingTenths s.now s.round.windowEnd), byteOf (s.round.penaltyMs / 10)]

/-- TELL LINE (R49). -/
def State.lineAnswer (s : State) : List Byte :=
  [lineStateByte s.line.lineState, byteOf s.line.tec, byteOf s.line.recCount, byteOf s.queue.length] ++
  wordBytes s.line.framesReceived.toNat ++ wordBytes s.line.framesSent.toNat

/-- A voice is not FREE. -/
def Voice.inUse (x : Voice) : Bool :=
  decide (x.state ≠ .free)

/-- TELL VOICES (R49, R126). -/
def State.voicesAnswer (s : State) : List Byte :=
  [byteOf (s.pool.voices.toList.countP Voice.inUse)] ++
  voiceSetBytes (s.pool.voicesWhere Voice.inUse) ++
  voiceSetBytes (s.pool.voicesWhere fun x => decide (x.state = .running)) ++
  [byteOf (s.errors.get .underruns)]

/-- How many voices a set holds. -/
def voiceCount (set : VoiceSet) : Nat :=
  (List.finRange 12).countP fun v => inSet set v

/-- A bit of the SLOT flag byte (11.1). -/
def flagBit (b : Bool) (bit : Nat) : Byte :=
  if b then BitVec.twoPow 8 bit else 0

/-- The PLAY fields of a slot, if its action is PLAY. -/
def Slot.playConfig (x : Slot) : Option PlayConfig :=
  match x.config with
  | none => none
  | some c =>
    match c.action with
    | .play p => some p
    | .stopGroup .. | .lamp _ | .emit .. => none

/-- The clip the next fire without seat context would choose, FF for none (R49, 11.1). -/
def Slot.nextClip (x : Slot) : Byte :=
  match x.playConfig with
  | none => 0xFF
  | some p => p.entryClip (p.choose x.cycle none)

/-- TELL SLOT (R49). -/
def State.slotAnswer (s : State) (n : SlotNo) : List Byte :=
  let x := s.pool.slots[n]
  [byteOf n.val,
    flagBit x.enabled 0 ||| flagBit x.held 1 ||| flagBit x.pending.isSome 2 ||| flagBit x.playConfig.isSome 3,
    byteOf x.lost, byteOf (voiceCount x.voices)] ++
  wordBytes x.fires ++ [byteOf x.cycle, x.nextClip]

/-- TELL ERRORS (R49): the group, and its three counts. -/
def State.errorsAnswer (s : State) (arg : Byte) : List Byte :=
  (arg &&& 0x7F) :: (s.errors.group (arg &&& 0x7F).toNat).flatMap wordBytes

/-- The answer of a topic (R49). -/
def State.answer (s : State) (topic arg : Byte) : List Byte :=
  match topic.toNat with
  | 0 => s.roundAnswer
  | 1 => s.lineAnswer
  | 2 => s.voicesAnswer
  | 3 => s.slotAnswer (Fin.ofNat 48 arg.toNat)
  | 4 => s.errorsAnswer arg
  | _ => []

/-- The payload an entry sends in an attempt that begins now (R42). -/
def State.entryPayload (s : State) (e : Entry) : List Byte :=
  match e.content with
  | .fixed p => p
  | .tell arg => s.answer (keySubject e.key) arg

/-- The argument recorded with the attempt of an entry (R42). -/
def Entry.tellArg (e : Entry) : Option Byte :=
  match e.content with
  | .fixed _ => none
  | .tell arg => some arg

end Sys2Proof.Machine
end

