-- ==== Sys2Proof/Machine/Dispatcher.lean ====
section
/-!
DEFINITION. The Frame Dispatcher: the judgment of a completed frame against its class, and its delivery to the owner of
its meaning (R29 to R35, R48, R194).
-/

namespace Sys2Proof.Machine

/-- A completed frame as the Line Port hands it on (R13, R19). -/
structure LineFrame where
  cls : BitVec 4
  subject : Byte
  sender : BitVec 4
  payload : List Byte
  sof : StationTime
  deriving DecidableEq, Repr

/-- The frame of a key and payload. -/
def frameOf (key : Key) (payload : List Byte) (sof : StationTime) : LineFrame :=
  { cls := keyClass key, subject := keySubject key, sender := keySender key, payload := payload, sof := sof }

/-- The two buses (2.1). -/
inductive Bus where
  | air
  | house
  deriving DecidableEq, Repr

/-- What the Dispatcher decides of a frame: bad, set aside without a count, or what it delivers and to whom. -/
inductive Delivery where
  | bad
  | aside
  | stop (fadeMs : Nat)
  | buzz (seat : Seat)
  | arm (a : ArmFields)
  | openBuzzers
  | right
  | wrong
  | void
  | cut (code : Byte) (override : Option Nat)
  | go (code : Byte) (seat : Option Seat)
  | hold (n : SlotNo)
  | release (n : SlotNo)
  | enable (n : SlotNo)
  | disable (n : SlotNo)
  | clearLost (n : SlotNo)
  | swap (n : SlotNo) (entry : Nat) (clip : Byte)
  | master (bus : Bus) (steps : Nat)
  | ask (topic arg : Byte)
  | answer (a : RoundAnswer)
  | nobody
  deriving DecidableEq, Repr

/-- STOP (R30). -/
def judgeStop : List Byte → Delivery
  | [] => .stop 20
  | [fade] => .stop (fade.toNat * 10)
  | _ => .bad

/-- BUZZ (R30). -/
def judgeBuzz (subject : Byte) : List Byte → Delivery
  | [] =>
    match seatOf subject with
    | some seat => .buzz seat
    | none => .bad
  | _ => .bad

/-- JUDGE (R31). -/
def judgeVerdict (subject : Byte) (payload : List Byte) : Delivery :=
  match verbOf subject, payload with
  | some .arm, p =>
    match armOf p with
    | some a => .arm a
    | none => .bad
  | some .openBuzzers, [] => .openBuzzers
  | some .right, [] => .right
  | some .wrong, [] => .wrong
  | some .void, [] => .void
  | _, _ => .bad

/-- CUT (R30). -/
def judgeCut (subject : Byte) : List Byte → Delivery
  | [] => .cut subject none
  | [fade] => .cut subject (some (fade.toNat * 10))
  | _ => .bad

/-- GO (R30). -/
def judgeGo (subject : Byte) : List Byte → Delivery
  | [] => .go subject none
  | [seat] =>
    match seatOf seat with
    | some s => .go subject (some s)
    | none => .bad
  | _ => .bad

/-- The slot that a byte 0..47 names. -/
def slotOf (b : Byte) : Option SlotNo :=
  if h : b.toNat < 48 then some ⟨b.toNat, h⟩ else none

/-- An ADJUST of one slot (R33). -/
def judgeSlot (slot : Byte) (d : SlotNo → Delivery) : Delivery :=
  match slotOf slot with
  | some n => d n
  | none => .bad

/-- A SWAP fits its slot: its action is PLAY, the entry is 0..3 and within the clip list, and the clip is present
(R33). -/
def State.swapFits (s : State) (n : SlotNo) (entry clip : Byte) : Bool :=
  match s.pool.slots[n].playConfig with
  | none => false
  | some p => decide (entry.toNat < 4) && decide (entry.toNat < p.clipList.length) && (s.clips.clip clip).isSome

/-- An addressed ADJUST (R33). -/
def State.judgeAdjust (s : State) (payload : List Byte) : Delivery :=
  match payload with
  | [op, slot] =>
    match op.toNat with
    | 0 => judgeSlot slot .hold
    | 1 => judgeSlot slot .release
    | 2 => judgeSlot slot .enable
    | 3 => judgeSlot slot .disable
    | 4 => judgeSlot slot .clearLost
    | _ => .bad
  | [op, slot, entry, clip] =>
    if op = 5 then
      judgeSlot slot fun n => if s.swapFits n entry clip then .swap n entry.toNat clip else .bad
    else .bad
  | [op, bus, steps] =>
    if op = 6 ∧ steps.toNat ≤ 120 then
      match bus.toNat with
      | 0 => .master .air steps.toNat
      | 1 => .master .house steps.toNat
      | _ => .bad
    else .bad
  | _ => .bad

/-- An addressed ASK; `toAll` when its target is 0 (R34). -/
def State.judgeAsk (s : State) (toAll : Bool) (payload : List Byte) : Delivery :=
  match payload with
  | [topic, arg] =>
    match topic.toNat with
    | 0 => if toAll && !s.round.synced then .aside else .ask topic arg
    | 1 | 2 => .ask topic arg
    | 3 => if arg.toNat < 48 then .ask topic arg else .bad
    | 4 => if (arg &&& 0x7F).toNat < 6 then .ask topic arg else .bad
    | _ => .bad
  | _ => .bad

/-- The winner a TELL ROUND names, when it fits the state (R35): `some none` for none, `none` for a bad byte. -/
def answerWinner (state : RoundState) (b : Byte) : Option (Option Seat) :=
  match state with
  | .locked | .expired => (seatOf b).map some
  | .idle | .ready | .open => if b = 0xFF then some none else none

/-- A winner, when present, is not in the exclusion set (R35). -/
def winnerAllowed (winner : Option Seat) (excluded : SeatSet) : Bool :=
  match winner with
  | none => true
  | some w => !inSet excluded w

/-- A TELL ROUND (R35, R194). -/
def judgeAnswer : List Byte → Delivery
  | [number, state, winner, count, hi, lo, remaining, penalty] =>
    match roundStateOf (state &&& 0x0F).toNat with
    | none => .bad
    | some st =>
      match answerWinner st winner with
      | none => .bad
      | some w =>
        if winnerAllowed w (word16 hi lo) ∧ count.toNat ≤ 16 then
          .answer
            { number := number, state := st
              rebound := if state.getLsbD 4 then .reopen else .queue
              winner := w, excluded := word16 hi lo, remaining := remaining.toNat, penalty := penalty.toNat }
        else .bad
  | _ => .bad

/-- A TELL (R35, R194): each answer has its length, the line state of a LINE answer is one of its four codes, and bits 6..0 of
the group byte of an ERRORS answer are a group of 0..5; bit 7 of it is not examined. The table gives the bytes of a VOICES or
SLOT answer no codes, so a slot of 48..255 there is good (DEDUCED, unsafe, log entry 34). -/
def judgeTell (subject : Byte) (payload : List Byte) : Delivery :=
  match subject.toNat with
  | 0 => judgeAnswer payload
  | 1 => if payload.length = 8 ∧ (payload.headD 0).toNat < 4 then .nobody else .bad
  | 2 => if payload.length = 6 then .nobody else .bad
  | 3 => if payload.length = 8 then .nobody else .bad
  | 4 => if payload.length = 7 ∧ (payload.headD 0 &&& 0x7F).toNat < 6 then .nobody else .bad
  | _ => .bad

/-- The target of an ADJUST or ASK: `some true` addresses this station, `some false` another one, `none` names no
station (R32). -/
def StationConfig.addressed (c : StationConfig) (target : Byte) : Option Bool :=
  if 16 ≤ target.toNat then none
  else some (decide (target = 0) || decide (target.toNat = c.number.toNat))

/-- The judgment of the payload of an ADJUST or ASK, once its target is judged (R29, R32). -/
def StationConfig.ifAddressed (c : StationConfig) (target : Byte) (d : Delivery) : Delivery :=
  match c.addressed target with
  | none => .bad
  | some false => .aside
  | some true => d

/-- The Dispatcher's judgment of a frame, in the order of R29. -/
def State.judge (s : State) (f : LineFrame) : Delivery :=
  if f.sender = 0 then .bad
  else
    match f.cls.toNat with
    | 0 => judgeStop f.payload
    | 1 => judgeBuzz f.subject f.payload
    | 2 => judgeVerdict f.subject f.payload
    | 3 => judgeCut f.subject f.payload
    | 4 => judgeGo f.subject f.payload
    | 5 => s.station.ifAddressed f.subject (s.judgeAdjust f.payload)
    | 6 => s.station.ifAddressed f.subject (s.judgeAsk (decide (f.subject = 0)) f.payload)
    | 7 => judgeTell f.subject f.payload
    | _ => .bad

/-- The Mixer takes an ADJUST MASTER (R151). -/
def Mixer.setMaster (m : Mixer) (bus : Bus) (steps : Nat) : Mixer :=
  match bus with
  | .air => { m with air := { m.air with target := steps } }
  | .house => { m with house := { m.house with target := steps } }

/-- A delivered ASK becomes a request for a TELL (R48). -/
def State.requestTell (s : State) (topic arg : Byte) : State :=
  s.requestFrame { cls := 7, subject := topic, content := .tell arg, late := false, singleTry := false }

/-- What was decided of a frame is delivered to its owner (R29); a bad frame is counted. -/
def State.deliver (s : State) (f : LineFrame) (d : Delivery) : State :=
  match d with
  | .bad => s.count .badFrames
  | .aside | .nobody => s
  | .stop ms => { s with pool := (s.pool.stop ms).dropPending }
  | .buzz seat => s.takeBuzz seat f.sof
  | .arm a => s.takeArm a f.sof
  | .openBuzzers => s.applyRound s.round.openBuzzers (s.fireTime f.sof)
  | .right => s.applyRound s.round.right (s.fireTime f.sof)
  | .wrong => s.applyRound (s.round.wrong (s.fireTime f.sof)) (s.fireTime f.sof)
  | .void => s.applyRound s.round.void (s.fireTime f.sof)
  | .cut code override => { s with pool := s.pool.cut code override }
  | .go code seat =>
    s.takeTrigger { code := code, source := .line f.sender, seat := seat, fireTime := s.fireTime f.sof }
  | .hold n => s.holdSlot n
  | .release n => s.releaseSlot n (s.fireTime f.sof)
  | .enable n => s.enableSlot n
  | .disable n => s.disableSlot n
  | .clearLost n => s.clearLostSlot n
  | .swap n entry clip => s.swapSlot n entry clip
  | .master bus steps => { s with mixer := s.mixer.setMaster bus steps }
  | .ask topic arg => s.requestTell topic arg
  | .answer a => s.takeAnswer a f.sender f.sof

/-- The Dispatcher takes a frame (R29). -/
def State.dispatchFrame (s : State) (f : LineFrame) : State :=
  s.deliver f (s.judge f)

end Sys2Proof.Machine
end

