-- ==== Sys2Proof/Machine/LinePort.lean ====
section
/-!
DEFINITION. The Line Port: quiet gaps, starts of frame, attempts and their outcomes, characters, spoils and completions
(Chapter 1), and the meanings of the commands of the cue line.
-/

namespace Sys2Proof.Machine

/-- The Line Port samples the line: it has a bit rate (R2, R181). -/
def LinePort.samples (l : LinePort) : Bool :=
  l.bitRate.isSome

/-- An ack bit being driven is released (R12). -/
def LinePort.releaseAck (l : LinePort) : LinePort :=
  if l.drive = .ack then { l with drive := .released } else l

/-! ## Completions (R13, R19) -/

/-- A frame of another station completes (R12, R13). -/
def State.completeFrame (s : State) (f : Followed) : State :=
  let l := s.line.receiveGood
  let counted := { s with line := { l with framesReceived := l.framesReceived + 1 } }
  if s.handsOn then counted.dispatchFrame (frameOf f.key f.payload f.sof) else counted

/-- A frame being followed is ended by an SOF: it completes if it is another station's and in its ack window, and is
dropped otherwise (R6, R12). -/
def State.endFollowed (s : State) (old : Option Followed) : State :=
  match old with
  | none => s
  | some f => if f.inWindow then s.completeFrame f else s

/-! ## Attempts (R14, R15, R20, R42) -/

/-- The next multiple of 13 above a recessive count: the next quiet gap (R5, R24). -/
def nextGap (run : Nat) : Nat :=
  (run / 13 + 1) * 13

/-- The station contends when the recessive count is `run` (R14). The count must agree with the quiet gaps counted so
far (DESIGN CHOICE, unsafe, log entry 6). -/
def State.contends (s : State) (run : Nat) : Bool :=
  s.maySend && s.offered.isSome && s.line.attempt.isNone && decide (s.line.requiredRun ≤ run) &&
    decide (s.line.recessiveRun ≤ run) && decide (run < nextGap s.line.recessiveRun)

/-- The attempt that the offered entry makes, with its TELL answer built now (R15, R42). A port clear of the group it
reports, noted on an earlier attempt of the entry or while it waited to be retried, still holds where the new attempt
carries the clear too (R50, R193; log entry 24). -/
def State.newAttempt (s : State) (e : Entry) : Attempt :=
  let payload := s.entryPayload e
  { key := e.key, payload := payload, check := checkOf (frameHead e.key payload), singleTry := e.singleTry
    tellArg := e.tellArg
    portCleared :=
      e.portCleared && decide (errorsGroup e.key e.tellArg = e.reported) && e.tellArg.any fun arg => arg.msb }

/-- An SOF edge is followed: its station time is latched and a frame begins (R6). -/
def LinePort.follow (l : LinePort) (sof : StationTime) : LinePort :=
  { l with followed := some { sof := sof, chars := [] }, recessiveRun := 0 }

/-- An attempt begins at an SOF that the station drives or joins (R15); a frame that was still in its ack window
completes in the same instant (R12), after the offered entry is taken (DESIGN CHOICE, unsafe, log entry 8). Where the
station is still driving a spoil, which only a line without a transceiver lets it contend through, the frame takes the
place of the spoil (R10, R14; DESIGN CHOICE, unsafe, log entry 33). -/
def State.beginAttempt (s : State) : State :=
  match s.offered with
  | none => s
  | some e =>
    let s1 :=
      { s with
        queue := markInFlight e.key s.queue
        line := { s.line.follow s.now with attempt := some (s.newAttempt e), drive := .frame } }
    s1.endFollowed s.line.followed

/-- An SOF edge of another station is followed as a receiver (R6, R15). -/
def State.followEdge (s : State) : State :=
  State.endFollowed { s with line := s.line.releaseAck.follow s.now } s.line.followed

/-- How an attempt ended, as reported to the Send Queue (R20). -/
inductive AttemptEnd where
  | completed
  | lost
  | failed
  | abandoned
  deriving DecidableEq, Repr

/-- The attempt leaves the Line Port, the holdoff is set or cleared, and the Send Queue takes the report (R20, R43 to
R45). -/
def State.endAttempt (s : State) (a : Attempt) (how : AttemptEnd) : State :=
  let s1 :=
    { s with
      line :=
        { s.line with
          attempt := none, holdoffOwed := decide (how ≠ AttemptEnd.lost)
          drive := if s.line.drive = Drive.frame then Drive.released else s.line.drive } }
  match how with
  | .completed => s1.attemptCompleted a
  | .lost => s1.attemptReturned a
  | .failed => s1.attemptFailed a
  | .abandoned => s1.attemptReturned a

/-- A transmit error ends an attempt: TEC rises, and the attempt is failed, or abandoned if that entered OFF (R17, R18,
R20, R21, R23). `spoil` says whether a spoil follows when OFF is not entered. -/
def State.transmitError (s : State) (a : Attempt) (spoil : Bool) : State :=
  let off := s.line.goesOff
  let l := s.line.sendError
  let s1 :=
    { s with
      line := { l with followed := none }
      errors := s.errors.bumpIf off .lineOffEntries }
  let s2 := s1.endAttempt a (if off then .abandoned else .failed)
  if spoil ∧ off = false then { s2 with line := { s2.line with drive := .spoil } } else s2

/-! ## Receiving (R4, R9, R12) -/

/-- A receive error: counted, REC raised, the frame given up, and a spoil driven where the station may (R9). -/
def State.receiveError (s : State) (kind : ErrorCount) : State :=
  let l := s.line.receiveError
  { s with
    errors := s.errors.bump kind
    line := { l with followed := none, drive := if s.maySpoil then .spoil else l.drive } }

/-- A character is taken by a receiver (R4, R9, R12). -/
def State.receiveChar (s : State) (f : Followed) (c : LineChar) : State :=
  if f.inWindow then s
  else
    match charFault f.chars c with
    | some kind => s.receiveError kind
    | none =>
      let g : Followed := { f with chars := f.chars ++ [c.data] }
      { s with
        line :=
          { s.line with
            followed := some g
            drive := if g.inWindow && s.mayAck then .ack else s.line.drive } }

/-- A character of the station's own frame has gone out as sent (R17). A character that differs is no character of an
attempt still in flight: it is a lost arbitration or a bit error (DEDUCED, safe, log entry 7). -/
def State.sendChar (s : State) (a : Attempt) (f : Followed) (c : LineChar) : State :=
  match (frameChars a.key a.payload a.check)[f.chars.length]? with
  | none => s
  | some b =>
    if c = goodChar b then
      let g : Followed := { f with chars := f.chars ++ [b] }
      { s with line := { s.line with followed := some g, drive := if g.inWindow then .released else s.line.drive } }
    else s

/-- The count of R5 after a character outside an ack window. A character begins with the edge of its start bit (R2); one
whose start bit stays away is a bit time of the frame body being received (R4), and nothing otherwise: on the station's
own frame it comes as a bit error (R17). -/
def LinePort.bodyRun (l : LinePort) (c : LineChar) : Nat :=
  if c.start = .dominant ∨ (l.followed.isSome ∧ l.attempt.isNone) then countChar l.recessiveRun c else l.recessiveRun

/-- The eleven bit times of a character time reach the count of R5. In an ack window, which is one character time (R12),
they count on from C2, and a quiet gap reached there that no QUIET_GAP has taken is counted (R5, R24; log entry 6). -/
def LinePort.hear (l : LinePort) (c : LineChar) : LinePort :=
  match l.followed.filter Followed.inWindow with
  | none => { l with recessiveRun := l.bodyRun c }
  | some f =>
    { (if l.recessiveRun < 13 ∧ 13 ≤ countTime f.closingRun c then l.countGap else l) with
      recessiveRun := countTime f.closingRun c }

/-- CHARACTER_RECEIVED on a running station. -/
def State.takeChar (s : State) (c : LineChar) : State :=
  if s.line.samples then
    let s1 := { s with line := s.line.hear c }
    match s1.line.followed with
    | none => s1
    | some f =>
      match s1.line.attempt with
      | some a => s1.sendChar a f c
      | none => s1.receiveChar f c
  else s

/-! ## Joining (R25, R182) -/

/-- The station joins at its first quiet gap after load completion (R25, R76, R182). -/
def State.join (s : State) : State :=
  let s1 :=
    { s with
      line := { s.line with listening := true, joined := true }
      loader := { s.loader with mode := .online } }
  if s.station.shadow then s1
  else s1.requestFrame { cls := 6, subject := 0, content := .fixed [0, 0], late := false, singleTry := false }

/-- QUIET_GAP on a running station (R5, R24, R182). -/
def State.takeGap (s : State) : State :=
  if s.line.samples then
    let s1 := { s with line := { s.line.countGap with recessiveRun := nextGap s.line.recessiveRun } }
    if s.loader.mode = .loading ∧ s.loader.loaded then s1.join else s1
  else s

/-! ## The meanings -/

/-- QUIET_GAP (R5). -/
def execQuietGap (t : Nat) (s : State) : Host.Outcome State Fault Refusal :=
  .next (s.onEvent t State.takeGap)

/-- ATTEMPT_START (R15): the station contends and drives the SOF. -/
def execAttemptStart (t run : Nat) (s : State) : Host.Outcome State Fault Refusal :=
  .next (s.onEvent t fun s => if s.contends run then s.beginAttempt else s)

/-- SOF_EDGE (R6, R15): another station's edge, joined by a contending station and followed by any other. -/
def execSofEdge (t run : Nat) (s : State) : Host.Outcome State Fault Refusal :=
  .next (s.onEvent t fun s =>
    if s.line.listening ∧ 13 ≤ s.line.recessiveRun ∧ s.line.attempt.isNone then
      (if s.contends run then s.beginAttempt else s.followEdge)
    else s)

/-- CHARACTER_RECEIVED (R4, R5, R9, R12): a character of a frame, or the character time of an ack window. -/
def execCharacterReceived (t : Nat) (c : LineChar) (s : State) : Host.Outcome State Fault Refusal :=
  .next (s.onEvent t fun s => s.takeChar c)

/-- SPOIL_END (R10). The line is released whatever it shows. Where it showed the spoil, SPOIL_SEEN has set the count of
R5 to 0; a station without a transceiver counts on through its own spoil (R5, R182). -/
def execSpoilEnd (t : Nat) (s : State) : Host.Outcome State Fault Refusal :=
  .next (s.onEvent t fun s =>
    if s.line.drive = .spoil then { s with line := { s.line with drive := .released } } else s)

/-- A spoil is recognised (R11); on the station's own frame it fails the attempt (R18). -/
def State.seeSpoil (s : State) : State :=
  let s1 :=
    { s with
      errors := s.errors.bump .spoilsSeen
      line := { s.line.releaseAck with followed := none, recessiveRun := 0 } }
  match s.line.attempt with
  | none => s1
  | some a => s1.transmitError a false

/-- SPOIL_SEEN (R11). -/
def execSpoilSeen (t : Nat) (s : State) : Host.Outcome State Fault Refusal :=
  .next (s.onEvent t fun s => if s.line.listening then s.seeSpoil else s)

/-- ARBITRATION_LOST (R16): at a key data bit the attempt sends recessive. -/
def execArbitrationLost (t : Nat) (bit : Fin 16) (s : State) : Host.Outcome State Fault Refusal :=
  .next (s.onEvent t fun s =>
    match s.line.attempt, s.line.followed with
    | some a, some f =>
      if f.chars.length = bit.val / 8 ∧ a.key.getMsbD bit then
        State.endAttempt { s with line := { s.line with recessiveRun := 0 } } a .lost
      else s
    | _, _ => s)

/-- BIT_ERROR (R17): before the ack window of the station's own frame. -/
def execBitError (t run : Nat) (s : State) : Host.Outcome State Fault Refusal :=
  .next (s.onEvent t fun s =>
    match s.line.attempt, s.line.followed with
    | some a, some f =>
      if f.inWindow then s
      else State.transmitError { s with line := { s.line with recessiveRun := run } } a s.maySpoil
    | _, _ => s)

/-- The attempt in flight whose own frame is in its ack window (R18). -/
def State.windowAttempt (s : State) : Option (Attempt × Followed) :=
  match s.line.attempt, s.line.followed with
  | some a, some f => if f.inWindow then some (a, f) else none
  | _, _ => none

/-- The ack-miss change to TEC: + 4 below 128, none at 128 or above (R21). -/
def LinePort.missAck (l : LinePort) : LinePort :=
  if l.tec < 128 then l.sendError else l

/-- ACK_MISS (R18). -/
def execAckMiss (t : Nat) (s : State) : Host.Outcome State Fault Refusal :=
  .next (s.onEvent t fun s =>
    match s.windowAttempt with
    | none => s
    | some (a, _) =>
      State.endAttempt
        { s with
          errors := s.errors.bump .ackMisses
          line := { s.line.missAck with followed := none, recessiveRun := s.line.recessiveRun + 1 } }
        a .failed)

/-- OWN_FRAME_SPOILED (R18). -/
def execOwnFrameSpoiled (t : Nat) (s : State) : Host.Outcome State Fault Refusal :=
  .next (s.onEvent t fun s =>
    match s.windowAttempt with
    | none => s
    | some (a, _) => State.transmitError { s with line := { s.line with recessiveRun := 0 } } a false)

/-- OWN_FRAME_COMPLETE (R19). -/
def execOwnFrameComplete (t : Nat) (s : State) : Host.Outcome State Fault Refusal :=
  .next (s.onEvent t fun s =>
    match s.windowAttempt with
    | none => s
    | some (a, f) =>
      let l := s.line.sendGood
      let s1 := { s with line := { l with framesSent := l.framesSent + 1, followed := none } }
      let s2 := s1.endAttempt a .completed
      if s.handsOn then s2.dispatchFrame (frameOf a.key a.payload f.sof) else s2)

/-- FRAME_COMPLETE (R12, R13). -/
def execFrameComplete (t : Nat) (s : State) : Host.Outcome State Fault Refusal :=
  .next (s.onEvent t fun s =>
    match s.line.attempt, s.line.followed with
    | none, some f =>
      if f.inWindow then
        State.completeFrame { s with line := { s.line.releaseAck with followed := none } } f
      else s
    | _, _ => s)

/-- FRAME_SPOILED_IN_WINDOW (R12). -/
def execFrameSpoiledInWindow (t : Nat) (s : State) : Host.Outcome State Fault Refusal :=
  .next (s.onEvent t fun s =>
    match s.line.attempt, s.line.followed with
    | none, some f =>
      if f.inWindow then
        { s with line := { s.line.releaseAck with followed := none, recessiveRun := 0 } }
      else s
    | _, _ => s)

end Sys2Proof.Machine
end

