-- ==== Sys2Proof/Machine/StartRecord.lean ====
section
/-!
DEFINITION. The start record and the clip directory as bytes: their layouts (11.2, 11.3), the checks of R178, R179 and
R196, and the taking of directory entries (R129, R195).
-/

namespace Sys2Proof.Machine

/-! ## Reading fields -/

/-- The byte at an offset of a run of bytes. -/
def byteAt (bs : List Byte) (offset : Nat) : Byte :=
  bs[offset]?.getD 0

/-- The word at an offset, low byte first (11.3). -/
def wordAt (bs : List Byte) (offset : Nat) : Nat :=
  (word16 (byteAt bs (offset + 1)) (byteAt bs offset)).toNat

/-- The number that bytes hold, low byte first (11.2). -/
def littleEndian : List Byte → Nat
  | [] => 0
  | b :: bs => b.toNat + 256 * littleEndian bs

/-- `count` records of `size` bytes each, one after the other. -/
def chunks (size : Nat) : Nat → List Byte → List (List Byte)
  | 0, _ => []
  | count + 1, bs => bs.take size :: chunks size count (bs.drop size)

/-- A byte judged against a range (R179). -/
def inRange (lo hi : Nat) (b : Byte) : Option Nat :=
  if lo ≤ b.toNat ∧ b.toNat ≤ hi then some b.toNat else none

/-- A byte that is 0 for clear or 1 for set (11.3). -/
def flagOf (b : Byte) : Option Bool :=
  if b = 0 then some false else if b = 1 then some true else none

/-- A table whose every entry is in range; out of range when any entry is (R179). -/
def allFields {α : Type} {n : Nat} (f : Fin n → Option α) : Option (Vector α n) :=
  if h : ∀ i, (f i).isSome then some (Vector.ofFn fun i => (f i).get (h i)) else none

/-! ## Fields of the record (9.3, 11.3) -/

/-- The bit rate code. -/
def bitRateOf (b : Byte) : Option BitRate :=
  match b.toNat with
  | 0 => some .kbit125
  | 1 => some .kbit250
  | 2 => some .kbit500
  | _ => none

/-- A duck time word, 0..2550 ms. -/
def duckTimeOf (w : Nat) : Option Nat :=
  if w ≤ 2550 then some w else none

/-- An event-code word: 0..255 a code, FFFF NONE. -/
def eventCodeOf (w : Nat) : Option (Option Byte) :=
  if w ≤ 255 then some (some (byteOf w)) else if w = 0xFFFF then some none else none

/-- A seat byte of a GO action: a seat, or FF for none. -/
def goSeatOf (b : Byte) : Option (Option Seat) :=
  if b = 0xFF then some none else (seatOf b).map some

/-- An input action from its four bytes: kind, A, B, C. -/
def actionOf (kind a b c : Byte) : Option InputAction :=
  match kind.toNat with
  | 0 => some .none
  | 1 => (seatOf a).map .buzz
  | 2 => (goSeatOf b).bind fun seat => (flagOf c).map fun single => .go a seat single
  | 3 => some (.localCode a)
  | 4 => some (.cut a)
  | 5 => (verbOf a).map .judge
  | 6 => some .stop
  | _ => none

/-- A long time: 0, or 10..255. -/
def longTimeOf (b : Byte) : Option Nat :=
  if b.toNat = 0 ∨ 10 ≤ b.toNat then some b.toNat else none

/-- An input record, 10 bytes. -/
def inputOf (bs : List Byte) : Option InputConfig := do
  let debounce ← inRange 1 31 (byteAt bs 0)
  let longTime ← longTimeOf (byteAt bs 1)
  let short ← actionOf (byteAt bs 2) (byteAt bs 3) (byteAt bs 4) (byteAt bs 5)
  let long ← actionOf (byteAt bs 6) (byteAt bs 7) (byteAt bs 8) (byteAt bs 9)
  some { debounce := debounce, longTime := longTime, short := short, long := long }

/-- A lamp record, 2 bytes. -/
def lampOf (bs : List Byte) : Option LampAssign :=
  match (byteAt bs 0).toNat with
  | 0 => (seatOf (byteAt bs 1)).map .seat
  | 1 => some .cue
  | _ => none

/-- A source filter. -/
def filterOf (b : Byte) : Option SourceFilter :=
  match b.toNat with
  | 0 => some .any
  | 1 => some .line
  | 2 => some .local
  | _ => none

/-- A selection. -/
def selectionOf (b : Byte) : Option Selection :=
  match b.toNat with
  | 0 => some .fixed
  | 1 => some .cycle
  | 2 => some .seat
  | _ => none

/-- A retrigger policy. -/
def retriggerOf (b : Byte) : Option Retrigger :=
  match b.toNat with
  | 0 => some .restart
  | 1 => some .layer
  | 2 => some .ignore
  | _ => none

/-- An end route. -/
def endRouteOf (b : Byte) : Option EndRoute :=
  match b.toNat with
  | 0 => some .local
  | 1 => some .line
  | _ => none

/-- A lamp pattern. -/
def patternOf (b : Byte) : Option PatternKind :=
  match b.toNat with
  | 0 => some .off
  | 1 => some .steady
  | 2 => some .blink
  | _ => none

/-- The PLAY column of a slot record (R81). -/
def playOf (bs : List Byte) : Option PlayConfig := do
  let length ← inRange 1 4 (byteAt bs 5)
  let selection ← selectionOf (byteAt bs 10)
  let priority ← inRange 0 7 (byteAt bs 11)
  let choke ← inRange 0 7 (byteAt bs 12)
  let air ← inRange 0 120 (byteAt bs 13)
  let house ← inRange 0 120 (byteAt bs 14)
  let duck ← inRange 0 96 (byteAt bs 15)
  let loop ← flagOf (byteAt bs 19)
  let retrigger ← retriggerOf (byteAt bs 20)
  let hasEnd ← flagOf (byteAt bs 21)
  let route ← endRouteOf (byteAt bs 23)
  some
    { clipList := (bs.drop 6).take length, selection := selection, priority := priority, choke := choke
      airSend := air, houseSend := house, duckDepth := duck, fadeIn := (byteAt bs 16).toNat
      fadeOut := (byteAt bs 17).toNat, preDelay := (byteAt bs 18).toNat, loopFlag := loop, retrigger := retrigger
      endCode := if hasEnd then some (byteAt bs 22) else none, endRoute := route }

/-- The STOPGROUP column of a slot record (R82). -/
def stopGroupOf (bs : List Byte) : Option SlotAction := do
  let group ← inRange 1 7 (byteAt bs 5)
  let present ← flagOf (byteAt bs 6)
  some (.stopGroup group (if present then some (byteAt bs 7).toNat else none))

/-- The lamp 0..7 that a byte names. -/
def lampNumberOf (b : Byte) : Option (Fin 8) :=
  if h : b.toNat < 8 then some ⟨b.toNat, h⟩ else none

/-- The LAMP column of a slot record (R82). -/
def lampOrderOf (bs : List Byte) : Option SlotAction := do
  let lamp ← lampNumberOf (byteAt bs 5)
  let pattern ← patternOf (byteAt bs 6)
  let period ← inRange 2 255 (byteAt bs 8)
  let duty ← inRange 1 99 (byteAt bs 9)
  some
    (.lamp
      { lamp := lamp, pattern := pattern, level := (byteAt bs 7).toNat, period := period, duty := duty
        duration := (byteAt bs 10).toNat })

/-- The EMIT column of a slot record (R82). -/
def emitOf (bs : List Byte) : Option SlotAction := do
  let single ← flagOf (byteAt bs 6)
  let through ← flagOf (byteAt bs 7)
  some (.emit (byteAt bs 5) single through)

/-- The action of a slot record, judged by the column of that action alone (R196). -/
def slotActionOf (bs : List Byte) : Option SlotAction :=
  match (byteAt bs 4).toNat with
  | 0 => (playOf bs).map .play
  | 1 => stopGroupOf bs
  | 2 => lampOrderOf bs
  | 3 => emitOf bs
  | _ => none

/-- A slot record, 24 bytes (R80, R196). -/
def slotOfRecord (bs : List Byte) : Option SlotRecord := do
  let enabled ← flagOf (byteAt bs 0)
  let filter ← filterOf (byteAt bs 3)
  let action ← slotActionOf bs
  some
    { enabled := enabled
      config := { code := byteAt bs 1, mask := byteAt bs 2, filter := filter, action := action } }

/-- The station, line, mix, lamp and round fields that blocks take as one configuration. -/
def stationOf (bs : List Byte) : Option StationConfig := do
  let number ← inRange 1 15 (byteAt bs 4)
  let shadow ← flagOf (byteAt bs 5)
  let fireLead ← inRange 2 100 (byteAt bs 8)
  let preset ← armOf ((bs.drop 18).take 5)
  let codes ← allFields fun i : Fin 10 => eventCodeOf (wordAt bs (24 + 2 * i))
  let flags ← allFields fun i : Fin 5 => flagOf (byteAt bs (44 + i))
  some
    { number := BitVec.ofNat 4 number, shadow := shadow, fireLead := fireLead
      lateLimit := (byteAt bs 9).toNat, dimLevel := (byteAt bs 11).toNat, armPreset := preset
      eventCode := codes, addSeat := flags }

/-- The record decoded by 11.3; none when a judged field is out of range (R179, R196). -/
def recordOf (bs : List Byte) : Option StartRecord := do
  let station ← stationOf bs
  let bitRate ← bitRateOf (byteAt bs 6)
  let warning ← inRange 32 224 (byteAt bs 7)
  let attack ← duckTimeOf (wordAt bs 12)
  let release ← duckTimeOf (wordAt bs 14)
  let air ← inRange 0 120 (byteAt bs 16)
  let house ← inRange 0 120 (byteAt bs 17)
  let inputs ← allFields fun i : Fin 8 => inputOf ((chunks 10 8 (bs.drop 64))[i.val]?.getD [])
  let lamps ← allFields fun i : Fin 8 => lampOf ((chunks 2 8 (bs.drop 144))[i.val]?.getD [])
  let slots ← allFields fun i : Fin 48 => slotOfRecord ((chunks 24 48 (bs.drop 160))[i.val]?.getD [])
  some
    { station := station, bitRate := bitRate, warningLevel := warning, holdoff := (byteAt bs 10).toNat
      attackMs := attack, releaseMs := release, airMaster := air, houseMaster := house, inputs := inputs
      lamps := lamps, slots := slots }

/-! ## The checks (R178) -/

/-- Bytes of the start record (9.3). -/
def recordSize : Nat := 1536

/-- The sum of the words of a run of bytes, each low byte first, modulo 65536 (R178). -/
def wordSum : List Byte → BitVec 16
  | lo :: hi :: rest => word16 hi lo + wordSum rest
  | _ => 0

/-- What the Start Loader finds of a record. -/
inductive RecordVerdict where
  | fault (f : StartFault)
  | passed (r : StartRecord)
  deriving DecidableEq, Repr

/-- The three stages of R178, stopping at the first that fails. -/
def judgeRecord (bs : List Byte) : RecordVerdict :=
  if wordAt bs 0 ≠ 0x4353 ∨ wordAt bs 2 ≠ 1 then .fault .noRecord
  else if wordSum bs ≠ 0 then .fault .badSum
  else
    match recordOf bs with
    | none => .fault .badValue
    | some r => .passed r

/-! ## The clip directory (R129, R195) -/

/-- First byte of the clip directory (R127). -/
def directoryStart : Nat := 0x1000

/-- Bytes of the clip directory: 256 entries of 16 bytes (R127). -/
def directorySize : Nat := 4096

/-- First byte of the audio region (R127). -/
def audioStart : Nat := 0x3000

/-- The most frames a clip may have (R128). -/
def maxFrames : Nat := 4194304

/-- What the Clip Table makes of a directory entry (R129). -/
inductive EntryVerdict where
  | blank
  | refused
  | taken (c : Clip)
  deriving DecidableEq, Repr

/-- The channels byte (11.2). -/
def channelsOf (b : Byte) : Option Channels :=
  match b.toNat with
  | 1 => some .mono
  | 2 => some .stereo
  | _ => none

/-- The loop an entry marks, none when both numbers read FFFFFFFF (R195). -/
def markedLoop (first last : Nat) : Option Loop :=
  if first = 0xFFFFFFFF ∧ last = 0xFFFFFFFF then none else some { first := first, last := last }

/-- The loop test of R129. -/
def loopFits (frames : Nat) : Option Loop → Bool
  | none => true
  | some l => decide (l.first < l.last) && decide (l.last ≤ frames)

/-- How many bytes one frame takes (R127). -/
def Channels.bytes : Channels → Nat
  | .mono => 2
  | .stereo => 4

/-- The tests of R129 on a clip as decoded. -/
def Clip.fits (c : Clip) : Bool :=
  decide (1 ≤ c.frames) && decide (c.frames ≤ maxFrames) && decide (audioStart ≤ c.address) &&
    decide (c.address + c.frames * c.channels.bytes ≤ flashSize) && loopFits c.frames c.loop

/-- A directory entry of 16 bytes is blank, refused or taken (R129, R195). -/
def judgeEntry (bs : List Byte) : EntryVerdict :=
  if bs.all (fun b => decide (b = erasedByte)) then .blank
  else
    match channelsOf (byteAt bs 3) with
    | none => .refused
    | some channels =>
      let clip : Clip :=
        { address := littleEndian (bs.take 3), frames := littleEndian ((bs.drop 4).take 4), channels := channels
          loop := markedLoop (littleEndian ((bs.drop 8).take 4)) (littleEndian ((bs.drop 12).take 4)) }
      if clip.fits then .taken clip else .refused

/-- The clip of an entry that was taken. -/
def EntryVerdict.clip : EntryVerdict → Option Clip
  | .taken c => some c
  | .blank | .refused => none

/-- The Clip Table takes the directory (R129). -/
def takeDirectory (bs : List Byte) : ClipTable :=
  { entries := Vector.ofFn fun n : Fin 256 => (judgeEntry ((chunks 16 256 bs)[n.val]?.getD [])).clip
    dropped := (chunks 16 256 bs).countP fun e => decide (judgeEntry e = .refused) }

end Sys2Proof.Machine
end

