-- ==== Sys2Proof/Machine/Startup.lean ====
section
/-!
DEFINITION. Power, reset, and the Start Loader: what a reset, a power loss and load completion do to the whole station
(R28, R136, R141, R174 to R181), and the meanings of their commands.
-/

namespace Sys2Proof.Machine

/-! ## Reset (R141, R175) -/

/-- Master clock periods an ERASE or PROGRAM takes: 40 ms or 1 ms (R138, R139). -/
def FlashJob.clocks : FlashJob → Nat
  | .erase _ => 40 * milliClocks
  | .program _ _ => milliClocks

/-- The operation has begun in the flash; one still waiting for a fetch read to complete has not (R137, R190, log entry
28). -/
def FlashOp.begun (o : FlashOp) (clock : Nat) : Bool :=
  decide (o.dueAt ≤ clock + o.job.clocks)

/-- An operation that has not begun never reaches the flash once the interface stops (R136; DEDUCED, unsafe, log entry
28). -/
def Flash.dropWaiting (f : Flash) (clock : Nat) : Flash :=
  { f with op := f.op.filter fun o => o.begun clock }

/-- An operation that has begun runs on through a reset, its end counted on the new clock (R141). -/
def Flash.throughReset (f : Flash) (clock : Nat) : Flash :=
  { mem := f.mem
    op := (f.dropWaiting clock).op.map fun o => { o with dueAt := o.dueAt - clock }
    freeSince := 0 }

/-- A reset of the whole station (R175): every block takes its reset values; the flash keeps its bytes and its operation
(R141), and the commands that wait stay. -/
def State.resetTo (s : State) (cause : ResetCause) : State :=
  { State.reset with
    loader := Loader.reset cause, flash := s.flash.throughReset s.clock, freeCount := s.freeCount
    pending := s.pending }

/-! ## Power (R141) -/

/-- An operation cut short by the `n`-th power loss (R141; free values, log entry 12). -/
def FlashJob.cutShort (job : FlashJob) (mem : List Host.Cell) (n : Nat) : List Host.Cell :=
  match job with
  | .erase a => Memory.eraseCut mem a n
  | .program a data => Memory.program mem a (programCut n a data)

/-- The flash after a loss of power (R141). -/
def Flash.losePower (f : Flash) (clock n : Nat) : Flash :=
  { mem :=
      (match (f.dropWaiting clock).op with
      | none => f.mem
      | some o => o.job.cutShort f.mem n)
    op := none, freeSince := 0 }

/-- The station without power: it holds the reset values until power comes up (DESIGN CHOICE, safe, log entry 13). -/
def State.losePower (s : State) : State :=
  { State.reset with
    powered := false, flash := s.flash.losePower s.clock s.freeCount
    freeCount := s.freeCount + (if s.flash.busy then 1 else 0), pending := s.pending }

/-- POWER_ON (R175). A station that still has power loses it first (log entry 13). -/
def execPowerOn (t : Nat) (lineLow : Bool) (s : State) : Host.Outcome State Fault Refusal :=
  let off := if s.powered then (s.advance t).losePower else s.advance t
  .next
    { off.resetTo .power with resetLine := if lineLow then .lowFromPowerUp else .released }

/-- POWER_LOSS (R141): station and flash lose power together (DESIGN CHOICE, unsafe, log entry 13). -/
def execPowerLoss (t : Nat) (s : State) : Host.Outcome State Fault Refusal :=
  .next (if s.powered then (s.advance t).losePower else s.advance t)

/-! ## The reset line (R28, R136, R175, R184) -/

/-- The cause that the release of the reset line leaves (R175). -/
def ResetLine.cause : ResetLine → ResetCause
  | .lowFromPowerUp => .power
  | .released | .low => .line

/-- RESET_LINE (R175): the line is released. -/
def execResetLine (t : Nat) (s : State) : Host.Outcome State Fault Refusal :=
  .next (if s.powered then (s.advance t).resetTo s.resetLine.cause else s.advance t)

/-- What the low level stops at once: every drive of the Line Port and the attempt, the flash reads, the service port
(R28, R136, R184). The rest stands until the reset at release (DESIGN CHOICE, unsafe, log entry 14). -/
def State.holdInReset (s : State) : State :=
  { s with
    resetLine := if s.resetLine = .lowFromPowerUp then .lowFromPowerUp else .low
    line := { s.line with drive := .released, attempt := none }
    fetch := none
    flash := s.flash.dropWaiting s.clock
    service := ServicePort.reset }

/-- RESET_LINE_LOW (R28, R175). -/
def execResetLineLow (t : Nat) (s : State) : Host.Outcome State Fault Refusal :=
  .next (if s.powered then (s.advance t).holdInReset else s.advance t)

/-! ## Loading (R176 to R181) -/

/-- The read of the start record has run to its end: the flash has been free for the time of the transfer (R137,
R176). -/
def State.recordReadEnds (s : State) : Bool :=
  decide (s.loader.mode = .loading) && !s.loader.loaded && s.loader.record.isNone && !s.flash.busy &&
    decide (s.flash.freeSince + readClocks recordSize ≤ s.clock)

/-- The record has been read: a start fault puts the station in SERVICE, a record that passes is held (R177, R178,
R180). -/
def State.judgeStart (s : State) : State :=
  match judgeRecord (Memory.readRun s.flash.mem 0 recordSize) with
  | .fault f => { s with loader := { s.loader with mode := .service, fault := f } }
  | .passed r => { s with loader := { s.loader with record := some { record := r, readAt := s.clock } } }

/-- START_RECORD_READ (R176): the end of the read, at the time R137 gives its transfer (DEDUCED, unsafe, log entry 27). -/
def execStartRecordRead (t : Nat) (s : State) : Host.Outcome State Fault Refusal :=
  .next (s.onEvent t fun s => if s.recordReadEnds then s.judgeStart else s)

/-- The directory read that follows the held record has run to its end by now (R137, R181). -/
def State.loadable (s : State) : Option StartRecord :=
  match s.loader.record with
  | none => none
  | some h =>
    if s.loader.mode = .loading ∧ s.loader.loaded = false ∧ s.flash.busy = false ∧
        h.readAt + readClocks directorySize ≤ s.clock
    then some h.record
    else none

/-- The Line Port takes its configuration and begins to sample (R181). -/
def LinePort.configure (l : LinePort) (r : StartRecord) : LinePort :=
  { l with
    bitRate := some r.bitRate, warningLevel := r.warningLevel, holdoff := r.holdoff, recessiveRun := 0 }

/-- The Mixer takes its rates and masters (R149, R150, R181). -/
def Mixer.configure (m : Mixer) (r : StartRecord) : Mixer :=
  { m with
    air := { current := r.airMaster, target := r.airMaster }
    house := { current := r.houseMaster, target := r.houseMaster }
    attack := rateOf r.attackMs, release := rateOf r.releaseMs }

/-- The Cue Table writes every slot (R80, R181). -/
def Pool.configure (p : Pool) (r : StartRecord) : Pool :=
  { p with
    slots := mapEach p.slots fun n x => { x with enabled := r.slots[n].enabled, config := some r.slots[n].config } }

/-- Load completion (R181). -/
def State.completeLoad (s : State) (r : StartRecord) : State :=
  { s with
    loader := { s.loader with loaded := true, record := none }
    station := r.station
    line := s.line.configure r
    pool := s.pool.configure r
    clips := takeDirectory (Memory.readRun s.flash.mem directoryStart directorySize)
    mixer := s.mixer.configure r
    inputs := mapEach s.inputs fun i x => { x with config := some r.inputs[i] }
    lamps := mapEach s.lamps fun i l => { l with assign := r.lamps[i] } }

/-- LOAD_COMPLETION (R181), at the time R137 gives the transfer of the directory (DEDUCED, unsafe, log entry 27). -/
def execLoadCompletion (t : Nat) (s : State) : Host.Outcome State Fault Refusal :=
  .next (s.onEvent t fun s =>
    match s.loadable with
    | none => s
    | some r => s.completeLoad r)

end Sys2Proof.Machine
end

