-- ==== Sys2Proof/Machine/Service.lean ====
section
/-!
DEFINITION. The Service Port: packet assembly (R185), the judgment and carrying out of commands (R186 to R191, R193,
R197), responses, entry to SERVICE (R183), and the meanings of the service port's commands.
-/

namespace Sys2Proof.Machine

/-! ## Entry to SERVICE (R183) -/

/-- The Line Port and the Send Queue enter SERVICE: the queue is emptied, an attempt is abandoned, every drive stops, and
a frame followed as a receiver goes on (R27, R52). The station's own frame is dropped (DEDUCED, unsafe, log entry 20). -/
def State.leaveLine (s : State) : State :=
  let emptied := { s with queue := [] }
  let left :=
    match s.line.attempt with
    | none => emptied
    | some a => State.endAttempt { emptied with line := { s.line with followed := none } } a .abandoned
  { left with line := { left.line with drive := .released } }

/-- Entry to SERVICE from ONLINE (R27, R52, R79, R105, R125, R158, R173, R183). The mix held becomes 0. R158 does not say in
which period an entry at the very beginning of a sample period falls: taken before the SAMPLE_PERIOD of that instant it
falls in the period that ends, and 0 goes out one slot earlier than when taken after it (DESIGN CHOICE, safe, log
entry 32). -/
def State.enterService (s : State) : State :=
  let s := { s.leaveLine with loader := { s.loader with mode := .service } }
  let s := { s with pool := { s.pool.freeAll.dropPending with grant := none }, mixer := { s.mixer with mix := BusMix.silence } }
  s.darkenCueLamps.roundEntersService

/-! ## Taking a packet (R186, R187, R197) -/

/-- The seven commands (11.4) with their arguments. -/
inductive ServiceCommand where
  | status
  | enter
  | erase (address : Nat)
  | program (address : Nat) (data : List Byte)
  | read (address count : Nat)
  | errors (arg : Byte)
  | restart
  deriving DecidableEq, Repr

/-- The command byte names one of the seven (R186 step 2, R197). -/
def knownCommand (cmd : Byte) : Bool :=
  decide (1 ≤ cmd.toNat) && decide (cmd.toNat ≤ 7)

/-- The status of steps 3 and 4 of R186: one operation at a time, and the station mode. OK lets the packet pass. -/
def State.gate (s : State) (cmd : Byte) : PacketStatus :=
  if s.service.inProgress ≠ .none ∧ cmd.toNat ≠ 1 then .busy
  else
    match cmd.toNat with
    | 2 => if s.loader.mode = .loading then .busy else .ok
    | 3 | 4 | 5 => if s.loader.mode = .service then .ok else .notService
    | _ => .ok

/-- The arguments of ERASE (R186 step 5). -/
def eraseArgs : List Byte → Option ServiceCommand
  | [hi, mid, lo] => if addressOf hi mid lo % sectorSize = 0 then some (.erase (addressOf hi mid lo)) else none
  | _ => none

/-- Bytes of one program page (R127). -/
def pageSize : Nat := 256

/-- The arguments of PROGRAM (R186 step 5). -/
def programArgs : List Byte → Option ServiceCommand
  | hi :: mid :: lo :: data =>
    if 1 ≤ data.length ∧ data.length ≤ 64 ∧ addressOf hi mid lo % pageSize + data.length ≤ pageSize then
      some (.program (addressOf hi mid lo) data)
    else none
  | _ => none

/-- The arguments of READ (R186 step 5). -/
def readArgs : List Byte → Option ServiceCommand
  | [hi, mid, lo, count] =>
    if 1 ≤ count.toNat ∧ count.toNat ≤ 64 ∧ addressOf hi mid lo + count.toNat ≤ flashSize then
      some (.read (addressOf hi mid lo) count.toNat)
    else none
  | _ => none

/-- The argument of ERRORS (R186 step 5, R197). -/
def errorsArgs : List Byte → Option ServiceCommand
  | [arg] => if (arg &&& 0x7F).toNat < 6 then some (.errors arg) else none
  | _ => none

/-- A command without arguments (R186 step 5). -/
def noArgs (c : ServiceCommand) (payload : List Byte) : Option ServiceCommand :=
  if payload = [] then some c else none

/-- The command of a packet whose arguments fit it (R186 step 5). -/
def commandOf (cmd : Byte) (payload : List Byte) : Option ServiceCommand :=
  match cmd.toNat with
  | 1 => noArgs .status payload
  | 2 => noArgs .enter payload
  | 3 => eraseArgs payload
  | 4 => programArgs payload
  | 5 => readArgs payload
  | 6 => errorsArgs payload
  | 7 => noArgs .restart payload
  | _ => none

/-- How a packet is judged (R186). -/
inductive Judgment where
  | refuse (status : PacketStatus)
  | carryOut (c : ServiceCommand)
  deriving DecidableEq, Repr

/-- The five steps of R186. `sumOk` is the outcome of the first. -/
def State.judgePacket (s : State) (cmd : Byte) (payload : List Byte) (sumOk : Bool) : Judgment :=
  if sumOk = false then .refuse .badSum
  else if knownCommand cmd = false then .refuse .unknown
  else if s.gate cmd ≠ .ok then .refuse (s.gate cmd)
  else
    match commandOf cmd payload with
    | none => .refuse .badArg
    | some c => .carryOut c

/-- A response joins the end of the answer list (R187); its command byte has bit 7 set (R197). With none before it, it begins
to go out at once (DEDUCED, unsafe, log entry 41). -/
def State.respond (s : State) (cmd : Byte) (status : PacketStatus) (payload : List Byte) : State :=
  { s with
    service :=
      { s.service with
        answers := s.service.answers ++ [{ command := cmd ||| 0x80, status := status, payload := payload }]
        sendingFrom := some (s.service.sendingFrom.getD s.clock) } }

/-! ## The commands (R188 to R191, R193) -/

/-- The code of a station mode (11.4). -/
def modeByte : StationMode → Byte
  | .loading => 0
  | .online => 1
  | .service => 2

/-- The code of a start fault (11.4). -/
def faultByte : StartFault → Byte
  | .none => 0
  | .noRecord => 1
  | .badSum => 2
  | .badValue => 3

/-- The code of a reset cause (11.4). -/
def causeByte : ResetCause → Byte
  | .power => 0
  | .line => 1
  | .restart => 2

/-- The code of a command in progress (11.4). -/
def inProgressByte : InProgress → Byte
  | .none => 0
  | .erase => 1
  | .program => 2

/-- The ten bytes of a STATUS response (R188, 11.4). -/
def State.statusPayload (s : State) : List Byte :=
  [modeByte s.loader.mode, if s.loader.loaded then 1 else 0, faultByte s.loader.fault, causeByte s.loader.cause,
    inProgressByte s.service.inProgress] ++
  wordBytes s.clips.dropped ++
  [lineStateByte s.line.lineState, byteOf s.line.tec, byteOf s.line.recCount]

/-- The instant at which a transfer taken now starts: when the fetch read in flight and the reads taken before it have
ended (R137, R190; DESIGN CHOICE, unsafe, log entry 16). -/
def State.transferStart (s : State) : Nat :=
  s.service.reads.foldl (fun n r => max n r.dueAt) (max s.clock ((s.fetch.map FetchRead.dueAt).getD 0))

/-- The flash starts an operation, and the command in progress says which (R190). -/
def State.startJob (s : State) (job : FlashJob) (kind : InProgress) : State :=
  { s with
    flash := { s.flash with op := some { job := job, dueAt := s.transferStart + job.clocks } }
    service := { s.service with inProgress := kind } }

/-- A READ starts its transfer (R190). -/
def State.startRead (s : State) (address count : Nat) : State :=
  { s with
    service :=
      { s.service with
        reads :=
          s.service.reads ++ [{ address := address, count := count, dueAt := s.transferStart + readClocks count }] } }

/-- The attempt in flight is a TELL ERRORS of this group with clear, by the argument recorded with it. An attempt without
clear takes no note of a clear by the port: R193 speaks of a TELL with clear alone, and R50 keeps what a later attempt of
its entry did not report (R42, R50, R193; log entry 24). -/
def Attempt.reports (a : Attempt) (group : Nat) : Bool :=
  decide (errorsGroup a.key a.tellArg = some group) && a.tellArg.any fun arg => arg.msb

/-- The entry is a TELL ERRORS of this group, with clear, that waits to be retried after an attempt which reported the
group (R193). -/
def Entry.retries (e : Entry) (group : Nat) : Bool :=
  decide (e.state = .waiting) && decide (e.reported = some group) &&
    decide (errorsGroup e.key e.tellArg = some group) && e.tellArg.any fun arg => arg.msb

/-- A TELL ERRORS that waits to be retried is noted as overtaken by the port's clear (R193). -/
def noteClear (group : Nat) (q : List Entry) : List Entry :=
  q.map fun e => if e.retries group then { e with portCleared := true } else e

/-- The service port clears a group: its counts become 0, and a TELL ERRORS of it that is in flight or waits to be
retried, with clear, is noted as overtaken (R50, R193; log entry 24). -/
def State.clearGroup (s : State) (group : Nat) : State :=
  { s with
    errors := s.errors.mapGroup group fun _ _ => 0
    queue := noteClear group s.queue
    line :=
      { s.line with
        attempt := s.line.attempt.map fun a => if a.reports group then { a with portCleared := true } else a } }

/-- The effect of ERRORS on the record: the clear when bit 7 of its argument is set (R193). -/
def State.errorsClear (s : State) (arg : Byte) : State :=
  if arg.msb then s.clearGroup (arg &&& 0x7F).toNat else s

/-- A command that passed its judgment is carried out (R188 to R191, R193). `cmd` is its command byte. -/
def State.carryOut (s : State) (cmd : Byte) (c : ServiceCommand) : State :=
  match c with
  | .status => s.respond cmd .ok s.statusPayload
  | .enter => (if s.loader.mode = .online then s.enterService else s).respond cmd .ok []
  | .erase a => s.startJob (.erase a) .erase
  | .program a data => s.startJob (.program a data) .program
  | .read a n => s.startRead a n
  | .errors arg => (s.errorsClear arg).respond cmd .ok (s.errorsAnswer arg)
  | .restart => State.respond { s with service := { s.service with restartPending := true } } cmd .ok []

/-- The answer list has no place for a further packet: restart pending is set, or the list is at 4, or at 3 while an
ERASE or PROGRAM is in progress; a READ under way holds a place (R187, R191; DESIGN CHOICE, unsafe, log
entry 16). -/
def State.portFull (s : State) : Bool :=
  s.service.restartPending || decide (4 ≤ s.service.answers.length + s.service.reads.length) ||
    (decide (s.service.inProgress ≠ .none) && decide (3 ≤ s.service.answers.length + s.service.reads.length))

/-- A packet is taken (R186, R187). -/
def State.takePacket (s : State) (cmd : Byte) (payload : List Byte) (sumOk : Bool) : State :=
  if s.portFull then s
  else
    match s.judgePacket cmd payload sumOk with
    | .refuse status => s.respond cmd status []
    | .carryOut c => s.carryOut cmd c

/-! ## Packet assembly (R184, R185) -/

/-- A start bit: a receiver that seeks one finds it, takes a character, and stops the gap timer (R184, R185). -/
def State.findStartBit (s : State) : State :=
  if s.service.receiver = .seeking then
    { s with service := { s.service with receiver := .receiving, gapFrom := none } }
  else s

/-- The receiver goes on to `r` (R184). -/
def State.receiverTo (s : State) (r : Receiver) : State :=
  { s with service := { s.service with receiver := r } }

/-- What the receiver does after a character: it waits for a high line after a framing error, and else seeks the next start
bit (R184). -/
def PortChar.next (c : PortChar) : Receiver :=
  if c.stopHigh then .seeking else .waitingHigh

/-- The assembly state changes; the gap timer runs from now in every state but HUNT (R185). -/
def State.assemble (s : State) (a : Assembly) : State :=
  { s with
    service := { s.service with assembly := a, gapFrom := if a = .hunt then none else some s.clock } }

/-- The fault of a character, if any: framing before parity (R184). -/
def portFault (c : PortChar) : Option ErrorCount :=
  if c.stopHigh = false then some .framingErrors
  else if c.parity ≠ evenParity c.data then some .parityErrors
  else none

/-- The state that waits for `len` payload bytes, `got` having come (R185). -/
def Assembly.awaiting (cmd : Byte) (len : Nat) (got : List Byte) : Assembly :=
  if len ≤ got.length then .check cmd got else .payload cmd len got

/-- A good character (R185). -/
def State.takeByte (s : State) (b : Byte) : State :=
  match s.service.assembly with
  | .hunt => if b = startByte then s.assemble .command else s
  | .command => s.assemble (.length b)
  | .length cmd => if 70 < b.toNat then s.assemble .hunt else s.assemble (Assembly.awaiting cmd b.toNat [])
  | .payload cmd len got => s.assemble (Assembly.awaiting cmd len (got ++ [b]))
  | .check cmd got => (s.assemble .hunt).takePacket cmd got (decide (packetCheck cmd got = b))

/-- A character of the service port (R184, R185): a faulty one is set aside in HUNT, and counted with its packet
discarded in any other state. -/
def State.takePortChar (s : State) (c : PortChar) : State :=
  match portFault c with
  | none => s.takeByte c.data
  | some kind => if s.service.assembly = Assembly.hunt then s else (s.assemble .hunt).count kind

/-- What the receiver meets: a start bit, the levels of a character it is taking, which are taken at its stop bit, or a line
that has stood high for one whole bit time (R184, R185; log entry 36). -/
def State.takePortEvent (s : State) (e : PortEvent) : State :=
  match e with
  | .startBit => s.findStartBit
  | .character levels =>
    if s.service.receiver = .receiving then
      (s.receiverTo (PortChar.ofLevels levels).next).takePortChar (PortChar.ofLevels levels)
    else s
  | .lineHigh => if s.service.receiver = .waitingHigh then s.receiverTo .seeking else s

/-- SERVICE_CHARACTER (R185). -/
def execServiceCharacter (t : Nat) (c : PortEvent) (s : State) : Host.Outcome State Fault Refusal :=
  .next (s.onEvent t fun s => s.takePortEvent c)

/-- Master clock periods of the gap timer, 20 ms, from the stop bit of a character to the next start bit (R185). -/
def gapClocks : Nat := 20 * milliClocks

/-- The gap timer has run out (R185). -/
def State.gapOver (s : State) : Bool :=
  match s.service.gapFrom with
  | none => false
  | some g => decide (g + gapClocks ≤ s.clock)

/-- GAP_TIMEOUT (R185). -/
def execGapTimeout (t : Nat) (s : State) : Host.Outcome State Fault Refusal :=
  .next (s.onEvent t fun s => if s.gapOver then s.assemble .hunt else s)

/-! ## Whole packets -/

/-- A whole packet with a right check byte arrives at once; the assembly stands at HUNT and the receiver seeks a start bit
after it. One longer than 70 payload bytes is cut off at its length byte (R185; DESIGN CHOICE, safe, log entry 15). -/
def State.wholePacket (s : State) (cmd : Byte) (payload : List Byte) : State :=
  let ready := (s.receiverTo .seeking).assemble .hunt
  if 70 < payload.length then ready else ready.takePacket cmd payload true

/-- STATUS (R188). -/
def execStatus (t : Nat) (s : State) : Host.Outcome State Fault Refusal :=
  .next (s.onEvent t fun s => s.wholePacket 0x01 [])

/-- ENTER (R189). -/
def execEnter (t : Nat) (s : State) : Host.Outcome State Fault Refusal :=
  .next (s.onEvent t fun s => s.wholePacket 0x02 [])

/-- ERASE (R190). -/
def execErase (t : Nat) (addr : BitVec 24) (s : State) : Host.Outcome State Fault Refusal :=
  .next (s.onEvent t fun s => s.wholePacket 0x03 (addressBytes addr))

/-- PROGRAM (R190). -/
def execProgram (t : Nat) (addr : BitVec 24) (data : List Byte) (s : State) : Host.Outcome State Fault Refusal :=
  .next (s.onEvent t fun s => s.wholePacket 0x04 (addressBytes addr ++ data))

/-- READ (R190). -/
def execRead (t : Nat) (addr : BitVec 24) (count : Byte) (s : State) : Host.Outcome State Fault Refusal :=
  .next (s.onEvent t fun s => s.wholePacket 0x05 (addressBytes addr ++ [count]))

/-- ERRORS (R193). -/
def execErrors (t : Nat) (arg : Byte) (s : State) : Host.Outcome State Fault Refusal :=
  .next (s.onEvent t fun s => s.wholePacket 0x06 [arg])

/-- RESTART (R191). -/
def execRestart (t : Nat) (s : State) : Host.Outcome State Fault Refusal :=
  .next (s.onEvent t fun s => s.wholePacket 0x07 [])

/-! ## The flash finishes (R138 to R141, R190) -/

/-- The operation under way has run to its end by now, whether or not the station runs (R141). -/
def State.opEnded (s : State) : Option FlashJob :=
  match s.flash.op with
  | none => none
  | some o => if s.powered ∧ o.dueAt ≤ s.clock then some o.job else none

/-- The flash is free again and holds `mem`; the port answers OK if the operation was its command in progress (R190). A
reset has taken that mark, and then no response is made (R184, R190). -/
def State.finishJob (s : State) (mem : List Host.Cell) (kind : InProgress) (cmd : Byte) : State :=
  let done := { s with flash := { mem := mem, op := none, freeSince := s.clock } }
  if s.service.inProgress = kind then
    State.respond { done with service := { s.service with inProgress := .none } } cmd .ok []
  else done

/-- ERASE_DONE (R138). -/
def execEraseDone (t : Nat) (s : State) : Host.Outcome State Fault Refusal :=
  match (s.advance t).opEnded with
  | some (.erase a) => .next ((s.advance t).finishJob (Memory.erase s.flash.mem a) .erase 0x03)
  | some (.program _ _) | none => .next (s.advance t)

/-- PROGRAM_DONE (R139). An operation past the end of the flash, which R186 rules out, is the fault `flashRange` (log
entry 25). -/
def execProgramDone (t : Nat) (s : State) : Host.Outcome State Fault Refusal :=
  match (s.advance t).opEnded with
  | some (.program a data) =>
    if flashSize < a + data.length then .fault (.flashRange (a + data.length))
    else .next ((s.advance t).finishJob (Memory.program s.flash.mem a data) .program 0x04)
  | some (.erase _) | none => .next (s.advance t)

/-- The READ transfer that has ended by now: the first of those under way (R137, R140). -/
def State.endedTransfer (s : State) : Option ServiceRead :=
  match s.service.reads with
  | [] => none
  | r :: _ => if s.running ∧ r.dueAt ≤ s.clock then some r else none

/-- A READ transfer ends: the bytes as they stand are its response (R140, R190). -/
def State.finishTransfer (s : State) (r : ServiceRead) : State :=
  State.respond { s with service := { s.service with reads := s.service.reads.tail } } 0x05 .ok
    (Memory.readRun s.flash.mem r.address r.count)

/-- READ_TRANSFER_END (R140). A transfer past the end of the flash, which R186 rules out, is the fault `flashRange` (log
entry 25). -/
def execReadTransferEnd (t : Nat) (s : State) : Host.Outcome State Fault Refusal :=
  match (s.advance t).endedTransfer with
  | none => .next (s.advance t)
  | some r =>
    if flashSize < r.address + r.count then .fault (.flashRange (r.address + r.count))
    else .next ((s.advance t).finishTransfer r)

/-! ## Responses leave (R187, R191) -/

/-- The response that RESTART made, with restart pending (R191; log entry 26). -/
def State.restarts (s : State) (r : Response) : Bool :=
  s.service.restartPending && decide (r.command = 0x87) && decide (r.status = .ok)

/-- The level of the transmit line at the present instant, true for high: the bit of the first response that is due, from the
instant its sending began, and high between responses (R184, R187). A bit time is 320 / 3 master clock periods. -/
def State.transmitLine (s : State) : Bool :=
  match s.service.answers, s.service.sendingFrom with
  | r :: _, some start => r.serial[(s.clock - start) * 3 / 320]?.getD true
  | _, _ => true

/-- The first response has left the list, and the next, if any, begins to go out (R187). -/
def State.dropResponse (s : State) (rest : List Response) : State :=
  { s with
    service := { s.service with answers := rest, sendingFrom := if rest = [] then none else some s.clock } }

/-- RESPONSE_SENT (R187): the last character of the first response has been sent, and it leaves the list; after that of
RESTART the station resets (R191). -/
def execResponseSent (t : Nat) (s : State) : Host.Outcome State Fault Refusal :=
  .next (s.onEvent t fun s =>
    match s.service.answers, s.service.sendingFrom with
    | r :: rest, some start =>
      if r.sentBy start s.clock then if s.restarts r then s.resetTo .restart else s.dropResponse rest else s
    | _, _ => s)

end Sys2Proof.Machine
end

