-- ==== Sys2Proof/Machine/Timers.lean ====
section
/-!
DEFINITION. The meanings of the commands in which station time reaches a time the Send Queue or the Round Tracker waits
for: STALE_DROP (R46), WINDOW_EXPIRY (R71), PENALTY_END (R57).
-/

namespace Sys2Proof.Machine

/-- The entry of this key is WAITING and its age has reached its late limit (R46). -/
def State.dropDue (s : State) (key : Key) : Bool :=
  s.queue.any fun e => decide (e.key = key) && decide (e.state = .waiting) && e.stale s.now

/-- STALE_DROP (R46). -/
def execStaleDrop (t : Nat) (key : Key) (s : State) : Host.Outcome State Fault Refusal :=
  .next (s.onEvent t fun s =>
    if s.dropDue key then State.count { s with queue := dropKey key s.queue } .staleDrops else s)

/-- WINDOW_EXPIRY (R71). -/
def execWindowExpiry (t : Nat) (s : State) : Host.Outcome State Fault Refusal :=
  .next (s.onEvent t fun s =>
    match s.round.windowEnd with
    | none => s
    | some e => if s.round.state = .locked ∧ reached s.now e then s.applyRound s.round.expire e else s)

/-- PENALTY_END (R57). -/
def execPenaltyEnd (t : Nat) (seat : Seat) (s : State) : Host.Outcome State Fault Refusal :=
  .next (s.onEvent t fun s =>
    match s.penalties[seat] with
    | none => s
    | some e =>
      if reached s.now e then
        State.refreshSeatLamps { s with penalties := s.penalties.set seat none } none
      else s)

end Sys2Proof.Machine
end

