-- ==== Sys2Proof/Machine/Dispatch.lean ====
section
/-!
DEFINITION. The dispatch of commands: one arm for each constructor of `Instr`, one direct call of its meaning.
-/

namespace Sys2Proof.Machine

def exec (i : Instr) (s : State) : Host.Outcome State Fault Refusal :=
  match i with
  | .powerOn t lineLow => Sys2Proof.Machine.execPowerOn t lineLow s
  | .resetLine t => Sys2Proof.Machine.execResetLine t s
  | .startRecordRead t => Sys2Proof.Machine.execStartRecordRead t s
  | .loadCompletion t => Sys2Proof.Machine.execLoadCompletion t s
  | .quietGap t => Sys2Proof.Machine.execQuietGap t s
  | .attemptStart t run => Sys2Proof.Machine.execAttemptStart t run s
  | .sofEdge t run => Sys2Proof.Machine.execSofEdge t run s
  | .characterReceived t c => Sys2Proof.Machine.execCharacterReceived t c s
  | .spoilEnd t => Sys2Proof.Machine.execSpoilEnd t s
  | .spoilSeen t => Sys2Proof.Machine.execSpoilSeen t s
  | .arbitrationLost t bit => Sys2Proof.Machine.execArbitrationLost t bit s
  | .bitError t run => Sys2Proof.Machine.execBitError t run s
  | .ackMiss t => Sys2Proof.Machine.execAckMiss t s
  | .ownFrameSpoiled t => Sys2Proof.Machine.execOwnFrameSpoiled t s
  | .ownFrameComplete t => Sys2Proof.Machine.execOwnFrameComplete t s
  | .frameComplete t => Sys2Proof.Machine.execFrameComplete t s
  | .staleDrop t key => Sys2Proof.Machine.execStaleDrop t key s
  | .windowExpiry t => Sys2Proof.Machine.execWindowExpiry t s
  | .penaltyEnd t seat => Sys2Proof.Machine.execPenaltyEnd t seat s
  | .voiceStart t v => Sys2Proof.Machine.execVoiceStart t v s
  | .samplePeriod t => Sys2Proof.Machine.execSamplePeriod t s
  | .voiceNaturalEnd t v => Sys2Proof.Machine.execVoiceNaturalEnd t v s
  | .fadingRunDry t v => Sys2Proof.Machine.execFadingRunDry t v s
  | .silenceReached t v => Sys2Proof.Machine.execSilenceReached t v s
  | .envelopeTick t => Sys2Proof.Machine.execEnvelopeTick t s
  | .fetchReadIssue t => Sys2Proof.Machine.execFetchReadIssue t s
  | .fetchReadComplete t => Sys2Proof.Machine.execFetchReadComplete t s
  | .inputScan t closed order => Sys2Proof.Machine.execInputScan t closed order s
  | .lampPeriod t => Sys2Proof.Machine.execLampPeriod t s
  | .cueLampDurationEnd t lamp => Sys2Proof.Machine.execCueLampDurationEnd t lamp s
  | .serviceCharacter t c => Sys2Proof.Machine.execServiceCharacter t c s
  | .gapTimeout t => Sys2Proof.Machine.execGapTimeout t s
  | .status t => Sys2Proof.Machine.execStatus t s
  | .enter t => Sys2Proof.Machine.execEnter t s
  | .erase t addr => Sys2Proof.Machine.execErase t addr s
  | .program t addr data => Sys2Proof.Machine.execProgram t addr data s
  | .read t addr count => Sys2Proof.Machine.execRead t addr count s
  | .errors t arg => Sys2Proof.Machine.execErrors t arg s
  | .restart t => Sys2Proof.Machine.execRestart t s
  | .eraseDone t => Sys2Proof.Machine.execEraseDone t s
  | .programDone t => Sys2Proof.Machine.execProgramDone t s
  | .readTransferEnd t => Sys2Proof.Machine.execReadTransferEnd t s
  | .responseSent t => Sys2Proof.Machine.execResponseSent t s
  | .frameSpoiledInWindow t => Sys2Proof.Machine.execFrameSpoiledInWindow t s
  | .resetLineLow t => Sys2Proof.Machine.execResetLineLow t s
  | .powerLoss t => Sys2Proof.Machine.execPowerLoss t s

end Sys2Proof.Machine
end

