-- ==== Sys2Proof/Safety.lean ====
section
/-!
DEFINITION. What counts as a safe step, and the rules the manual states of the whole station at every moment: the shape
of its queue, its round record, its pool, its counts, its port, and when it may drive the line. Each is a property of one
state; a safe run keeps them all.
-/

namespace Sys2Proof.Machine

/-- A step is safe when it ends in a next state: no fault, no refusal. -/
def Completes (o : Host.Outcome State Fault Refusal) : Prop :=
  ∃ u, o = .next u

/-- The station has power and is out of reset, and `t` is no instant of the past: a command of instant `t` takes its
effect. -/
structure State.liveAt (s : State) (t : Nat) : Prop where
  powered : s.powered = true
  released : s.resetLine = .released
  time : s.clock ≤ t

/-- What a reset leaves in every block (R28, R36, R53, R57, R80, R83, R106, R107, R128, R136, R158, R159, R166, R170,
R174, R175, R184, R192), for the reset cause it leaves. The clip flash is not part of it (R141). -/
structure ResetLeaves (u : State) (cause : ResetCause) : Prop where
  clock : u.now = 0
  mode : u.loader.mode = .loading ∧ u.loader.loaded = false ∧ u.loader.fault = .none ∧ u.loader.cause = cause
  line_counts : u.line.tec = 0 ∧ u.line.recCount = 0 ∧ u.line.framesReceived = 0 ∧ u.line.framesSent = 0
  line_flags : u.line.lineState = .active ∧ u.line.listening = false ∧ u.line.joined = false ∧
    u.line.holdoffOwed = false
  line_idle : u.line.recessiveRun = 0 ∧ u.line.followed = none ∧ u.line.attempt = none ∧ u.line.bitRate = none ∧
    u.line.drive = .released
  queue : u.queue = []
  round : u.round =
    { state := .idle, number := 0, synced := false, winner := none, order := [], excluded := 0, eligible := 0
      rebound := .queue, windowMs := 0, penaltyMs := 0, windowEnd := none }
  penalties : ∀ seat : Seat, u.penalties[seat] = none
  slots : ∀ n : SlotNo, u.pool.slots[n] =
    { enabled := false, config := none, held := false, pending := none, lost := 0, voices := 0, cycle := 0, fires := 0 }
  voices : ∀ v : VoiceNo, u.pool.voices[v].state = .free ∧ u.pool.voices[v].owner = none ∧
    u.pool.voices[v].generation = 0 ∧ u.pool.voices[v].loop = false ∧ u.pool.voices[v].envelope = 30720 ∧
    u.pool.voices[v].target = 30720 ∧ u.pool.voices[v].duck = 0 ∧ u.pool.voices[v].duckTarget = 0 ∧
    u.pool.voices[v].endCode = none ∧ u.pool.voices[v].fifo = [] ∧ u.pool.voices[v].exhausted = false ∧
    u.pool.voices[v].underrun = false ∧ u.pool.voices[v].successor = none
  order : u.pool.order = List.finRange 12
  grant : u.pool.grant = none
  clips : (∀ n : Byte, u.clips.clip n = none) ∧ u.clips.dropped = 0
  fetch : u.fetch = none
  mixer : u.mixer.air = { current := 120, target := 120 } ∧ u.mixer.house = { current := 120, target := 120 } ∧
    u.mixer.attack = 30720 ∧ u.mixer.release = 30720 ∧ u.mixer.nextSample = 0 ∧
    u.mixer.out = { airLeft := 0, airRight := 0, houseLeft := 0, houseRight := 0 }
  inputs : ∀ i : Fin 8, u.inputs[i] = { config := none, level := none, run := 0, pressTime := none, hold := .none }
  lamps : ∀ i : Fin 8, u.lamps[i].level = 0 ∧ u.lamps[i].pattern.kind = .off ∧ u.lamps[i].durationEnd = none
  service : u.service.assembly = .hunt ∧ u.service.receiver = .seeking ∧ u.service.gapFrom = none ∧
    u.service.inProgress = .none ∧ u.service.reads = [] ∧ u.service.answers = [] ∧ u.service.sendingFrom = none ∧ u.service.restartPending = false
  errors : ∀ c, u.errors.get c = 0

/-- R25: a station drives the line only while it is powered and out of reset, joined, ONLINE, not a shadow and not
OFF. -/
def State.drivesLawfully (s : State) : Prop :=
  s.line.drive ≠ .released →
    s.running = true ∧ s.line.joined = true ∧ s.loader.mode = .online ∧ s.station.shadow = false ∧
      s.line.lineState ≠ .off

/-- R36: at most 8 entries in strictly ascending order of key, at most one of them IN FLIGHT. -/
def QueueShape (q : List Entry) : Prop :=
  q.length ≤ 8 ∧ q.Pairwise (fun a b => a.key < b.key) ∧ q.countP (fun e => decide (e.state = .inFlight)) ≤ 1

/-- Counts stay in their ranges (00 Counts, R21, R83, R192). -/
structure State.countsInRange (s : State) : Prop where
  errors : ∀ c, s.errors.get c ≤ 65535
  slots : ∀ n : SlotNo, s.pool.slots[n].lost ≤ 255 ∧ s.pool.slots[n].fires ≤ 65535
  line : s.line.tec ≤ 255 ∧ s.line.recCount ≤ 255

/-- The voice granted at once has just been allocated: it holds no frame (R108, R133). -/
def Pool.grantEmpty (p : Pool) : Prop :=
  ∀ g, p.grant = some g → p.voices[g.voice].fifo = []

/-- R131: the frames held and in flight of a voice never exceed 64, and a read carries at most 32 frames. That a voice
granted at once holds none rules out states no run reaches. -/
def State.fifosBounded (s : State) : Prop :=
  (∀ v : VoiceNo, s.pool.voices[v].fifo.length + s.framesInFlight v ≤ 64) ∧
    (∀ r, s.fetch = some r → r.size ≤ 32) ∧ s.pool.grantEmpty

/-- R84: a voice that is not FREE stands in the voice set of its owner slot and in no other; a FREE voice has no owner
and stands in none. -/
def Pool.setsAgree (p : Pool) : Prop :=
  (∀ (n : SlotNo) (v : VoiceNo), inSet p.slots[n].voices v = true ↔ p.voices[v].owner = some n) ∧
    ∀ v : VoiceNo, p.voices[v].state = .free ↔ p.voices[v].owner = none

/-- R83, R89 to R92: a pending trigger waits only at a held slot. -/
def Pool.pendingHeld (p : Pool) : Prop :=
  ∀ n : SlotNo, p.slots[n].pending.isSome → p.slots[n].held = true

/-- R89: a slot has a pending trigger only while it is both held and enabled. The two other fields say why a load
completion cannot break this: triggers are taken only ONLINE (R86), and ONLINE comes after load completion (R182). -/
structure State.pendingsKept (s : State) : Prop where
  online : s.loader.mode = .online → s.loader.loaded = true
  unloaded : s.loader.loaded = false → ∀ n : SlotNo, s.pool.slots[n].pending = none
  kept : ∀ n : SlotNo, s.pool.slots[n].pending.isSome →
    s.pool.slots[n].held = true ∧ s.pool.slots[n].enabled = true

/-- R111: a voice carries a successor only while it is FADING. -/
def Pool.successorsWait (p : Pool) : Prop :=
  ∀ v : VoiceNo, p.voices[v].successor.isSome → p.voices[v].state = .fading

/-- R107: the allocation order holds every voice once. -/
def Pool.orderWhole (p : Pool) : Prop :=
  p.order.Nodup ∧ ∀ v : VoiceNo, v ∈ p.order

/-- R54, R55, R56: what holds of the round record at every moment. -/
structure Round.consistent (r : Round) : Prop where
  synced : r.synced = false → r.state = .idle
  turn : r.state = .locked ∨ r.state = .expired → r.winner.isSome ∧ r.order.head? = r.winner
  noTurn : r.state ≠ .locked → r.state ≠ .expired → r.winner = none
  once : r.order.Nodup
  notExcluded : ∀ seat ∈ r.order, inSet r.excluded seat = false
  window : r.windowEnd.isSome → r.state = .locked

/-- R187: the answers made, the READ transfers under way and the operation in progress have a place each among four; while
there are answers, the first of them is going out. -/
def ServicePort.answersFit (p : ServicePort) : Prop :=
  p.answers.length + p.reads.length + (if p.inProgress = .none then 0 else 1) ≤ 4 ∧
    (p.sendingFrom = none ↔ p.answers = [])

/-- R26: a shadow station never sends; nor does a station whose record is not loaded (R37). -/
structure State.shadowSilent (s : State) : Prop where
  online : s.loader.mode = .online → s.loader.loaded = true
  silent : s.station.shadow = true ∨ s.loader.loaded = false →
    s.line.tec = 0 ∧ s.line.framesSent = 0 ∧ s.queue = [] ∧ s.line.attempt = none

/-- The job of a flash operation stays inside the flash (R127, R139). -/
def FlashJob.inFlash : FlashJob → Prop
  | .erase a => a < flashSize
  | .program a data => a + data.length ≤ flashSize

/-- Every flash access of the station stays inside the flash, which holds its canonical form: what R127, R129, R134 and
R186 together promise. -/
structure State.flashSound (s : State) : Prop where
  memory : Memory.wf s.flash.mem
  job : ∀ o, s.flash.op = some o → o.job.inFlash
  reads : ∀ r ∈ s.service.reads, r.address + r.count ≤ flashSize
  clips : ∀ n clip, s.clips.clip n = some clip → clip.fits = true
  fetch : ∀ r, s.fetch = some r → r.address + r.bytes ≤ flashSize
  online : s.loader.mode = .online → s.loader.loaded = true
  cursors : ∀ (v : VoiceNo) clip, s.clips.clip s.pool.voices[v].clip = some clip →
    s.pool.voices[v].cursor ≤ clip.frames
  unloaded : s.loader.loaded = false → ∀ v : VoiceNo, s.pool.voices[v].cursor = 0

/-! ## Terms of the statements about the cue line -/

/-- What R14 asks of a station for it to contend when the recessive count is `run`, `e` being the entry offered (R41). -/
structure Contends (s : State) (run : Nat) (e : Entry) : Prop where
  joined : s.line.joined = true
  online : s.loader.mode = .online
  sends : s.station.shadow = false ∧ s.line.lineState ≠ .off
  idle : s.line.attempt = none ∧ flying s.queue = none
  offered : firstWaiting s.queue = some e
  required : 13 + (if s.line.holdoffOwed then s.line.holdoff else 0) + (if s.line.lineState = .passive then 8 else 0) ≤ run
  counted : s.line.recessiveRun ≤ run ∧ run < nextGap s.line.recessiveRun

/-- The payload an entry sends in an attempt that begins at master clock period `t` (R42): its own, or the answer built
from the station as it then stands. -/
def payloadAt (s : State) (t : Nat) (e : Entry) : List Byte :=
  match e.content with
  | .fixed p => p
  | .tell arg => State.answer { s with clock := t } (keySubject e.key) arg

/-- R15, R42: the station after its attempt has begun at `t`, when no frame was being followed: the offered entry is IN
FLIGHT without its single-try flag, and the attempt holds its key, its payload, their check and the flag,
and, for one with clear, whether the service port has cleared the group it reports since an earlier attempt of the entry
reported that group (R193, log entry 24). -/
def attempting (s : State) (t : Nat) (e : Entry) : State :=
  { s with
    clock := t
    queue := s.queue.map fun x => if x.key = e.key then { x with state := .inFlight, singleTry := false } else x
    line :=
      { s.line with
        followed := some { sof := stationTimeAt t, chars := [] }, recessiveRun := 0, drive := .frame
        attempt :=
          some
            { key := e.key, payload := payloadAt s t e, check := checkOf (frameHead e.key (payloadAt s t e))
              singleTry := e.singleTry
              tellArg := (match e.content with | .fixed _ => none | .tell arg => some arg)
              portCleared :=
                e.portCleared &&
                  decide
                    (errorsGroup e.key (match e.content with | .fixed _ => none | .tell arg => some arg) =
                      e.reported) &&
                  (match e.content with | .fixed _ => false | .tell arg => arg.msb) } } }

/-- R5: the count of consecutive recessive bit times after some bit times of the line. -/
def runAfter (run : Nat) (bits : List Level) : Nat :=
  bits.foldl (fun n b => if b = .recessive then n + 1 else 0) run

/-- R3: the eleven bit times of a character, in the order sent. -/
def charBits (c : LineChar) : List Level :=
  c.start ::
    (((List.range 8).map fun i => if c.data.getLsbD (7 - i) then Level.recessive else .dominant) ++
      [if c.parity then .recessive else .dominant, c.stop])

/-- R12: a receiver that has taken a frame through C2 may ack it when it is joined, ONLINE, no shadow and not OFF
(R25). -/
def mayAckNow (s : State) : Prop :=
  s.line.joined = true ∧ s.loader.mode = .online ∧ s.station.shadow = false ∧ s.line.lineState ≠ .off

/-- The line state after a change of the counts (R22). -/
def stateAfter (l : LinePort) (tec recCount : Nat) : LineState :=
  if l.joined = false ∨ l.lineState = .off then l.lineState
  else if 128 ≤ tec ∨ 128 ≤ recCount then .passive
  else if l.warningLevel ≤ tec ∨ l.warningLevel ≤ recCount then .warning
  else .active

/-- R45: what becomes of the queue and the error record when the attempt in flight has failed at `now`: a stale entry is
dropped as stale, otherwise the entry of a single-try attempt as single-try, and any other entry waits again (the two
fields that remember a TELL ERRORS to be retried are the model's own, log entry 24). -/
def afterFailure (q : List Entry) (e : ErrorRecord) (now : StationTime) (a : Attempt) : List Entry × ErrorRecord :=
  match q.find? fun x => decide (x.state = .inFlight) with
  | none => (q, e)
  | some x =>
    if x.stale now then (q.filter fun y => decide (y.state ≠ .inFlight), e.bump .staleDrops)
    else if a.singleTry then (q.filter fun y => decide (y.state ≠ .inFlight), e.bump .singleTryDrops)
    else
      (q.map fun y =>
        if y.state = .inFlight then
          { y with state := .waiting, reported := errorsGroup a.key a.tellArg, portCleared := a.portCleared }
        else y, e)

/-- R44: what becomes of them when it was lost or abandoned: a stale entry is dropped, any other waits again and gets
its single-try flag back (and remembers a TELL ERRORS to be retried, log entry 24). -/
def afterReturn (q : List Entry) (e : ErrorRecord) (now : StationTime) (a : Attempt) : List Entry × ErrorRecord :=
  match q.find? fun x => decide (x.state = .inFlight) with
  | none => (q, e)
  | some x =>
    if x.stale now then (q.filter fun y => decide (y.state ≠ .inFlight), e.bump .staleDrops)
    else
      (q.map fun y =>
        if y.state = .inFlight then
          { y with
            state := .waiting, singleTry := y.singleTry || a.singleTry, reported := errorsGroup a.key a.tellArg
            portCleared := a.portCleared }
        else y, e)

/-- The Line Port after a transmit error that does not enter OFF (R17, R18, R20, R21): TEC + 4, the attempt over with a
holdoff owed, the frame given up, `drive` on the line. -/
def failedLine (l : LinePort) (run : Nat) (drive : Drive) : LinePort :=
  { l with
    tec := l.tec + 4, lineState := stateAfter l (l.tec + 4) l.recCount, followed := none, attempt := none
    holdoffOwed := true, recessiveRun := run, drive := drive }

/-- The Line Port after entry to OFF (R23). -/
def offLine (l : LinePort) (run : Nat) : LinePort :=
  { l with
    tec := 255, recCount := 0, lineState := .off, followed := none, attempt := none, holdoffOwed := true
    recessiveRun := run, drive := .released }

/-! ## Terms of the statements about voices and the mix -/

/-- R115: at a sample period a voice needs a frame: it plays, and neither R117 nor R123 ends it there. -/
abbrev NeedsFrame (s : State) (v : VoiceNo) : Prop :=
  (s.pool.voices[v].state = .running ∨ s.pool.voices[v].state = .fading ∨ s.pool.voices[v].state = .draining) ∧
    ¬ (s.pool.voices[v].state ≠ .running ∧ s.pool.voices[v].exhausted = true ∧ s.pool.voices[v].fifo = [] ∧
        s.fetch.all (fun r => decide (r.voice ≠ v)) = true)

/-- What voice `v` gives one channel of a bus at a sample period (R152, R153, R155): `channel` takes its sample from the
frame, `send` its send for the bus, and `master` is the master current of the bus. -/
def voiceGives (s : State) (channel : Frame → Sample) (send : Voice → Nat) (master : Nat) (v : VoiceNo) : Int :=
  match if NeedsFrame s v then s.pool.voices[v].fifo.head? else none with
  | none => 0
  | some f =>
    contributionAt (channel f)
      (attenuation (send s.pool.voices[v]) s.pool.voices[v].envelope s.pool.voices[v].duck master)

/-- The exact sum of one channel of a bus (R156). -/
def channelSum (s : State) (channel : Frame → Sample) (send : Voice → Nat) (master : Nat) : Int :=
  ((List.finRange 12).map (voiceGives s channel send master)).sum

/-- A sum that R156 clamps. -/
abbrev OutOfRange (sum : Int) : Prop :=
  sum < -32768 ∨ 32767 < sum

/-- A voice that a fade reaches (R108, R118, R119): a SCHEDULED one becomes FREE, a sounding one fades at the rate
`first`, and a FADING one takes the faster of its rate and `again`. -/
def reachedBy (x : Voice) (first again : Nat) : Voice :=
  match x.state with
  | .free => x
  | .scheduled =>
    { x with
      state := .free, owner := none, fifo := [], exhausted := false, underrun := false, envelope := 30720
      target := 30720, silent := false }
  | .running | .draining => { x with state := .fading, rate := first, target := 30720 }
  | .fading => { x with rate := max x.rate again }

/-- R147: voice `u` pushes voice `v` down. -/
def Pushes (p : Pool) (u v : VoiceNo) : Prop :=
  u ≠ v ∧ (p.voices[u].state = .running ∨ p.voices[u].state = .draining) ∧ p.voices[v].priority < p.voices[u].priority

/-- R132: a voice requests a refill, no read being in flight. -/
def WantsFrames (x : Voice) : Prop :=
  (x.state = .scheduled ∨ x.state = .running ∨ x.state = .fading) ∧ x.exhausted = false ∧ x.fifo.length ≤ 32

/-- R132 for a voice of the station. -/
abbrev Requests (s : State) (v : VoiceNo) : Prop :=
  WantsFrames s.pool.voices[v]

/-- R95: a CUT of this code finds the slot. -/
def cutFinds (p : Pool) (code : Byte) (n : SlotNo) : Bool :=
  p.slots[n].config.any fun c => decide (code &&& c.mask = c.code &&& c.mask)

/-- R159: the long action of an input is in use. -/
abbrev LongInUse (c : InputConfig) : Prop :=
  c.long ≠ .none ∧ c.longTime ≠ 0

/-- R62: a BUZZ of this seat is valid. -/
def ValidBuzz (r : Round) (seat : Seat) : Prop :=
  (r.state = .open ∨ r.state = .locked ∨ r.state = .expired) ∧ inSet r.eligible seat = true ∧
    inSet r.excluded seat = false ∧ seat ∉ r.order

/-- R58, R85: the station after a round event has been raised. `index` is the place of the event in the table of R58,
and `flag` the place of its add-seat flag among the five; a code of NONE raises no trigger. -/
def raised (s : State) (index : Fin 10) (flag : Option (Fin 5)) (seat : Option Seat) (fire : StationTime) : State :=
  match s.station.eventCode[index] with
  | none => s
  | some code =>
    s.takeTrigger
      { code :=
          (match seat with
          | some k => if flag.any fun i => s.station.addSeat[i] then code + BitVec.ofNat 8 k.val else code
          | none => code)
        source := .local, seat := seat, fireTime := fire }

/-- R47, R70: the station after a BUZZ withdrawal: every WAITING entry of class 1 has left the queue. -/
def withdrawn (s : State) : State :=
  { s with queue := s.queue.filter fun e => decide (¬ (e.state = .waiting ∧ e.key.toNat / 4096 = 1)) }

/-- R57: the seat is hosted here and penalised now. -/
def PenalisedHere (s : State) (seat : Seat) : Prop :=
  (∃ (i : Fin 8) (c : InputConfig), s.inputs[i].config = some c ∧ (c.short = .buzz seat ∨ c.long = .buzz seat)) ∧
    ∃ e, s.penalties[seat] = some e ∧ (s.now - e).toInt < 0

/-- R168: `row` is the first row of the table that applies to the seat. -/
structure RowOf (s : State) (seat : Seat) (row : SeatRow) : Prop where
  penalised : PenalisedHere s seat → row = .penalised
  idle : ¬ PenalisedHere s seat → s.round.synced = false ∨ s.round.state = .idle → row = .idle
  ready : ¬ PenalisedHere s seat → s.round.synced = true → s.round.state = .ready → row = .ready
  openIn : ¬ PenalisedHere s seat → s.round.synced = true → s.round.state = .open →
    inSet s.round.eligible seat = true → inSet s.round.excluded seat = false → row = .openIn
  openOut : ¬ PenalisedHere s seat → s.round.synced = true → s.round.state = .open →
    inSet s.round.eligible seat = false ∨ inSet s.round.excluded seat = true → row = .openOut
  winner : ¬ PenalisedHere s seat → s.round.synced = true → s.round.winner = some seat →
    (s.round.state = .locked → row = .winnerLocked) ∧ (s.round.state = .expired → row = .winnerExpired)
  listed : ¬ PenalisedHere s seat → s.round.synced = true → s.round.state = .locked ∨ s.round.state = .expired →
    s.round.winner ≠ some seat → seat ∈ s.round.order → row = .listed
  notListed : ¬ PenalisedHere s seat → s.round.synced = true → s.round.state = .locked ∨ s.round.state = .expired →
    s.round.winner ≠ some seat → seat ∉ s.round.order → row = .notListed

/-- The window end of a turn that begins at `fire`, with an answer window in ms (R63, R67). -/
def windowFrom (ms : Nat) (fire : StationTime) : Option StationTime :=
  if ms = 0 then none else some (fire + BitVec.ofNat 32 (ms * 1000))

/-- R100: the slot has a sounding voice, or a successor names it. -/
def UnderWay (p : Pool) (n : SlotNo) : Prop :=
  (∃ v : VoiceNo, inSet p.slots[n].voices v = true ∧
    (p.voices[v].state = .scheduled ∨ p.voices[v].state = .running ∨ p.voices[v].state = .draining)) ∨
    ∃ (v : VoiceNo) (r : VoiceRequest), p.voices[v].successor = some r ∧ r.slot = n

/-! ## Terms of the statements about the start record and the clip directory

`b` gives the byte at each offset of the record, or of one part of it (11.2, 11.3). -/

/-- The word at an offset, low byte first (11.3). -/
def wordFrom (b : Nat → Byte) (i : Nat) : Nat :=
  (b i).toNat + 256 * (b (i + 1)).toNat

/-- 11.3: a byte that is 0 for clear and 1 for set. -/
def SetOrClear (x : Byte) (v : Bool) : Prop :=
  (x = 0 ∧ v = false) ∨ (x = 1 ∧ v = true)

/-- 11.3: the kind of an input action and its bytes A, B and C, of which only those marked for the kind count (R196). -/
def ActionHolds (kind a b c : Byte) (x : InputAction) : Prop :=
  (kind = 0 ∧ x = .none) ∨ (kind = 1 ∧ ∃ k : Seat, a = BitVec.ofNat 8 k.val ∧ x = .buzz k) ∨
    (kind = 2 ∧ ∃ (seat : Option Seat) (once : Bool),
      ((b = 0xFF ∧ seat = none) ∨ ∃ k : Seat, b = BitVec.ofNat 8 k.val ∧ seat = some k) ∧ SetOrClear c once ∧
        x = .go a seat once) ∨
    (kind = 3 ∧ x = .localCode a) ∨ (kind = 4 ∧ x = .cut a) ∨
    (kind = 5 ∧ ∃ v : Verb,
      (a, v) ∈ [((0 : Byte), Verb.arm), (1, .openBuzzers), (2, .right), (3, .wrong), (4, .void)] ∧ x = .judge v) ∨
    (kind = 6 ∧ x = .stop)

/-- An input record of 10 bytes (11.3) with every field in its range (9.3, R179). -/
structure InputHolds (b : Nat → Byte) (x : InputConfig) : Prop where
  debounce : 1 ≤ (b 0).toNat ∧ (b 0).toNat ≤ 31 ∧ x.debounce = (b 0).toNat
  longTime : (b 1 = 0 ∨ 10 ≤ (b 1).toNat) ∧ x.longTime = (b 1).toNat
  short : ActionHolds (b 2) (b 3) (b 4) (b 5) x.short
  long : ActionHolds (b 6) (b 7) (b 8) (b 9) x.long

/-- A lamp record of 2 bytes (11.3). -/
def LampHolds (b : Nat → Byte) (x : LampAssign) : Prop :=
  (b 0 = 0 ∧ ∃ k : Seat, b 1 = BitVec.ofNat 8 k.val ∧ x = .seat k) ∨ (b 0 = 1 ∧ x = .cue)

/-- The PLAY column of a slot record (11.3) with every field in its range; the entries beyond the clip-list length and,
without an end code, its byte are not read (R196). -/
structure PlayHolds (b : Nat → Byte) (p : PlayConfig) : Prop where
  clips : 1 ≤ (b 5).toNat ∧ (b 5).toNat ≤ 4 ∧ p.clipList = (List.range (b 5).toNat).map fun i => b (6 + i)
  selection : (b 10, p.selection) ∈ [((0 : Byte), Selection.fixed), (1, .cycle), (2, .seat)]
  priority : (b 11).toNat ≤ 7 ∧ p.priority = (b 11).toNat
  choke : (b 12).toNat ≤ 7 ∧ p.choke = (b 12).toNat
  airSend : (b 13).toNat ≤ 120 ∧ p.airSend = (b 13).toNat
  houseSend : (b 14).toNat ≤ 120 ∧ p.houseSend = (b 14).toNat
  duckDepth : (b 15).toNat ≤ 96 ∧ p.duckDepth = (b 15).toNat
  fades : p.fadeIn = (b 16).toNat ∧ p.fadeOut = (b 17).toNat ∧ p.preDelay = (b 18).toNat
  loopFlag : SetOrClear (b 19) p.loopFlag
  retrigger : (b 20, p.retrigger) ∈ [((0 : Byte), Retrigger.restart), (1, .layer), (2, .ignore)]
  endCode : (b 21 = 0 ∧ p.endCode = none) ∨ (b 21 = 1 ∧ p.endCode = some (b 22))
  endRoute : (b 23, p.endRoute) ∈ [((0 : Byte), EndRoute.local), (1, .line)]

/-- The LAMP column of a slot record (11.3) with every field in its range. -/
structure LampOrderHolds (b : Nat → Byte) (l : LampOrder) : Prop where
  lamp : l.lamp.val = (b 5).toNat
  pattern : (b 6, l.pattern) ∈ [((0 : Byte), PatternKind.off), (1, .steady), (2, .blink)]
  level : l.level = (b 7).toNat
  period : 2 ≤ (b 8).toNat ∧ l.period = (b 8).toNat
  duty : 1 ≤ (b 9).toNat ∧ (b 9).toNat ≤ 99 ∧ l.duty = (b 9).toNat
  duration : l.duration = (b 10).toNat

/-- The action of a slot record, read by the column of that action alone (R196). -/
def SlotActionHolds (b : Nat → Byte) (x : SlotAction) : Prop :=
  (b 4 = 0 ∧ ∃ p, PlayHolds b p ∧ x = .play p) ∨
    (b 4 = 1 ∧ 1 ≤ (b 5).toNat ∧ (b 5).toNat ≤ 7 ∧
      ((b 6 = 0 ∧ x = .stopGroup (b 5).toNat none) ∨ (b 6 = 1 ∧ x = .stopGroup (b 5).toNat (some (b 7).toNat)))) ∨
    (b 4 = 2 ∧ ∃ l, LampOrderHolds b l ∧ x = .lamp l) ∨
    (b 4 = 3 ∧ ∃ once through, SetOrClear (b 6) once ∧ SetOrClear (b 7) through ∧ x = .emit (b 5) once through)

/-- A slot record of 24 bytes (11.3). -/
structure SlotHolds (b : Nat → Byte) (x : SlotRecord) : Prop where
  enabled : SetOrClear (b 0) x.enabled
  code : x.config.code = b 1 ∧ x.config.mask = b 2
  filter : (b 3, x.config.filter) ∈ [((0 : Byte), SourceFilter.any), (1, .line), (2, .local)]
  action : SlotActionHolds b x.config.action

/-- 9.3, 11.3, R179, R196: every judged field of the record whose bytes are `b` is in its range, and `r` is the record
they hold. -/
structure RecordHolds (b : Nat → Byte) (r : StartRecord) : Prop where
  number : 1 ≤ (b 4).toNat ∧ (b 4).toNat ≤ 15 ∧ r.station.number.toNat = (b 4).toNat
  shadow : SetOrClear (b 5) r.station.shadow
  bitRate : (b 6, r.bitRate) ∈ [((0 : Byte), BitRate.kbit125), (1, .kbit250), (2, .kbit500)]
  warningLevel : 32 ≤ (b 7).toNat ∧ (b 7).toNat ≤ 224 ∧ r.warningLevel = (b 7).toNat
  fireLead : 2 ≤ (b 8).toNat ∧ (b 8).toNat ≤ 100 ∧ r.station.fireLead = (b 8).toNat
  whole : r.station.lateLimit = (b 9).toNat ∧ r.holdoff = (b 10).toNat ∧ r.station.dimLevel = (b 11).toNat
  attack : wordFrom b 12 ≤ 2550 ∧ r.attackMs = wordFrom b 12
  release : wordFrom b 14 ≤ 2550 ∧ r.releaseMs = wordFrom b 14
  airMaster : (b 16).toNat ≤ 120 ∧ r.airMaster = (b 16).toNat
  houseMaster : (b 17).toNat ≤ 120 ∧ r.houseMaster = (b 17).toNat
  armPreset : ((b 18 = 0 ∧ r.station.armPreset.rebound = .queue) ∨
      (b 18 = 1 ∧ r.station.armPreset.rebound = .reopen)) ∧
    r.station.armPreset.window = (b 19).toNat ∧ r.station.armPreset.penalty = (b 20).toNat ∧
    r.station.armPreset.eligible = b 21 ++ b 22
  eventCodes : ∀ i : Fin 10,
    (wordFrom b (24 + 2 * i) ≤ 255 ∧ r.station.eventCode[i] = some (BitVec.ofNat 8 (wordFrom b (24 + 2 * i)))) ∨
      (wordFrom b (24 + 2 * i) = 65535 ∧ r.station.eventCode[i] = none)
  addSeat : ∀ i : Fin 5, SetOrClear (b (44 + i)) r.station.addSeat[i]
  inputs : ∀ i : Fin 8, InputHolds (fun k => b (64 + 10 * i + k)) r.inputs[i]
  lamps : ∀ i : Fin 8, LampHolds (fun k => b (144 + 2 * i + k)) r.lamps[i]
  slots : ∀ i : Fin 48, SlotHolds (fun k => b (160 + 24 * i + k)) r.slots[i]

/-- The number that four bytes hold from an offset, low byte first (11.2). -/
abbrev longFrom (b : Nat → Byte) (i : Nat) : Nat :=
  (b i).toNat + 256 * (b (i + 1)).toNat + 65536 * (b (i + 2)).toNat + 16777216 * (b (i + 3)).toNat

/-- The start address of a directory entry (11.2). -/
abbrev entryAddress (b : Nat → Byte) : Nat :=
  (b 0).toNat + 256 * (b 1).toNat + 65536 * (b 2).toNat

/-- R129, R195: an entry never written. -/
abbrev EntryBlank (b : Nat → Byte) : Prop :=
  ∀ i, i < 16 → b i = 0xFF

/-- R129, R195: an entry that is refused. -/
abbrev EntryRefused (b : Nat → Byte) : Prop :=
  ¬ EntryBlank b ∧
    ((b 3 ≠ 1 ∧ b 3 ≠ 2) ∨ longFrom b 4 = 0 ∨ 4194304 < longFrom b 4 ∨ entryAddress b < 0x3000 ∨
      16777216 < entryAddress b + longFrom b 4 * 2 * (b 3).toNat ∨
      (¬ (longFrom b 8 = 0xFFFFFFFF ∧ longFrom b 12 = 0xFFFFFFFF) ∧
        (longFrom b 12 ≤ longFrom b 8 ∨ longFrom b 4 < longFrom b 12)))

/-- R129, R195, 11.2: the clip of an entry that is neither blank nor refused. -/
structure EntryHolds (b : Nat → Byte) (c : Clip) : Prop where
  address : c.address = entryAddress b
  frames : c.frames = longFrom b 4
  channels : (b 3, c.channels) ∈ [((1 : Byte), Channels.mono), (2, .stereo)]
  noLoop : longFrom b 8 = 0xFFFFFFFF → longFrom b 12 = 0xFFFFFFFF → c.loop = none
  loop : ¬ (longFrom b 8 = 0xFFFFFFFF ∧ longFrom b 12 = 0xFFFFFFFF) →
    c.loop = some { first := longFrom b 8, last := longFrom b 12 }

/-! ## Terms of the statements about the service port -/

/-- R187: the port takes a packet: no restart is pending, and a place among four is left for its answer. -/
def ServicePort.hasRoom (p : ServicePort) : Prop :=
  p.restartPending = false ∧ p.answers.length + p.reads.length + (if p.inProgress = .none then 0 else 1) < 4

/-- The port in HUNT, seeking a start bit, with the gap timer stopped (R184, R185). -/
def ServicePort.hunting (p : ServicePort) : ServicePort :=
  { p with assembly := .hunt, receiver := .seeking, gapFrom := none }

/-- The port with one response more, made at instant `t`, which goes out from then on if none was before it (R187). -/
def ServicePort.withAnswer (p : ServicePort) (t : Nat) (r : Response) : ServicePort :=
  { p with
    answers := p.answers ++ [r]
    sendingFrom := if p.sendingFrom = none then some t else p.sendingFrom }

/-- The port in HUNT after a packet it has answered at instant `t` (R185, R187). -/
def ServicePort.answered (p : ServicePort) (t : Nat) (command : Byte) (status : PacketStatus) (payload : List Byte) :
    ServicePort :=
  p.hunting.withAnswer t { command := command, status := status, payload := payload }

end Sys2Proof.Machine
end

