-- ==== Sys2Proof/Certificates/Slice0/Obligations.lean ====
section
/-!
DEFINITION. The statements about the CS-12 for the provers. Statements about a command give its next state for every
state and operands that meet the hypotheses; `liveAt` says that the station has power, is out of reset and that the
instant is not past.
-/

open Sys2Proof Sys2Proof.Machine

/-! ## The step and the invariants -/

/-- A step carries out the command that has waited longest on the state with the rest of the queue, and idles on an
empty queue (the idling is the model's choice, log entry 2). -/
def Obligations.StepTakesFront : Prop :=
  (∀ (c : Instr) (rest : List Instr) (s : State), step { s with pending := c :: rest } = exec c { s with pending := rest }) ∧
    ∀ s : State, s.pending = [] → step s = .next s

/-- The state right after power-on holds the reset values the spec gives, with power, the reset line released and no
command waiting. -/
def Obligations.PowerOnValues : Prop :=
  ResetLeaves State.reset .power ∧ State.reset.powered = true ∧ State.reset.resetLine = .released ∧
    State.reset.pending = []

/-- Every invariant stated below holds right after reset. -/
def Obligations.ResetHoldsInvariants : Prop :=
  State.reset.flashSound ∧ State.reset.drivesLawfully ∧ QueueShape State.reset.queue ∧ State.reset.countsInRange ∧
    State.reset.fifosBounded ∧ State.reset.pool.setsAgree ∧ State.reset.pool.orderWhole ∧
    State.reset.pool.successorsWait ∧ State.reset.pendingsKept ∧ State.reset.round.consistent ∧
    State.reset.service.answersFit ∧ State.reset.shadowSilent

/-- No command touches the queue of waiting commands. -/
def Obligations.CommandsKeepPending : Prop :=
  ∀ (c : Instr) (s u : State), exec c s = .next u → u.pending = s.pending

/-- From a state whose flash accesses are all in range no step faults or is refused, and the next state is such a state
again: every command of the table completes. -/
def Obligations.SoundStationNeverStops : Prop :=
  ∀ s : State, s.flashSound → ∃ u, step s = .next u ∧ u.flashSound

/-- R25: every step keeps to the Line Port's permission to drive. -/
def Obligations.DrivesOnlyWhenAllowed : Prop :=
  ∀ s u : State, s.drivesLawfully → step s = .next u → u.drivesLawfully

/-- R36: every step keeps the Send Queue at most 8 long, strictly ascending by key, with at most one entry IN FLIGHT. -/
def Obligations.QueueShapeKept : Prop :=
  ∀ s u : State, QueueShape s.queue → step s = .next u → QueueShape u.queue

/-- R21, R83, R192: every step keeps the counts in their ranges. -/
def Obligations.CountsKept : Prop :=
  ∀ s u : State, s.countsInRange → step s = .next u → u.countsInRange

/-- R131: every step keeps frames held plus frames in flight at 64 or fewer for every voice. -/
def Obligations.FifosKept : Prop :=
  ∀ s u : State, s.fifosBounded → step s = .next u → u.fifosBounded

/-- R84, R107: every step keeps the slots' voice sets in agreement with the voices, and the allocation order a list of
all twelve voices. -/
def Obligations.VoiceSetsKept : Prop :=
  ∀ s u : State, s.pool.setsAgree → s.pool.orderWhole → step s = .next u → u.pool.setsAgree ∧ u.pool.orderWhole

/-- R111: every step keeps successors on FADING voices alone. -/
def Obligations.SuccessorsKept : Prop :=
  ∀ s u : State, s.pool.successorsWait → step s = .next u → u.pool.successorsWait

/-- R89: every step keeps pending triggers at slots that are both held and enabled. -/
def Obligations.PendingsKept : Prop :=
  ∀ s u : State, s.pendingsKept → step s = .next u → u.pendingsKept

/-- R54, R55, R56: every step keeps the round record consistent. -/
def Obligations.RoundKept : Prop :=
  ∀ s u : State, s.round.consistent → step s = .next u → u.round.consistent

/-- R187: every step keeps the answer list within its four places, and the first answer, while there is one, going out (since
the instant the model holds, log entry 41). -/
def Obligations.AnswersKept : Prop :=
  ∀ s u : State, s.service.answersFit → step s = .next u → u.service.answersFit

/-- R26: every step keeps a shadow station silent: TEC and frames sent 0, no entry and no attempt. -/
def Obligations.ShadowKept : Prop :=
  ∀ s u : State, s.shadowSilent → step s = .next u → u.shadowSilent

/-! ## Power, reset and start-up -/

/-- R175: POWER_ON and the release of the reset line leave every block at its reset values with the cause of that reset;
the flash keeps its bytes, and an ERASE or PROGRAM under way runs on through the release of the reset line (R141). -/
def Obligations.ResetsLeaveResetValues : Prop :=
  (∀ (s : State) (t : Nat) (low : Bool), ∃ u, exec (.powerOn t low) s = .next u ∧ ResetLeaves u .power ∧
    u.powered = true ∧ u.resetLine = (if low then .lowFromPowerUp else .released) ∧ u.pending = s.pending ∧
    (s.powered = false → u.flash.mem = s.flash.mem)) ∧
  ∀ (s : State) (t : Nat), s.powered = true → s.clock ≤ t → ∃ u, exec (.resetLine t) s = .next u ∧
    ResetLeaves u (if s.resetLine = .lowFromPowerUp then .power else .line) ∧ u.powered = true ∧
    u.resetLine = .released ∧ u.pending = s.pending ∧ u.flash.mem = s.flash.mem ∧
    ∀ o, s.flash.op = some o → o.dueAt ≤ t + o.job.clocks → u.flash.op = some { o with dueAt := o.dueAt - t }

/-- R28, R136, R175, R184: a low level on the reset line stops every drive and the attempt, cuts off the fetch read and
stops the service port; nothing else changes until the line is released (that the rest stands meanwhile is the model's
choice, log entry 14). -/
def Obligations.ResetLineLowStops : Prop :=
  ∀ (s : State) (t : Nat), s.powered = true → s.clock ≤ t →
    exec (.resetLineLow t) s = .next
      { s with
        clock := t
        resetLine := if s.resetLine = .lowFromPowerUp then .lowFromPowerUp else .low
        line := { s.line with drive := .released, attempt := none }
        fetch := none
        flash := { s.flash with op := s.flash.op.filter fun o => decide (o.dueAt ≤ t + o.job.clocks) }
        service :=
          { assembly := .hunt, receiver := .seeking, gapFrom := none, inProgress := .none, reads := [], answers := []
            sendingFrom := none, restartPending := false } }

/-- R141: a power loss leaves the flash without an operation. Bytes no operation touches are unchanged; after a PROGRAM
cut short each bit it was to clear is its old value or 0 and each other bit its old value; after an ERASE cut short each
bit of the sector is its old value or 1. (That station and flash lose their power together is the model's choice, log
entry 13.) -/
def Obligations.PowerLossCutsFlash : Prop :=
  ∀ (s : State) (t : Nat), s.powered = true → s.clock ≤ t → Memory.wf s.flash.mem →
    ∃ u, exec (.powerLoss t) s = .next u ∧ u.powered = false ∧ u.flash.op = none ∧ u.line.drive = .released ∧
      u.pending = s.pending ∧
      (s.flash.op = none → u.flash.mem = s.flash.mem) ∧
      (∀ a data due, s.flash.op = some { job := .program a data, dueAt := due } → due ≤ t + milliClocks →
        a + data.length ≤ flashSize →
        (∀ k, k < a ∨ a + data.length ≤ k → Memory.read u.flash.mem k = Memory.read s.flash.mem k) ∧
        ∀ i d bit, data[i]? = some d →
          (Memory.read u.flash.mem (a + i)).getLsbD bit = (Memory.read s.flash.mem (a + i)).getLsbD bit ∨
            (d.getLsbD bit = false ∧ (Memory.read u.flash.mem (a + i)).getLsbD bit = false)) ∧
      ∀ a due, s.flash.op = some { job := .erase a, dueAt := due } → due ≤ t + 40 * milliClocks →
        (∀ k, k < a ∨ a + sectorSize ≤ k → Memory.read u.flash.mem k = Memory.read s.flash.mem k) ∧
        ∀ k (bit : Fin 8), a ≤ k → k < a + sectorSize →
          (Memory.read u.flash.mem k).getLsbD bit = (Memory.read s.flash.mem k).getLsbD bit ∨
            (Memory.read u.flash.mem k).getLsbD bit = true

/-- R178: at the end of the read of the start record, 3096 master clock periods after the flash is free, the record is
judged in three stages and the first that fails gives the start fault; a record that passes all three is held, and
nothing outside the Start Loader changes (R177). R179, R196, 11.3: a record passes the third stage when every judged field
is in its range, and holds the value of each at its offset. (That the command is the end of the transfer, 3096 periods after the
flash is free, and takes the bytes of that instant is the model's choice, log entry 27.) -/
def Obligations.StartRecordJudged : Prop :=
  ∀ (s : State) (t : Nat), s.liveAt t → s.loader.mode = .loading → s.loader.loaded = false → s.loader.record = none →
    s.flash.op = none → s.flash.freeSince + 3096 ≤ t →
    ∀ (b : Nat → Byte) (sum : Nat), (∀ i, b i = (Memory.readRun s.flash.mem 0 1536)[i]?.getD 0) →
      sum = ((List.range 768).map fun i => wordFrom b (2 * i)).sum →
      (Memory.wf s.flash.mem → ∀ i, i < 1536 → b i = Memory.read s.flash.mem i) ∧
      (wordFrom b 0 ≠ 0x4353 ∨ wordFrom b 2 ≠ 1 →
        exec (.startRecordRead t) s = .next
          { s with clock := t, loader := { s.loader with mode := .service, fault := .noRecord } }) ∧
      (wordFrom b 0 = 0x4353 → wordFrom b 2 = 1 → sum % 65536 ≠ 0 →
        exec (.startRecordRead t) s = .next
          { s with clock := t, loader := { s.loader with mode := .service, fault := .badSum } }) ∧
      (wordFrom b 0 = 0x4353 → wordFrom b 2 = 1 → sum % 65536 = 0 → (∀ r, ¬ RecordHolds b r) →
        exec (.startRecordRead t) s = .next
          { s with clock := t, loader := { s.loader with mode := .service, fault := .badValue } }) ∧
      ∀ r, wordFrom b 0 = 0x4353 → wordFrom b 2 = 1 → sum % 65536 = 0 → RecordHolds b r →
        exec (.startRecordRead t) s = .next
          { s with clock := t, loader := { s.loader with record := some { record := r, readAt := t } } }

/-- R181, R129, R195: load completion sets loaded and gives every block its configuration of the record at once; clip n is
what its own 16 bytes of the directory give: absent where they are blank or refused, and else present with the address,
frames, channels and loop they hold by 11.2. The dropped count is the number of refused entries. Everything else is
unchanged. -/
def Obligations.LoadCompletes : Prop :=
  ∀ (s : State) (t : Nat) (h : HeldRecord), s.liveAt t → s.loader.record = some h → s.loader.mode = .loading →
    s.loader.loaded = false → s.flash.op = none → h.readAt + 8216 ≤ t → Memory.wf s.flash.mem →
    ∃ pool clips inputs lamps,
      exec (.loadCompletion t) s = .next
        { s with
          clock := t
          loader := { s.loader with loaded := true, record := none }
          station := h.record.station
          line :=
            { s.line with
              bitRate := some h.record.bitRate, warningLevel := h.record.warningLevel, holdoff := h.record.holdoff
              recessiveRun := 0 }
          pool := pool, clips := clips
          mixer :=
            { s.mixer with
              air := { current := h.record.airMaster, target := h.record.airMaster }
              house := { current := h.record.houseMaster, target := h.record.houseMaster }
              attack := rateOf h.record.attackMs, release := rateOf h.record.releaseMs }
          inputs := inputs, lamps := lamps } ∧
      pool.voices = s.pool.voices ∧ pool.order = s.pool.order ∧ pool.grant = s.pool.grant ∧
      (∀ n : SlotNo, pool.slots[n] =
        { s.pool.slots[n] with enabled := h.record.slots[n].enabled, config := some h.record.slots[n].config }) ∧
      (∀ i : Fin 8, inputs[i] = { s.inputs[i] with config := some h.record.inputs[i] }) ∧
      (∀ i : Fin 8, lamps[i] = { s.lamps[i] with assign := h.record.lamps[i] }) ∧
      ∀ entry : Nat → Nat → Byte, (∀ n i, entry n i = Memory.read s.flash.mem (0x1000 + 16 * n + i)) →
        (∀ n : Byte,
          (EntryBlank (entry n.toNat) ∨ EntryRefused (entry n.toNat) → clips.clip n = none) ∧
          (¬ EntryBlank (entry n.toNat) → ¬ EntryRefused (entry n.toNat) →
            ∃ c, clips.clip n = some c ∧ EntryHolds (entry n.toNat) c)) ∧
        clips.dropped = (List.range 256).countP fun n => decide (EntryRefused (entry n))

/-! ## The cue line -/

/-- R182, R24, R5: a quiet gap after load completion joins the station, which goes ONLINE and, unless it is a shadow,
queues its join ASK; a gap while OFF counts toward recovery, which the 96th completes; any other gap only lengthens the
recessive run. -/
def Obligations.QuietGapCounted : Prop :=
  ∀ (s : State) (t : Nat), s.liveAt t → s.line.bitRate.isSome →
    (s.loader.mode = .loading → s.loader.loaded = true → s.line.lineState ≠ .off → s.queue = [] →
      exec (.quietGap t) s = .next
        { s with
          clock := t
          loader := { s.loader with mode := .online }
          line := { s.line with recessiveRun := nextGap s.line.recessiveRun, listening := true, joined := true }
          queue :=
            if s.station.shadow then []
            else
              [{ key := makeKey 6 0 s.station.number, content := .fixed [0, 0], enqueued := stationTimeAt t
                 lateLimit := none, singleTry := false, state := .waiting, reported := none, portCleared := false }] }) ∧
    (¬ (s.loader.mode = .loading ∧ s.loader.loaded = true) →
      exec (.quietGap t) s = .next
        { s with
          clock := t
          line :=
            { s.line with
              recessiveRun := nextGap s.line.recessiveRun
              tec := if s.line.lineState = .off ∧ 96 ≤ s.line.recCount + 1 then 0 else s.line.tec
              recCount :=
                if s.line.lineState = .off then (if 96 ≤ s.line.recCount + 1 then 0 else s.line.recCount + 1)
                else s.line.recCount
              lineState :=
                if s.line.lineState = .off ∧ 96 ≤ s.line.recCount + 1 then .active else s.line.lineState } })

/-- R15: a station that contends begins its attempt at its own SOF; one whose required run is not reached, or that has
nothing to offer, changes nothing. A frame of another station still in its ack window completes at that edge (R12), after
the attempt has been built (the order is the model's choice, log entry 8). That the count of the command must agree with
the quiet gaps counted so far, and that an attempt with another count changes nothing, is the model's choice (log
entry 6), and so is what a retried TELL ERRORS remembers of a clear by the port (log entry 24). That a station that still
drives its own spoil, which R182's station without a transceiver can do while it contends, drives its frame in place of the
spoil is the model's choice as well (log entry 33). -/
def Obligations.AttemptBegins : Prop :=
  ∀ (s : State) (t run : Nat), s.liveAt t →
    (∀ e u, Contends s run e →
      (∀ f, s.line.followed = some f → f.inWindow = true → u = (attempting s t e).completeFrame f) →
      ((∀ f, s.line.followed = some f → f.inWindow = false) → u = attempting s t e) →
      exec (.attemptStart t run) s = .next u) ∧
    ((∀ e, ¬ Contends s run e) → exec (.attemptStart t run) s = .next { s with clock := t })

/-- R6, R12, R15: another station's SOF is joined by a station that contends, and followed as a receiver by any other; a
frame of another station still in its ack window completes at that edge, and any other frame being followed is dropped.
(That the count of the command must agree with the quiet gaps counted so far is the model's choice, log entry 6; so is
the order of the attempt and the completion, log entry 8, and what a retried TELL ERRORS remembers, log entry 24; and so is
that a contending station that still drives its own spoil drives its frame in place of it, log entry 33.) -/
def Obligations.SofEdgeFollowed : Prop :=
  ∀ (s : State) (t run : Nat), s.liveAt t → s.line.listening = true → 13 ≤ s.line.recessiveRun → s.line.attempt = none →
    (∀ e u, Contends s run e →
      (∀ f, s.line.followed = some f → f.inWindow = true → u = (attempting s t e).completeFrame f) →
      ((∀ f, s.line.followed = some f → f.inWindow = false) → u = attempting s t e) →
      exec (.sofEdge t run) s = .next u) ∧
    ((∀ e, ¬ Contends s run e) → ∀ after,
      after =
        { s with
          clock := t
          line :=
            { s.line with
              followed := some { sof := stationTimeAt t, chars := [] }, recessiveRun := 0
              drive := if s.line.drive = .ack then .released else s.line.drive } } →
      (∀ f, s.line.followed = some f → f.inWindow = true →
        exec (.sofEdge t run) s = .next (after.completeFrame f)) ∧
      ((∀ f, s.line.followed = some f → f.inWindow = false) → exec (.sofEdge t run) s = .next after))

/-- R2 to R5, R9, R12, R17: a good character joins the frame being followed, the last one of another station's frame with
an ack bit where the station may ack; a character of the station's own frame goes out as sent, and after its last one the
station drives nothing. The count of R5 runs through the eleven bit times of each, and through those of the ack window,
where a quiet gap reached while OFF counts toward recovery (R24). Nothing else changes. (That the window's bit times come
as one character time, and that a character that differs from the one sent changes the count alone, are the model's
choices, log entries 6 and 7.) -/
def Obligations.CharacterTaken : Prop :=
  ∀ (s : State) (t : Nat) (c : LineChar), s.liveAt t → s.line.bitRate.isSome →
    (s.line.followed = none →
      exec (.characterReceived t c) s = .next
        { s with
          clock := t
          line :=
            { s.line with
              recessiveRun :=
                if c.start = .dominant then runAfter s.line.recessiveRun (charBits c) else s.line.recessiveRun } }) ∧
    (∀ f, s.line.followed = some f → s.line.attempt = none → f.inWindow = false → charFault f.chars c = none →
      ∃ drive,
        exec (.characterReceived t c) s = .next
          { s with
            clock := t
            line :=
              { s.line with
                recessiveRun := runAfter s.line.recessiveRun (charBits c), drive := drive
                followed := some { f with chars := f.chars ++ [c.data] } } } ∧
        ((Followed.inWindow { f with chars := f.chars ++ [c.data] } = true ∧ mayAckNow s) → drive = .ack) ∧
        (¬ (Followed.inWindow { f with chars := f.chars ++ [c.data] } = true ∧ mayAckNow s) → drive = s.line.drive)) ∧
    (∀ f a b, s.line.followed = some f → s.line.attempt = some a → f.inWindow = false →
      (frameChars a.key a.payload a.check)[f.chars.length]? = some b →
      (c = goodChar b →
        exec (.characterReceived t c) s = .next
          { s with
            clock := t
            line :=
              { s.line with
                recessiveRun := runAfter s.line.recessiveRun (charBits c)
                followed := some { f with chars := f.chars ++ [b] }
                drive :=
                  if Followed.inWindow { f with chars := f.chars ++ [b] } then .released else s.line.drive } }) ∧
      (c ≠ goodChar b →
        exec (.characterReceived t c) s = .next
          { s with
            clock := t
            line :=
              { s.line with
                recessiveRun :=
                  if c.start = .dominant then runAfter s.line.recessiveRun (charBits c)
                  else s.line.recessiveRun } })) ∧
    ∀ f last run, s.line.followed = some f → f.inWindow = true → f.chars.getLast? = some last →
      (∀ a, s.line.attempt = some a → f.chars = frameChars a.key a.payload a.check) →
      run = runAfter 0 (charBits (goodChar last) ++ charBits c) →
      (s.line.lineState ≠ .off ∨ 13 ≤ s.line.recessiveRun ∨ run < 13 →
        exec (.characterReceived t c) s = .next
          { s with clock := t, line := { s.line with recessiveRun := run } }) ∧
      (s.line.lineState = .off → s.line.recessiveRun < 13 → 13 ≤ run →
        exec (.characterReceived t c) s = .next
          { s with
            clock := t
            line :=
              { s.line with
                recessiveRun := run, tec := if 96 ≤ s.line.recCount + 1 then 0 else s.line.tec
                recCount := if 96 ≤ s.line.recCount + 1 then 0 else s.line.recCount + 1
                lineState := if 96 ≤ s.line.recCount + 1 then .active else .off } })

/-- R4, R8, R9, R21, R22, R25: which character is which fault at which place of a frame: a missing start bit or a
dominant stop bit is a framing error, an odd count of 1s with the parity bit a parity error, a LEN above 8 a framing error,
and a last character that does not complete the check of the characters before it a check error. The first fault of
another station's frame is counted by its kind, raises REC except while OFF, ends the frame, and starts a spoil where the
station may spoil. (How the count of R5 takes the character is the model's choice, log entry 6.) -/
def Obligations.ReceiveErrorSpoils : Prop :=
  (∀ (taken : List Byte) (c : LineChar) (ones : Nat),
    ones = (List.range 8).countP (fun i => c.data.getLsbD i) + (if c.parity then 1 else 0) →
    (c.start = .recessive → charFault taken c = some .framingErrors) ∧
    (c.start = .dominant → ones % 2 = 1 → charFault taken c = some .parityErrors) ∧
    (c.start = .dominant → ones % 2 = 0 → c.stop = .dominant → charFault taken c = some .framingErrors) ∧
    (c.start = .dominant → ones % 2 = 0 → c.stop = .recessive →
      (taken.length < 2 → charFault taken c = none) ∧
      (taken.length = 2 → charFault taken c = if 8 < c.data.toNat then some .framingErrors else none) ∧
      ∀ len, taken[2]? = some len →
        (taken.length ≠ len.toNat + 4 → charFault taken c = none) ∧
        ∀ head high, taken = head ++ [high] → taken.length = len.toNat + 4 →
          charFault taken c = if high ++ c.data = checkOf head then none else some .checkErrors)) ∧
  (checkOf [] = 0xFFFF ∧
    ∀ (head : List Byte) (b : Byte),
      checkOf (head ++ [b]) =
        (List.range 8).foldl
          (fun (reg : BitVec 16) i => if reg.msb = b.getLsbD (7 - i) then reg <<< 1 else (reg <<< 1) ^^^ 0x1021#16) (checkOf head)) ∧
  ∀ (s : State) (t : Nat) (c : LineChar) (f : Followed) (kind : ErrorCount), s.liveAt t → s.line.bitRate.isSome →
    s.line.followed = some f → s.line.attempt = none → f.inWindow = false → charFault f.chars c = some kind →
    ∀ n, n = (if s.line.lineState = .off then s.line.recCount else min 255 (s.line.recCount + 1)) →
      ∃ drive,
        exec (.characterReceived t c) s = .next
          { s with
            clock := t
            errors := s.errors.bump kind
            line :=
              { s.line with
                recessiveRun :=
                  if c.start = .dominant then runAfter s.line.recessiveRun (charBits c) else s.line.recessiveRun + 1
                followed := none, recCount := n
                lineState := stateAfter s.line s.line.tec n, drive := drive } } ∧
        (mayAckNow s ∧ s.line.lineState ≠ .passive → drive = .spoil) ∧
        (¬ (mayAckNow s ∧ s.line.lineState ≠ .passive) → drive = s.line.drive)

/-- R10, R11, R12, R18: at the end of its 12 bit times a spoil is released; a receiver that sees the second bit time of
an ack window dominant discards the frame; a spoil seen while listening is counted and discards the frame being followed,
and on the station's own frame it fails the attempt, or from a TEC of 252 or more enters OFF (R23). (What the entry of a
TELL ERRORS remembers when it waits again is the model's own, log entry 24.) -/
def Obligations.SpoilsTaken : Prop :=
  ∀ (s : State) (t : Nat), s.liveAt t →
    (s.line.drive = .spoil →
      exec (.spoilEnd t) s = .next
        { s with clock := t, line := { s.line with drive := .released } }) ∧
    (∀ f, s.line.followed = some f → s.line.attempt = none → f.inWindow = true →
      exec (.frameSpoiledInWindow t) s = .next
        { s with
          clock := t
          line :=
            { s.line with
              followed := none, recessiveRun := 0
              drive := if s.line.drive = .ack then .released else s.line.drive } }) ∧
    (s.line.listening = true → s.line.attempt = none →
      exec (.spoilSeen t) s = .next
        { s with
          clock := t
          errors := s.errors.bump .spoilsSeen
          line :=
            { s.line with
              followed := none, recessiveRun := 0
              drive := if s.line.drive = .ack then .released else s.line.drive } }) ∧
    ∀ a q, s.line.listening = true → s.line.attempt = some a →
      (s.line.tec ≤ 251 → q = afterFailure s.queue (s.errors.bump .spoilsSeen) (stationTimeAt t) a →
        exec (.spoilSeen t) s = .next
          { s with
            clock := t, queue := q.1, errors := q.2
            line :=
              failedLine s.line 0
                (if s.line.drive = .ack ∨ s.line.drive = .frame then .released else s.line.drive) }) ∧
      (252 ≤ s.line.tec →
        q =
          afterReturn s.queue ((s.errors.bump .spoilsSeen).bump .lineOffEntries) (stationTimeAt t) a →
        exec (.spoilSeen t) s = .next
          { s with clock := t, queue := q.1, errors := q.2, line := offLine s.line 0 })

/-- R16, R20, R44: a station that sends a recessive key bit and reads dominant has lost: it stops driving, owes no
holdoff, changes neither TEC nor REC, goes on following the frame, and its entry returns to the queue. (What the entry of a
TELL ERRORS then remembers is the model's own, log entry 24.) -/
def Obligations.ArbitrationLost : Prop :=
  ∀ (s : State) (t : Nat) (bit : Fin 16) (a : Attempt) (f : Followed), s.liveAt t → s.line.attempt = some a →
    s.line.followed = some f → f.chars.length = bit.val / 8 → a.key.getMsbD bit = true →
    ∀ q, q = afterReturn s.queue s.errors (stationTimeAt t) a →
      exec (.arbitrationLost t bit) s = .next
        { s with
          clock := t, queue := q.1, errors := q.2
          line :=
            { s.line with
              attempt := none, holdoffOwed := false, recessiveRun := 0
              drive := if s.line.drive = .frame then .released else s.line.drive } }

/-- R17, R18, R20, R21, R23: a bit error of the own frame raises TEC by 4, ends the attempt as failed and starts a spoil
where the station may spoil; a spoil of the own frame in its ack window does the same without a spoil. From a TEC of 252
or more either enters OFF instead, and the attempt is abandoned. An ack miss is counted, raises TEC by 4 below 128 and leaves
it at 128 or above, and fails the attempt. (That the count of R5 is the operand of BIT_ERROR is the model's choice, log
entry 6; what the entry of a TELL ERRORS remembers is its own, log entry 24.) -/
def Obligations.TransmitErrors : Prop :=
  ∀ (s : State) (t : Nat) (a : Attempt) (f : Followed), s.liveAt t → s.line.attempt = some a →
    s.line.followed = some f →
    (∀ run, f.inWindow = false →
      (s.line.tec ≤ 251 → ∀ q, q = afterFailure s.queue s.errors (stationTimeAt t) a →
        exec (.bitError t run) s = .next
          { s with
            clock := t, queue := q.1, errors := q.2
            line :=
              failedLine s.line run
                (if s.maySpoil then .spoil else if s.line.drive = .frame then .released else s.line.drive) }) ∧
      (252 ≤ s.line.tec →
        ∀ q, q = afterReturn s.queue (s.errors.bump .lineOffEntries) (stationTimeAt t) a →
          exec (.bitError t run) s = .next
            { s with clock := t, queue := q.1, errors := q.2, line := offLine s.line run })) ∧
    (f.inWindow = true →
      (s.line.tec ≤ 251 → ∀ q, q = afterFailure s.queue s.errors (stationTimeAt t) a →
        exec (.ownFrameSpoiled t) s = .next
          { s with
            clock := t, queue := q.1, errors := q.2
            line := failedLine s.line 0 (if s.line.drive = .frame then .released else s.line.drive) }) ∧
      (252 ≤ s.line.tec →
        ∀ q, q = afterReturn s.queue (s.errors.bump .lineOffEntries) (stationTimeAt t) a →
          exec (.ownFrameSpoiled t) s = .next
            { s with clock := t, queue := q.1, errors := q.2, line := offLine s.line 0 }) ∧
      ∀ q, q = afterFailure s.queue (s.errors.bump .ackMisses) (stationTimeAt t) a →
        exec (.ackMiss t) s = .next
          { s with
            clock := t, queue := q.1, errors := q.2
            line :=
              { s.line with
                tec := if s.line.tec < 128 then s.line.tec + 4 else s.line.tec
                lineState :=
                  if s.line.tec < 128 then stateAfter s.line (s.line.tec + 4) s.line.recCount else s.line.lineState
                followed := none, attempt := none, holdoffOwed := true, recessiveRun := s.line.recessiveRun + 1
                drive := if s.line.drive = .frame then .released else s.line.drive } })

/-- R19, R20, R43, R50: an own acked frame at the end of its window lowers TEC, counts as sent, removes its entry, and is
handed to the own Dispatcher when the station is joined and not in SERVICE. A TELL ERRORS with clear lowers each of the
three counts of its group by the value its payload carried, and leaves them at 0 when the service port has cleared the group
since the entry first reported it (log entry 24); no other count changes. (That the count of R5 stands, its window having
come as a character time, is the model's choice, log entry 6.) -/
def Obligations.OwnFrameCompletes : Prop :=
  ∀ (s : State) (t : Nat) (a : Attempt) (f : Followed), s.liveAt t → s.line.attempt = some a →
    s.line.followed = some f → f.inWindow = true →
    ∀ errors after,
      ((∀ arg, a.tellArg = some arg → ¬ (keyClass a.key = 7 ∧ keySubject a.key = 4 ∧ arg.msb = true)) →
        errors = s.errors) →
      (∀ arg, a.tellArg = some arg → keyClass a.key = 7 → keySubject a.key = 4 → arg.msb = true →
        ∀ (i : Fin 18) (hi lo : Byte), hi = a.payload[1 + 2 * (i.val % 3)]?.getD 0 →
          lo = a.payload[2 + 2 * (i.val % 3)]?.getD 0 →
          errors.counts[i] =
            if i.val / 3 = (arg &&& 0x7F).toNat then
              (if a.portCleared then 0 else s.errors.counts[i] - (hi.toNat * 256 + lo.toNat))
            else s.errors.counts[i]) →
      after =
        { s with
          clock := t
          queue := s.queue.filter fun e => decide (e.state ≠ .inFlight)
          errors := errors
          line :=
            { s.line with
              tec := s.line.tec - 1, lineState := stateAfter s.line (s.line.tec - 1) s.line.recCount
              framesSent := s.line.framesSent + 1, followed := none, attempt := none, holdoffOwed := true
              drive := if s.line.drive = .frame then .released else s.line.drive } } →
      (s.line.joined = true → s.loader.mode ≠ .service →
        exec (.ownFrameComplete t) s = .next (after.dispatchFrame (frameOf a.key a.payload f.sof))) ∧
      (¬ (s.line.joined = true ∧ s.loader.mode ≠ .service) → exec (.ownFrameComplete t) s = .next after)

/-- R13, R12, R21, R22: a frame of another station that completes lowers REC except while OFF, counts as received, and
is handed to the Dispatcher when the station is joined and not in SERVICE. (That the count of R5 stands, its window having
come as a character time, is the model's choice, log entry 6.) -/
def Obligations.FrameCompletes : Prop :=
  ∀ (s : State) (t : Nat) (f : Followed), s.liveAt t → s.line.attempt = none → s.line.followed = some f →
    f.inWindow = true →
    ∀ n after, n = (if s.line.lineState = .off then s.line.recCount else s.line.recCount - 1) →
      after =
        { s with
          clock := t
          line :=
            { s.line with
              recCount := n, lineState := stateAfter s.line s.line.tec n
              framesReceived := s.line.framesReceived + 1, followed := none
              drive := if s.line.drive = .ack then .released else s.line.drive } } →
      (s.line.joined = true → s.loader.mode ≠ .service →
        exec (.frameComplete t) s = .next (after.dispatchFrame (frameOf f.key f.payload f.sof))) ∧
      (¬ (s.line.joined = true ∧ s.loader.mode ≠ .service) → exec (.frameComplete t) s = .next after)

/-! ## Times the station waits for -/

/-- R46, R57, R71: a WAITING entry whose age has reached its late limit leaves the queue as a stale drop; a penalty end
that station time has reached becomes absent; a window end it has reached expires the round, with TIMEOUT for the winner
at the window end. Before its time each of the three commands changes nothing. -/
def Obligations.TimesReached : Prop :=
  ∀ (s : State) (t : Nat), s.liveAt t →
    (∀ key e ms, e ∈ s.queue → e.key = key → e.state = .waiting → e.lateLimit = some ms →
      (ms * 1000 : Int) ≤ (stationTimeAt t - e.enqueued).toInt →
      exec (.staleDrop t key) s = .next
        { s with
          clock := t, queue := s.queue.filter fun x => decide (x.key ≠ key), errors := s.errors.bump .staleDrops }) ∧
    (∀ key, (∀ e ∈ s.queue, ∀ ms, e.key = key → e.state = .waiting → e.lateLimit = some ms →
        (stationTimeAt t - e.enqueued).toInt < ms * 1000) →
      exec (.staleDrop t key) s = .next { s with clock := t }) ∧
    (∀ seat e, s.penalties[seat] = some e → 0 ≤ (stationTimeAt t - e).toInt →
      exec (.penaltyEnd t seat) s = .next
        (State.refreshSeatLamps { s with clock := t, penalties := s.penalties.set seat none } none)) ∧
    (∀ seat : Seat, (∀ e, s.penalties[seat] = some e → (stationTimeAt t - e).toInt < 0) →
      exec (.penaltyEnd t seat) s = .next { s with clock := t }) ∧
    (∀ e after, s.round.state = .locked → s.round.windowEnd = some e → 0 ≤ (stationTimeAt t - e).toInt →
      after = { s with clock := t, round := { s.round with state := .expired, windowEnd := none } } →
      (s.station.eventCode[4] = none → exec (.windowExpiry t) s = .next (after.refreshSeatLamps none)) ∧
      ∀ c w, s.station.eventCode[4] = some c → s.round.winner = some w →
        exec (.windowExpiry t) s = .next
          (State.refreshSeatLamps
            (after.takeTrigger
              { code := if s.station.addSeat[2] then c + BitVec.ofNat 8 w.val else c
                source := .local, seat := some w, fireTime := e })
            none)) ∧
    ((∀ e, s.round.state = .locked → s.round.windowEnd = some e → (stationTimeAt t - e).toInt < 0) →
      exec (.windowExpiry t) s = .next { s with clock := t })

/-! ## Voices -/

/-- R108, R110, R107, R84, R133: what becoming FREE and what an allocation make of the voice, of the voice sets and of the
allocation order; every other voice and every other slot stays as it is. A voice allocated while no other requests frames is
the first to request, and is granted at once (how the grant is kept is the model's choice, log entry 30). -/
def Obligations.VoicesFreedAndAllocated : Prop :=
  (∀ (p : Pool) (v : VoiceNo) (x : Voice), x = p.voices[v] →
    (p.free v).order = p.order ∧ (p.free v).grant = p.grant ∧
    (p.free v).voices[v] =
      { x with
        state := .free, owner := none, fifo := [], exhausted := false, underrun := false, envelope := 30720
        target := 30720, silent := false } ∧
    (∀ u : VoiceNo, u ≠ v → (p.free v).voices[u] = p.voices[u]) ∧
    ∀ n : SlotNo, (p.free v).slots[n] =
      if x.owner = some n then { p.slots[n] with voices := p.slots[n].voices &&& ~~~BitVec.twoPow 12 v }
      else p.slots[n]) ∧
  ∀ (p : Pool) (clips : ClipTable) (v : VoiceNo) (r : VoiceRequest) (clip : Clip), p.setsAgree →
    clips.clip r.clip = some clip →
    (p.allocate clips v r).order = p.order.filter (fun u => decide (u ≠ v)) ++ [v] ∧
    (p.allocate clips v r).voices[v] =
      { state := .scheduled, owner := some r.slot, generation := p.voices[v].generation + 1, clip := r.clip
        channels := clip.channels, cursor := 0, loop := r.loopFlag && clip.loop.isSome, priority := r.priority
        choke := r.choke, airSend := r.airSend, houseSend := r.houseSend, duckDepth := r.duckDepth
        fadeInRate := rateOf (r.fadeIn * 10), fadeOutRate := rateOf (r.fadeOut * 10), rate := p.voices[v].rate
        envelope := 30720, target := 30720, duck := 0, duckTarget := p.voices[v].duckTarget, startTime := r.startTime
        endCode := r.endCode, endRoute := r.endRoute, fifo := [], exhausted := false, underrun := false
        successor := none, silent := false } ∧
    (∀ u : VoiceNo, u ≠ v → (p.allocate clips v r).voices[u] = p.voices[u]) ∧
    (p.grant = none → (∀ u : VoiceNo, u ≠ v → ¬ WantsFrames p.voices[u]) →
      (p.allocate clips v r).grant =
        some
          { voice := v, generation := p.voices[v].generation + 1, clip := r.clip
            loop := r.loopFlag && clip.loop.isSome }) ∧
    (p.grant ≠ none ∨ (∃ u : VoiceNo, u ≠ v ∧ WantsFrames p.voices[u]) → (p.allocate clips v r).grant = p.grant) ∧
    ∀ n : SlotNo, ∃ set, (p.allocate clips v r).slots[n] = { p.slots[n] with voices := set } ∧
      ∀ u : VoiceNo, inSet set u = if u = v then decide (n = r.slot) else inSet p.slots[n].voices u

/-- R114: a SCHEDULED voice whose start time has come enters RUNNING, or DRAINING when its data is all read (R116), at the
beginning of a sample period, with the envelope of its fade-in; a voice at least one period late is counted. Before its
start time it stays as it is. (The rate in force of a voice without a fade-in is the model's choice, log entry 31; that it
may start in the period in which it was handed over is, too, log entry 18.) -/
def Obligations.VoiceStarts : Prop :=
  ∀ (s : State) (t : Nat) (v : VoiceNo) (x : Voice), s.liveAt t → t % 512 = 0 → s.mixer.nextSample ≤ t / 512 →
    x = s.pool.voices[v] → x.state = .scheduled →
    (0 ≤ (stationTimeAt t - x.startTime).toInt →
      exec (.voiceStart t v) s = .next
        { s with
          clock := t
          pool :=
            { s.pool with
              voices :=
                s.pool.voices.set v
                  { x with
                    state := if x.exhausted then .draining else .running
                    envelope := if x.fadeInRate < 30720 then 30720 else 0
                    target := 0, rate := x.fadeInRate, underrun := false } }
          errors :=
            if 512 ≤ t ∧ 0 ≤ (stationTimeAt (t - 512) - x.startTime).toInt then s.errors.bump .lateStarts
            else s.errors }) ∧
    ((stationTimeAt t - x.startTime).toInt < 0 → exec (.voiceStart t v) s = .next { s with clock := t })

/-- R117, R122, R123: a DRAINING voice whose FIFO is empty, with no read in flight, becomes FREE at a sample period and
raises its end code by its route; a FADING voice that has reached silence, or run dry, becomes FREE or is handed to its
successor. (That a voice handed over by the tick's report of silence has its duck current set to 0 after the duck step of
that tick is the model's choice, log entry 40.) -/
def Obligations.VoicesEnd : Prop :=
  ∀ (s : State) (t : Nat) (v : VoiceNo) (x : Voice), s.liveAt t → x = s.pool.voices[v] →
    (t % 512 = 0 → s.mixer.nextSample ≤ t / 512 → x.state = .draining → x.exhausted = true → x.fifo = [] →
      (∀ r, s.fetch = some r → r.voice ≠ v) → ∀ after, after = { s with clock := t, pool := s.pool.free v } →
      (x.endCode = none → exec (.voiceNaturalEnd t v) s = .next after) ∧
      (∀ c, x.endCode = some c → x.endRoute = .local →
        exec (.voiceNaturalEnd t v) s = .next
          (after.takeTrigger { code := c, source := .local, seat := none, fireTime := stationTimeAt t })) ∧
      ∀ c, x.endCode = some c → x.endRoute = .line →
        exec (.voiceNaturalEnd t v) s = .next
          (after.requestFrame { cls := 4, subject := c, content := .fixed [], late := false, singleTry := false })) ∧
    (x.state = .fading → ∀ pool, (x.successor = none → pool = s.pool.free v) →
      (∀ r, x.successor = some r → pool = s.pool.allocate s.clips v r) →
      (x.silent = true → exec (.silenceReached t v) s = .next { s with clock := t, pool := pool }) ∧
      (t % 512 = 0 → s.mixer.nextSample ≤ t / 512 → x.exhausted = true → x.fifo = [] →
        (∀ r, s.fetch = some r → r.voice ≠ v) →
        exec (.fadingRunDry t v) s = .next { s with clock := t, pool := pool }))

/-- R109 to R112: a request is settled by the first choice that applies: the lowest-numbered FREE voice; else the FADING
voice without a successor nearest silence, the lowest-numbered among equals; else the voice of lowest priority, not above
the request's, that was allocated longest ago; else it is refused. A settled request chokes its group (R113, whose effect
is in the next statement). That a RUNNING or DRAINING victim keeps its generation and its place in the allocation order
until it is handed over is the model's choice (log entry 29). -/
def Obligations.RequestsSettled : Prop :=
  ∀ (p : Pool) (clips : ClipTable) (r : VoiceRequest), p.orderWhole →
    (∀ v : VoiceNo, p.voices[v].state = .free → (∀ u : VoiceNo, u < v → p.voices[u].state ≠ .free) →
      p.settle clips r = some ((p.allocate clips v r).choke v r)) ∧
    ((∀ u : VoiceNo, p.voices[u].state ≠ .free) →
      (∀ v : VoiceNo, p.voices[v].state = .fading → p.voices[v].successor = none →
        (∀ u : VoiceNo, p.voices[u].state = .fading → p.voices[u].successor = none →
          p.voices[u].envelope < p.voices[v].envelope ∨ p.voices[u].envelope = p.voices[v].envelope ∧ v ≤ u) →
        p.settle clips r =
          some
            (Pool.choke { p with voices := p.voices.set v { p.voices[v] with successor := some r } } v r)) ∧
      ((∀ u : VoiceNo, p.voices[u].state = .fading → p.voices[u].successor ≠ none) →
        (∀ v : VoiceNo, p.voices[v].state ≠ .fading → p.voices[v].priority ≤ r.priority →
          (∀ u : VoiceNo, p.voices[u].state ≠ .fading → p.voices[u].priority ≤ r.priority →
            p.voices[v].priority < p.voices[u].priority ∨
              p.voices[v].priority = p.voices[u].priority ∧ p.order.idxOf v ≤ p.order.idxOf u) →
          (p.voices[v].state = .scheduled → p.settle clips r = some ((p.allocate clips v r).choke v r)) ∧
          (p.voices[v].state ≠ .scheduled →
            p.settle clips r =
              some
                (Pool.choke
                  { p with
                    voices :=
                      p.voices.set v
                        { p.voices[v] with
                          state := .fading, rate := max p.voices[v].fadeOutRate 6144, target := 30720
                          successor := some r } }
                  v r))) ∧
        ((∀ u : VoiceNo, p.voices[u].state ≠ .fading → r.priority < p.voices[u].priority) →
          p.settle clips r = none)))

/-- R95 to R97, R100, R113, R118 to R121, R124: what a STOP, a group stop, a choke, a CUT and a RESTART do to every voice
and slot: SCHEDULED voices they reach become FREE and leave their sets, sounding ones fade at the rate of the order, FADING
ones take the faster rate (a choke and a RESTART leave them alone); the successors they reach are discarded; a STOP removes
every pending trigger, a CUT those of the slots it finds. A CUT reaches the voices and successors of every slot whose code
agrees, at its override or the slot's own fade-out; a RESTART reaches those of its own slot. Nothing else of the slots and
nothing of the allocation order changes. -/
def Obligations.FadesReachVoices : Prop :=
  ∀ (p q : Pool), p.setsAgree →
    (∀ ms, q = (p.stop ms).dropPending →
      q.order = p.order ∧ q.grant = p.grant ∧
      (∀ n : SlotNo, ∃ set, q.slots[n] = { p.slots[n] with pending := none, voices := set } ∧
        ∀ v : VoiceNo, inSet set v = true ↔ inSet p.slots[n].voices v = true ∧ p.voices[v].state ≠ .scheduled) ∧
      ∀ (v : VoiceNo) (x : Voice), x = p.voices[v] →
        q.voices[v] = { reachedBy x (max x.fadeOutRate (rateOf ms)) (rateOf ms) with successor := none }) ∧
    (∀ group override, q = p.groupStop group (match override with | some f => .exactly (rateOf f) | none => .own) →
      q.order = p.order ∧ q.grant = p.grant ∧
      (∀ n : SlotNo, ∃ set, q.slots[n] = { p.slots[n] with voices := set } ∧
        ∀ v : VoiceNo, inSet set v = true ↔
          inSet p.slots[n].voices v = true ∧ ¬ (p.voices[v].choke = group ∧ p.voices[v].state = .scheduled)) ∧
      ∀ (v : VoiceNo) (x : Voice) (rate : Nat), x = p.voices[v] →
        (∀ f, override = some f → rate = rateOf f) → (override = none → rate = x.fadeOutRate) →
        q.voices[v] =
          { (if x.choke = group then reachedBy x rate rate else x) with
            successor := x.successor.filter fun r => decide (r.choke ≠ group) }) ∧
    (∀ code override, q = p.cut code override →
      q.order = p.order ∧ q.grant = p.grant ∧
      (∀ n : SlotNo, ∃ set,
        q.slots[n] =
          { p.slots[n] with
            pending := if cutFinds p code n then none else p.slots[n].pending, voices := set } ∧
        ∀ v : VoiceNo, inSet set v = true ↔
          inSet p.slots[n].voices v = true ∧ ¬ (cutFinds p code n = true ∧ p.voices[v].state = .scheduled)) ∧
      ∀ (v : VoiceNo) (x : Voice), x = p.voices[v] →
        (∀ n c play rate, x.owner = some n → cutFinds p code n = true → p.slots[n].config = some c →
          c.action = .play play → (∀ f, override = some f → rate = rateOf f) →
          (override = none → rate = rateOf (play.fadeOut * 10)) →
          q.voices[v] =
            { reachedBy x rate rate with successor := x.successor.filter fun r => !cutFinds p code r.slot }) ∧
        ((∀ n, x.owner = some n → cutFinds p code n = false) →
          q.voices[v] = { x with successor := x.successor.filter fun r => !cutFinds p code r.slot })) ∧
    (∀ m : SlotNo, q = p.restartSlot m →
      q.order = p.order ∧ q.grant = p.grant ∧
      (∀ n : SlotNo, ∃ set, q.slots[n] = { p.slots[n] with voices := set } ∧
        ∀ v : VoiceNo, inSet set v = true ↔
          inSet p.slots[n].voices v = true ∧ ¬ (n = m ∧ p.voices[v].state = .scheduled)) ∧
      ∀ (v : VoiceNo) (x : Voice), x = p.voices[v] →
        q.voices[v] =
          { (if x.owner = some m ∧ x.state ≠ .fading then reachedBy x (max x.fadeOutRate 6144) 0 else x) with
            successor := x.successor.filter fun r => decide (r.slot ≠ m) }) ∧
    ∀ (chosen : VoiceNo) (r : VoiceRequest), q = p.choke chosen r →
      (r.choke = 0 → q = p) ∧
      (r.choke ≠ 0 →
        q.order = p.order ∧ q.grant = p.grant ∧
        (∀ n : SlotNo, ∃ set, q.slots[n] = { p.slots[n] with voices := set } ∧
          ∀ v : VoiceNo, inSet set v = true ↔
            inSet p.slots[n].voices v = true ∧
              ¬ (v ≠ chosen ∧ p.voices[v].choke = r.choke ∧ p.voices[v].state = .scheduled)) ∧
        ∀ (v : VoiceNo) (x : Voice), x = p.voices[v] →
          (v = chosen → q.voices[v] = x) ∧
          (v ≠ chosen →
            q.voices[v] =
              { (if x.choke = r.choke ∧ x.state ≠ .fading then reachedBy x x.fadeOutRate 0 else x) with
                successor := x.successor.filter fun w => decide (w.choke ≠ r.choke) }))

/-! ## Gain, ducking and the mix -/

/-- R143, R153, R154, R155: the rate of a time; the attenuation of a voice on a bus as the sum of its four terms; the gain
factor of an attenuation, from the table, within its bounds and
never rising with the attenuation; the contribution of a sample, rounded toward minus infinity, and none at an attenuation
of 120 or more. -/
def Obligations.GainArithmetic : Prop :=
  rateOf 0 = 30720 ∧
  (∀ f : Nat, 1 ≤ f → (rateOf f : Int) = max 1 ⌊(30720 / f + 1 / 2 : ℚ)⌋) ∧
  (∀ send e duck master : Nat, attenuation send e duck master = send + e / 256 + duck / 256 + master) ∧
  (∀ a : Nat, a < 120 →
    gainFactor a =
      ([32768, 30929, 29193, 27554, 26008, 24548, 23170, 21870, 20643, 19484, 18390, 17358][a % 12]?.getD 0) /
        2 ^ (a / 12) ∧
    33 ≤ gainFactor a ∧ gainFactor a ≤ 32768) ∧
  (∀ a b : Nat, a ≤ b → b < 120 → gainFactor b ≤ gainFactor a) ∧
  (∀ (x : Sample) (a : Nat), a < 120 → contributionAt x a = ⌊((x.toInt * gainFactor a : Int) / 32768 : ℚ)⌋) ∧
  ∀ (x : Sample) (a : Nat), 120 ≤ a → contributionAt x a = 0

/-- R115, R152, R155 to R158: at a sample period each voice that needs a frame takes the first of its FIFO or underruns,
one episode counted once; each channel's exact sum is clamped into the mix of the period, each bus that clamps counted
once; the mix of the period before goes out in the top 16 bits of the slots. Where the station has no sound the mix is
0. Either output sends, in each sample period, 32 bits of its left slot with the word clock low and 32 of its right with it
high, each slot most significant bit first and followed by 8 bits of 0, both outputs in step. -/
def Obligations.SamplePeriodMixed : Prop :=
  (∀ (o : OutputSlots) (i : Nat) (bit : BitVec 24 → Bool), i < 32 →
    (∀ slot, bit slot = if i < 24 then slot.getLsbD (23 - i) else false) →
    o.serial.length = 64 ∧
    o.serial[i]? = some { wordClockHigh := false, air := bit o.airLeft, house := bit o.houseLeft } ∧
    o.serial[32 + i]? = some { wordClockHigh := true, air := bit o.airRight, house := bit o.houseRight }) ∧
  (∀ s : State, s.mixer.out.serial[s.clock % 512 / 8]? = some s.serialNow) ∧
  ∀ (s : State) (t : Nat), s.liveAt t → t % 512 = 0 → s.mixer.nextSample ≤ t / 512 → s.countsInRange →
    ∃ voices errors mix,
      exec (.samplePeriod t) s = .next
        { s with
          clock := t, pool := { s.pool with voices := voices }, errors := errors
          mixer :=
            { s.mixer with
              nextSample := t / 512 + 1, mix := mix
              out :=
                { airLeft := s.mixer.mix.airLeft ++ (0 : Byte), airRight := s.mixer.mix.airRight ++ (0 : Byte)
                  houseLeft := s.mixer.mix.houseLeft ++ (0 : Byte)
                  houseRight := s.mixer.mix.houseRight ++ (0 : Byte) } } } ∧
      (∀ (v : VoiceNo) (x : Voice), x = s.pool.voices[v] →
        (NeedsFrame s v → voices[v] = { x with fifo := x.fifo.tail, underrun := decide (x.fifo = []) }) ∧
        (¬ NeedsFrame s v → voices[v] = x)) ∧
      ∀ (al ar hl hr : Int), al = channelSum s Frame.left Voice.airSend s.mixer.air.current →
        ar = channelSum s Frame.right Voice.airSend s.mixer.air.current →
        hl = channelSum s Frame.left Voice.houseSend s.mixer.house.current →
        hr = channelSum s Frame.right Voice.houseSend s.mixer.house.current →
        (s.loader.loaded = true → s.loader.mode ≠ .service →
          mix.airLeft.toInt = max (-32768) (min 32767 al) ∧ mix.airRight.toInt = max (-32768) (min 32767 ar) ∧
          mix.houseLeft.toInt = max (-32768) (min 32767 hl) ∧ mix.houseRight.toInt = max (-32768) (min 32767 hr)) ∧
        (s.loader.loaded = false ∨ s.loader.mode = .service →
          mix = { airLeft := 0, airRight := 0, houseLeft := 0, houseRight := 0 }) ∧
        ∀ c, errors.get c =
          if c = .underruns then
            min 65535
              (s.errors.get .underruns +
                (List.finRange 12).countP fun v =>
                  decide (NeedsFrame s v ∧ s.pool.voices[v].fifo = [] ∧ s.pool.voices[v].underrun = false))
          else if c = .outputClamps ∧ s.loader.loaded = true ∧ s.loader.mode ≠ .service then
            min 65535
              (s.errors.get .outputClamps + (if OutOfRange al ∨ OutOfRange ar then 1 else 0) +
                (if OutOfRange hl ∨ OutOfRange hr then 1 else 0))
          else s.errors.get c

/-- R144, R145, R147, R148, R150: an envelope tick moves every envelope, duck and master one step; a duck target is the
largest depth, times 256, among the sounding voices of higher priority. -/
def Obligations.EnvelopeTickSteps : Prop :=
  ∀ (s : State) (t : Nat), s.liveAt t → t % 24576 = 0 → s.mixer.nextTick ≤ t / 24576 → s.mixer.nextSample ≤ t / 512 →
    ∃ voices air house,
      exec (.envelopeTick t) s = .next
        { s with
          clock := t, pool := { s.pool with voices := voices }
          mixer := { s.mixer with air := air, house := house, nextTick := t / 24576 + 1 } } ∧
      (∀ m m', (m = s.mixer.air ∧ m' = air) ∨ (m = s.mixer.house ∧ m' = house) →
        m'.target = m.target ∧ (m.current = m.target → m'.current = m.current) ∧
        (m.current < m.target → m'.current = m.current + 1) ∧ (m.target < m.current → m'.current + 1 = m.current)) ∧
      ∀ (v : VoiceNo) (x : Voice), x = s.pool.voices[v] →
        (x.state = .free → voices[v] = { x with silent := false }) ∧
        (x.state ≠ .free → ∀ depth, (∀ u, Pushes s.pool u v → s.pool.voices[u].duckDepth ≤ depth) →
          (depth = 0 ∨ ∃ u, Pushes s.pool u v ∧ s.pool.voices[u].duckDepth = depth) →
          ∀ duck,
            (x.duck < depth * 256 → duck = min (depth * 256) (x.duck + s.mixer.attack)) →
            (depth * 256 < x.duck → duck = max (depth * 256) (x.duck - s.mixer.release)) →
            (x.duck = depth * 256 → duck = x.duck) →
            (x.state = .scheduled →
              voices[v] = { x with silent := false, duckTarget := depth * 256, duck := duck }) ∧
            (x.state = .running ∨ x.state = .draining →
              voices[v] =
                { x with
                  envelope := x.envelope - x.rate, silent := false, duckTarget := depth * 256, duck := duck }) ∧
            (x.state = .fading →
              voices[v] =
                { x with
                  envelope := min 30720 (x.envelope + x.rate), silent := decide (30720 ≤ x.envelope + x.rate)
                  duckTarget := depth * 256, duck := duck }))

/-! ## Clip memory -/

/-- R133, R134, R116, R137: with the flash free a read is issued for the voice granted at once, or else for the requesting
voice that holds the fewest frames, the lowest-numbered among equals: up to 32 frames from its cursor, not past the loop end
or the end of the clip; the cursor moves on, back to the loop start at a loop end, and at the end of the clip the voice is
marked exhausted and, if RUNNING, drains. Where no voice requests nothing changes. (The grant, and the read of a voice that
was granted and has since become FREE or been given away, are the model's, log entry 30.) -/
def Obligations.FetchReadIssued : Prop :=
  ∀ (s : State) (t : Nat), s.liveAt t → s.loader.mode = .online → s.fetch = none → s.flash.op = none →
    (s.pool.grant = none → (∀ v, ¬ Requests s v) → exec (.fetchReadIssue t) s = .next { s with clock := t }) ∧
    (∀ (v : VoiceNo) (x : Voice) (clip : Clip) (limit size width : Nat), Requests s v →
      (s.pool.grant = none ∧
          ∀ u, Requests s u →
            s.pool.voices[v].fifo.length < s.pool.voices[u].fifo.length ∨
              s.pool.voices[v].fifo.length = s.pool.voices[u].fifo.length ∧ v ≤ u) ∨
        (∃ g, s.pool.grant = some g ∧ g.voice = v ∧ g.generation = s.pool.voices[v].generation) →
      x = s.pool.voices[v] → s.clips.clip x.clip = some clip →
      (x.loop = false → limit = clip.frames) → (x.loop = true → ∃ l, clip.loop = some l ∧ limit = l.last) →
      size = min 32 (limit - x.cursor) → width = (if clip.channels = .mono then 2 else 4) →
      ∃ y,
        exec (.fetchReadIssue t) s = .next
          { s with
            clock := t
            fetch :=
              some
                { voice := v, generation := x.generation, size := size, address := clip.address + width * x.cursor
                  channels := clip.channels, dueAt := t + (24 + 2 * (width * size)) }
            pool := { s.pool with voices := s.pool.voices.set v y, grant := none } } ∧
        (x.cursor + size ≠ limit → y = { x with cursor := x.cursor + size }) ∧
        (x.cursor + size = limit → ∀ l, x.loop = true → clip.loop = some l → y = { x with cursor := l.first }) ∧
        (x.cursor + size = limit → x.loop = false →
          y =
            { x with
              cursor := limit, exhausted := true
              state := if x.state = .running then .draining else x.state })) ∧
    ∀ (g : Grant) (clip : Clip) (limit size width : Nat), s.pool.grant = some g →
      ¬ (Requests s g.voice ∧ g.generation = s.pool.voices[g.voice].generation) → s.clips.clip g.clip = some clip →
      (g.loop = false → limit = clip.frames) → (g.loop = true → ∃ l, clip.loop = some l ∧ limit = l.last) →
      size = min 32 limit → width = (if clip.channels = .mono then 2 else 4) →
      exec (.fetchReadIssue t) s = .next
        { s with
          clock := t
          fetch :=
            some
              { voice := g.voice, generation := g.generation, size := size, address := clip.address
                channels := clip.channels, dueAt := t + (24 + 2 * (width * size)) }
          pool := { s.pool with grant := none } }

/-- R135, R127: a read whose transfer has ended is no longer in flight; a current one appends its frames, read from the
flash low byte first, in clip order; a stale one changes nothing more. (That no voice stays granted is the model's, log
entry 30.) -/
def Obligations.FetchReadCompletes : Prop :=
  ∀ (s : State) (t : Nat) (r : FetchRead), s.liveAt t → s.fetch = some r → r.dueAt ≤ t → Memory.wf s.flash.mem →
    (s.pool.voices[r.voice].state ≠ .free → s.pool.voices[r.voice].generation = r.generation →
      r.address + r.size * (if r.channels = .mono then 2 else 4) ≤ 16777216 →
      ∃ frames : List Frame,
        exec (.fetchReadComplete t) s = .next
          { s with
            clock := t, fetch := none
            pool :=
              { s.pool with
                grant := none
                voices :=
                  s.pool.voices.set r.voice
                    { s.pool.voices[r.voice] with fifo := s.pool.voices[r.voice].fifo ++ frames } } } ∧
        frames.length = r.size ∧
        ∀ i, i < r.size → ∀ word : Nat → Sample,
          (∀ a, word a = Memory.read s.flash.mem (a + 1) ++ Memory.read s.flash.mem a) →
          frames[i]? =
            some
              (match r.channels with
              | .mono => .mono (word (r.address + 2 * i))
              | .stereo => .stereo (word (r.address + 4 * i)) (word (r.address + 4 * i + 2)))) ∧
    (s.pool.voices[r.voice].state = .free ∨ s.pool.voices[r.voice].generation ≠ r.generation →
      exec (.fetchReadComplete t) s = .next
        { s with clock := t, fetch := none, pool := { s.pool with grant := none } })

/-! ## Inputs and lamps -/

/-- R160 to R163: a scan takes every input record on by one step, in whatever order the inputs are taken: the debounce
step, then the hold step. -/
def Obligations.InputRecordsScanned : Prop :=
  ∀ (s : State) (t : Nat) (closed : Byte) (order : List (Fin 8)), s.liveAt t → t % 24576 = 0 →
    s.nextScan ≤ t / 24576 →
    ∃ u, exec (.inputScan t closed order) s = .next u ∧ u.clock = t ∧ u.nextScan = t / 24576 + 1 ∧
      ∀ (i : Fin 8) (x : Input) (level : Contact), x = s.inputs[i] →
        level = (if closed.getLsbD i then .closed else .open) →
        (x.config = none → u.inputs[i] = x) ∧
        ∀ c : InputConfig, x.config = some c →
          (x.level = none → u.inputs[i] = { x with level := some level, run := 0, hold := .none }) ∧
          ∀ was, x.level = some was →
            (∀ run hold, (was = level → run = 0) → (was ≠ level → run = x.run + 1) →
              (hold =
                if LongInUse c ∧ x.hold = .waiting ∧
                    x.pressTime.any (fun p => decide (stationTimeAt t = p + BitVec.ofNat 32 (c.longTime * 10 * 1000)))
                then .spent else x.hold) →
              was = level ∨ x.run + 1 < c.debounce → u.inputs[i] = { x with run := run, hold := hold }) ∧
            (was ≠ level → c.debounce ≤ x.run + 1 →
              (level = .closed →
                u.inputs[i] =
                  { x with
                    level := some .closed, run := 0, pressTime := some (stationTimeAt t)
                    hold := if LongInUse c then .waiting else x.hold }) ∧
              (level = .open → u.inputs[i] = { x with level := some .open, run := 0, hold := .none }))

/-- R160 to R165, R85: a scan takes the inputs one after another, those named in its order first and the others in number
order (the order is the model's choice, log entry 19), and hands on what each fires: the short action at a press, or at the
release that ends a WAITING hold; the long action when the hold has lasted its time; nothing at any other scan: a press with
the long action in use, a release from a hold of NONE or SPENT, no change, a first scan. A GO, CUT, JUDGE or STOP becomes a
request, a LOCAL action a trigger, a BUZZ a press. -/
def Obligations.InputActionsFired : Prop :=
  ∀ (s : State) (t : Nat) (closed : Byte), s.liveAt t → t % 24576 = 0 → s.nextScan ≤ t / 24576 →
    (∀ order : List (Fin 8), order.Nodup →
      exec (.inputScan t closed order) s = .next
        ((order ++ (List.finRange 8).filter fun i => decide (i ∉ order)).foldl (fun u i => u.scanInput closed i)
          { s with clock := t, nextScan := t / 24576 + 1 })) ∧
    (∀ (u : State) (i : Fin 8) (x : Input) (level : Contact), x = u.inputs[i] →
      level = (if closed.getLsbD i then .closed else .open) →
      ∃ y a, u.scanInput closed i = State.fireAction { u with inputs := u.inputs.set i y } a ∧
        (x.config = none ∨ x.level = none → a = .none) ∧
        ∀ c was, x.config = some c → x.level = some was →
          (was = .open → level = .closed → c.debounce ≤ x.run + 1 →
            a = if LongInUse c then .none else c.short) ∧
          (was = .closed → level = .open → c.debounce ≤ x.run + 1 →
            a = if LongInUse c ∧ x.hold = .waiting then c.short else .none) ∧
          (was = level ∨ x.run + 1 < c.debounce →
            (LongInUse c → x.hold = .waiting →
              (∃ p, x.pressTime = some p ∧ u.now = p + BitVec.ofNat 32 (c.longTime * 10 * 1000)) → a = c.long) ∧
            (¬ LongInUse c ∨ x.hold ≠ .waiting ∨
                (∀ p, x.pressTime = some p → u.now ≠ p + BitVec.ofNat 32 (c.longTime * 10 * 1000)) →
              a = .none))) ∧
    ∀ u : State,
      u.fireAction .none = u ∧ (∀ seat, u.fireAction (.buzz seat) = u.buzzPress seat u.now) ∧
      (∀ code seat once,
        u.fireAction (.go code seat once) =
          u.requestFrame
            { cls := 4, subject := code
              content := .fixed (match seat with | none => [] | some k => [BitVec.ofNat 8 k.val])
              late := true, singleTry := once }) ∧
      (∀ code,
        u.fireAction (.localCode code) =
          u.takeTrigger { code := code, source := .local, seat := none, fireTime := u.now }) ∧
      (∀ code,
        u.fireAction (.cut code) =
          u.requestFrame { cls := 3, subject := code, content := .fixed [], late := true, singleTry := false }) ∧
      (∀ verb code payload mode,
        (verb, code) ∈ [(Verb.arm, (0 : Byte)), (.openBuzzers, 1), (.right, 2), (.wrong, 3), (.void, 4)] →
        (u.station.armPreset.rebound, mode) ∈ [(ReboundMode.queue, (0 : Byte)), (.reopen, 1)] →
        (payload =
          if verb = .arm then
            [mode, byteOf u.station.armPreset.window, byteOf u.station.armPreset.penalty,
              u.station.armPreset.eligible.extractLsb' 8 8, u.station.armPreset.eligible.extractLsb' 0 8]
          else []) →
        u.fireAction (.judge verb) =
          u.requestFrame
            { cls := 2, subject := code, content := .fixed payload, late := false, singleTry := false }) ∧
      u.fireAction .stop =
        u.requestFrame { cls := 0, subject := 0, content := .fixed [], late := false, singleTry := false }

/-- R166 to R169, R171: at the beginning of a lamp period every lamp takes the level that its pattern in force gives, a SEAT
lamp that of its row; when the round or a penalty has changed, every SEAT lamp whose row differs takes the new row with a
phase of its own, one whose row is the same keeps it and its phase, and an early press of a seat already penalised puts the
penalty blink in force again; when station time reaches the duration end of a CUE lamp its pattern becomes OFF, with no
duration end, and before it nothing changes. A lamp line is on from the start of each lamp period for level/255 of the
period, to within one master clock period, and off for the rest: off all period at level 0 and on all period at 255. (Which
of the times within the tolerance it is, is a free value, log entry 35. That a pattern put in force at the very beginning of
a lamp period has its phase start there, whether or not the level of that period has been taken yet, is the model's choice,
log entry 38.) -/
def Obligations.LampsShow : Prop :=
  (∀ (lamp : Fin 8) (period level : Nat), level ≤ 255 →
    ∃ on,
      (level = 0 → on = 0) ∧ (level = 255 → on = 24576) ∧
      255 * on ≤ 24576 * level + 255 ∧ 24576 * level ≤ 255 * on + 255 ∧
      ∀ s : State, s.clock / 24576 = period → s.lamps[lamp].level = level →
        s.lampLine lamp = decide (s.clock % 24576 < on)) ∧
  ∀ (s : State) (t : Nat), s.liveAt t →
    (t % 24576 = 0 → s.nextLampPeriod ≤ t / 24576 →
      ∃ lamps,
        exec (.lampPeriod t) s = .next
          { s with clock := t, lamps := lamps, nextLampPeriod := t / 24576 + 1 } ∧
        ∀ (i : Fin 8) (l : Lamp) (p : LampPattern), l = s.lamps[i] →
          (l.assign = .cue → p = l.pattern) →
          (∀ seat, l.assign = .seat seat →
            (l.row, p) ∈
              [(SeatRow.penalised, { kind := PatternKind.blink, level := 255, periodMs := 60, duty := 50 }),
                (.idle, { kind := .off, level := 0, periodMs := 0, duty := 0 }),
                (.ready, { kind := .steady, level := s.station.dimLevel, periodMs := 0, duty := 0 }),
                (.openIn, { kind := .steady, level := 255, periodMs := 0, duty := 0 }),
                (.openOut, { kind := .off, level := 0, periodMs := 0, duty := 0 }),
                (.winnerLocked, { kind := .blink, level := 255, periodMs := 250, duty := 50 }),
                (.winnerExpired, { kind := .blink, level := 255, periodMs := 100, duty := 50 }),
                (.listed, { kind := .steady, level := s.station.dimLevel, periodMs := 0, duty := 0 }),
                (.notListed, { kind := .off, level := 0, periodMs := 0, duty := 0 })]) →
          ∃ level, lamps[i] = { l with level := level } ∧
            (p.kind = .off → level = 0) ∧ (p.kind = .steady → level = p.level) ∧
            (p.kind = .blink → (t / 24576 - l.phaseStart) % p.periodMs < p.periodMs * p.duty / 100 →
              level = p.level) ∧
            (p.kind = .blink → p.periodMs * p.duty / 100 ≤ (t / 24576 - l.phaseStart) % p.periodMs → level = 0)) ∧
    (∀ again : Option Seat, ∃ lamps, s.refreshSeatLamps again = { s with lamps := lamps } ∧
      ∀ (i : Fin 8) (l : Lamp), l = s.lamps[i] →
        (l.assign = .cue → lamps[i] = l) ∧
        ∀ seat row, l.assign = .seat seat → RowOf s seat row →
          (row ≠ l.row ∨ (again = some seat ∧ row = .penalised) →
            lamps[i] = { l with row := row, phaseStart := (s.clock + 24575) / 24576 }) ∧
          (row = l.row → ¬ (again = some seat ∧ row = .penalised) → lamps[i] = l)) ∧
    ∀ (lamp : Fin 8), s.lamps[lamp].assign = .cue →
      (∀ e, s.lamps[lamp].durationEnd = some e → 0 ≤ (stationTimeAt t - e).toInt →
        exec (.cueLampDurationEnd t lamp) s = .next
          { s with
            clock := t
            lamps :=
              s.lamps.set lamp
                { s.lamps[lamp] with
                  pattern := { kind := .off, level := 0, periodMs := 0, duty := 0 }, durationEnd := none
                  phaseStart := (t + 24575) / 24576 } }) ∧
      ((∀ e, s.lamps[lamp].durationEnd = some e → (stationTimeAt t - e).toInt < 0) →
        exec (.cueLampDurationEnd t lamp) s = .next { s with clock := t })

/-! ## The service port -/

/-- R184 to R186: what the receiver of the service port does in each of its states, what a character does in each assembly
state, and the gap timer. A start bit is found while the receiver seeks one, and stops the gap timer; the levels of a
character, its data bits least significant first, are taken at its stop bit, which starts the gap timer; after a framing
error no start bit is found until the line has stood high for one whole bit time. When the gap timer runs out the packet is
discarded, and where it does not run nothing is. A packet whose check fails is answered BAD_SUM, one whose command is none of
the seven UNKNOWN; one of the seven is answered BUSY or NOT_SERVICE where it may not be taken now, whatever its payload, and
BAD_ARG where its payload has a length that is not its own; a good packet of one of the seven does what the command of that
packet does. (That READ transfers under way count among the four places, that the receiver reports a start bit, a character
and a high line one by one, and that an answer begins to go out when it is made, are the model's choices, log entries 16, 36
and 41.) -/
def Obligations.PacketsAssembled : Prop :=
  ∀ (s : State) (t : Nat) (b : Byte) (levels : BitVec 10) (c : PortEvent), s.liveAt t → c = .character levels →
    ∀ (stand : Assembly → State) (still : State),
      (∀ a, stand a =
        { s with
          clock := t, service := { s.service with assembly := a, receiver := .seeking, gapFrom := some t } }) →
      still = { s with clock := t, service := { s.service with receiver := .seeking } } →
      (s.service.receiver = .seeking →
        exec (.serviceCharacter t .startBit) s = .next
          { s with clock := t, service := { s.service with receiver := .receiving, gapFrom := none } }) ∧
      (s.service.receiver ≠ .seeking → exec (.serviceCharacter t .startBit) s = .next { s with clock := t }) ∧
      (s.service.receiver = .waitingHigh → exec (.serviceCharacter t .lineHigh) s = .next still) ∧
      (s.service.receiver ≠ .waitingHigh → exec (.serviceCharacter t .lineHigh) s = .next { s with clock := t }) ∧
      (s.service.receiver ≠ .receiving → exec (.serviceCharacter t c) s = .next { s with clock := t }) ∧
      (s.service.receiver = .receiving → (∀ i, i < 8 → levels.getLsbD i = b.getLsbD i) →
        (List.range 9).countP levels.getLsbD % 2 = 0 → levels.getLsbD 9 = true →
        (s.service.assembly = .hunt → b = 0x5A → exec (.serviceCharacter t c) s = .next (stand .command)) ∧
        (s.service.assembly = .hunt → b ≠ 0x5A → exec (.serviceCharacter t c) s = .next still) ∧
        (s.service.assembly = .command → exec (.serviceCharacter t c) s = .next (stand (.length b))) ∧
        (∀ cmd, s.service.assembly = .length cmd →
          (70 < b.toNat →
            exec (.serviceCharacter t c) s = .next { s with clock := t, service := s.service.hunting }) ∧
          (1 ≤ b.toNat → b.toNat ≤ 70 →
            exec (.serviceCharacter t c) s = .next (stand (.payload cmd b.toNat []))) ∧
          (b = 0 → exec (.serviceCharacter t c) s = .next (stand (.check cmd [])))) ∧
        (∀ cmd len got, s.service.assembly = .payload cmd len got →
          (got.length + 1 < len →
            exec (.serviceCharacter t c) s = .next (stand (.payload cmd len (got ++ [b])))) ∧
          (got.length + 1 = len →
            exec (.serviceCharacter t c) s = .next (stand (.check cmd (got ++ [b]))))) ∧
        (∀ cmd got, s.service.assembly = .check cmd got → ∀ sum, sum = (cmd :: byteOf got.length :: got).sum →
          (s.service.hasRoom → sum ≠ b →
            exec (.serviceCharacter t c) s = .next
              { s with clock := t, service := s.service.answered t (cmd ||| 0x80) .badSum [] }) ∧
          (s.service.hasRoom → sum = b → cmd = 0 ∨ 8 ≤ cmd.toNat →
            exec (.serviceCharacter t c) s = .next
              { s with clock := t, service := s.service.answered t (cmd ||| 0x80) .unknown [] }) ∧
          (s.service.hasRoom → sum = b → 1 ≤ cmd.toNat → cmd.toNat ≤ 7 →
            (s.service.inProgress ≠ .none → cmd ≠ 1 →
              exec (.serviceCharacter t c) s = .next
                { s with clock := t, service := s.service.answered t (cmd ||| 0x80) .busy [] }) ∧
            (s.service.inProgress = .none → s.loader.mode ≠ .service → cmd = 3 ∨ cmd = 4 ∨ cmd = 5 →
              exec (.serviceCharacter t c) s = .next
                { s with clock := t, service := s.service.answered t (cmd ||| 0x80) .notService [] }) ∧
            (s.service.inProgress = .none → s.loader.mode = .loading → cmd = 2 →
              exec (.serviceCharacter t c) s = .next
                { s with clock := t, service := s.service.answered t (cmd ||| 0x80) .busy [] }) ∧
            (s.service.inProgress = .none ∨ cmd = 1 → (cmd = 2 → s.loader.mode ≠ .loading) →
              (cmd = 3 ∨ cmd = 4 ∨ cmd = 5 → s.loader.mode = .service) →
              ((cmd = 1 ∨ cmd = 2 ∨ cmd = 7) ∧ got ≠ []) ∨ (cmd = 3 ∧ got.length ≠ 3) ∨
                (cmd = 4 ∧ (got.length < 4 ∨ 67 < got.length)) ∨ (cmd = 5 ∧ got.length ≠ 4) ∨
                (cmd = 6 ∧ got.length ≠ 1) →
              exec (.serviceCharacter t c) s = .next
                { s with clock := t, service := s.service.answered t (cmd ||| 0x80) .badArg [] })) ∧
          (¬ s.service.hasRoom →
            exec (.serviceCharacter t c) s = .next { s with clock := t, service := s.service.hunting }) ∧
          (sum = b →
            (cmd = 1 → got = [] → exec (.serviceCharacter t c) s = exec (.status t) s) ∧
            (cmd = 2 → got = [] → exec (.serviceCharacter t c) s = exec (.enter t) s) ∧
            (∀ a, cmd = 3 → got = addressBytes a → exec (.serviceCharacter t c) s = exec (.erase t a) s) ∧
            (∀ a data, cmd = 4 → got = addressBytes a ++ data → data.length ≤ 67 →
              exec (.serviceCharacter t c) s = exec (.program t a data) s) ∧
            (∀ a n, cmd = 5 → got = addressBytes a ++ [n] → exec (.serviceCharacter t c) s = exec (.read t a n) s) ∧
            (∀ arg, cmd = 6 → got = [arg] → exec (.serviceCharacter t c) s = exec (.errors t arg) s) ∧
            (cmd = 7 → got = [] → exec (.serviceCharacter t c) s = exec (.restart t) s)))) ∧
      (s.service.receiver = .receiving → ∀ kind,
        (levels.getLsbD 9 = false ∧ kind = .framingErrors) ∨
          (levels.getLsbD 9 = true ∧ (List.range 9).countP levels.getLsbD % 2 = 1 ∧ kind = .parityErrors) →
        ∀ receiver, receiver = (if kind = .framingErrors then Receiver.waitingHigh else .seeking) →
          (s.service.assembly = .hunt →
            exec (.serviceCharacter t c) s = .next
              { s with clock := t, service := { s.service with receiver := receiver } }) ∧
          (s.service.assembly ≠ .hunt →
            exec (.serviceCharacter t c) s = .next
              { s with
                clock := t, service := { s.service.hunting with receiver := receiver }
                errors := s.errors.bump kind })) ∧
      (∀ g, s.service.gapFrom = some g → g + 20 * 24576 ≤ t →
        exec (.gapTimeout t) s = .next { s with clock := t, service := { s.service.hunting with receiver := s.service.receiver } }) ∧
      ((∀ g, s.service.gapFrom = some g → t < g + 20 * 24576) →
        exec (.gapTimeout t) s = .next { s with clock := t })

/-- R186, R187: how each of the seven packets is refused, with its status, and that a packet the port has no room for is
discarded. A PROGRAM packet longer than 70 payload bytes is cut off at its length byte (R185). (That READ transfers under
way count among the four places is the model's choice, log entry 16, and that an answer begins to go out when it is made,
with none before it, is its reading, log entry 41.) -/
def Obligations.PacketsRefused : Prop :=
  ∀ (s : State) (t : Nat) (addr : BitVec 24) (data : List Byte) (count arg : Byte), s.liveAt t →
    (∀ answer : Byte → PacketStatus → Host.Outcome State Fault Refusal,
      (∀ cmd status, answer cmd status = .next { s with clock := t, service := s.service.answered t cmd status [] }) →
      s.service.hasRoom →
      (s.service.inProgress ≠ .none →
        exec (.enter t) s = answer 0x82 .busy ∧ exec (.erase t addr) s = answer 0x83 .busy ∧
        (data.length ≤ 67 → exec (.program t addr data) s = answer 0x84 .busy) ∧
        exec (.read t addr count) s = answer 0x85 .busy ∧ exec (.errors t arg) s = answer 0x86 .busy ∧
        exec (.restart t) s = answer 0x87 .busy) ∧
      (s.service.inProgress = .none →
        (s.loader.mode = .loading → exec (.enter t) s = answer 0x82 .busy) ∧
        (s.loader.mode ≠ .service →
          exec (.erase t addr) s = answer 0x83 .notService ∧
          (data.length ≤ 67 → exec (.program t addr data) s = answer 0x84 .notService) ∧
          exec (.read t addr count) s = answer 0x85 .notService) ∧
        (s.loader.mode = .service →
          (addr.toNat % 4096 ≠ 0 → exec (.erase t addr) s = answer 0x83 .badArg) ∧
          (data.length ≤ 67 → data = [] ∨ 64 < data.length ∨ 256 < addr.toNat % 256 + data.length →
            exec (.program t addr data) s = answer 0x84 .badArg) ∧
          (count = 0 ∨ 64 < count.toNat ∨ 16777216 < addr.toNat + count.toNat →
            exec (.read t addr count) s = answer 0x85 .badArg)) ∧
        (6 ≤ (arg &&& 0x7F).toNat → exec (.errors t arg) s = answer 0x86 .badArg))) ∧
    ∀ discarded : Host.Outcome State Fault Refusal,
      discarded = .next { s with clock := t, service := s.service.hunting } →
      (67 < data.length → exec (.program t addr data) s = discarded) ∧
      (¬ s.service.hasRoom →
        exec (.status t) s = discarded ∧ exec (.enter t) s = discarded ∧ exec (.erase t addr) s = discarded ∧
        exec (.program t addr data) s = discarded ∧ exec (.read t addr count) s = discarded ∧
        exec (.errors t arg) s = discarded ∧ exec (.restart t) s = discarded)

/-- R188, R191, R193, 11.4: STATUS reports the station in ten bytes, also while an ERASE or PROGRAM is in progress, and
changes nothing; ERRORS reports the three counts of its group and, with its clear flag, then sets them to 0; RESTART sets
restart pending. Each is answered OK at once. (How a TELL ERRORS in flight or waiting to be retried remembers the clear is
the model's choice, log entry 24; that an answer begins to go out when it is made, with none before it, is its reading, log
entry 41.) -/
def Obligations.StatusErrorsRestartAnswered : Prop :=
  ∀ (s : State) (t : Nat) (arg : Byte), s.liveAt t → s.service.hasRoom →
    (∀ mode loaded fault cause busy lineState : Byte,
      (s.loader.mode, mode) ∈ [(StationMode.loading, (0 : Byte)), (.online, 1), (.service, 2)] →
      loaded = (if s.loader.loaded then 1 else 0) →
      (s.loader.fault, fault) ∈ [(StartFault.none, (0 : Byte)), (.noRecord, 1), (.badSum, 2), (.badValue, 3)] →
      (s.loader.cause, cause) ∈ [(ResetCause.power, (0 : Byte)), (.line, 1), (.restart, 2)] →
      (s.service.inProgress, busy) ∈ [(InProgress.none, (0 : Byte)), (.erase, 1), (.program, 2)] →
      (s.line.lineState, lineState) ∈ [(LineState.active, (0 : Byte)), (.warning, 1), (.passive, 2), (.off, 3)] →
      exec (.status t) s = .next
        { s with
          clock := t
          service :=
            s.service.answered t 0x81 .ok
              [mode, loaded, fault, cause, busy, byteOf (s.clips.dropped / 256), byteOf s.clips.dropped, lineState,
                byteOf s.line.tec, byteOf s.line.recCount] }) ∧
    (s.service.inProgress = .none → ∀ (g : Fin 6) (n0 n1 n2 : Nat), (arg &&& 0x7F).toNat = g.val →
      n0 = s.errors.counts[3 * g.val] → n1 = s.errors.counts[3 * g.val + 1] → n2 = s.errors.counts[3 * g.val + 2] →
      ∃ errors line queue,
        exec (.errors t arg) s = .next
          { s with
            clock := t, errors := errors, line := line, queue := queue
            service :=
              s.service.answered t 0x86 .ok
                [BitVec.ofNat 8 g.val, byteOf (n0 / 256), byteOf n0, byteOf (n1 / 256), byteOf n1, byteOf (n2 / 256),
                  byteOf n2] } ∧
        (arg.msb = false → errors = s.errors ∧ line = s.line ∧ queue = s.queue) ∧
        (arg.msb = true →
          (∀ i : Fin 18, errors.counts[i] = if i.val / 3 = g.val then 0 else s.errors.counts[i]) ∧
          (s.line.attempt = none → line = s.line) ∧
          (∀ a, s.line.attempt = some a →
            ∃ b, line = { s.line with attempt := some { a with portCleared := b } } ∧
              (b = true ↔ a.portCleared = true ∨
                (keyClass a.key = 7 ∧ keySubject a.key = 4 ∧
                  ∃ taken, a.tellArg = some taken ∧ (taken &&& 0x7F).toNat = g.val ∧ taken.msb = true))) ∧
          queue.length = s.queue.length ∧
          ∀ (i : Nat) (e : Entry), s.queue[i]? = some e →
            ∃ b, queue[i]? = some { e with portCleared := b } ∧
              (b = true ↔ e.portCleared = true ∨
                (e.state = .waiting ∧ e.reported = some g.val ∧ keyClass e.key = 7 ∧ keySubject e.key = 4 ∧
                  ∃ taken, e.content = .tell taken ∧ (taken &&& 0x7F).toNat = g.val ∧ taken.msb = true)))) ∧
    (s.service.inProgress = .none →
      exec (.restart t) s = .next
        { s with clock := t, service := { s.service.answered t 0x87 .ok [] with restartPending := true } })

/-- R183, R189, R27, R52, R79, R105, R125, R158, R173: ENTER taken while ONLINE puts the station into SERVICE in one
instant: the drive stops and an attempt is over, the queue is empty, the round IDLE and unsynced without penalties, every
voice FREE, no trigger or successor left, the mix 0 and the lamps OFF. In SERVICE it changes nothing. Both are answered
OK. (That the own frame of the attempt is not followed further is the model's choice, log entry 20, and so is the phase start
of a lamp where a lamp period begins at this instant, log entry 38; that the answer begins to go out when it is made, with
none before it, is its reading, log entry 41.) -/
def Obligations.ServiceEntered : Prop :=
  ∀ (s : State) (t : Nat), s.liveAt t → s.service.hasRoom → s.service.inProgress = .none →
    (s.loader.mode = .service →
      exec (.enter t) s = .next { s with clock := t, service := s.service.answered t 0x82 .ok [] }) ∧
    (s.loader.mode = .online → s.pool.setsAgree →
      ∃ pool lamps,
        exec (.enter t) s = .next
          { s with
            clock := t, loader := { s.loader with mode := .service }
            line :=
              { s.line with
                drive := .released, attempt := none
                followed := if s.line.attempt.isSome then none else s.line.followed
                holdoffOwed := s.line.holdoffOwed || s.line.attempt.isSome }
            queue := []
            round :=
              { s.round with
                state := .idle, synced := false, winner := none, order := [], excluded := 0, windowEnd := none }
            penalties := Vector.replicate 16 none, pool := pool, lamps := lamps
            mixer := { s.mixer with mix := { airLeft := 0, airRight := 0, houseLeft := 0, houseRight := 0 } }
            service := s.service.answered t 0x82 .ok [] } ∧
        pool.order = s.pool.order ∧ pool.grant = none ∧
        (∀ n : SlotNo, pool.slots[n] = { s.pool.slots[n] with pending := none, voices := 0 }) ∧
        (∀ (v : VoiceNo) (x : Voice), x = s.pool.voices[v] →
          (x.state = .free → pool.voices[v] = { x with successor := none }) ∧
          (x.state ≠ .free →
            pool.voices[v] =
              { x with
                state := .free, owner := none, fifo := [], exhausted := false, underrun := false, envelope := 30720
                target := 30720, silent := false, successor := none })) ∧
        ∀ i : Fin 8,
          (s.lamps[i].assign = .cue →
            lamps[i] =
              { s.lamps[i] with
                pattern := { kind := .off, level := 0, periodMs := 0, duty := 0 }, durationEnd := none
                phaseStart := (t + 24575) / 24576 }) ∧
          ∀ seat, s.lamps[i].assign = .seat seat →
            (lamps[i].row.pattern s.station.dimLevel).kind = .off)

/-- R190, R137: an ERASE, PROGRAM or READ that passes its judgment starts when the fetch read in flight and the READ
transfers taken before it have ended, and lasts 40 ms, 1 ms or 24 + 2 × count master clock periods; ERASE and PROGRAM
become the command in progress, READ does not. (That READ transfers queue is the model's choice, log entry 16.) -/
def Obligations.FlashCommandsStart : Prop :=
  ∀ (s : State) (t start : Nat) (addr : BitVec 24), s.liveAt t → s.service.hasRoom → s.service.inProgress = .none →
    s.loader.mode = .service → t ≤ start → (∀ r, s.fetch = some r → r.dueAt ≤ start) →
    (∀ r ∈ s.service.reads, r.dueAt ≤ start) →
    start = t ∨ (∃ r, s.fetch = some r ∧ start = r.dueAt) ∨ (∃ r ∈ s.service.reads, start = r.dueAt) →
    (addr.toNat % 4096 = 0 →
      exec (.erase t addr) s = .next
        { s with
          clock := t
          flash := { s.flash with op := some { job := .erase addr.toNat, dueAt := start + 40 * 24576 } }
          service := { s.service.hunting with inProgress := .erase } }) ∧
    (∀ data : List Byte, 1 ≤ data.length → data.length ≤ 64 → addr.toNat % 256 + data.length ≤ 256 →
      exec (.program t addr data) s = .next
        { s with
          clock := t
          flash := { s.flash with op := some { job := .program addr.toNat data, dueAt := start + 24576 } }
          service := { s.service.hunting with inProgress := .program } }) ∧
    ∀ count : Byte, 1 ≤ count.toNat → count.toNat ≤ 64 → addr.toNat + count.toNat ≤ 16777216 →
      exec (.read t addr count) s = .next
        { s with
          clock := t
          service :=
            { s.service.hunting with
              reads :=
                s.service.reads ++
                  [{ address := addr.toNat, count := count.toNat, dueAt := start + (24 + 2 * count.toNat) }] } }

/-- R138, R139, R140, R190: when an ERASE finishes, the bytes of its sector read FF; when a PROGRAM finishes, each
addressed byte is its old value AND the new one; no other byte changes; the command in progress becomes NONE and is
answered OK. When a READ transfer ends it is answered OK with the bytes as they stand. (That an answer begins to go out when it
is made, with none before it, is the model's reading, log entry 41.) -/
def Obligations.FlashOperationsEnd : Prop :=
  ∀ (s : State) (t : Nat), s.clock ≤ t → s.powered = true → Memory.wf s.flash.mem →
    (∀ a due, s.flash.op = some { job := .erase a, dueAt := due } → due ≤ t →
      ∃ mem service,
        exec (.eraseDone t) s = .next
          { s with clock := t, flash := { mem := mem, op := none, freeSince := t }, service := service } ∧
        (∀ k, Memory.read mem k = if a ≤ k ∧ k < a + 4096 then 0xFF else Memory.read s.flash.mem k) ∧
        (s.service.inProgress ≠ .erase → service = s.service) ∧
        (s.service.inProgress = .erase →
          service =
            { s.service.withAnswer t { command := 0x83, status := .ok, payload := [] } with inProgress := .none })) ∧
    (∀ a data due, s.flash.op = some { job := .program a data, dueAt := due } → due ≤ t →
      a + data.length ≤ 16777216 →
      ∃ mem service,
        exec (.programDone t) s = .next
          { s with clock := t, flash := { mem := mem, op := none, freeSince := t }, service := service } ∧
        (∀ k, k < a ∨ a + data.length ≤ k → Memory.read mem k = Memory.read s.flash.mem k) ∧
        (∀ i d, data[i]? = some d → Memory.read mem (a + i) = Memory.read s.flash.mem (a + i) &&& d) ∧
        (s.service.inProgress ≠ .program → service = s.service) ∧
        (s.service.inProgress = .program →
          service =
            { s.service.withAnswer t { command := 0x84, status := .ok, payload := [] } with inProgress := .none })) ∧
    ∀ (r : ServiceRead) (rest : List ServiceRead), s.resetLine = .released → s.service.reads = r :: rest → r.dueAt ≤ t →
      r.address + r.count ≤ 16777216 →
      ∃ bytes : List Byte,
        exec (.readTransferEnd t) s = .next
          { s with
            clock := t
            service :=
              { s.service.withAnswer t { command := 0x85, status := .ok, payload := bytes } with reads := rest } } ∧
        bytes.length = r.count ∧ ∀ i, i < r.count → bytes[i]? = some (Memory.read s.flash.mem (r.address + i))

/-- R184, R187, R191, R175, 11.4: the first response of the list goes out bit time after bit time from the instant its
sending began, each character a low start bit, eight data bits least significant first, an even parity bit and a high stop
bit, one after another; the transmit line is high when no response is left or the last character is out. The response leaves
the list when its last character has been sent, and not before, and the next begins to go out; when it is the answer of
RESTART, with restart pending, the station resets with the cause RESTART, and the flash keeps its bytes. (The instants at
which the sending begins are the model's reading, log entry 41.) -/
def Obligations.ResponsesSent : Prop :=
  (∀ s : State, s.service.answers = [] → s.transmitLine = true) ∧
  ∀ (s : State) (t start : Nat) (r : Response) (rest : List Response), s.service.answers = r :: rest →
    s.service.sendingFrom = some start →
    (∀ (status : Byte) (bytes : List Byte) (k i : Nat),
      (r.status, status) ∈
        [(PacketStatus.ok, (0 : Byte)), (.busy, 1), (.badSum, 2), (.badArg, 3), (.notService, 4), (.unknown, 5)] →
      bytes =
        0x5A :: r.command :: status :: byteOf r.payload.length ::
          (r.payload ++ [(r.command :: status :: byteOf r.payload.length :: r.payload).sum]) →
      (s.clock - start) * 3 / 320 = 11 * k + i → i < 11 →
      (∀ b, bytes[k]? = some b →
        s.transmitLine =
          if i = 0 then false
          else if i ≤ 8 then b.getLsbD (i - 1)
          else if i = 9 then decide ((List.range 8).countP b.getLsbD % 2 = 1)
          else true) ∧
      (bytes.length ≤ k → s.transmitLine = true)) ∧
    (s.liveAt t →
      (3 * t < 3 * start + 3520 * (5 + r.payload.length) →
        exec (.responseSent t) s = .next { s with clock := t }) ∧
      (3 * start + 3520 * (5 + r.payload.length) ≤ 3 * t →
        (s.service.restartPending = true → r.command = 0x87 → r.status = .ok →
          ∃ u, exec (.responseSent t) s = .next u ∧ ResetLeaves u .restart ∧ u.powered = true ∧
            u.resetLine = .released ∧ u.pending = s.pending ∧ u.flash.mem = s.flash.mem ∧
            ∀ o, s.flash.op = some o → o.dueAt ≤ t + o.job.clocks →
              u.flash.op = some { o with dueAt := o.dueAt - t }) ∧
        (¬ (s.service.restartPending = true ∧ r.command = 0x87 ∧ r.status = .ok) →
          exec (.responseSent t) s = .next
            { s with
              clock := t
              service :=
                { s.service with answers := rest, sendingFrom := if rest = [] then none else some t } })))

/-! ## Frames, the round, triggers and the Send Queue -/

/-- R29, R30, R31, R32, R85: a frame without a sender, of class 8 to 15, or outside the table of its class is counted as
bad; an ADJUST or ASK for another station is set aside; STOP, CUT and GO reach the voices and slots, with their fade times
and the fire time of the frame. -/
def Obligations.FramesJudged : Prop :=
  ∀ (s : State) (f : LineFrame), ∀ bad, bad = { s with errors := s.errors.bump .badFrames } →
    (f.sender = 0 ∨ 8 ≤ f.cls.toNat → s.dispatchFrame f = bad) ∧
    (f.sender ≠ 0 →
      (f.cls = 0 →
        (f.payload = [] → s.dispatchFrame f = { s with pool := (s.pool.stop 20).dropPending }) ∧
        (∀ x, f.payload = [x] → s.dispatchFrame f = { s with pool := (s.pool.stop (x.toNat * 10)).dropPending }) ∧
        (2 ≤ f.payload.length → s.dispatchFrame f = bad)) ∧
      (f.cls = 1 → f.payload ≠ [] ∨ 16 ≤ f.subject.toNat → s.dispatchFrame f = bad) ∧
      (f.cls = 2 →
        5 ≤ f.subject.toNat ∨ (f.subject ≠ 0 ∧ f.payload ≠ []) ∨
            (f.subject = 0 ∧ (f.payload.length ≠ 5 ∨ ∃ mode, f.payload.head? = some mode ∧ 2 ≤ mode.toNat)) →
        s.dispatchFrame f = bad) ∧
      (f.cls = 3 →
        (f.payload = [] → s.dispatchFrame f = { s with pool := s.pool.cut f.subject none }) ∧
        (∀ x, f.payload = [x] →
          s.dispatchFrame f = { s with pool := s.pool.cut f.subject (some (x.toNat * 10)) }) ∧
        (2 ≤ f.payload.length → s.dispatchFrame f = bad)) ∧
      (f.cls = 4 → ∀ fire, fire = f.sof + BitVec.ofNat 32 (s.station.fireLead * 1000) →
        (f.payload = [] →
          s.dispatchFrame f =
            s.takeTrigger { code := f.subject, source := .line f.sender, seat := none, fireTime := fire }) ∧
        (∀ seat : Seat, f.payload = [BitVec.ofNat 8 seat.val] →
          s.dispatchFrame f =
            s.takeTrigger { code := f.subject, source := .line f.sender, seat := some seat, fireTime := fire }) ∧
        (2 ≤ f.payload.length ∨ (∃ x, f.payload = [x] ∧ 16 ≤ x.toNat) → s.dispatchFrame f = bad)) ∧
      (f.cls = 5 ∨ f.cls = 6 →
        (16 ≤ f.subject.toNat → s.dispatchFrame f = bad) ∧
        (f.subject ≠ 0 → f.subject.toNat < 16 → f.subject.toNat ≠ s.station.number.toNat → s.dispatchFrame f = s)))

/-- R34, R35, R48, R77, R194: a good ASK addressed to this station becomes a request for a TELL of its topic, but a
general ASK ROUND is set aside while unsynced; a good TELL is delivered, and a TELL ROUND of another station is adopted
while unsynced; any other ASK or TELL is counted as bad, a TELL LINE that names no line state and a TELL ERRORS that names
no group among them. (That a TELL SLOT is good whatever its slot byte, and a TELL VOICES whatever its bytes, is the model's
reading of R194, log entry 34.) -/
def Obligations.AsksAndTellsTaken : Prop :=
  ∀ (s : State) (f : LineFrame), f.sender ≠ 0 → ∀ bad, bad = { s with errors := s.errors.bump .badFrames } →
    (f.cls = 6 → f.subject = 0 ∨ f.subject.toNat = s.station.number.toNat →
      (∀ topic arg : Byte, f.payload = [topic, arg] →
        (topic = 0 ∨ topic = 1 ∨ topic = 2 ∨ (topic = 3 ∧ arg.toNat < 48) ∨
            (topic = 4 ∧ (arg &&& 0x7F).toNat < 6) →
          ¬ (topic = 0 ∧ f.subject = 0 ∧ s.round.synced = false) →
          s.dispatchFrame f =
            s.requestFrame
              { cls := 7, subject := topic, content := .tell arg, late := false, singleTry := false }) ∧
        (topic = 0 → f.subject = 0 → s.round.synced = false → s.dispatchFrame f = s) ∧
        (5 ≤ topic.toNat ∨ (topic = 3 ∧ 48 ≤ arg.toNat) ∨ (topic = 4 ∧ 6 ≤ (arg &&& 0x7F).toNat) →
          s.dispatchFrame f = bad)) ∧
      (f.payload.length ≠ 2 → s.dispatchFrame f = bad)) ∧
    (f.cls = 7 →
      (∀ first rest, f.payload = first :: rest →
        (f.subject = 1 → s.dispatchFrame f = if rest.length = 7 ∧ first.toNat < 4 then s else bad) ∧
        (f.subject = 4 →
          s.dispatchFrame f = if rest.length = 6 ∧ (first &&& 0x7F).toNat < 6 then s else bad)) ∧
      (f.subject = 2 → s.dispatchFrame f = if f.payload.length = 6 then s else bad) ∧
      (f.subject = 3 → s.dispatchFrame f = if f.payload.length = 8 then s else bad) ∧
      (5 ≤ f.subject.toNat ∨ (f.subject = 0 ∧ f.payload.length ≠ 8) ∨
          ((f.subject = 1 ∨ f.subject = 4) ∧ f.payload = []) →
        s.dispatchFrame f = bad) ∧
      ∀ number code winner count hi lo remaining penalty : Byte, f.subject = 0 →
        f.payload = [number, code, winner, count, hi, lo, remaining, penalty] →
        (∀ (state : RoundState) (seat : Option Seat),
          (code &&& 0x0F, state) ∈
            [((0 : Byte), RoundState.idle), (1, .ready), (2, .open), (3, .locked), (4, .expired)] →
          (state = .locked ∨ state = .expired →
            ∃ k : Seat, seat = some k ∧ winner = BitVec.ofNat 8 k.val ∧ inSet (hi ++ lo) k = false) →
          (state ≠ .locked → state ≠ .expired → seat = none ∧ winner = 0xFF) → count.toNat ≤ 16 →
          (s.round.synced = true ∨ f.sender = s.station.number → s.dispatchFrame f = s) ∧
          (s.round.synced = false → f.sender ≠ s.station.number →
            s.dispatchFrame f =
              State.refreshSeatLamps
                { s with
                  round :=
                    { state := state, number := number, synced := true, winner := seat, order := seat.toList
                      excluded := hi ++ lo, eligible := ~~~(hi ++ lo)
                      rebound := if code.getLsbD 4 then .reopen else .queue
                      windowMs := 0, penaltyMs := penalty.toNat * 10
                      windowEnd :=
                        if state = .locked ∧ remaining ≠ 0 then
                          some
                            (f.sof + BitVec.ofNat 32 (s.station.fireLead * 1000) +
                              BitVec.ofNat 32 (remaining.toNat * 100 * 1000))
                        else none } }
                none)) ∧
        (5 ≤ (code &&& 0x0F).toNat ∨ 16 < count.toNat ∨
            (3 ≤ (code &&& 0x0F).toNat ∧ 16 ≤ winner.toNat) ∨
            (3 ≤ (code &&& 0x0F).toNat ∧ ∃ k : Seat, winner = BitVec.ofNat 8 k.val ∧ inSet (hi ++ lo) k = true) ∨
            ((code &&& 0x0F).toNat < 3 ∧ winner ≠ 0xFF) →
          s.dispatchFrame f = bad))

/-- R49, R194: the payload of a TELL, built from the state of the station as it stands: ROUND, LINE, VOICES, SLOT and
ERRORS. -/
def Obligations.TellsBuilt : Prop :=
  ∀ (s : State) (arg : Byte),
    (∀ (state mode seat remaining : Byte),
      (s.round.state, state) ∈
        [(RoundState.idle, (0 : Byte)), (.ready, 1), (.open, 2), (.locked, 3), (.expired, 4)] →
      (s.round.rebound, mode) ∈ [(ReboundMode.queue, (0 : Byte)), (.reopen, 16)] →
      (s.round.winner = none → seat = 0xFF) → (∀ k, s.round.winner = some k → seat = BitVec.ofNat 8 k.val) →
      (s.round.windowEnd = none → remaining = 0) →
      (∀ e d, s.round.windowEnd = some e → d = (e - s.now).toInt →
        (d ≤ 0 → remaining = 0) ∧
        (0 < d → (remaining.toNat : Int) = min 255 ⌈(d / 100000 : ℚ)⌉)) →
      s.answer 0 arg =
        [s.round.number, state ||| mode, seat, byteOf s.round.order.length, s.round.excluded.extractLsb' 8 8,
          s.round.excluded.extractLsb' 0 8, remaining, byteOf (s.round.penaltyMs / 10)]) ∧
    (∀ state : Byte,
      (s.line.lineState, state) ∈ [(LineState.active, (0 : Byte)), (.warning, 1), (.passive, 2), (.off, 3)] →
      s.answer 1 arg =
        [state, byteOf s.line.tec, byteOf s.line.recCount, byteOf s.queue.length,
          s.line.framesReceived.extractLsb' 8 8, s.line.framesReceived.extractLsb' 0 8,
          s.line.framesSent.extractLsb' 8 8, s.line.framesSent.extractLsb' 0 8]) ∧
    (∃ busy playing : BitVec 16,
      (∀ v : VoiceNo,
        busy.getLsbD v = decide (s.pool.voices[v].state ≠ .free) ∧
          playing.getLsbD v = decide (s.pool.voices[v].state = .running)) ∧
      (∀ i, 12 ≤ i → busy.getLsbD i = false ∧ playing.getLsbD i = false) ∧
      s.answer 2 arg =
        [byteOf ((List.finRange 12).countP fun v => decide (s.pool.voices[v].state ≠ .free)), busy.extractLsb' 8 8,
          busy.extractLsb' 0 8, playing.extractLsb' 8 8, playing.extractLsb' 0 8, byteOf (s.errors.get .underruns)]) ∧
    (∀ (n : SlotNo) (x : Slot) (flags next : Byte), arg = BitVec.ofNat 8 n.val → x = s.pool.slots[n] →
      flags.getLsbD 0 = x.enabled → flags.getLsbD 1 = x.held → flags.getLsbD 2 = x.pending.isSome →
      (flags.getLsbD 3 = true ↔ ∃ c p, x.config = some c ∧ c.action = .play p) → flags.toNat < 16 →
      (∀ c p, x.config = some c → c.action = .play p →
        p.clipList[if p.selection = .cycle then x.cycle else 0]? = some next) →
      ((∀ c p, x.config = some c → c.action ≠ .play p) → next = 0xFF) →
      s.answer 3 arg =
        [arg, flags, byteOf x.lost, byteOf ((List.finRange 12).countP fun v => inSet x.voices v),
          byteOf (x.fires / 256), byteOf x.fires, byteOf x.cycle, next]) ∧
    ∀ g : Fin 6, (arg &&& 0x7F).toNat = g.val →
      s.answer 4 arg =
        [BitVec.ofNat 8 g.val, byteOf (s.errors.counts[3 * g.val] / 256), byteOf s.errors.counts[3 * g.val],
          byteOf (s.errors.counts[3 * g.val + 1] / 256), byteOf s.errors.counts[3 * g.val + 1],
          byteOf (s.errors.counts[3 * g.val + 2] / 256), byteOf s.errors.counts[3 * g.val + 2]]

/-- R33, R90, R91, R92, R93, R151: what each ADJUST addressed to this station does, when it is good; one whose slot,
operation, length, bus or attenuation is out of range is bad, and so is a SWAP of an absent clip, of an entry the clip list
does not have, or at a slot whose action is not PLAY. -/
def Obligations.AdjustsTaken : Prop :=
  ∀ (s : State) (f : LineFrame) (n : SlotNo) (x : Slot), f.sender ≠ 0 → f.cls = 5 →
    f.subject = 0 ∨ f.subject.toNat = s.station.number.toNat → x = s.pool.slots[n] →
    ∀ (put : Slot → State) (bad : State),
      (∀ y, put y = { s with pool := { s.pool with slots := s.pool.slots.set n y } }) →
      bad = { s with errors := s.errors.bump .badFrames } →
      (f.payload = [0, BitVec.ofNat 8 n.val] → s.dispatchFrame f = put { x with held := true }) ∧
      (f.payload = [1, BitVec.ofNat 8 n.val] →
        (x.held = false → s.dispatchFrame f = s) ∧
        (x.held = true → x.pending = none → s.dispatchFrame f = put { x with held := false }) ∧
        ∀ w, x.held = true → x.pending = some w →
          s.dispatchFrame f =
            (put { x with held := false, pending := none }).act n
              (f.sof + BitVec.ofNat 32 (s.station.fireLead * 1000)) w.seat) ∧
      (f.payload = [2, BitVec.ofNat 8 n.val] → s.dispatchFrame f = put { x with enabled := true }) ∧
      (f.payload = [3, BitVec.ofNat 8 n.val] →
        s.dispatchFrame f = put { x with enabled := false, pending := none }) ∧
      (f.payload = [4, BitVec.ofNat 8 n.val] → s.dispatchFrame f = put { x with lost := 0 }) ∧
      (∀ (entry clip : Byte) (c : SlotConfig) (p : PlayConfig), f.payload = [5, BitVec.ofNat 8 n.val, entry, clip] →
        x.config = some c → c.action = .play p →
        (entry.toNat < 4 → entry.toNat < p.clipList.length → (s.clips.clip clip).isSome = true →
          s.dispatchFrame f =
            put
              { x with
                config := some { c with action := .play { p with clipList := p.clipList.set entry.toNat clip } } }) ∧
        (4 ≤ entry.toNat ∨ p.clipList.length ≤ entry.toNat ∨ s.clips.clip clip = none → s.dispatchFrame f = bad)) ∧
      (∀ entry clip : Byte, f.payload = [5, BitVec.ofNat 8 n.val, entry, clip] →
        (∀ c p, x.config = some c → c.action ≠ .play p) → s.dispatchFrame f = bad) ∧
      (∀ steps : Byte, steps.toNat ≤ 120 →
        (f.payload = [6, 0, steps] →
          s.dispatchFrame f = { s with mixer := { s.mixer with air := { s.mixer.air with target := steps.toNat } } }) ∧
        (f.payload = [6, 1, steps] →
          s.dispatchFrame f =
            { s with mixer := { s.mixer with house := { s.mixer.house with target := steps.toNat } } })) ∧
      ∀ op a b c : Byte,
        (f.payload = [op, a] → 5 ≤ op.toNat ∨ 48 ≤ a.toNat → s.dispatchFrame f = bad) ∧
        (f.payload = [op, a, b] → op ≠ 6 ∨ 2 ≤ a.toNat ∨ 120 < b.toNat → s.dispatchFrame f = bad) ∧
        (f.payload = [op, a, b, c] → op ≠ 5 ∨ 48 ≤ a.toNat → s.dispatchFrame f = bad) ∧
        (f.payload.length < 2 ∨ 4 < f.payload.length → s.dispatchFrame f = bad)

/-- R58, R61, R65, R69, R47, R70: what a JUDGE OPEN, RIGHT or VOID does in each state of the round: the record, then the
trigger of the round event it raises, by its event code and add-seat flag at the frame's fire time, then the BUZZ withdrawal,
then the SEAT lamps; where it is ignored the round, the queue and the slots stay as they are. -/
def Obligations.OpenRightVoidJudged : Prop :=
  ∀ (s : State) (f : LineFrame) (fire : StationTime), f.sender ≠ 0 → f.cls = 2 → f.payload = [] →
    fire = f.sof + BitVec.ofNat 32 (s.station.fireLead * 1000) →
    ∀ idle, idle =
        { s.round with state := .idle, winner := none, order := [], excluded := 0, windowEnd := none } →
      (f.subject = 1 →
        (s.round.state = .ready →
          s.dispatchFrame f =
            State.refreshSeatLamps (raised { s with round := { s.round with state := .open } } 1 none none fire) none) ∧
        (s.round.state ≠ .ready → s.dispatchFrame f = s.refreshSeatLamps none)) ∧
      (f.subject = 2 →
        (s.round.state = .locked ∨ s.round.state = .expired →
          s.dispatchFrame f =
            State.refreshSeatLamps (withdrawn (raised { s with round := idle } 5 (some 3) s.round.winner fire)) none) ∧
        (s.round.state ≠ .locked → s.round.state ≠ .expired → s.dispatchFrame f = s.refreshSeatLamps none)) ∧
      (f.subject = 4 →
        (s.round.state ≠ .idle →
          s.dispatchFrame f =
            State.refreshSeatLamps (withdrawn (raised { s with round := idle } 7 none s.round.winner fire)) none) ∧
        (s.round.state = .idle → s.dispatchFrame f = s.refreshSeatLamps none))

/-- R47, R58, R60, R62, R63, R64, R66, R67, R68, R70, R73, R74: an ARM, a BUZZ and a WRONG on the round record, with the
triggers of the events they raise, by event code, add-seat flag and fire time, and the BUZZ withdrawal, in their order; and a
local BUZZ press: an early press in READY, a request where a BUZZ of the seat would be valid, nothing otherwise. (That an ARM
withdraws the BUZZ entries before it raises ARMED is the model's choice, log entry 37, and so is that a press in the very
instant of the seat's penalty end, before that end is taken, keeps the phase of its lamp, log entry 39.) -/
def Obligations.RoundPlayed : Prop :=
  ∀ (s : State) (f : LineFrame) (fire : StationTime), f.sender ≠ 0 →
    fire = f.sof + BitVec.ofNat 32 (s.station.fireLead * 1000) →
    (∀ (mode window penalty hi lo : Byte) (rebound : ReboundMode), f.cls = 2 → f.subject = 0 →
      f.payload = [mode, window, penalty, hi, lo] →
      (mode = 0 ∧ rebound = .queue) ∨ (mode = 1 ∧ rebound = .reopen) →
      s.dispatchFrame f =
        State.refreshSeatLamps
          (raised
            (withdrawn
              { s with
                penalties := Vector.replicate 16 none
                round :=
                  { state := .ready, number := s.round.number + 1, synced := true, winner := none, order := []
                    excluded := ~~~(hi ++ lo), eligible := hi ++ lo, rebound := rebound
                    windowMs := window.toNat * 100, penaltyMs := penalty.toNat * 10, windowEnd := none } })
            0 none none fire)
          none) ∧
    (∀ seat : Seat, f.cls = 1 → f.payload = [] → f.subject = BitVec.ofNat 8 seat.val →
      (ValidBuzz s.round seat → s.round.state = .open →
        s.dispatchFrame f =
          State.refreshSeatLamps
            (raised
              { s with
                round :=
                  { s.round with
                    state := .locked, winner := some seat, order := [seat]
                    windowEnd := windowFrom s.round.windowMs fire } }
              2 (some 0) (some seat) fire)
            none) ∧
      (ValidBuzz s.round seat → s.round.state ≠ .open →
        s.dispatchFrame f =
          State.refreshSeatLamps
            (raised { s with round := { s.round with order := s.round.order ++ [seat] } } 3 (some 1) (some seat) fire)
            none) ∧
      (¬ ValidBuzz s.round seat → s.dispatchFrame f = { s with errors := s.errors.bump .strayBuzzes })) ∧
    (∀ (w : Seat) (order : List Seat) (excluded : SeatSet), f.cls = 2 → f.subject = 3 → f.payload = [] →
      s.round.state = .locked ∨ s.round.state = .expired → s.round.winner = some w →
      order = s.round.order.filter (fun k => decide (k ≠ w)) → excluded = s.round.excluded ||| BitVec.twoPow 16 w →
      (∀ next rest, s.round.rebound = .queue → order = next :: rest →
        s.dispatchFrame f =
          State.refreshSeatLamps
            (raised
              (raised
                { s with
                  round :=
                    { s.round with
                      state := .locked, winner := some next, order := order, excluded := excluded
                      windowEnd := windowFrom s.round.windowMs fire } }
                6 (some 4) (some w) fire)
              2 (some 0) (some next) fire)
            none) ∧
      (s.round.rebound = .reopen ∨ order = [] →
        ((∃ k : Seat, inSet s.round.eligible k = true ∧ inSet excluded k = false) →
          s.dispatchFrame f =
            State.refreshSeatLamps
              (raised
                (raised
                  { s with
                    round :=
                      { s.round with
                        state := .open, winner := none, order := [], excluded := excluded, windowEnd := none } }
                  6 (some 4) (some w) fire)
                1 none none fire)
              none) ∧
        ((∀ k : Seat, inSet s.round.eligible k = true → inSet excluded k = true) →
          s.dispatchFrame f =
            State.refreshSeatLamps
              (withdrawn
                (raised
                  (raised
                    { s with
                      round :=
                        { s.round with state := .idle, winner := none, order := [], excluded := 0, windowEnd := none } }
                    6 (some 4) (some w) fire)
                  8 none none fire))
              none))) ∧
    (f.cls = 2 → f.subject = 3 → f.payload = [] → s.round.state ≠ .locked → s.round.state ≠ .expired →
      s.dispatchFrame f = s.refreshSeatLamps none) ∧
    ∀ (seat : Seat) (press : StationTime),
      (s.round.synced = false → s.buzzPress seat press = s) ∧
      (s.round.synced = true → s.round.state = .ready →
        s.buzzPress seat press =
          State.refreshSeatLamps
            (raised
              { s with
                penalties :=
                  s.penalties.set seat (some (press + BitVec.ofNat 32 (s.round.penaltyMs * 1000)))
                errors := s.errors.bump .earlyPresses }
              9 none (some seat) press)
            (if s.penalised seat = true then some seat else none)) ∧
      (s.round.synced = true → s.round.state ≠ .ready →
        (s.penalised seat = false → ValidBuzz s.round seat →
          s.buzzPress seat press =
            s.requestFrame
              { cls := 1, subject := BitVec.ofNat 8 seat.val, content := .fixed [], late := false
                singleTry := false }) ∧
        (s.penalised seat = true ∨ ¬ ValidBuzz s.round seat → s.buzzPress seat press = s))

/-- R86, R87, R88, R89: while ONLINE a trigger is taken at the slots it matches, in ascending order, and discarded
otherwise; a held slot keeps it as its pending trigger, replacing one with a loss counted in both counts; another slot
acts, with its fire count raised. -/
def Obligations.TriggersTaken : Prop :=
  ∀ (s : State) (t : Trigger),
    (s.loader.mode ≠ .online → s.takeTrigger t = s) ∧
    (s.loader.mode = .online → ∀ slots : List SlotNo, slots.Pairwise (· < ·) →
      (∀ n, n ∈ slots ↔
        s.pool.slots[n].enabled = true ∧
          ∃ c, s.pool.slots[n].config = some c ∧ t.code &&& c.mask = c.code &&& c.mask ∧
            (c.filter = .line → ∃ k, t.source = .line k) ∧ (c.filter = .local → t.source = .local) ∧
            ((∃ code once through, c.action = .emit code once through) → t.source ≠ .line s.station.number)) →
      s.takeTrigger t = slots.foldl (fun u n => u.slotTake t n) s) ∧
    ∀ (n : SlotNo) (x : Slot), x = s.pool.slots[n] →
      (x.held = true → x.pending = none →
        s.slotTake t n =
          { s with
            pool :=
              { s.pool with
                slots := s.pool.slots.set n { x with pending := some { fireTime := t.fireTime, seat := t.seat } } } }) ∧
      (∀ w, x.held = true → x.pending = some w →
        s.slotTake t n =
          { s with
            errors := s.errors.bump .lostTriggers
            pool :=
              { s.pool with
                slots :=
                  s.pool.slots.set n
                    { x with
                      pending := some { fireTime := t.fireTime, seat := t.seat }, lost := min 255 (x.lost + 1) } } }) ∧
      ∀ c, x.held = false → x.config = some c →
        s.slotTake t n =
          State.runAction
            { s with
              pool := { s.pool with slots := s.pool.slots.set n { x with fires := min 65535 (x.fires + 1) } } }
            n c.action t.fireTime t.seat

/-- R98 to R104, R170: what each action of a slot does: PLAY chooses its clip, moves its cycle index, is refused for an
absent clip, applies its retrigger policy and makes its request; STOPGROUP orders its group to stop; LAMP gives a CUE lamp
its pattern; EMIT requests a GO. (The phase start of a lamp where a lamp period begins at this instant is the model's choice,
log entry 38.) -/
def Obligations.ActionsTaken : Prop :=
  ∀ (s : State) (n : SlotNo) (x : Slot) (fire : StationTime) (seat : Option Seat), x = s.pool.slots[n] →
    (∀ (p : PlayConfig) (entry cycle : Nat) (clip : Byte) (moved before : Pool) (r : VoiceRequest),
      (p.selection = .fixed → entry = 0 ∧ cycle = x.cycle) →
      (p.selection = .cycle →
        entry = x.cycle ∧ cycle = if x.cycle + 1 = p.clipList.length then 0 else x.cycle + 1) →
      (p.selection = .seat →
        entry = (match seat with | none => 0 | some k => k.val % p.clipList.length) ∧ cycle = x.cycle) →
      p.clipList[entry]? = some clip →
      moved = { s.pool with slots := s.pool.slots.set n { x with cycle := cycle } } →
      r =
        { slot := n, clip := clip, startTime := fire + BitVec.ofNat 32 (p.preDelay * 10 * 1000), seat := seat
          priority := p.priority, choke := p.choke, airSend := p.airSend, houseSend := p.houseSend
          duckDepth := p.duckDepth, fadeIn := p.fadeIn, fadeOut := p.fadeOut, loopFlag := p.loopFlag
          endCode := p.endCode, endRoute := p.endRoute } →
      (p.retrigger = .restart → before = moved.restartSlot n) → (p.retrigger ≠ .restart → before = moved) →
      (s.clips.clip clip = none →
        s.runAction n (.play p) fire seat =
          { s with pool := moved, errors := s.errors.bump .badClipRefusals }) ∧
      (s.clips.clip clip ≠ none →
        (p.retrigger = .ignore → UnderWay s.pool n →
          s.runAction n (.play p) fire seat = { s with pool := moved }) ∧
        (p.retrigger ≠ .ignore ∨ ¬ UnderWay s.pool n →
          (∀ q, before.settle s.clips r = some q → s.runAction n (.play p) fire seat = { s with pool := q }) ∧
          (before.settle s.clips r = none →
            s.runAction n (.play p) fire seat =
              { s with pool := before, errors := s.errors.bump .noVoiceRefusals })))) ∧
    (∀ group,
      s.runAction n (.stopGroup group none) fire seat = { s with pool := s.pool.groupStop group .own } ∧
      ∀ time, s.runAction n (.stopGroup group (some time)) fire seat =
        { s with pool := s.pool.groupStop group (.exactly (rateOf (time * 10))) }) ∧
    (∀ (o : LampOrder) (l : Lamp), l = s.lamps[o.lamp] →
      (∀ k, l.assign = .seat k → s.runAction n (.lamp o) fire seat = s) ∧
      (l.assign = .cue →
        s.runAction n (.lamp o) fire seat =
          { s with
            lamps :=
              s.lamps.set o.lamp
                { l with
                  pattern := { kind := o.pattern, level := o.level, periodMs := o.period * 10, duty := o.duty }
                  durationEnd :=
                    if o.duration = 0 then none else some (s.now + BitVec.ofNat 32 (o.duration * 100 * 1000))
                  phaseStart := (s.clock + 24575) / 24576 } })) ∧
    ∀ code once through,
      s.runAction n (.emit code once through) fire seat =
        s.requestFrame
          { cls := 4, subject := code
            content :=
              .fixed
                (match through, seat with
                | true, some k => [BitVec.ofNat 8 k.val]
                | _, _ => [])
            late := true, singleTry := once }

/-- R37 to R40: a request outside ONLINE or at a shadow station is dropped; one whose key is held merges into its entry;
a new key is inserted in its place while fewer than 8 are held; of 8, the highest WAITING key gives way to a lower one,
and a higher one is refused, either counted as a send overflow. -/
def Obligations.RequestsEnterQueue : Prop :=
  ∀ (s : State) (r : FrameRequest) (e : Entry), QueueShape s.queue →
    e =
      { key := makeKey r.cls r.subject s.station.number, content := r.content, enqueued := s.now
        lateLimit := if r.late = true ∧ s.station.lateLimit ≠ 0 then some s.station.lateLimit else none
        singleTry := r.singleTry, state := .waiting, reported := none, portCleared := false } →
    (s.loader.mode ≠ .online ∨ s.station.shadow = true → s.requestFrame r = s) ∧
    (s.loader.mode = .online → s.station.shadow = false →
      ∃ queue errors, s.requestFrame r = { s with queue := queue, errors := errors } ∧
        QueueShape queue ∧
        ((∃ x ∈ s.queue, x.key = e.key) →
          errors = s.errors ∧
            queue = s.queue.map fun x => if x.key = e.key then { x with content := r.content } else x) ∧
        ((∀ x ∈ s.queue, x.key ≠ e.key) →
          (s.queue.length < 8 → errors = s.errors ∧ ∀ x, x ∈ queue ↔ x = e ∨ x ∈ s.queue) ∧
          (s.queue.length = 8 → ∀ high ∈ s.queue, high.state = .waiting →
            (∀ x ∈ s.queue, x.state = .waiting → x.key ≤ high.key) →
            errors = s.errors.bump .sendOverflows ∧
            (e.key < high.key → ∀ x, x ∈ queue ↔ x = e ∨ (x ∈ s.queue ∧ x ≠ high)) ∧
            (high.key < e.key → queue = s.queue))))
end

