-- ==== Sys2Proof/Laws/Lamps.lean ====
section
/-!
SUPPORT. What a lamp line shows (R166): the time for which it is on, within the tolerance of one master clock period, and
what follows for the line at an instant.
-/

namespace Sys2Proof.Machine

@[simp] theorem onClocks_zero (lamp period : Nat) : onClocks lamp period 0 = 0 := rfl

@[simp] theorem onClocks_full (lamp period : Nat) : onClocks lamp period 255 = 24576 := rfl

/-- R166: a line is on for level/255 of the lamp period, to within one master clock period. -/
theorem onClocks_within (lamp period : Nat) {level : Nat} (h : level ≤ 255) :
    255 * onClocks lamp period level ≤ 24576 * level + 255 ∧
      24576 * level ≤ 255 * onClocks lamp period level + 255 := by
  unfold onClocks milliClocks
  split
  case isTrue h0 => omega
  split
  case isTrue h1 => omega
  split <;> omega

/-- A line is on at every instant that the tolerance leaves no doubt about. -/
theorem State.lampLine_on {s : State} {lamp : Fin 8} (h : s.lamps[lamp].level ≤ 255)
    (hon : 255 * (s.clock % 24576) + 255 < 24576 * s.lamps[lamp].level) : s.lampLine lamp = true := by
  have := (onClocks_within lamp.val (s.clock / 24576) h).2
  exact decide_eq_true (show s.clock % 24576 < onClocks lamp.val (s.clock / 24576) _ by omega)

/-- And off at every instant past it. -/
theorem State.lampLine_off {s : State} {lamp : Fin 8} (h : s.lamps[lamp].level ≤ 255)
    (hoff : 24576 * s.lamps[lamp].level + 255 ≤ 255 * (s.clock % 24576)) : s.lampLine lamp = false := by
  have := (onClocks_within lamp.val (s.clock / 24576) h).1
  exact decide_eq_false (show ¬ s.clock % 24576 < onClocks lamp.val (s.clock / 24576) _ by omega)

end Sys2Proof.Machine
end

