-- ==== Sys2Proof/Laws/State.lean ====
section
/-!
SUPPORT. One lemma for each field of each named update of the state, the pool and the Line Port, true by computation and
tagged for the simplifier, so that no proof unfolds a record update.
-/

namespace Sys2Proof.Machine

/-! `State.advance` -/

@[simp] theorem State.advance_powered (s : State) (t : Nat) : (s.advance t).powered = s.powered := rfl
@[simp] theorem State.advance_resetLine (s : State) (t : Nat) : (s.advance t).resetLine = s.resetLine := rfl
@[simp] theorem State.advance_loader (s : State) (t : Nat) : (s.advance t).loader = s.loader := rfl
@[simp] theorem State.advance_station (s : State) (t : Nat) : (s.advance t).station = s.station := rfl
@[simp] theorem State.advance_line (s : State) (t : Nat) : (s.advance t).line = s.line := rfl
@[simp] theorem State.advance_queue (s : State) (t : Nat) : (s.advance t).queue = s.queue := rfl
@[simp] theorem State.advance_round (s : State) (t : Nat) : (s.advance t).round = s.round := rfl
@[simp] theorem State.advance_penalties (s : State) (t : Nat) : (s.advance t).penalties = s.penalties := rfl
@[simp] theorem State.advance_pool (s : State) (t : Nat) : (s.advance t).pool = s.pool := rfl
@[simp] theorem State.advance_clips (s : State) (t : Nat) : (s.advance t).clips = s.clips := rfl
@[simp] theorem State.advance_fetch (s : State) (t : Nat) : (s.advance t).fetch = s.fetch := rfl
@[simp] theorem State.advance_flash (s : State) (t : Nat) : (s.advance t).flash = s.flash := rfl
@[simp] theorem State.advance_mixer (s : State) (t : Nat) : (s.advance t).mixer = s.mixer := rfl
@[simp] theorem State.advance_inputs (s : State) (t : Nat) : (s.advance t).inputs = s.inputs := rfl
@[simp] theorem State.advance_nextScan (s : State) (t : Nat) : (s.advance t).nextScan = s.nextScan := rfl
@[simp] theorem State.advance_lamps (s : State) (t : Nat) : (s.advance t).lamps = s.lamps := rfl
@[simp] theorem State.advance_nextLampPeriod (s : State) (t : Nat) : (s.advance t).nextLampPeriod = s.nextLampPeriod := rfl
@[simp] theorem State.advance_service (s : State) (t : Nat) : (s.advance t).service = s.service := rfl
@[simp] theorem State.advance_errors (s : State) (t : Nat) : (s.advance t).errors = s.errors := rfl
@[simp] theorem State.advance_freeCount (s : State) (t : Nat) : (s.advance t).freeCount = s.freeCount := rfl
@[simp] theorem State.advance_pending (s : State) (t : Nat) : (s.advance t).pending = s.pending := rfl
@[simp] theorem State.advance_clock (s : State) (t : Nat) : (s.advance t).clock = max s.clock t := rfl

/-! `State.count` -/

@[simp] theorem State.count_clock (s : State) (c : ErrorCount) : (s.count c).clock = s.clock := rfl
@[simp] theorem State.count_powered (s : State) (c : ErrorCount) : (s.count c).powered = s.powered := rfl
@[simp] theorem State.count_resetLine (s : State) (c : ErrorCount) : (s.count c).resetLine = s.resetLine := rfl
@[simp] theorem State.count_loader (s : State) (c : ErrorCount) : (s.count c).loader = s.loader := rfl
@[simp] theorem State.count_station (s : State) (c : ErrorCount) : (s.count c).station = s.station := rfl
@[simp] theorem State.count_line (s : State) (c : ErrorCount) : (s.count c).line = s.line := rfl
@[simp] theorem State.count_queue (s : State) (c : ErrorCount) : (s.count c).queue = s.queue := rfl
@[simp] theorem State.count_round (s : State) (c : ErrorCount) : (s.count c).round = s.round := rfl
@[simp] theorem State.count_penalties (s : State) (c : ErrorCount) : (s.count c).penalties = s.penalties := rfl
@[simp] theorem State.count_pool (s : State) (c : ErrorCount) : (s.count c).pool = s.pool := rfl
@[simp] theorem State.count_clips (s : State) (c : ErrorCount) : (s.count c).clips = s.clips := rfl
@[simp] theorem State.count_fetch (s : State) (c : ErrorCount) : (s.count c).fetch = s.fetch := rfl
@[simp] theorem State.count_flash (s : State) (c : ErrorCount) : (s.count c).flash = s.flash := rfl
@[simp] theorem State.count_mixer (s : State) (c : ErrorCount) : (s.count c).mixer = s.mixer := rfl
@[simp] theorem State.count_inputs (s : State) (c : ErrorCount) : (s.count c).inputs = s.inputs := rfl
@[simp] theorem State.count_nextScan (s : State) (c : ErrorCount) : (s.count c).nextScan = s.nextScan := rfl
@[simp] theorem State.count_lamps (s : State) (c : ErrorCount) : (s.count c).lamps = s.lamps := rfl
@[simp] theorem State.count_nextLampPeriod (s : State) (c : ErrorCount) : (s.count c).nextLampPeriod = s.nextLampPeriod := rfl
@[simp] theorem State.count_service (s : State) (c : ErrorCount) : (s.count c).service = s.service := rfl
@[simp] theorem State.count_freeCount (s : State) (c : ErrorCount) : (s.count c).freeCount = s.freeCount := rfl
@[simp] theorem State.count_pending (s : State) (c : ErrorCount) : (s.count c).pending = s.pending := rfl
@[simp] theorem State.count_errors (s : State) (c : ErrorCount) : (s.count c).errors = s.errors.bump c := rfl

/-! `State.respond` -/

@[simp] theorem State.respond_clock (s : State) (cmd : Byte) (st : PacketStatus) (p : List Byte) : (s.respond cmd st p).clock = s.clock := rfl
@[simp] theorem State.respond_powered (s : State) (cmd : Byte) (st : PacketStatus) (p : List Byte) : (s.respond cmd st p).powered = s.powered := rfl
@[simp] theorem State.respond_resetLine (s : State) (cmd : Byte) (st : PacketStatus) (p : List Byte) : (s.respond cmd st p).resetLine = s.resetLine := rfl
@[simp] theorem State.respond_loader (s : State) (cmd : Byte) (st : PacketStatus) (p : List Byte) : (s.respond cmd st p).loader = s.loader := rfl
@[simp] theorem State.respond_station (s : State) (cmd : Byte) (st : PacketStatus) (p : List Byte) : (s.respond cmd st p).station = s.station := rfl
@[simp] theorem State.respond_line (s : State) (cmd : Byte) (st : PacketStatus) (p : List Byte) : (s.respond cmd st p).line = s.line := rfl
@[simp] theorem State.respond_queue (s : State) (cmd : Byte) (st : PacketStatus) (p : List Byte) : (s.respond cmd st p).queue = s.queue := rfl
@[simp] theorem State.respond_round (s : State) (cmd : Byte) (st : PacketStatus) (p : List Byte) : (s.respond cmd st p).round = s.round := rfl
@[simp] theorem State.respond_penalties (s : State) (cmd : Byte) (st : PacketStatus) (p : List Byte) : (s.respond cmd st p).penalties = s.penalties := rfl
@[simp] theorem State.respond_pool (s : State) (cmd : Byte) (st : PacketStatus) (p : List Byte) : (s.respond cmd st p).pool = s.pool := rfl
@[simp] theorem State.respond_clips (s : State) (cmd : Byte) (st : PacketStatus) (p : List Byte) : (s.respond cmd st p).clips = s.clips := rfl
@[simp] theorem State.respond_fetch (s : State) (cmd : Byte) (st : PacketStatus) (p : List Byte) : (s.respond cmd st p).fetch = s.fetch := rfl
@[simp] theorem State.respond_flash (s : State) (cmd : Byte) (st : PacketStatus) (p : List Byte) : (s.respond cmd st p).flash = s.flash := rfl
@[simp] theorem State.respond_mixer (s : State) (cmd : Byte) (st : PacketStatus) (p : List Byte) : (s.respond cmd st p).mixer = s.mixer := rfl
@[simp] theorem State.respond_inputs (s : State) (cmd : Byte) (st : PacketStatus) (p : List Byte) : (s.respond cmd st p).inputs = s.inputs := rfl
@[simp] theorem State.respond_nextScan (s : State) (cmd : Byte) (st : PacketStatus) (p : List Byte) : (s.respond cmd st p).nextScan = s.nextScan := rfl
@[simp] theorem State.respond_lamps (s : State) (cmd : Byte) (st : PacketStatus) (p : List Byte) : (s.respond cmd st p).lamps = s.lamps := rfl
@[simp] theorem State.respond_nextLampPeriod (s : State) (cmd : Byte) (st : PacketStatus) (p : List Byte) : (s.respond cmd st p).nextLampPeriod = s.nextLampPeriod := rfl
@[simp] theorem State.respond_errors (s : State) (cmd : Byte) (st : PacketStatus) (p : List Byte) : (s.respond cmd st p).errors = s.errors := rfl
@[simp] theorem State.respond_freeCount (s : State) (cmd : Byte) (st : PacketStatus) (p : List Byte) : (s.respond cmd st p).freeCount = s.freeCount := rfl
@[simp] theorem State.respond_pending (s : State) (cmd : Byte) (st : PacketStatus) (p : List Byte) : (s.respond cmd st p).pending = s.pending := rfl

/-! `State.findStartBit` -/

@[simp] theorem State.findStartBit_clock (s : State) : (s.findStartBit).clock = s.clock := by unfold State.findStartBit; split <;> rfl
@[simp] theorem State.findStartBit_powered (s : State) : (s.findStartBit).powered = s.powered := by unfold State.findStartBit; split <;> rfl
@[simp] theorem State.findStartBit_resetLine (s : State) : (s.findStartBit).resetLine = s.resetLine := by unfold State.findStartBit; split <;> rfl
@[simp] theorem State.findStartBit_loader (s : State) : (s.findStartBit).loader = s.loader := by unfold State.findStartBit; split <;> rfl
@[simp] theorem State.findStartBit_station (s : State) : (s.findStartBit).station = s.station := by unfold State.findStartBit; split <;> rfl
@[simp] theorem State.findStartBit_line (s : State) : (s.findStartBit).line = s.line := by unfold State.findStartBit; split <;> rfl
@[simp] theorem State.findStartBit_queue (s : State) : (s.findStartBit).queue = s.queue := by unfold State.findStartBit; split <;> rfl
@[simp] theorem State.findStartBit_round (s : State) : (s.findStartBit).round = s.round := by unfold State.findStartBit; split <;> rfl
@[simp] theorem State.findStartBit_penalties (s : State) : (s.findStartBit).penalties = s.penalties := by unfold State.findStartBit; split <;> rfl
@[simp] theorem State.findStartBit_pool (s : State) : (s.findStartBit).pool = s.pool := by unfold State.findStartBit; split <;> rfl
@[simp] theorem State.findStartBit_clips (s : State) : (s.findStartBit).clips = s.clips := by unfold State.findStartBit; split <;> rfl
@[simp] theorem State.findStartBit_fetch (s : State) : (s.findStartBit).fetch = s.fetch := by unfold State.findStartBit; split <;> rfl
@[simp] theorem State.findStartBit_flash (s : State) : (s.findStartBit).flash = s.flash := by unfold State.findStartBit; split <;> rfl
@[simp] theorem State.findStartBit_mixer (s : State) : (s.findStartBit).mixer = s.mixer := by unfold State.findStartBit; split <;> rfl
@[simp] theorem State.findStartBit_inputs (s : State) : (s.findStartBit).inputs = s.inputs := by unfold State.findStartBit; split <;> rfl
@[simp] theorem State.findStartBit_nextScan (s : State) : (s.findStartBit).nextScan = s.nextScan := by unfold State.findStartBit; split <;> rfl
@[simp] theorem State.findStartBit_lamps (s : State) : (s.findStartBit).lamps = s.lamps := by unfold State.findStartBit; split <;> rfl
@[simp] theorem State.findStartBit_nextLampPeriod (s : State) : (s.findStartBit).nextLampPeriod = s.nextLampPeriod := by unfold State.findStartBit; split <;> rfl
@[simp] theorem State.findStartBit_errors (s : State) : (s.findStartBit).errors = s.errors := by unfold State.findStartBit; split <;> rfl
@[simp] theorem State.findStartBit_freeCount (s : State) : (s.findStartBit).freeCount = s.freeCount := by unfold State.findStartBit; split <;> rfl
@[simp] theorem State.findStartBit_pending (s : State) : (s.findStartBit).pending = s.pending := by unfold State.findStartBit; split <;> rfl
@[simp] theorem State.findStartBit_assembly (s : State) : (s.findStartBit).service.assembly = s.service.assembly := by unfold State.findStartBit; split <;> rfl

/-! `State.receiverTo` -/

@[simp] theorem State.receiverTo_clock (s : State) (r : Receiver) : (s.receiverTo r).clock = s.clock := rfl
@[simp] theorem State.receiverTo_powered (s : State) (r : Receiver) : (s.receiverTo r).powered = s.powered := rfl
@[simp] theorem State.receiverTo_resetLine (s : State) (r : Receiver) : (s.receiverTo r).resetLine = s.resetLine := rfl
@[simp] theorem State.receiverTo_loader (s : State) (r : Receiver) : (s.receiverTo r).loader = s.loader := rfl
@[simp] theorem State.receiverTo_station (s : State) (r : Receiver) : (s.receiverTo r).station = s.station := rfl
@[simp] theorem State.receiverTo_line (s : State) (r : Receiver) : (s.receiverTo r).line = s.line := rfl
@[simp] theorem State.receiverTo_queue (s : State) (r : Receiver) : (s.receiverTo r).queue = s.queue := rfl
@[simp] theorem State.receiverTo_round (s : State) (r : Receiver) : (s.receiverTo r).round = s.round := rfl
@[simp] theorem State.receiverTo_penalties (s : State) (r : Receiver) : (s.receiverTo r).penalties = s.penalties := rfl
@[simp] theorem State.receiverTo_pool (s : State) (r : Receiver) : (s.receiverTo r).pool = s.pool := rfl
@[simp] theorem State.receiverTo_clips (s : State) (r : Receiver) : (s.receiverTo r).clips = s.clips := rfl
@[simp] theorem State.receiverTo_fetch (s : State) (r : Receiver) : (s.receiverTo r).fetch = s.fetch := rfl
@[simp] theorem State.receiverTo_flash (s : State) (r : Receiver) : (s.receiverTo r).flash = s.flash := rfl
@[simp] theorem State.receiverTo_mixer (s : State) (r : Receiver) : (s.receiverTo r).mixer = s.mixer := rfl
@[simp] theorem State.receiverTo_inputs (s : State) (r : Receiver) : (s.receiverTo r).inputs = s.inputs := rfl
@[simp] theorem State.receiverTo_nextScan (s : State) (r : Receiver) : (s.receiverTo r).nextScan = s.nextScan := rfl
@[simp] theorem State.receiverTo_lamps (s : State) (r : Receiver) : (s.receiverTo r).lamps = s.lamps := rfl
@[simp] theorem State.receiverTo_nextLampPeriod (s : State) (r : Receiver) : (s.receiverTo r).nextLampPeriod = s.nextLampPeriod := rfl
@[simp] theorem State.receiverTo_errors (s : State) (r : Receiver) : (s.receiverTo r).errors = s.errors := rfl
@[simp] theorem State.receiverTo_freeCount (s : State) (r : Receiver) : (s.receiverTo r).freeCount = s.freeCount := rfl
@[simp] theorem State.receiverTo_pending (s : State) (r : Receiver) : (s.receiverTo r).pending = s.pending := rfl
@[simp] theorem State.receiverTo_receiver (s : State) (r : Receiver) : (s.receiverTo r).service.receiver = r := rfl
@[simp] theorem State.receiverTo_gapFrom (s : State) (r : Receiver) : (s.receiverTo r).service.gapFrom = s.service.gapFrom := rfl
@[simp] theorem State.receiverTo_assembly (s : State) (r : Receiver) : (s.receiverTo r).service.assembly = s.service.assembly := rfl

/-! `State.dropResponse` -/

@[simp] theorem State.dropResponse_clock (s : State) (rest : List Response) : (s.dropResponse rest).clock = s.clock := rfl
@[simp] theorem State.dropResponse_powered (s : State) (rest : List Response) : (s.dropResponse rest).powered = s.powered := rfl
@[simp] theorem State.dropResponse_resetLine (s : State) (rest : List Response) : (s.dropResponse rest).resetLine = s.resetLine := rfl
@[simp] theorem State.dropResponse_loader (s : State) (rest : List Response) : (s.dropResponse rest).loader = s.loader := rfl
@[simp] theorem State.dropResponse_station (s : State) (rest : List Response) : (s.dropResponse rest).station = s.station := rfl
@[simp] theorem State.dropResponse_line (s : State) (rest : List Response) : (s.dropResponse rest).line = s.line := rfl
@[simp] theorem State.dropResponse_queue (s : State) (rest : List Response) : (s.dropResponse rest).queue = s.queue := rfl
@[simp] theorem State.dropResponse_round (s : State) (rest : List Response) : (s.dropResponse rest).round = s.round := rfl
@[simp] theorem State.dropResponse_penalties (s : State) (rest : List Response) : (s.dropResponse rest).penalties = s.penalties := rfl
@[simp] theorem State.dropResponse_pool (s : State) (rest : List Response) : (s.dropResponse rest).pool = s.pool := rfl
@[simp] theorem State.dropResponse_clips (s : State) (rest : List Response) : (s.dropResponse rest).clips = s.clips := rfl
@[simp] theorem State.dropResponse_fetch (s : State) (rest : List Response) : (s.dropResponse rest).fetch = s.fetch := rfl
@[simp] theorem State.dropResponse_flash (s : State) (rest : List Response) : (s.dropResponse rest).flash = s.flash := rfl
@[simp] theorem State.dropResponse_mixer (s : State) (rest : List Response) : (s.dropResponse rest).mixer = s.mixer := rfl
@[simp] theorem State.dropResponse_inputs (s : State) (rest : List Response) : (s.dropResponse rest).inputs = s.inputs := rfl
@[simp] theorem State.dropResponse_nextScan (s : State) (rest : List Response) : (s.dropResponse rest).nextScan = s.nextScan := rfl
@[simp] theorem State.dropResponse_lamps (s : State) (rest : List Response) : (s.dropResponse rest).lamps = s.lamps := rfl
@[simp] theorem State.dropResponse_nextLampPeriod (s : State) (rest : List Response) : (s.dropResponse rest).nextLampPeriod = s.nextLampPeriod := rfl
@[simp] theorem State.dropResponse_errors (s : State) (rest : List Response) : (s.dropResponse rest).errors = s.errors := rfl
@[simp] theorem State.dropResponse_freeCount (s : State) (rest : List Response) : (s.dropResponse rest).freeCount = s.freeCount := rfl
@[simp] theorem State.dropResponse_pending (s : State) (rest : List Response) : (s.dropResponse rest).pending = s.pending := rfl
@[simp] theorem State.dropResponse_answers (s : State) (rest : List Response) : (s.dropResponse rest).service.answers = rest := rfl

/-! `State.assemble` -/

@[simp] theorem State.assemble_clock (s : State) (a : Assembly) : (s.assemble a).clock = s.clock := rfl
@[simp] theorem State.assemble_powered (s : State) (a : Assembly) : (s.assemble a).powered = s.powered := rfl
@[simp] theorem State.assemble_resetLine (s : State) (a : Assembly) : (s.assemble a).resetLine = s.resetLine := rfl
@[simp] theorem State.assemble_loader (s : State) (a : Assembly) : (s.assemble a).loader = s.loader := rfl
@[simp] theorem State.assemble_station (s : State) (a : Assembly) : (s.assemble a).station = s.station := rfl
@[simp] theorem State.assemble_line (s : State) (a : Assembly) : (s.assemble a).line = s.line := rfl
@[simp] theorem State.assemble_queue (s : State) (a : Assembly) : (s.assemble a).queue = s.queue := rfl
@[simp] theorem State.assemble_round (s : State) (a : Assembly) : (s.assemble a).round = s.round := rfl
@[simp] theorem State.assemble_penalties (s : State) (a : Assembly) : (s.assemble a).penalties = s.penalties := rfl
@[simp] theorem State.assemble_pool (s : State) (a : Assembly) : (s.assemble a).pool = s.pool := rfl
@[simp] theorem State.assemble_clips (s : State) (a : Assembly) : (s.assemble a).clips = s.clips := rfl
@[simp] theorem State.assemble_fetch (s : State) (a : Assembly) : (s.assemble a).fetch = s.fetch := rfl
@[simp] theorem State.assemble_flash (s : State) (a : Assembly) : (s.assemble a).flash = s.flash := rfl
@[simp] theorem State.assemble_mixer (s : State) (a : Assembly) : (s.assemble a).mixer = s.mixer := rfl
@[simp] theorem State.assemble_inputs (s : State) (a : Assembly) : (s.assemble a).inputs = s.inputs := rfl
@[simp] theorem State.assemble_nextScan (s : State) (a : Assembly) : (s.assemble a).nextScan = s.nextScan := rfl
@[simp] theorem State.assemble_lamps (s : State) (a : Assembly) : (s.assemble a).lamps = s.lamps := rfl
@[simp] theorem State.assemble_nextLampPeriod (s : State) (a : Assembly) : (s.assemble a).nextLampPeriod = s.nextLampPeriod := rfl
@[simp] theorem State.assemble_errors (s : State) (a : Assembly) : (s.assemble a).errors = s.errors := rfl
@[simp] theorem State.assemble_freeCount (s : State) (a : Assembly) : (s.assemble a).freeCount = s.freeCount := rfl
@[simp] theorem State.assemble_pending (s : State) (a : Assembly) : (s.assemble a).pending = s.pending := rfl
@[simp] theorem State.assemble_assembly (s : State) (a : Assembly) : (s.assemble a).service.assembly = a := rfl
@[simp] theorem State.assemble_receiver (s : State) (a : Assembly) : (s.assemble a).service.receiver = s.service.receiver := rfl

/-! `State.startJob` -/

@[simp] theorem State.startJob_clock (s : State) (j : FlashJob) (k : InProgress) : (s.startJob j k).clock = s.clock := rfl
@[simp] theorem State.startJob_powered (s : State) (j : FlashJob) (k : InProgress) : (s.startJob j k).powered = s.powered := rfl
@[simp] theorem State.startJob_resetLine (s : State) (j : FlashJob) (k : InProgress) : (s.startJob j k).resetLine = s.resetLine := rfl
@[simp] theorem State.startJob_loader (s : State) (j : FlashJob) (k : InProgress) : (s.startJob j k).loader = s.loader := rfl
@[simp] theorem State.startJob_station (s : State) (j : FlashJob) (k : InProgress) : (s.startJob j k).station = s.station := rfl
@[simp] theorem State.startJob_line (s : State) (j : FlashJob) (k : InProgress) : (s.startJob j k).line = s.line := rfl
@[simp] theorem State.startJob_queue (s : State) (j : FlashJob) (k : InProgress) : (s.startJob j k).queue = s.queue := rfl
@[simp] theorem State.startJob_round (s : State) (j : FlashJob) (k : InProgress) : (s.startJob j k).round = s.round := rfl
@[simp] theorem State.startJob_penalties (s : State) (j : FlashJob) (k : InProgress) : (s.startJob j k).penalties = s.penalties := rfl
@[simp] theorem State.startJob_pool (s : State) (j : FlashJob) (k : InProgress) : (s.startJob j k).pool = s.pool := rfl
@[simp] theorem State.startJob_clips (s : State) (j : FlashJob) (k : InProgress) : (s.startJob j k).clips = s.clips := rfl
@[simp] theorem State.startJob_fetch (s : State) (j : FlashJob) (k : InProgress) : (s.startJob j k).fetch = s.fetch := rfl
@[simp] theorem State.startJob_mixer (s : State) (j : FlashJob) (k : InProgress) : (s.startJob j k).mixer = s.mixer := rfl
@[simp] theorem State.startJob_inputs (s : State) (j : FlashJob) (k : InProgress) : (s.startJob j k).inputs = s.inputs := rfl
@[simp] theorem State.startJob_nextScan (s : State) (j : FlashJob) (k : InProgress) : (s.startJob j k).nextScan = s.nextScan := rfl
@[simp] theorem State.startJob_lamps (s : State) (j : FlashJob) (k : InProgress) : (s.startJob j k).lamps = s.lamps := rfl
@[simp] theorem State.startJob_nextLampPeriod (s : State) (j : FlashJob) (k : InProgress) : (s.startJob j k).nextLampPeriod = s.nextLampPeriod := rfl
@[simp] theorem State.startJob_errors (s : State) (j : FlashJob) (k : InProgress) : (s.startJob j k).errors = s.errors := rfl
@[simp] theorem State.startJob_freeCount (s : State) (j : FlashJob) (k : InProgress) : (s.startJob j k).freeCount = s.freeCount := rfl
@[simp] theorem State.startJob_pending (s : State) (j : FlashJob) (k : InProgress) : (s.startJob j k).pending = s.pending := rfl

/-! `State.startRead` -/

@[simp] theorem State.startRead_clock (s : State) (a n : Nat) : (s.startRead a n).clock = s.clock := rfl
@[simp] theorem State.startRead_powered (s : State) (a n : Nat) : (s.startRead a n).powered = s.powered := rfl
@[simp] theorem State.startRead_resetLine (s : State) (a n : Nat) : (s.startRead a n).resetLine = s.resetLine := rfl
@[simp] theorem State.startRead_loader (s : State) (a n : Nat) : (s.startRead a n).loader = s.loader := rfl
@[simp] theorem State.startRead_station (s : State) (a n : Nat) : (s.startRead a n).station = s.station := rfl
@[simp] theorem State.startRead_line (s : State) (a n : Nat) : (s.startRead a n).line = s.line := rfl
@[simp] theorem State.startRead_queue (s : State) (a n : Nat) : (s.startRead a n).queue = s.queue := rfl
@[simp] theorem State.startRead_round (s : State) (a n : Nat) : (s.startRead a n).round = s.round := rfl
@[simp] theorem State.startRead_penalties (s : State) (a n : Nat) : (s.startRead a n).penalties = s.penalties := rfl
@[simp] theorem State.startRead_pool (s : State) (a n : Nat) : (s.startRead a n).pool = s.pool := rfl
@[simp] theorem State.startRead_clips (s : State) (a n : Nat) : (s.startRead a n).clips = s.clips := rfl
@[simp] theorem State.startRead_fetch (s : State) (a n : Nat) : (s.startRead a n).fetch = s.fetch := rfl
@[simp] theorem State.startRead_flash (s : State) (a n : Nat) : (s.startRead a n).flash = s.flash := rfl
@[simp] theorem State.startRead_mixer (s : State) (a n : Nat) : (s.startRead a n).mixer = s.mixer := rfl
@[simp] theorem State.startRead_inputs (s : State) (a n : Nat) : (s.startRead a n).inputs = s.inputs := rfl
@[simp] theorem State.startRead_nextScan (s : State) (a n : Nat) : (s.startRead a n).nextScan = s.nextScan := rfl
@[simp] theorem State.startRead_lamps (s : State) (a n : Nat) : (s.startRead a n).lamps = s.lamps := rfl
@[simp] theorem State.startRead_nextLampPeriod (s : State) (a n : Nat) : (s.startRead a n).nextLampPeriod = s.nextLampPeriod := rfl
@[simp] theorem State.startRead_errors (s : State) (a n : Nat) : (s.startRead a n).errors = s.errors := rfl
@[simp] theorem State.startRead_freeCount (s : State) (a n : Nat) : (s.startRead a n).freeCount = s.freeCount := rfl
@[simp] theorem State.startRead_pending (s : State) (a n : Nat) : (s.startRead a n).pending = s.pending := rfl

/-! `State.finishTransfer` -/

@[simp] theorem State.finishTransfer_clock (s : State) (r : ServiceRead) : (s.finishTransfer r).clock = s.clock := rfl
@[simp] theorem State.finishTransfer_powered (s : State) (r : ServiceRead) : (s.finishTransfer r).powered = s.powered := rfl
@[simp] theorem State.finishTransfer_resetLine (s : State) (r : ServiceRead) : (s.finishTransfer r).resetLine = s.resetLine := rfl
@[simp] theorem State.finishTransfer_loader (s : State) (r : ServiceRead) : (s.finishTransfer r).loader = s.loader := rfl
@[simp] theorem State.finishTransfer_station (s : State) (r : ServiceRead) : (s.finishTransfer r).station = s.station := rfl
@[simp] theorem State.finishTransfer_line (s : State) (r : ServiceRead) : (s.finishTransfer r).line = s.line := rfl
@[simp] theorem State.finishTransfer_queue (s : State) (r : ServiceRead) : (s.finishTransfer r).queue = s.queue := rfl
@[simp] theorem State.finishTransfer_round (s : State) (r : ServiceRead) : (s.finishTransfer r).round = s.round := rfl
@[simp] theorem State.finishTransfer_penalties (s : State) (r : ServiceRead) : (s.finishTransfer r).penalties = s.penalties := rfl
@[simp] theorem State.finishTransfer_pool (s : State) (r : ServiceRead) : (s.finishTransfer r).pool = s.pool := rfl
@[simp] theorem State.finishTransfer_clips (s : State) (r : ServiceRead) : (s.finishTransfer r).clips = s.clips := rfl
@[simp] theorem State.finishTransfer_fetch (s : State) (r : ServiceRead) : (s.finishTransfer r).fetch = s.fetch := rfl
@[simp] theorem State.finishTransfer_flash (s : State) (r : ServiceRead) : (s.finishTransfer r).flash = s.flash := rfl
@[simp] theorem State.finishTransfer_mixer (s : State) (r : ServiceRead) : (s.finishTransfer r).mixer = s.mixer := rfl
@[simp] theorem State.finishTransfer_inputs (s : State) (r : ServiceRead) : (s.finishTransfer r).inputs = s.inputs := rfl
@[simp] theorem State.finishTransfer_nextScan (s : State) (r : ServiceRead) : (s.finishTransfer r).nextScan = s.nextScan := rfl
@[simp] theorem State.finishTransfer_lamps (s : State) (r : ServiceRead) : (s.finishTransfer r).lamps = s.lamps := rfl
@[simp] theorem State.finishTransfer_nextLampPeriod (s : State) (r : ServiceRead) : (s.finishTransfer r).nextLampPeriod = s.nextLampPeriod := rfl
@[simp] theorem State.finishTransfer_errors (s : State) (r : ServiceRead) : (s.finishTransfer r).errors = s.errors := rfl
@[simp] theorem State.finishTransfer_freeCount (s : State) (r : ServiceRead) : (s.finishTransfer r).freeCount = s.freeCount := rfl
@[simp] theorem State.finishTransfer_pending (s : State) (r : ServiceRead) : (s.finishTransfer r).pending = s.pending := rfl

/-! `State.clearGroup` -/

@[simp] theorem State.clearGroup_clock (s : State) (g : Nat) : (s.clearGroup g).clock = s.clock := rfl
@[simp] theorem State.clearGroup_powered (s : State) (g : Nat) : (s.clearGroup g).powered = s.powered := rfl
@[simp] theorem State.clearGroup_resetLine (s : State) (g : Nat) : (s.clearGroup g).resetLine = s.resetLine := rfl
@[simp] theorem State.clearGroup_loader (s : State) (g : Nat) : (s.clearGroup g).loader = s.loader := rfl
@[simp] theorem State.clearGroup_station (s : State) (g : Nat) : (s.clearGroup g).station = s.station := rfl
@[simp] theorem State.clearGroup_queue (s : State) (g : Nat) : (s.clearGroup g).queue = noteClear g s.queue := rfl
@[simp] theorem State.clearGroup_round (s : State) (g : Nat) : (s.clearGroup g).round = s.round := rfl
@[simp] theorem State.clearGroup_penalties (s : State) (g : Nat) : (s.clearGroup g).penalties = s.penalties := rfl
@[simp] theorem State.clearGroup_pool (s : State) (g : Nat) : (s.clearGroup g).pool = s.pool := rfl
@[simp] theorem State.clearGroup_clips (s : State) (g : Nat) : (s.clearGroup g).clips = s.clips := rfl
@[simp] theorem State.clearGroup_fetch (s : State) (g : Nat) : (s.clearGroup g).fetch = s.fetch := rfl
@[simp] theorem State.clearGroup_flash (s : State) (g : Nat) : (s.clearGroup g).flash = s.flash := rfl
@[simp] theorem State.clearGroup_mixer (s : State) (g : Nat) : (s.clearGroup g).mixer = s.mixer := rfl
@[simp] theorem State.clearGroup_inputs (s : State) (g : Nat) : (s.clearGroup g).inputs = s.inputs := rfl
@[simp] theorem State.clearGroup_nextScan (s : State) (g : Nat) : (s.clearGroup g).nextScan = s.nextScan := rfl
@[simp] theorem State.clearGroup_lamps (s : State) (g : Nat) : (s.clearGroup g).lamps = s.lamps := rfl
@[simp] theorem State.clearGroup_nextLampPeriod (s : State) (g : Nat) : (s.clearGroup g).nextLampPeriod = s.nextLampPeriod := rfl
@[simp] theorem State.clearGroup_service (s : State) (g : Nat) : (s.clearGroup g).service = s.service := rfl
@[simp] theorem State.clearGroup_freeCount (s : State) (g : Nat) : (s.clearGroup g).freeCount = s.freeCount := rfl
@[simp] theorem State.clearGroup_pending (s : State) (g : Nat) : (s.clearGroup g).pending = s.pending := rfl

/-! `State.refreshSeatLamps` -/

@[simp] theorem State.refreshSeatLamps_clock (s : State) (a : Option Seat) : (s.refreshSeatLamps a).clock = s.clock := rfl
@[simp] theorem State.refreshSeatLamps_powered (s : State) (a : Option Seat) : (s.refreshSeatLamps a).powered = s.powered := rfl
@[simp] theorem State.refreshSeatLamps_resetLine (s : State) (a : Option Seat) : (s.refreshSeatLamps a).resetLine = s.resetLine := rfl
@[simp] theorem State.refreshSeatLamps_loader (s : State) (a : Option Seat) : (s.refreshSeatLamps a).loader = s.loader := rfl
@[simp] theorem State.refreshSeatLamps_station (s : State) (a : Option Seat) : (s.refreshSeatLamps a).station = s.station := rfl
@[simp] theorem State.refreshSeatLamps_line (s : State) (a : Option Seat) : (s.refreshSeatLamps a).line = s.line := rfl
@[simp] theorem State.refreshSeatLamps_queue (s : State) (a : Option Seat) : (s.refreshSeatLamps a).queue = s.queue := rfl
@[simp] theorem State.refreshSeatLamps_round (s : State) (a : Option Seat) : (s.refreshSeatLamps a).round = s.round := rfl
@[simp] theorem State.refreshSeatLamps_penalties (s : State) (a : Option Seat) : (s.refreshSeatLamps a).penalties = s.penalties := rfl
@[simp] theorem State.refreshSeatLamps_pool (s : State) (a : Option Seat) : (s.refreshSeatLamps a).pool = s.pool := rfl
@[simp] theorem State.refreshSeatLamps_clips (s : State) (a : Option Seat) : (s.refreshSeatLamps a).clips = s.clips := rfl
@[simp] theorem State.refreshSeatLamps_fetch (s : State) (a : Option Seat) : (s.refreshSeatLamps a).fetch = s.fetch := rfl
@[simp] theorem State.refreshSeatLamps_flash (s : State) (a : Option Seat) : (s.refreshSeatLamps a).flash = s.flash := rfl
@[simp] theorem State.refreshSeatLamps_mixer (s : State) (a : Option Seat) : (s.refreshSeatLamps a).mixer = s.mixer := rfl
@[simp] theorem State.refreshSeatLamps_inputs (s : State) (a : Option Seat) : (s.refreshSeatLamps a).inputs = s.inputs := rfl
@[simp] theorem State.refreshSeatLamps_nextScan (s : State) (a : Option Seat) : (s.refreshSeatLamps a).nextScan = s.nextScan := rfl
@[simp] theorem State.refreshSeatLamps_nextLampPeriod (s : State) (a : Option Seat) : (s.refreshSeatLamps a).nextLampPeriod = s.nextLampPeriod := rfl
@[simp] theorem State.refreshSeatLamps_service (s : State) (a : Option Seat) : (s.refreshSeatLamps a).service = s.service := rfl
@[simp] theorem State.refreshSeatLamps_errors (s : State) (a : Option Seat) : (s.refreshSeatLamps a).errors = s.errors := rfl
@[simp] theorem State.refreshSeatLamps_freeCount (s : State) (a : Option Seat) : (s.refreshSeatLamps a).freeCount = s.freeCount := rfl
@[simp] theorem State.refreshSeatLamps_pending (s : State) (a : Option Seat) : (s.refreshSeatLamps a).pending = s.pending := rfl

/-! `State.lampAction` -/

@[simp] theorem State.lampAction_clock (s : State) (o : LampOrder) : (s.lampAction o).clock = s.clock := rfl
@[simp] theorem State.lampAction_powered (s : State) (o : LampOrder) : (s.lampAction o).powered = s.powered := rfl
@[simp] theorem State.lampAction_resetLine (s : State) (o : LampOrder) : (s.lampAction o).resetLine = s.resetLine := rfl
@[simp] theorem State.lampAction_loader (s : State) (o : LampOrder) : (s.lampAction o).loader = s.loader := rfl
@[simp] theorem State.lampAction_station (s : State) (o : LampOrder) : (s.lampAction o).station = s.station := rfl
@[simp] theorem State.lampAction_line (s : State) (o : LampOrder) : (s.lampAction o).line = s.line := rfl
@[simp] theorem State.lampAction_queue (s : State) (o : LampOrder) : (s.lampAction o).queue = s.queue := rfl
@[simp] theorem State.lampAction_round (s : State) (o : LampOrder) : (s.lampAction o).round = s.round := rfl
@[simp] theorem State.lampAction_penalties (s : State) (o : LampOrder) : (s.lampAction o).penalties = s.penalties := rfl
@[simp] theorem State.lampAction_pool (s : State) (o : LampOrder) : (s.lampAction o).pool = s.pool := rfl
@[simp] theorem State.lampAction_clips (s : State) (o : LampOrder) : (s.lampAction o).clips = s.clips := rfl
@[simp] theorem State.lampAction_fetch (s : State) (o : LampOrder) : (s.lampAction o).fetch = s.fetch := rfl
@[simp] theorem State.lampAction_flash (s : State) (o : LampOrder) : (s.lampAction o).flash = s.flash := rfl
@[simp] theorem State.lampAction_mixer (s : State) (o : LampOrder) : (s.lampAction o).mixer = s.mixer := rfl
@[simp] theorem State.lampAction_inputs (s : State) (o : LampOrder) : (s.lampAction o).inputs = s.inputs := rfl
@[simp] theorem State.lampAction_nextScan (s : State) (o : LampOrder) : (s.lampAction o).nextScan = s.nextScan := rfl
@[simp] theorem State.lampAction_nextLampPeriod (s : State) (o : LampOrder) : (s.lampAction o).nextLampPeriod = s.nextLampPeriod := rfl
@[simp] theorem State.lampAction_service (s : State) (o : LampOrder) : (s.lampAction o).service = s.service := rfl
@[simp] theorem State.lampAction_errors (s : State) (o : LampOrder) : (s.lampAction o).errors = s.errors := rfl
@[simp] theorem State.lampAction_freeCount (s : State) (o : LampOrder) : (s.lampAction o).freeCount = s.freeCount := rfl
@[simp] theorem State.lampAction_pending (s : State) (o : LampOrder) : (s.lampAction o).pending = s.pending := rfl

/-! `State.darkenCueLamps` -/

@[simp] theorem State.darkenCueLamps_clock (s : State) : (s.darkenCueLamps).clock = s.clock := rfl
@[simp] theorem State.darkenCueLamps_powered (s : State) : (s.darkenCueLamps).powered = s.powered := rfl
@[simp] theorem State.darkenCueLamps_resetLine (s : State) : (s.darkenCueLamps).resetLine = s.resetLine := rfl
@[simp] theorem State.darkenCueLamps_loader (s : State) : (s.darkenCueLamps).loader = s.loader := rfl
@[simp] theorem State.darkenCueLamps_station (s : State) : (s.darkenCueLamps).station = s.station := rfl
@[simp] theorem State.darkenCueLamps_line (s : State) : (s.darkenCueLamps).line = s.line := rfl
@[simp] theorem State.darkenCueLamps_queue (s : State) : (s.darkenCueLamps).queue = s.queue := rfl
@[simp] theorem State.darkenCueLamps_round (s : State) : (s.darkenCueLamps).round = s.round := rfl
@[simp] theorem State.darkenCueLamps_penalties (s : State) : (s.darkenCueLamps).penalties = s.penalties := rfl
@[simp] theorem State.darkenCueLamps_pool (s : State) : (s.darkenCueLamps).pool = s.pool := rfl
@[simp] theorem State.darkenCueLamps_clips (s : State) : (s.darkenCueLamps).clips = s.clips := rfl
@[simp] theorem State.darkenCueLamps_fetch (s : State) : (s.darkenCueLamps).fetch = s.fetch := rfl
@[simp] theorem State.darkenCueLamps_flash (s : State) : (s.darkenCueLamps).flash = s.flash := rfl
@[simp] theorem State.darkenCueLamps_mixer (s : State) : (s.darkenCueLamps).mixer = s.mixer := rfl
@[simp] theorem State.darkenCueLamps_inputs (s : State) : (s.darkenCueLamps).inputs = s.inputs := rfl
@[simp] theorem State.darkenCueLamps_nextScan (s : State) : (s.darkenCueLamps).nextScan = s.nextScan := rfl
@[simp] theorem State.darkenCueLamps_nextLampPeriod (s : State) : (s.darkenCueLamps).nextLampPeriod = s.nextLampPeriod := rfl
@[simp] theorem State.darkenCueLamps_service (s : State) : (s.darkenCueLamps).service = s.service := rfl
@[simp] theorem State.darkenCueLamps_errors (s : State) : (s.darkenCueLamps).errors = s.errors := rfl
@[simp] theorem State.darkenCueLamps_freeCount (s : State) : (s.darkenCueLamps).freeCount = s.freeCount := rfl
@[simp] theorem State.darkenCueLamps_pending (s : State) : (s.darkenCueLamps).pending = s.pending := rfl

/-! `State.roundEntersService` -/

@[simp] theorem State.roundEntersService_clock (s : State) : (s.roundEntersService).clock = s.clock := rfl
@[simp] theorem State.roundEntersService_powered (s : State) : (s.roundEntersService).powered = s.powered := rfl
@[simp] theorem State.roundEntersService_resetLine (s : State) : (s.roundEntersService).resetLine = s.resetLine := rfl
@[simp] theorem State.roundEntersService_loader (s : State) : (s.roundEntersService).loader = s.loader := rfl
@[simp] theorem State.roundEntersService_station (s : State) : (s.roundEntersService).station = s.station := rfl
@[simp] theorem State.roundEntersService_line (s : State) : (s.roundEntersService).line = s.line := rfl
@[simp] theorem State.roundEntersService_pool (s : State) : (s.roundEntersService).pool = s.pool := rfl
@[simp] theorem State.roundEntersService_clips (s : State) : (s.roundEntersService).clips = s.clips := rfl
@[simp] theorem State.roundEntersService_fetch (s : State) : (s.roundEntersService).fetch = s.fetch := rfl
@[simp] theorem State.roundEntersService_flash (s : State) : (s.roundEntersService).flash = s.flash := rfl
@[simp] theorem State.roundEntersService_mixer (s : State) : (s.roundEntersService).mixer = s.mixer := rfl
@[simp] theorem State.roundEntersService_inputs (s : State) : (s.roundEntersService).inputs = s.inputs := rfl
@[simp] theorem State.roundEntersService_nextScan (s : State) : (s.roundEntersService).nextScan = s.nextScan := rfl
@[simp] theorem State.roundEntersService_nextLampPeriod (s : State) : (s.roundEntersService).nextLampPeriod = s.nextLampPeriod := rfl
@[simp] theorem State.roundEntersService_service (s : State) : (s.roundEntersService).service = s.service := rfl
@[simp] theorem State.roundEntersService_errors (s : State) : (s.roundEntersService).errors = s.errors := rfl
@[simp] theorem State.roundEntersService_freeCount (s : State) : (s.roundEntersService).freeCount = s.freeCount := rfl
@[simp] theorem State.roundEntersService_pending (s : State) : (s.roundEntersService).pending = s.pending := rfl
@[simp] theorem State.roundEntersService_round (s : State) : (s.roundEntersService).round = s.round.enterService := rfl
@[simp] theorem State.roundEntersService_penalties (s : State) : (s.roundEntersService).penalties = Vector.replicate 16 none := rfl
@[simp] theorem State.roundEntersService_queue (s : State) : (s.roundEntersService).queue = withdrawBuzzes s.queue := rfl

/-! `State.holdSlot` -/

@[simp] theorem State.holdSlot_clock (s : State) (n : SlotNo) : (s.holdSlot n).clock = s.clock := rfl
@[simp] theorem State.holdSlot_powered (s : State) (n : SlotNo) : (s.holdSlot n).powered = s.powered := rfl
@[simp] theorem State.holdSlot_resetLine (s : State) (n : SlotNo) : (s.holdSlot n).resetLine = s.resetLine := rfl
@[simp] theorem State.holdSlot_loader (s : State) (n : SlotNo) : (s.holdSlot n).loader = s.loader := rfl
@[simp] theorem State.holdSlot_station (s : State) (n : SlotNo) : (s.holdSlot n).station = s.station := rfl
@[simp] theorem State.holdSlot_line (s : State) (n : SlotNo) : (s.holdSlot n).line = s.line := rfl
@[simp] theorem State.holdSlot_queue (s : State) (n : SlotNo) : (s.holdSlot n).queue = s.queue := rfl
@[simp] theorem State.holdSlot_round (s : State) (n : SlotNo) : (s.holdSlot n).round = s.round := rfl
@[simp] theorem State.holdSlot_penalties (s : State) (n : SlotNo) : (s.holdSlot n).penalties = s.penalties := rfl
@[simp] theorem State.holdSlot_clips (s : State) (n : SlotNo) : (s.holdSlot n).clips = s.clips := rfl
@[simp] theorem State.holdSlot_fetch (s : State) (n : SlotNo) : (s.holdSlot n).fetch = s.fetch := rfl
@[simp] theorem State.holdSlot_flash (s : State) (n : SlotNo) : (s.holdSlot n).flash = s.flash := rfl
@[simp] theorem State.holdSlot_mixer (s : State) (n : SlotNo) : (s.holdSlot n).mixer = s.mixer := rfl
@[simp] theorem State.holdSlot_inputs (s : State) (n : SlotNo) : (s.holdSlot n).inputs = s.inputs := rfl
@[simp] theorem State.holdSlot_nextScan (s : State) (n : SlotNo) : (s.holdSlot n).nextScan = s.nextScan := rfl
@[simp] theorem State.holdSlot_lamps (s : State) (n : SlotNo) : (s.holdSlot n).lamps = s.lamps := rfl
@[simp] theorem State.holdSlot_nextLampPeriod (s : State) (n : SlotNo) : (s.holdSlot n).nextLampPeriod = s.nextLampPeriod := rfl
@[simp] theorem State.holdSlot_service (s : State) (n : SlotNo) : (s.holdSlot n).service = s.service := rfl
@[simp] theorem State.holdSlot_errors (s : State) (n : SlotNo) : (s.holdSlot n).errors = s.errors := rfl
@[simp] theorem State.holdSlot_freeCount (s : State) (n : SlotNo) : (s.holdSlot n).freeCount = s.freeCount := rfl
@[simp] theorem State.holdSlot_pending (s : State) (n : SlotNo) : (s.holdSlot n).pending = s.pending := rfl

/-! `State.enableSlot` -/

@[simp] theorem State.enableSlot_clock (s : State) (n : SlotNo) : (s.enableSlot n).clock = s.clock := rfl
@[simp] theorem State.enableSlot_powered (s : State) (n : SlotNo) : (s.enableSlot n).powered = s.powered := rfl
@[simp] theorem State.enableSlot_resetLine (s : State) (n : SlotNo) : (s.enableSlot n).resetLine = s.resetLine := rfl
@[simp] theorem State.enableSlot_loader (s : State) (n : SlotNo) : (s.enableSlot n).loader = s.loader := rfl
@[simp] theorem State.enableSlot_station (s : State) (n : SlotNo) : (s.enableSlot n).station = s.station := rfl
@[simp] theorem State.enableSlot_line (s : State) (n : SlotNo) : (s.enableSlot n).line = s.line := rfl
@[simp] theorem State.enableSlot_queue (s : State) (n : SlotNo) : (s.enableSlot n).queue = s.queue := rfl
@[simp] theorem State.enableSlot_round (s : State) (n : SlotNo) : (s.enableSlot n).round = s.round := rfl
@[simp] theorem State.enableSlot_penalties (s : State) (n : SlotNo) : (s.enableSlot n).penalties = s.penalties := rfl
@[simp] theorem State.enableSlot_clips (s : State) (n : SlotNo) : (s.enableSlot n).clips = s.clips := rfl
@[simp] theorem State.enableSlot_fetch (s : State) (n : SlotNo) : (s.enableSlot n).fetch = s.fetch := rfl
@[simp] theorem State.enableSlot_flash (s : State) (n : SlotNo) : (s.enableSlot n).flash = s.flash := rfl
@[simp] theorem State.enableSlot_mixer (s : State) (n : SlotNo) : (s.enableSlot n).mixer = s.mixer := rfl
@[simp] theorem State.enableSlot_inputs (s : State) (n : SlotNo) : (s.enableSlot n).inputs = s.inputs := rfl
@[simp] theorem State.enableSlot_nextScan (s : State) (n : SlotNo) : (s.enableSlot n).nextScan = s.nextScan := rfl
@[simp] theorem State.enableSlot_lamps (s : State) (n : SlotNo) : (s.enableSlot n).lamps = s.lamps := rfl
@[simp] theorem State.enableSlot_nextLampPeriod (s : State) (n : SlotNo) : (s.enableSlot n).nextLampPeriod = s.nextLampPeriod := rfl
@[simp] theorem State.enableSlot_service (s : State) (n : SlotNo) : (s.enableSlot n).service = s.service := rfl
@[simp] theorem State.enableSlot_errors (s : State) (n : SlotNo) : (s.enableSlot n).errors = s.errors := rfl
@[simp] theorem State.enableSlot_freeCount (s : State) (n : SlotNo) : (s.enableSlot n).freeCount = s.freeCount := rfl
@[simp] theorem State.enableSlot_pending (s : State) (n : SlotNo) : (s.enableSlot n).pending = s.pending := rfl

/-! `State.disableSlot` -/

@[simp] theorem State.disableSlot_clock (s : State) (n : SlotNo) : (s.disableSlot n).clock = s.clock := rfl
@[simp] theorem State.disableSlot_powered (s : State) (n : SlotNo) : (s.disableSlot n).powered = s.powered := rfl
@[simp] theorem State.disableSlot_resetLine (s : State) (n : SlotNo) : (s.disableSlot n).resetLine = s.resetLine := rfl
@[simp] theorem State.disableSlot_loader (s : State) (n : SlotNo) : (s.disableSlot n).loader = s.loader := rfl
@[simp] theorem State.disableSlot_station (s : State) (n : SlotNo) : (s.disableSlot n).station = s.station := rfl
@[simp] theorem State.disableSlot_line (s : State) (n : SlotNo) : (s.disableSlot n).line = s.line := rfl
@[simp] theorem State.disableSlot_queue (s : State) (n : SlotNo) : (s.disableSlot n).queue = s.queue := rfl
@[simp] theorem State.disableSlot_round (s : State) (n : SlotNo) : (s.disableSlot n).round = s.round := rfl
@[simp] theorem State.disableSlot_penalties (s : State) (n : SlotNo) : (s.disableSlot n).penalties = s.penalties := rfl
@[simp] theorem State.disableSlot_clips (s : State) (n : SlotNo) : (s.disableSlot n).clips = s.clips := rfl
@[simp] theorem State.disableSlot_fetch (s : State) (n : SlotNo) : (s.disableSlot n).fetch = s.fetch := rfl
@[simp] theorem State.disableSlot_flash (s : State) (n : SlotNo) : (s.disableSlot n).flash = s.flash := rfl
@[simp] theorem State.disableSlot_mixer (s : State) (n : SlotNo) : (s.disableSlot n).mixer = s.mixer := rfl
@[simp] theorem State.disableSlot_inputs (s : State) (n : SlotNo) : (s.disableSlot n).inputs = s.inputs := rfl
@[simp] theorem State.disableSlot_nextScan (s : State) (n : SlotNo) : (s.disableSlot n).nextScan = s.nextScan := rfl
@[simp] theorem State.disableSlot_lamps (s : State) (n : SlotNo) : (s.disableSlot n).lamps = s.lamps := rfl
@[simp] theorem State.disableSlot_nextLampPeriod (s : State) (n : SlotNo) : (s.disableSlot n).nextLampPeriod = s.nextLampPeriod := rfl
@[simp] theorem State.disableSlot_service (s : State) (n : SlotNo) : (s.disableSlot n).service = s.service := rfl
@[simp] theorem State.disableSlot_errors (s : State) (n : SlotNo) : (s.disableSlot n).errors = s.errors := rfl
@[simp] theorem State.disableSlot_freeCount (s : State) (n : SlotNo) : (s.disableSlot n).freeCount = s.freeCount := rfl
@[simp] theorem State.disableSlot_pending (s : State) (n : SlotNo) : (s.disableSlot n).pending = s.pending := rfl

/-! `State.clearLostSlot` -/

@[simp] theorem State.clearLostSlot_clock (s : State) (n : SlotNo) : (s.clearLostSlot n).clock = s.clock := rfl
@[simp] theorem State.clearLostSlot_powered (s : State) (n : SlotNo) : (s.clearLostSlot n).powered = s.powered := rfl
@[simp] theorem State.clearLostSlot_resetLine (s : State) (n : SlotNo) : (s.clearLostSlot n).resetLine = s.resetLine := rfl
@[simp] theorem State.clearLostSlot_loader (s : State) (n : SlotNo) : (s.clearLostSlot n).loader = s.loader := rfl
@[simp] theorem State.clearLostSlot_station (s : State) (n : SlotNo) : (s.clearLostSlot n).station = s.station := rfl
@[simp] theorem State.clearLostSlot_line (s : State) (n : SlotNo) : (s.clearLostSlot n).line = s.line := rfl
@[simp] theorem State.clearLostSlot_queue (s : State) (n : SlotNo) : (s.clearLostSlot n).queue = s.queue := rfl
@[simp] theorem State.clearLostSlot_round (s : State) (n : SlotNo) : (s.clearLostSlot n).round = s.round := rfl
@[simp] theorem State.clearLostSlot_penalties (s : State) (n : SlotNo) : (s.clearLostSlot n).penalties = s.penalties := rfl
@[simp] theorem State.clearLostSlot_clips (s : State) (n : SlotNo) : (s.clearLostSlot n).clips = s.clips := rfl
@[simp] theorem State.clearLostSlot_fetch (s : State) (n : SlotNo) : (s.clearLostSlot n).fetch = s.fetch := rfl
@[simp] theorem State.clearLostSlot_flash (s : State) (n : SlotNo) : (s.clearLostSlot n).flash = s.flash := rfl
@[simp] theorem State.clearLostSlot_mixer (s : State) (n : SlotNo) : (s.clearLostSlot n).mixer = s.mixer := rfl
@[simp] theorem State.clearLostSlot_inputs (s : State) (n : SlotNo) : (s.clearLostSlot n).inputs = s.inputs := rfl
@[simp] theorem State.clearLostSlot_nextScan (s : State) (n : SlotNo) : (s.clearLostSlot n).nextScan = s.nextScan := rfl
@[simp] theorem State.clearLostSlot_lamps (s : State) (n : SlotNo) : (s.clearLostSlot n).lamps = s.lamps := rfl
@[simp] theorem State.clearLostSlot_nextLampPeriod (s : State) (n : SlotNo) : (s.clearLostSlot n).nextLampPeriod = s.nextLampPeriod := rfl
@[simp] theorem State.clearLostSlot_service (s : State) (n : SlotNo) : (s.clearLostSlot n).service = s.service := rfl
@[simp] theorem State.clearLostSlot_errors (s : State) (n : SlotNo) : (s.clearLostSlot n).errors = s.errors := rfl
@[simp] theorem State.clearLostSlot_freeCount (s : State) (n : SlotNo) : (s.clearLostSlot n).freeCount = s.freeCount := rfl
@[simp] theorem State.clearLostSlot_pending (s : State) (n : SlotNo) : (s.clearLostSlot n).pending = s.pending := rfl

/-! `State.swapSlot` -/

@[simp] theorem State.swapSlot_clock (s : State) (n : SlotNo) (k : Nat) (c : Byte) : (s.swapSlot n k c).clock = s.clock := rfl
@[simp] theorem State.swapSlot_powered (s : State) (n : SlotNo) (k : Nat) (c : Byte) : (s.swapSlot n k c).powered = s.powered := rfl
@[simp] theorem State.swapSlot_resetLine (s : State) (n : SlotNo) (k : Nat) (c : Byte) : (s.swapSlot n k c).resetLine = s.resetLine := rfl
@[simp] theorem State.swapSlot_loader (s : State) (n : SlotNo) (k : Nat) (c : Byte) : (s.swapSlot n k c).loader = s.loader := rfl
@[simp] theorem State.swapSlot_station (s : State) (n : SlotNo) (k : Nat) (c : Byte) : (s.swapSlot n k c).station = s.station := rfl
@[simp] theorem State.swapSlot_line (s : State) (n : SlotNo) (k : Nat) (c : Byte) : (s.swapSlot n k c).line = s.line := rfl
@[simp] theorem State.swapSlot_queue (s : State) (n : SlotNo) (k : Nat) (c : Byte) : (s.swapSlot n k c).queue = s.queue := rfl
@[simp] theorem State.swapSlot_round (s : State) (n : SlotNo) (k : Nat) (c : Byte) : (s.swapSlot n k c).round = s.round := rfl
@[simp] theorem State.swapSlot_penalties (s : State) (n : SlotNo) (k : Nat) (c : Byte) : (s.swapSlot n k c).penalties = s.penalties := rfl
@[simp] theorem State.swapSlot_clips (s : State) (n : SlotNo) (k : Nat) (c : Byte) : (s.swapSlot n k c).clips = s.clips := rfl
@[simp] theorem State.swapSlot_fetch (s : State) (n : SlotNo) (k : Nat) (c : Byte) : (s.swapSlot n k c).fetch = s.fetch := rfl
@[simp] theorem State.swapSlot_flash (s : State) (n : SlotNo) (k : Nat) (c : Byte) : (s.swapSlot n k c).flash = s.flash := rfl
@[simp] theorem State.swapSlot_mixer (s : State) (n : SlotNo) (k : Nat) (c : Byte) : (s.swapSlot n k c).mixer = s.mixer := rfl
@[simp] theorem State.swapSlot_inputs (s : State) (n : SlotNo) (k : Nat) (c : Byte) : (s.swapSlot n k c).inputs = s.inputs := rfl
@[simp] theorem State.swapSlot_nextScan (s : State) (n : SlotNo) (k : Nat) (c : Byte) : (s.swapSlot n k c).nextScan = s.nextScan := rfl
@[simp] theorem State.swapSlot_lamps (s : State) (n : SlotNo) (k : Nat) (c : Byte) : (s.swapSlot n k c).lamps = s.lamps := rfl
@[simp] theorem State.swapSlot_nextLampPeriod (s : State) (n : SlotNo) (k : Nat) (c : Byte) : (s.swapSlot n k c).nextLampPeriod = s.nextLampPeriod := rfl
@[simp] theorem State.swapSlot_service (s : State) (n : SlotNo) (k : Nat) (c : Byte) : (s.swapSlot n k c).service = s.service := rfl
@[simp] theorem State.swapSlot_errors (s : State) (n : SlotNo) (k : Nat) (c : Byte) : (s.swapSlot n k c).errors = s.errors := rfl
@[simp] theorem State.swapSlot_freeCount (s : State) (n : SlotNo) (k : Nat) (c : Byte) : (s.swapSlot n k c).freeCount = s.freeCount := rfl
@[simp] theorem State.swapSlot_pending (s : State) (n : SlotNo) (k : Nat) (c : Byte) : (s.swapSlot n k c).pending = s.pending := rfl

/-! `State.mixPeriod` -/

@[simp] theorem State.mixPeriod_clock (s : State) : (s.mixPeriod).clock = s.clock := rfl
@[simp] theorem State.mixPeriod_powered (s : State) : (s.mixPeriod).powered = s.powered := rfl
@[simp] theorem State.mixPeriod_resetLine (s : State) : (s.mixPeriod).resetLine = s.resetLine := rfl
@[simp] theorem State.mixPeriod_loader (s : State) : (s.mixPeriod).loader = s.loader := rfl
@[simp] theorem State.mixPeriod_station (s : State) : (s.mixPeriod).station = s.station := rfl
@[simp] theorem State.mixPeriod_line (s : State) : (s.mixPeriod).line = s.line := rfl
@[simp] theorem State.mixPeriod_queue (s : State) : (s.mixPeriod).queue = s.queue := rfl
@[simp] theorem State.mixPeriod_round (s : State) : (s.mixPeriod).round = s.round := rfl
@[simp] theorem State.mixPeriod_penalties (s : State) : (s.mixPeriod).penalties = s.penalties := rfl
@[simp] theorem State.mixPeriod_clips (s : State) : (s.mixPeriod).clips = s.clips := rfl
@[simp] theorem State.mixPeriod_fetch (s : State) : (s.mixPeriod).fetch = s.fetch := rfl
@[simp] theorem State.mixPeriod_flash (s : State) : (s.mixPeriod).flash = s.flash := rfl
@[simp] theorem State.mixPeriod_inputs (s : State) : (s.mixPeriod).inputs = s.inputs := rfl
@[simp] theorem State.mixPeriod_nextScan (s : State) : (s.mixPeriod).nextScan = s.nextScan := rfl
@[simp] theorem State.mixPeriod_lamps (s : State) : (s.mixPeriod).lamps = s.lamps := rfl
@[simp] theorem State.mixPeriod_nextLampPeriod (s : State) : (s.mixPeriod).nextLampPeriod = s.nextLampPeriod := rfl
@[simp] theorem State.mixPeriod_service (s : State) : (s.mixPeriod).service = s.service := rfl
@[simp] theorem State.mixPeriod_freeCount (s : State) : (s.mixPeriod).freeCount = s.freeCount := rfl
@[simp] theorem State.mixPeriod_pending (s : State) : (s.mixPeriod).pending = s.pending := rfl

/-! `State.tick` -/

@[simp] theorem State.tick_clock (s : State) : (s.tick).clock = s.clock := rfl
@[simp] theorem State.tick_powered (s : State) : (s.tick).powered = s.powered := rfl
@[simp] theorem State.tick_resetLine (s : State) : (s.tick).resetLine = s.resetLine := rfl
@[simp] theorem State.tick_loader (s : State) : (s.tick).loader = s.loader := rfl
@[simp] theorem State.tick_station (s : State) : (s.tick).station = s.station := rfl
@[simp] theorem State.tick_line (s : State) : (s.tick).line = s.line := rfl
@[simp] theorem State.tick_queue (s : State) : (s.tick).queue = s.queue := rfl
@[simp] theorem State.tick_round (s : State) : (s.tick).round = s.round := rfl
@[simp] theorem State.tick_penalties (s : State) : (s.tick).penalties = s.penalties := rfl
@[simp] theorem State.tick_clips (s : State) : (s.tick).clips = s.clips := rfl
@[simp] theorem State.tick_fetch (s : State) : (s.tick).fetch = s.fetch := rfl
@[simp] theorem State.tick_flash (s : State) : (s.tick).flash = s.flash := rfl
@[simp] theorem State.tick_inputs (s : State) : (s.tick).inputs = s.inputs := rfl
@[simp] theorem State.tick_nextScan (s : State) : (s.tick).nextScan = s.nextScan := rfl
@[simp] theorem State.tick_lamps (s : State) : (s.tick).lamps = s.lamps := rfl
@[simp] theorem State.tick_nextLampPeriod (s : State) : (s.tick).nextLampPeriod = s.nextLampPeriod := rfl
@[simp] theorem State.tick_service (s : State) : (s.tick).service = s.service := rfl
@[simp] theorem State.tick_errors (s : State) : (s.tick).errors = s.errors := rfl
@[simp] theorem State.tick_freeCount (s : State) : (s.tick).freeCount = s.freeCount := rfl
@[simp] theorem State.tick_pending (s : State) : (s.tick).pending = s.pending := rfl

/-! `State.issueRead` -/

@[simp] theorem State.issueRead_clock (s : State) (v : VoiceNo) (c : Clip) : (s.issueRead v c).clock = s.clock := rfl
@[simp] theorem State.issueRead_powered (s : State) (v : VoiceNo) (c : Clip) : (s.issueRead v c).powered = s.powered := rfl
@[simp] theorem State.issueRead_resetLine (s : State) (v : VoiceNo) (c : Clip) : (s.issueRead v c).resetLine = s.resetLine := rfl
@[simp] theorem State.issueRead_loader (s : State) (v : VoiceNo) (c : Clip) : (s.issueRead v c).loader = s.loader := rfl
@[simp] theorem State.issueRead_station (s : State) (v : VoiceNo) (c : Clip) : (s.issueRead v c).station = s.station := rfl
@[simp] theorem State.issueRead_line (s : State) (v : VoiceNo) (c : Clip) : (s.issueRead v c).line = s.line := rfl
@[simp] theorem State.issueRead_queue (s : State) (v : VoiceNo) (c : Clip) : (s.issueRead v c).queue = s.queue := rfl
@[simp] theorem State.issueRead_round (s : State) (v : VoiceNo) (c : Clip) : (s.issueRead v c).round = s.round := rfl
@[simp] theorem State.issueRead_penalties (s : State) (v : VoiceNo) (c : Clip) : (s.issueRead v c).penalties = s.penalties := rfl
@[simp] theorem State.issueRead_clips (s : State) (v : VoiceNo) (c : Clip) : (s.issueRead v c).clips = s.clips := rfl
@[simp] theorem State.issueRead_flash (s : State) (v : VoiceNo) (c : Clip) : (s.issueRead v c).flash = s.flash := rfl
@[simp] theorem State.issueRead_mixer (s : State) (v : VoiceNo) (c : Clip) : (s.issueRead v c).mixer = s.mixer := rfl
@[simp] theorem State.issueRead_inputs (s : State) (v : VoiceNo) (c : Clip) : (s.issueRead v c).inputs = s.inputs := rfl
@[simp] theorem State.issueRead_nextScan (s : State) (v : VoiceNo) (c : Clip) : (s.issueRead v c).nextScan = s.nextScan := rfl
@[simp] theorem State.issueRead_lamps (s : State) (v : VoiceNo) (c : Clip) : (s.issueRead v c).lamps = s.lamps := rfl
@[simp] theorem State.issueRead_nextLampPeriod (s : State) (v : VoiceNo) (c : Clip) : (s.issueRead v c).nextLampPeriod = s.nextLampPeriod := rfl
@[simp] theorem State.issueRead_service (s : State) (v : VoiceNo) (c : Clip) : (s.issueRead v c).service = s.service := rfl
@[simp] theorem State.issueRead_errors (s : State) (v : VoiceNo) (c : Clip) : (s.issueRead v c).errors = s.errors := rfl
@[simp] theorem State.issueRead_freeCount (s : State) (v : VoiceNo) (c : Clip) : (s.issueRead v c).freeCount = s.freeCount := rfl
@[simp] theorem State.issueRead_pending (s : State) (v : VoiceNo) (c : Clip) : (s.issueRead v c).pending = s.pending := rfl
@[simp] theorem State.issueRead_fetch (s : State) (v : VoiceNo) (c : Clip) : (s.issueRead v c).fetch = some (s.readFor v c) := rfl

/-! `State.beginLampPeriod` -/

@[simp] theorem State.beginLampPeriod_clock (s : State) (n : Nat) : (s.beginLampPeriod n).clock = s.clock := rfl
@[simp] theorem State.beginLampPeriod_powered (s : State) (n : Nat) : (s.beginLampPeriod n).powered = s.powered := rfl
@[simp] theorem State.beginLampPeriod_resetLine (s : State) (n : Nat) : (s.beginLampPeriod n).resetLine = s.resetLine := rfl
@[simp] theorem State.beginLampPeriod_loader (s : State) (n : Nat) : (s.beginLampPeriod n).loader = s.loader := rfl
@[simp] theorem State.beginLampPeriod_station (s : State) (n : Nat) : (s.beginLampPeriod n).station = s.station := rfl
@[simp] theorem State.beginLampPeriod_line (s : State) (n : Nat) : (s.beginLampPeriod n).line = s.line := rfl
@[simp] theorem State.beginLampPeriod_queue (s : State) (n : Nat) : (s.beginLampPeriod n).queue = s.queue := rfl
@[simp] theorem State.beginLampPeriod_round (s : State) (n : Nat) : (s.beginLampPeriod n).round = s.round := rfl
@[simp] theorem State.beginLampPeriod_penalties (s : State) (n : Nat) : (s.beginLampPeriod n).penalties = s.penalties := rfl
@[simp] theorem State.beginLampPeriod_pool (s : State) (n : Nat) : (s.beginLampPeriod n).pool = s.pool := rfl
@[simp] theorem State.beginLampPeriod_clips (s : State) (n : Nat) : (s.beginLampPeriod n).clips = s.clips := rfl
@[simp] theorem State.beginLampPeriod_fetch (s : State) (n : Nat) : (s.beginLampPeriod n).fetch = s.fetch := rfl
@[simp] theorem State.beginLampPeriod_flash (s : State) (n : Nat) : (s.beginLampPeriod n).flash = s.flash := rfl
@[simp] theorem State.beginLampPeriod_mixer (s : State) (n : Nat) : (s.beginLampPeriod n).mixer = s.mixer := rfl
@[simp] theorem State.beginLampPeriod_inputs (s : State) (n : Nat) : (s.beginLampPeriod n).inputs = s.inputs := rfl
@[simp] theorem State.beginLampPeriod_nextScan (s : State) (n : Nat) : (s.beginLampPeriod n).nextScan = s.nextScan := rfl
@[simp] theorem State.beginLampPeriod_service (s : State) (n : Nat) : (s.beginLampPeriod n).service = s.service := rfl
@[simp] theorem State.beginLampPeriod_errors (s : State) (n : Nat) : (s.beginLampPeriod n).errors = s.errors := rfl
@[simp] theorem State.beginLampPeriod_freeCount (s : State) (n : Nat) : (s.beginLampPeriod n).freeCount = s.freeCount := rfl
@[simp] theorem State.beginLampPeriod_pending (s : State) (n : Nat) : (s.beginLampPeriod n).pending = s.pending := rfl
@[simp] theorem State.beginLampPeriod_nextLampPeriod (s : State) (n : Nat) : (s.beginLampPeriod n).nextLampPeriod = n + 1 := rfl

/-! `State.holdInReset` -/

@[simp] theorem State.holdInReset_clock (s : State) : (s.holdInReset).clock = s.clock := rfl
@[simp] theorem State.holdInReset_powered (s : State) : (s.holdInReset).powered = s.powered := rfl
@[simp] theorem State.holdInReset_loader (s : State) : (s.holdInReset).loader = s.loader := rfl
@[simp] theorem State.holdInReset_station (s : State) : (s.holdInReset).station = s.station := rfl
@[simp] theorem State.holdInReset_queue (s : State) : (s.holdInReset).queue = s.queue := rfl
@[simp] theorem State.holdInReset_round (s : State) : (s.holdInReset).round = s.round := rfl
@[simp] theorem State.holdInReset_penalties (s : State) : (s.holdInReset).penalties = s.penalties := rfl
@[simp] theorem State.holdInReset_pool (s : State) : (s.holdInReset).pool = s.pool := rfl
@[simp] theorem State.holdInReset_clips (s : State) : (s.holdInReset).clips = s.clips := rfl
@[simp] theorem State.holdInReset_mixer (s : State) : (s.holdInReset).mixer = s.mixer := rfl
@[simp] theorem State.holdInReset_inputs (s : State) : (s.holdInReset).inputs = s.inputs := rfl
@[simp] theorem State.holdInReset_nextScan (s : State) : (s.holdInReset).nextScan = s.nextScan := rfl
@[simp] theorem State.holdInReset_lamps (s : State) : (s.holdInReset).lamps = s.lamps := rfl
@[simp] theorem State.holdInReset_nextLampPeriod (s : State) : (s.holdInReset).nextLampPeriod = s.nextLampPeriod := rfl
@[simp] theorem State.holdInReset_errors (s : State) : (s.holdInReset).errors = s.errors := rfl
@[simp] theorem State.holdInReset_freeCount (s : State) : (s.holdInReset).freeCount = s.freeCount := rfl
@[simp] theorem State.holdInReset_pending (s : State) : (s.holdInReset).pending = s.pending := rfl
@[simp] theorem State.holdInReset_fetch (s : State) : (s.holdInReset).fetch = none := rfl
@[simp] theorem State.holdInReset_service (s : State) : (s.holdInReset).service = ServicePort.reset := rfl

/-! `State.completeLoad` -/

@[simp] theorem State.completeLoad_clock (s : State) (r : StartRecord) : (s.completeLoad r).clock = s.clock := rfl
@[simp] theorem State.completeLoad_powered (s : State) (r : StartRecord) : (s.completeLoad r).powered = s.powered := rfl
@[simp] theorem State.completeLoad_resetLine (s : State) (r : StartRecord) : (s.completeLoad r).resetLine = s.resetLine := rfl
@[simp] theorem State.completeLoad_queue (s : State) (r : StartRecord) : (s.completeLoad r).queue = s.queue := rfl
@[simp] theorem State.completeLoad_round (s : State) (r : StartRecord) : (s.completeLoad r).round = s.round := rfl
@[simp] theorem State.completeLoad_penalties (s : State) (r : StartRecord) : (s.completeLoad r).penalties = s.penalties := rfl
@[simp] theorem State.completeLoad_fetch (s : State) (r : StartRecord) : (s.completeLoad r).fetch = s.fetch := rfl
@[simp] theorem State.completeLoad_flash (s : State) (r : StartRecord) : (s.completeLoad r).flash = s.flash := rfl
@[simp] theorem State.completeLoad_nextScan (s : State) (r : StartRecord) : (s.completeLoad r).nextScan = s.nextScan := rfl
@[simp] theorem State.completeLoad_nextLampPeriod (s : State) (r : StartRecord) : (s.completeLoad r).nextLampPeriod = s.nextLampPeriod := rfl
@[simp] theorem State.completeLoad_service (s : State) (r : StartRecord) : (s.completeLoad r).service = s.service := rfl
@[simp] theorem State.completeLoad_errors (s : State) (r : StartRecord) : (s.completeLoad r).errors = s.errors := rfl
@[simp] theorem State.completeLoad_freeCount (s : State) (r : StartRecord) : (s.completeLoad r).freeCount = s.freeCount := rfl
@[simp] theorem State.completeLoad_pending (s : State) (r : StartRecord) : (s.completeLoad r).pending = s.pending := rfl

/-! `Pool.setVoice` -/

@[simp] theorem Pool.setVoice_slots (p : Pool) (v : VoiceNo) (f : Voice → Voice) : (p.setVoice v f).slots = p.slots := rfl
@[simp] theorem Pool.setVoice_grant (p : Pool) (v : VoiceNo) (f : Voice → Voice) : (p.setVoice v f).grant = p.grant := rfl
@[simp] theorem Pool.setVoice_order (p : Pool) (v : VoiceNo) (f : Voice → Voice) : (p.setVoice v f).order = p.order := rfl
@[simp] theorem Pool.setVoice_voices (p : Pool) (v : VoiceNo) (f : Voice → Voice) : (p.setVoice v f).voices = update p.voices v f := rfl

/-! `Pool.setSlot` -/

@[simp] theorem Pool.setSlot_voices (p : Pool) (n : SlotNo) (f : Slot → Slot) : (p.setSlot n f).voices = p.voices := rfl
@[simp] theorem Pool.setSlot_grant (p : Pool) (n : SlotNo) (f : Slot → Slot) : (p.setSlot n f).grant = p.grant := rfl
@[simp] theorem Pool.setSlot_order (p : Pool) (n : SlotNo) (f : Slot → Slot) : (p.setSlot n f).order = p.order := rfl
@[simp] theorem Pool.setSlot_slots (p : Pool) (n : SlotNo) (f : Slot → Slot) : (p.setSlot n f).slots = update p.slots n f := rfl

/-! `Pool.toEnd` -/

@[simp] theorem Pool.toEnd_slots (p : Pool) (v : VoiceNo) : (p.toEnd v).slots = p.slots := rfl
@[simp] theorem Pool.toEnd_voices (p : Pool) (v : VoiceNo) : (p.toEnd v).voices = p.voices := rfl
@[simp] theorem Pool.toEnd_grant (p : Pool) (v : VoiceNo) : (p.toEnd v).grant = p.grant := rfl

/-! `Pool.grantFirst` -/

@[simp] theorem Pool.grantFirst_slots (p : Pool) (v : VoiceNo) : (p.grantFirst v).slots = p.slots := by unfold Pool.grantFirst; split <;> rfl
@[simp] theorem Pool.grantFirst_voices (p : Pool) (v : VoiceNo) : (p.grantFirst v).voices = p.voices := by unfold Pool.grantFirst; split <;> rfl
@[simp] theorem Pool.grantFirst_order (p : Pool) (v : VoiceNo) : (p.grantFirst v).order = p.order := by unfold Pool.grantFirst; split <;> rfl

/-! `Pool.discard` -/

@[simp] theorem Pool.discard_slots (p : Pool) (f : VoiceRequest → Bool) : (p.discard f).slots = p.slots := rfl
@[simp] theorem Pool.discard_grant (p : Pool) (f : VoiceRequest → Bool) : (p.discard f).grant = p.grant := rfl
@[simp] theorem Pool.discard_order (p : Pool) (f : VoiceRequest → Bool) : (p.discard f).order = p.order := rfl

/-! `Pool.dropPending` -/

@[simp] theorem Pool.dropPending_voices (p : Pool) : (p.dropPending).voices = p.voices := by simp only [Pool.dropPending]
@[simp] theorem Pool.dropPending_grant (p : Pool) : (p.dropPending).grant = p.grant := by simp only [Pool.dropPending]
@[simp] theorem Pool.dropPending_order (p : Pool) : (p.dropPending).order = p.order := by simp only [Pool.dropPending]

/-! `LinePort.follow` -/

@[simp] theorem LinePort.follow_bitRate (l : LinePort) (t : StationTime) : (l.follow t).bitRate = l.bitRate := rfl
@[simp] theorem LinePort.follow_warningLevel (l : LinePort) (t : StationTime) : (l.follow t).warningLevel = l.warningLevel := rfl
@[simp] theorem LinePort.follow_holdoff (l : LinePort) (t : StationTime) : (l.follow t).holdoff = l.holdoff := rfl
@[simp] theorem LinePort.follow_tec (l : LinePort) (t : StationTime) : (l.follow t).tec = l.tec := rfl
@[simp] theorem LinePort.follow_recCount (l : LinePort) (t : StationTime) : (l.follow t).recCount = l.recCount := rfl
@[simp] theorem LinePort.follow_lineState (l : LinePort) (t : StationTime) : (l.follow t).lineState = l.lineState := rfl
@[simp] theorem LinePort.follow_attempt (l : LinePort) (t : StationTime) : (l.follow t).attempt = l.attempt := rfl
@[simp] theorem LinePort.follow_drive (l : LinePort) (t : StationTime) : (l.follow t).drive = l.drive := rfl
@[simp] theorem LinePort.follow_holdoffOwed (l : LinePort) (t : StationTime) : (l.follow t).holdoffOwed = l.holdoffOwed := rfl
@[simp] theorem LinePort.follow_listening (l : LinePort) (t : StationTime) : (l.follow t).listening = l.listening := rfl
@[simp] theorem LinePort.follow_joined (l : LinePort) (t : StationTime) : (l.follow t).joined = l.joined := rfl
@[simp] theorem LinePort.follow_framesReceived (l : LinePort) (t : StationTime) : (l.follow t).framesReceived = l.framesReceived := rfl
@[simp] theorem LinePort.follow_framesSent (l : LinePort) (t : StationTime) : (l.follow t).framesSent = l.framesSent := rfl
@[simp] theorem LinePort.follow_recessiveRun (l : LinePort) (t : StationTime) : (l.follow t).recessiveRun = 0 := rfl

/-! `LinePort.configure` -/

@[simp] theorem LinePort.configure_tec (l : LinePort) (r : StartRecord) : (l.configure r).tec = l.tec := rfl
@[simp] theorem LinePort.configure_recCount (l : LinePort) (r : StartRecord) : (l.configure r).recCount = l.recCount := rfl
@[simp] theorem LinePort.configure_lineState (l : LinePort) (r : StartRecord) : (l.configure r).lineState = l.lineState := rfl
@[simp] theorem LinePort.configure_followed (l : LinePort) (r : StartRecord) : (l.configure r).followed = l.followed := rfl
@[simp] theorem LinePort.configure_attempt (l : LinePort) (r : StartRecord) : (l.configure r).attempt = l.attempt := rfl
@[simp] theorem LinePort.configure_drive (l : LinePort) (r : StartRecord) : (l.configure r).drive = l.drive := rfl
@[simp] theorem LinePort.configure_holdoffOwed (l : LinePort) (r : StartRecord) : (l.configure r).holdoffOwed = l.holdoffOwed := rfl
@[simp] theorem LinePort.configure_listening (l : LinePort) (r : StartRecord) : (l.configure r).listening = l.listening := rfl
@[simp] theorem LinePort.configure_joined (l : LinePort) (r : StartRecord) : (l.configure r).joined = l.joined := rfl
@[simp] theorem LinePort.configure_framesReceived (l : LinePort) (r : StartRecord) : (l.configure r).framesReceived = l.framesReceived := rfl
@[simp] theorem LinePort.configure_framesSent (l : LinePort) (r : StartRecord) : (l.configure r).framesSent = l.framesSent := rfl
@[simp] theorem LinePort.configure_bitRate (l : LinePort) (r : StartRecord) : (l.configure r).bitRate = some r.bitRate := rfl
@[simp] theorem LinePort.configure_warningLevel (l : LinePort) (r : StartRecord) : (l.configure r).warningLevel = r.warningLevel := rfl
@[simp] theorem LinePort.configure_holdoff (l : LinePort) (r : StartRecord) : (l.configure r).holdoff = r.holdoff := rfl
@[simp] theorem LinePort.configure_recessiveRun (l : LinePort) (r : StartRecord) : (l.configure r).recessiveRun = 0 := rfl

end Sys2Proof.Machine
end

