-- ==== Sys2Proof/Laws/Tables.lean ====
section
/-!
SUPPORT. What one entry of a table holds after a change, membership in a set held as bits, and the counts of the error
record.
-/

namespace Sys2Proof.Machine

theorem update_get {α : Type} {n : Nat} (v : Vector α n) (i j : Fin n) (f : α → α) :
    (update v i f)[j] = if i = j then f v[i] else v[j] := by
  simp only [update, Fin.getElem_fin, Vector.getElem_set, Fin.ext_iff]

theorem update_get_self {α : Type} {n : Nat} (v : Vector α n) (i : Fin n) (f : α → α) :
    (update v i f)[i] = f v[i] := by
  rw [update_get, if_pos rfl]

theorem update_get_other {α : Type} {n : Nat} (v : Vector α n) {i j : Fin n} (h : i ≠ j) (f : α → α) :
    (update v i f)[j] = v[j] := by
  rw [update_get, if_neg h]

@[simp] theorem update_getElem {α : Type} {n : Nat} (v : Vector α n) (i : Fin n) (f : α → α) (k : Nat) (hk : k < n) :
    (update v i f)[k] = if (i : Nat) = k then f v[i] else v[k] := by
  simp only [update, Vector.getElem_set]

theorem set_get {α : Type} {n : Nat} (v : Vector α n) (i j : Fin n) (x : α) :
    (v.set i x)[j] = if i = j then x else v[j] := by
  simp only [Fin.getElem_fin, Vector.getElem_set, Fin.ext_iff]

theorem mapEach_get {α β : Type} {n : Nat} (v : Vector α n) (f : Fin n → α → β) (j : Fin n) :
    (mapEach v f)[j] = f j v[j] := by
  simp [mapEach]

@[simp] theorem mapEach_getElem {α β : Type} {n : Nat} (v : Vector α n) (f : Fin n → α → β) (k : Nat) (hk : k < n) :
    (mapEach v f)[k] = f ⟨k, hk⟩ v[k] := by
  simp [mapEach]

theorem replicate_get {α : Type} {n : Nat} (x : α) (j : Fin n) : (Vector.replicate n x)[j] = x := by
  simp

/-- An update whose function keeps the entry it meets changes nothing. -/
theorem update_keep {α : Type} {n : Nat} (v : Vector α n) (i : Fin n) (f : α → α) (h : f v[i] = v[i]) :
    update v i f = v := by
  apply Vector.ext
  intro j hj
  have := update_get v i ⟨j, hj⟩ f
  simp only [Fin.getElem_fin] at this
  rw [this]
  split
  · next e => subst e; simpa using h
  · rfl

/-! ## Sets held as bits -/

theorem single_get {w : Nat} (v u : Fin w) : (single w v).getLsbD u = decide (v = u) := by
  simp only [single, BitVec.getLsbD_twoPow, Fin.ext_iff]
  have := u.isLt
  by_cases h : (v : Nat) = u <;> simp [h]

theorem inSet_and_not_single {w : Nat} (set : BitVec w) (v u : Fin w) :
    inSet (set &&& ~~~single w v) u = (inSet set u && decide (v ≠ u)) := by
  simp only [inSet, BitVec.getLsbD_and, BitVec.getLsbD_not, single_get, u.isLt, decide_true, Bool.true_and, ne_eq,
    decide_not]

theorem inSet_or_single {w : Nat} (set : BitVec w) (v u : Fin w) :
    inSet (set ||| single w v) u = (inSet set u || decide (v = u)) := by
  simp only [inSet, BitVec.getLsbD_or, single_get]

@[simp] theorem inSet_zero {w n : Nat} (u : Fin n) : inSet (0 : BitVec w) u = false := by
  simp [inSet]

/-! ## The error record -/

theorem ErrorCount.index_inj : ∀ {c d : ErrorCount}, c.index = d.index → c = d := by
  intro c d h
  cases c <;> cases d <;> first | rfl | (exact absurd h (by decide))

theorem ErrorRecord.get_bump (e : ErrorRecord) (c d : ErrorCount) :
    (e.bump c).get d = if c = d then min 65535 (e.get c + 1) else e.get d := by
  simp only [ErrorRecord.bump, ErrorRecord.get, update_get]
  by_cases h : c = d
  · subst h; simp
  · rw [if_neg h, if_neg fun e => h (ErrorCount.index_inj e)]

@[simp] theorem ErrorRecord.bumpIf_false (e : ErrorRecord) (c : ErrorCount) : e.bumpIf false c = e := rfl

@[simp] theorem ErrorRecord.bumpIf_true (e : ErrorRecord) (c : ErrorCount) : e.bumpIf true c = e.bump c := rfl

/-- The counts of a record lie in 0..65535. -/
def ErrorRecord.inRange (e : ErrorRecord) : Prop :=
  ∀ c, e.get c ≤ 65535

theorem ErrorRecord.inRange.bump {e : ErrorRecord} (h : e.inRange) (c : ErrorCount) : (e.bump c).inRange := by
  intro d
  rw [ErrorRecord.get_bump]
  split
  · omega
  · exact h d

theorem ErrorRecord.inRange.bumpIf {e : ErrorRecord} (h : e.inRange) (b : Bool) (c : ErrorCount) :
    (e.bumpIf b c).inRange := by
  cases b
  · exact h
  · exact h.bump c

theorem ErrorRecord.inRange.bumpTimes {e : ErrorRecord} (h : e.inRange) (c : ErrorCount) (n : Nat) :
    (e.bumpTimes c n).inRange := by
  induction n with
  | zero => exact h
  | succ n ih => exact ErrorRecord.inRange.bump ih c

theorem ErrorRecord.get_mapGroup (e : ErrorRecord) (g : Nat) (f : Nat → Nat → Nat) (c : ErrorCount) :
    (e.mapGroup g f).get c = if c.index.val / 3 = g then f (c.index.val % 3) (e.get c) else e.get c := by
  simp only [ErrorRecord.mapGroup, ErrorRecord.get, mapEach_get]

theorem ErrorRecord.inRange.mapGroup {e : ErrorRecord} (h : e.inRange) (g : Nat) {f : Nat → Nat → Nat}
    (hf : ∀ i n, f i n ≤ n) : (e.mapGroup g f).inRange := by
  intro c
  rw [ErrorRecord.get_mapGroup]
  split
  · exact (hf _ _).trans (h c)
  · exact h c

theorem ErrorRecord.reset_inRange : ErrorRecord.reset.inRange := by
  intro c; cases c <;> decide

end Sys2Proof.Machine
end

