-- ==== Sys2Proof/Laws/Pool.lean ====
section
/-!
SUPPORT. What can become of the slots and voices: every operation of the Voice Pool and the Cue Table is a series of four
kinds of change (`PoolStep`), and what those keep, every operation keeps.
-/

namespace Sys2Proof.Machine

/-! ## The four kinds of change -/

/-- A voice record changes but keeps its owner, its clip, its place in the clip and its generation, is FREE after if and
only if it was before, and gains no frame. -/
structure VoiceTouch (x y : Voice) : Prop where
  owner : y.owner = x.owner
  free : y.state = .free ↔ x.state = .free
  fifo : y.fifo.length ≤ x.fifo.length
  cursor : y.cursor = x.cursor
  clip : y.clip = x.clip
  generation : y.generation = x.generation

/-- A slot changes but keeps its voice set, gains a pending trigger only while held, and keeps its counts in range. -/
structure SlotTouch (x y : Slot) : Prop where
  voices : y.voices = x.voices
  pending : (x.pending.isSome → x.held = true) → y.pending.isSome → y.held = true
  lost : x.lost ≤ 255 → y.lost ≤ 255
  fires : x.fires ≤ 65535 → y.fires ≤ 65535

theorem VoiceTouch.refl (x : Voice) : VoiceTouch x x :=
  ⟨rfl, Iff.rfl, le_refl _, rfl, rfl, rfl⟩

theorem SlotTouch.refl (x : Slot) : SlotTouch x x :=
  ⟨rfl, id, id, id⟩

/-- One change of the pool. -/
inductive PoolStep : Pool → Pool → Prop where
  | free (p : Pool) (v : VoiceNo) : PoolStep p (p.free v)
  | allocate (p : Pool) (clips : ClipTable) (v : VoiceNo) (r : VoiceRequest) : PoolStep p (p.allocate clips v r)
  | voices (p : Pool) (vs : Vector Voice 12) (h : ∀ v : VoiceNo, VoiceTouch p.voices[v] vs[v]) :
    PoolStep p { p with voices := vs }
  | slots (p : Pool) (ss : Vector Slot 48) (h : ∀ n : SlotNo, SlotTouch p.slots[n] ss[n]) :
    PoolStep p { p with slots := ss }

/-- A series of changes of the pool. -/
abbrev PoolReach : Pool → Pool → Prop :=
  Relation.ReflTransGen PoolStep

theorem PoolReach.rfl' {p : Pool} : PoolReach p p :=
  Relation.ReflTransGen.refl

theorem PoolReach.step {p q : Pool} (h : PoolStep p q) : PoolReach p q :=
  Relation.ReflTransGen.single h

theorem PoolReach.setVoice (p : Pool) (v : VoiceNo) (f : Voice → Voice) (h : VoiceTouch p.voices[v] (f p.voices[v])) :
    PoolReach p (p.setVoice v f) := by
  refine .step (.voices p _ fun u => ?_)
  rw [update_get]
  split
  · next e => subst e; exact h
  · exact .refl _

theorem PoolReach.setSlot (p : Pool) (n : SlotNo) (f : Slot → Slot) (h : SlotTouch p.slots[n] (f p.slots[n])) :
    PoolReach p (p.setSlot n f) := by
  refine .step (.slots p _ fun u => ?_)
  rw [update_get]
  split
  · next e => subst e; exact h
  · exact .refl _

theorem PoolReach.mapVoices (p : Pool) (f : VoiceNo → Voice → Voice) (h : ∀ v x, VoiceTouch x (f v x)) :
    PoolReach p { p with voices := mapEach p.voices f } := by
  refine .step (.voices p _ fun u => ?_)
  rw [mapEach_get]
  exact h _ _

theorem PoolReach.mapSlots (p : Pool) (f : SlotNo → Slot → Slot) (h : ∀ n x, SlotTouch x (f n x)) :
    PoolReach p { p with slots := mapEach p.slots f } := by
  refine .step (.slots p _ fun u => ?_)
  rw [mapEach_get]
  exact h _ _

theorem PoolReach.foldl {α : Type} (f : Pool → α → Pool) (h : ∀ p a, PoolReach p (f p a)) (p : Pool) (l : List α) :
    PoolReach p (l.foldl f p) := by
  induction l generalizing p with
  | nil => exact .rfl'
  | cons a l ih => exact (h p a).trans (ih _)

theorem PoolReach.eachVoice (p : Pool) (f : Pool → VoiceNo → Pool) (h : ∀ p v, PoolReach p (f p v)) :
    PoolReach p (p.eachVoice f) :=
  PoolReach.foldl f h p _

/-! ## Every operation is a series of changes -/

theorem Voice.startFade_touch {x : Voice} (h : x.state ≠ .free) (rate : Nat) : VoiceTouch x (x.startFade rate) :=
  ⟨rfl, by simp [Voice.startFade, h], le_refl _, rfl, rfl, rfl⟩

theorem Pool.fade_reach (p : Pool) (rate : FadeRate) (v : VoiceNo) : PoolReach p (p.fade rate v) := by
  unfold Pool.fade
  split
  · exact .rfl'
  · exact .step (.free p v)
  · next h => exact .setVoice p v _ (Voice.startFade_touch (by rw [h]; nofun) _)
  · next h => exact .setVoice p v _ (Voice.startFade_touch (by rw [h]; nofun) _)
  · exact .setVoice p v _ ⟨rfl, Iff.rfl, le_refl _, rfl, rfl, rfl⟩

theorem Pool.discard_reach (p : Pool) (f : VoiceRequest → Bool) : PoolReach p (p.discard f) := by
  refine .mapVoices p _ fun v x => ?_
  split
  · exact ⟨rfl, Iff.rfl, le_refl _, rfl, rfl, rfl⟩
  · exact .refl _

theorem Pool.attach_reach (p : Pool) (v : VoiceNo) (r : VoiceRequest) : PoolReach p (p.attach v r) :=
  .setVoice p v _ ⟨rfl, Iff.rfl, le_refl _, rfl, rfl, rfl⟩

theorem Pool.chokeVoice_reach (chosen : VoiceNo) (group : Nat) (p : Pool) (v : VoiceNo) :
    PoolReach p (Pool.chokeVoice chosen group p v) := by
  unfold Pool.chokeVoice
  split
  · split
    · exact .step (.free p v)
    · next h => exact .setVoice p v _ (Voice.startFade_touch (by rw [h]; nofun) _)
    · next h => exact .setVoice p v _ (Voice.startFade_touch (by rw [h]; nofun) _)
    · exact .rfl'
    · exact .rfl'
  · exact .rfl'

theorem Pool.choke_reach (p : Pool) (chosen : VoiceNo) (r : VoiceRequest) : PoolReach p (p.choke chosen r) := by
  unfold Pool.choke
  split
  · exact .rfl'
  · refine (PoolReach.eachVoice p _ (Pool.chokeVoice_reach chosen r.choke)).trans (PoolReach.mapVoices _ _ fun v x => ?_)
    split
    · exact ⟨rfl, Iff.rfl, le_refl _, rfl, rfl, rfl⟩
    · exact .refl _

/-- The victim that choice 3 finds may be stolen (R109). -/
theorem Pool.victim_canSteal {p : Pool} {priority : Nat} {v : VoiceNo} (h : p.victim priority = some v) :
    p.voices[v].canSteal priority = true := by
  suffices H : ∀ (l : List VoiceNo) (best : Option VoiceNo),
      (∀ b, best = some b → p.voices[b].canSteal priority = true) →
      ∀ b, l.foldl (fun best v =>
        if p.voices[v].canSteal priority then
          match best with
          | none => some v
          | some b => if p.voices[v].priority < p.voices[b].priority then some v else best
        else best) best = some b → p.voices[b].canSteal priority = true from
    H p.order none (fun _ hb => by cases hb) v h
  intro l
  induction l with
  | nil => intro best hbest b hb; exact hbest b hb
  | cons u l ih =>
    intro best hbest b hb
    refine ih _ ?_ b hb
    intro c hc
    by_cases hu : p.voices[u].canSteal priority = true
    · simp only [hu, if_true] at hc
      split at hc
      · cases hc; exact hu
      · split at hc
        · cases hc; exact hu
        · exact hbest c hc
    · simp only [hu] at hc
      exact hbest c hc

theorem Voice.canSteal_ne_free {x : Voice} {priority : Nat} (h : x.canSteal priority = true) : x.state ≠ .free := by
  intro e
  simp [Voice.canSteal, e] at h

theorem Pool.steal_reach (p : Pool) (clips : ClipTable) (v : VoiceNo) (r : VoiceRequest)
    (h : p.voices[v].state ≠ .free) : PoolReach p (p.steal clips v r) := by
  unfold Pool.steal
  split
  · exact .step (.allocate p clips v r)
  · exact (PoolReach.setVoice p v _ (Voice.startFade_touch h _)).trans (Pool.attach_reach _ v r)

theorem Pool.settle_reach {p q : Pool} {clips : ClipTable} {r : VoiceRequest} (h : p.settle clips r = some q) :
    PoolReach p q := by
  unfold Pool.settle at h
  split at h
  · cases h; exact (PoolReach.step (.allocate p clips _ r)).trans (Pool.choke_reach _ _ _)
  · split at h
    · cases h; exact (Pool.attach_reach p _ r).trans (Pool.choke_reach _ _ _)
    · split at h
      · next v hv =>
        cases h
        exact (Pool.steal_reach p clips v r (Voice.canSteal_ne_free (Pool.victim_canSteal hv))).trans
          (Pool.choke_reach _ _ _)
      · cases h

theorem Pool.groupStop_reach (p : Pool) (group : Nat) (rate : FadeRate) : PoolReach p (p.groupStop group rate) := by
  refine (PoolReach.eachVoice p _ fun p v => ?_).trans (Pool.discard_reach _ _)
  split
  · exact Pool.fade_reach p rate v
  · exact .rfl'

theorem Pool.stop_reach (p : Pool) (ms : Nat) : PoolReach p (p.stop ms) :=
  (Pool.discard_reach p _).trans (PoolReach.eachVoice _ _ fun p v => Pool.fade_reach p _ v)

theorem Pool.freeAll_reach (p : Pool) : PoolReach p p.freeAll := by
  refine (Pool.discard_reach p _).trans (PoolReach.eachVoice _ _ fun p v => ?_)
  split
  · exact .rfl'
  · exact .step (.free p v)

theorem Pool.silence_reach (p : Pool) (clips : ClipTable) (v : VoiceNo) : PoolReach p (p.silence clips v) := by
  unfold Pool.silence
  split
  · exact .step (.free p v)
  · exact .step (.allocate p clips v _)

theorem Pool.restartSlot_reach (p : Pool) (n : SlotNo) : PoolReach p (p.restartSlot n) := by
  refine (PoolReach.eachVoice p _ fun q v => ?_).trans (Pool.discard_reach _ _)
  split
  · exact Pool.fade_reach q _ v
  · exact .rfl'

theorem Pool.request_reach (p : Pool) (clips : ClipTable) (r : VoiceRequest) : PoolReach p (p.request clips r).1 := by
  unfold Pool.request
  split
  · next q hq => exact Pool.settle_reach hq
  · exact .rfl'

theorem Pool.retrigger_reach (p : Pool) (clips : ClipTable) (n : SlotNo) (policy : Retrigger) (r : VoiceRequest) :
    PoolReach p (p.retrigger clips n policy r).1 := by
  unfold Pool.retrigger
  split
  · split
    · exact .rfl'
    · exact Pool.request_reach p clips r
  · exact (Pool.restartSlot_reach p n).trans (Pool.request_reach _ clips r)
  · exact Pool.request_reach p clips r

theorem Pool.play_reach (p : Pool) (clips : ClipTable) (n : SlotNo) (c : PlayConfig) (fire : StationTime)
    (seat : Option Seat) : PoolReach p (p.play clips n c fire seat).1 := by
  have h : ∀ k : Slot → Nat, PoolReach p (p.setSlot n fun x => { x with cycle := k x }) :=
    fun k => .setSlot p n _ ⟨rfl, id, id, id⟩
  unfold Pool.play
  simp only
  split
  · exact h _
  · exact (h _).trans (Pool.retrigger_reach _ _ _ _ _)

theorem Pool.cutSlot_reach (p : Pool) (n : SlotNo) (ms : Nat) : PoolReach p (p.cutSlot n ms) := by
  have h : PoolReach p (p.setSlot n fun x => { x with pending := none }) :=
    .setSlot p n _ ⟨rfl, fun _ h => by simp at h, id, id⟩
  refine h.trans ((PoolReach.eachVoice _ _ fun r v => ?_).trans (Pool.discard_reach _ _))
  split
  · exact Pool.fade_reach r _ v
  · exact .rfl'

theorem Pool.cut_reach (p : Pool) (code : Byte) (override : Option Nat) : PoolReach p (p.cut code override) := by
  refine PoolReach.foldl _ (fun p n => ?_) p _
  unfold Pool.cutIfFound
  split
  · exact .rfl'
  · split
    · exact Pool.cutSlot_reach p n _
    · exact .rfl'

theorem Pool.dropPending_reach (p : Pool) : PoolReach p p.dropPending :=
  .mapSlots p _ fun _ _ => ⟨rfl, fun _ h => by simp at h, id, id⟩

theorem Pool.configure_reach (p : Pool) (r : StartRecord) : PoolReach p (p.configure r) :=
  .mapSlots p _ fun _ _ => ⟨rfl, id, id, id⟩

/-! ## What the changes keep -/

theorem Pool.leaveSet_voices (p : Pool) (v : VoiceNo) : (p.leaveSet v).voices = p.voices := by
  unfold Pool.leaveSet; split <;> rfl

theorem Pool.leaveSet_grant (p : Pool) (v : VoiceNo) : (p.leaveSet v).grant = p.grant := by
  unfold Pool.leaveSet; split <;> rfl

theorem Pool.leaveSet_order (p : Pool) (v : VoiceNo) : (p.leaveSet v).order = p.order := by
  unfold Pool.leaveSet; split <;> rfl

theorem Pool.free_voice (p : Pool) (v u : VoiceNo) :
    (p.free v).voices[u] = if v = u then p.voices[v].freed else p.voices[u] := by
  simp only [Pool.free, Pool.setVoice, Pool.leaveSet_voices, update_get]

theorem Pool.allocate_voice (p : Pool) (clips : ClipTable) (v u : VoiceNo) (r : VoiceRequest) :
    (p.allocate clips v r).voices[u] = if v = u then p.voices[v].setUp (clips.clip r.clip) r else p.voices[u] := by
  simp only [Pool.allocate, Pool.grantFirst_voices, Pool.setVoice, Pool.toEnd, Pool.joinSet, Pool.setSlot,
    Pool.leaveSet_voices, update_get]

/-- A slot after a voice has left the set of its owner. -/
theorem Pool.leaveSet_slot (p : Pool) (v : VoiceNo) (n : SlotNo) :
    (p.leaveSet v).slots[n] = if p.voices[v].owner = some n then p.slots[n].lose v else p.slots[n] := by
  unfold Pool.leaveSet
  split
  · next h => rw [h, if_neg (by simp)]
  · next m h =>
    rw [h, Pool.setSlot_slots, update_get]
    by_cases e : m = n
    · subst e; simp
    · rw [if_neg e, if_neg (by simpa using e)]

theorem Pool.free_slot (p : Pool) (v : VoiceNo) (n : SlotNo) :
    (p.free v).slots[n] = if p.voices[v].owner = some n then p.slots[n].lose v else p.slots[n] := by
  rw [← Pool.leaveSet_slot]; rfl

theorem Pool.allocate_slot (p : Pool) (clips : ClipTable) (v : VoiceNo) (r : VoiceRequest) (n : SlotNo) :
    (p.allocate clips v r).slots[n] =
      if r.slot = n then ((p.leaveSet v).slots[n]).gain v else (p.leaveSet v).slots[n] := by
  simp only [Pool.allocate, Pool.grantFirst_slots, Pool.setVoice_slots, Pool.toEnd_slots, Pool.joinSet, Pool.setSlot_slots]
  rw [update_get]
  split
  · next e => subst e; rfl
  · rfl

theorem Slot.inSet_lose (x : Slot) (v u : VoiceNo) : inSet (x.lose v).voices u = (inSet x.voices u && decide (v ≠ u)) :=
  inSet_and_not_single _ _ _

theorem Slot.inSet_gain (x : Slot) (v u : VoiceNo) : inSet (x.gain v).voices u = (inSet x.voices u || decide (v = u)) :=
  inSet_or_single _ _ _

/-- Membership after a voice has left the set of its owner. -/
theorem Pool.inSet_leaveSet (p : Pool) (hp : p.setsAgree) (v u : VoiceNo) (n : SlotNo) :
    inSet ((p.leaveSet v).slots[n]).voices u = true ↔ v ≠ u ∧ p.voices[u].owner = some n := by
  have h := hp.1 n u
  rw [Pool.leaveSet_slot]
  split
  · rw [Slot.inSet_lose, Bool.and_eq_true, decide_eq_true_iff, h, and_comm]
  · next ho =>
    rw [h]
    constructor
    · intro hu
      exact ⟨fun e => ho (e ▸ hu), hu⟩
    · exact fun hu => hu.2

/-- R84 through every change. -/
theorem PoolStep.setsAgree {p q : Pool} (h : PoolStep p q) (hp : p.setsAgree) : q.setsAgree := by
  cases h with
  | free v =>
    refine ⟨fun n u => ?_, fun u => ?_⟩
    · rw [Pool.free_voice]
      have h : inSet ((p.free v).slots[n]).voices u = true ↔ v ≠ u ∧ p.voices[u].owner = some n :=
        Pool.inSet_leaveSet p hp v u n
      rw [h]
      by_cases e : v = u
      · simp [e, Voice.freed]
      · simp [e]
    · rw [Pool.free_voice]
      split
      · simp [Voice.freed]
      · exact hp.2 u
  | allocate clips v r =>
    refine ⟨fun n u => ?_, fun u => ?_⟩
    · rw [Pool.allocate_slot, Pool.allocate_voice]
      have h := Pool.inSet_leaveSet p hp v u n
      by_cases hr : r.slot = n
      · rw [if_pos hr, Slot.inSet_gain, Bool.or_eq_true, h, decide_eq_true_iff]
        by_cases e : v = u
        · simp [e, Voice.setUp, hr]
        · simp [e]
      · rw [if_neg hr, h]
        by_cases e : v = u
        · simp [e, Voice.setUp, hr]
        · simp [e]
    · rw [Pool.allocate_voice]
      split
      · simp [Voice.setUp]
      · exact hp.2 u
  | voices vs h =>
    refine ⟨fun n u => ?_, fun u => ?_⟩
    · simp only [(h u).owner]; exact hp.1 n u
    · simp only [(h u).owner, (h u).free]; exact hp.2 u
  | slots ss h =>
    refine ⟨fun n u => ?_, fun u => hp.2 u⟩
    simp only [(h n).voices]; exact hp.1 n u

theorem PoolReach.setsAgree {p q : Pool} (h : PoolReach p q) (hp : p.setsAgree) : q.setsAgree := by
  induction h with
  | refl => exact hp
  | tail _ hs ih => exact hs.setsAgree ih

/-- A property of slots that a voice set has no part in is kept by every change that slots make of themselves. -/
theorem PoolReach.slots {P : Slot → Prop} (hset : ∀ x vs, P x → P { x with voices := vs })
    (htouch : ∀ x y, SlotTouch x y → P x → P y) {p q : Pool} (h : PoolReach p q)
    (hp : ∀ n : SlotNo, P p.slots[n]) : ∀ n : SlotNo, P q.slots[n] := by
  induction h with
  | refl => exact hp
  | tail _ hs ih =>
    intro n
    cases hs with
    | free v =>
      rw [Pool.free_slot]
      split
      · exact hset _ _ (ih n)
      · exact ih n
    | allocate clips v r =>
      have h : ∀ p : Pool, P p.slots[n] → P (p.leaveSet v).slots[n] := by
        intro p hp
        rw [Pool.leaveSet_slot]
        split
        · exact hset _ _ hp
        · exact hp
      rw [Pool.allocate_slot]
      split
      · exact hset _ _ (h _ (ih n))
      · exact h _ (ih n)
    | voices vs h => exact ih n
    | slots ss h => exact htouch _ _ (h n) (ih n)

theorem PoolReach.pendingHeld {p q : Pool} (h : PoolReach p q) (hp : p.pendingHeld) : q.pendingHeld :=
  PoolReach.slots (P := fun x => x.pending.isSome → x.held = true) (fun _ _ h => h) (fun _ _ t h => t.pending h) h hp

theorem PoolReach.slotCounts {p q : Pool} (h : PoolReach p q)
    (hp : ∀ n : SlotNo, p.slots[n].lost ≤ 255 ∧ p.slots[n].fires ≤ 65535) :
    ∀ n : SlotNo, q.slots[n].lost ≤ 255 ∧ q.slots[n].fires ≤ 65535 :=
  PoolReach.slots (P := fun x => x.lost ≤ 255 ∧ x.fires ≤ 65535) (fun _ _ h => h)
    (fun _ _ t h => ⟨t.lost h.1, t.fires h.2⟩) h hp

/-- A property of voices that freeing, setting up and a touch each keep is kept by every change. -/
theorem PoolReach.voices {P : Voice → Prop} {v : VoiceNo}
    (hfree : ∀ x y : Voice, y.fifo = [] → y.cursor = x.cursor → y.clip = x.clip → P x → P y)
    (hnew : ∀ (x : Voice) c r, P x → P (x.setUp c r)) (htouch : ∀ x y, VoiceTouch x y → P x → P y) {p q : Pool}
    (h : PoolReach p q) (hp : P p.voices[v]) : P q.voices[v] := by
  induction h with
  | refl => exact hp
  | @tail p' _ _ hs ih =>
    cases hs with
    | free u =>
      rw [Pool.free_voice]
      split
      · next e => subst e; exact hfree p'.voices[u] _ rfl rfl rfl ih
      · exact ih
    | allocate clips u r =>
      rw [Pool.allocate_voice]
      split
      · next e => subst e; exact hnew _ _ _ ih
      · exact ih
    | voices vs h => exact htouch _ _ (h v) ih
    | slots ss h => exact ih

/-- No change of the pool adds a frame to a FIFO. -/
theorem PoolReach.fifo {p q : Pool} (h : PoolReach p q) (v : VoiceNo) {n : Nat} (hp : p.voices[v].fifo.length ≤ n) :
    q.voices[v].fifo.length ≤ n :=
  PoolReach.voices (P := fun x => x.fifo.length ≤ n) (fun _ _ h _ _ _ => by simp [h])
    (fun _ _ _ _ => by simp [Voice.setUp]) (fun _ _ t h => t.fifo.trans h) h hp

/-- A cursor at 0 stays there until a read is issued. -/
theorem PoolReach.cursorZero {p q : Pool} (h : PoolReach p q) (v : VoiceNo) (hp : p.voices[v].cursor = 0) :
    q.voices[v].cursor = 0 :=
  PoolReach.voices (P := fun x => x.cursor = 0) (fun _ _ _ h _ hx => h.trans hx) (fun _ _ _ _ => rfl)
    (fun _ _ t h => t.cursor.trans h) h hp

/-- A cursor within its clip stays there until a read is issued. -/
theorem PoolReach.cursorFits {p q : Pool} (clips : ClipTable) (h : PoolReach p q) (v : VoiceNo)
    (hp : ∀ clip, clips.clip p.voices[v].clip = some clip → p.voices[v].cursor ≤ clip.frames) :
    ∀ clip, clips.clip q.voices[v].clip = some clip → q.voices[v].cursor ≤ clip.frames :=
  PoolReach.voices (P := fun x => ∀ clip, clips.clip x.clip = some clip → x.cursor ≤ clip.frames)
    (fun _ _ _ h h2 hx clip hc => by rw [h]; rw [h2] at hc; exact hx clip hc)
    (fun _ _ _ _ _ _ => by simp [Voice.setUp])
    (fun _ _ t h clip hc => by rw [t.cursor]; rw [t.clip] at hc; exact h clip hc) h hp

theorem PoolStep.orderWhole {p q : Pool} (h : PoolStep p q) (hp : p.orderWhole) : q.orderWhole := by
  cases h with
  | free v =>
    have : (p.free v).order = p.order := by simp [Pool.free, Pool.leaveSet_order]
    rw [Pool.orderWhole, this]; exact hp
  | allocate clips v r =>
    have : (p.allocate clips v r).order = p.order.filter (fun u => decide (u ≠ v)) ++ [v] := by
      simp [Pool.allocate, Pool.toEnd, Pool.joinSet, Pool.leaveSet_order]
    rw [Pool.orderWhole, this]
    refine ⟨?_, fun u => ?_⟩
    · refine List.Nodup.append (hp.1.filter _) (List.nodup_singleton v) ?_
      intro a ha hb
      rw [List.mem_singleton] at hb
      subst hb
      simp at ha
    · by_cases h : u = v
      · simp [h]
      · simp [h, hp.2 u]
  | voices vs h => exact hp
  | slots ss h => exact hp

/-- The voice granted at once holds no frame. -/
theorem PoolStep.grantEmpty {p q : Pool} (h : PoolStep p q) (hp : p.grantEmpty) : q.grantEmpty := by
  intro g hg
  cases h with
  | free v =>
    rw [Pool.free_voice]
    split
    · rfl
    · exact hp g (by simpa [Pool.free, Pool.leaveSet_grant] using hg)
  | allocate clips v r =>
    rw [Pool.allocate_voice]
    split
    · rfl
    · next hne =>
      unfold Pool.allocate Pool.grantFirst at hg
      split at hg
      · cases hg; exact absurd rfl hne
      · exact hp g (by simpa [Pool.joinSet, Pool.leaveSet_grant] using hg)
  | voices vs h =>
    have := (h g.voice).fifo
    rw [hp g hg] at this
    exact List.length_eq_zero_iff.1 (Nat.le_zero.1 this)
  | slots ss h => exact hp g hg

theorem PoolReach.grantEmpty {p q : Pool} (h : PoolReach p q) (hp : p.grantEmpty) : q.grantEmpty := by
  induction h with
  | refl => exact hp
  | tail _ hs ih => exact hs.grantEmpty ih

theorem PoolReach.orderWhole {p q : Pool} (h : PoolReach p q) (hp : p.orderWhole) : q.orderWhole := by
  induction h with
  | refl => exact hp
  | tail _ hs ih => exact hs.orderWhole ih

end Sys2Proof.Machine
end

