-- ==== Sys2Proof/Laws/Queue.lean ====
section
/-!
SUPPORT. The Send Queue's list: what each operation on it does to the entries it holds, and that each keeps the list
short, ascending, and with at most one entry IN FLIGHT (R36, R38 to R40).
-/

namespace Sys2Proof.Machine

/-- Ascending keys, no key twice (R36). -/
abbrev Ascending (q : List Entry) : Prop :=
  q.Pairwise fun a b => a.key < b.key

/-- How many entries are IN FLIGHT. -/
abbrev flyingCount (q : List Entry) : Nat :=
  q.countP fun e => decide (e.state = .inFlight)

theorem QueueShape.nil : QueueShape [] :=
  ⟨by simp, List.Pairwise.nil, by simp⟩

theorem QueueShape.sublist {p q : List Entry} (h : p.Sublist q) (hq : QueueShape q) : QueueShape p :=
  ⟨h.length_le.trans hq.1, hq.2.1.sublist h, (h.countP_le).trans hq.2.2⟩

theorem dropKey_sublist (k : Key) (q : List Entry) : (dropKey k q).Sublist q :=
  List.filter_sublist

theorem dropFlying_sublist (q : List Entry) : (dropFlying q).Sublist q :=
  List.filter_sublist

theorem withdrawBuzzes_sublist (q : List Entry) : (withdrawBuzzes q).Sublist q :=
  List.filter_sublist

/-! ## Insertion (R38) -/

theorem mem_insertEntry (e x : Entry) (q : List Entry) : x ∈ insertEntry e q ↔ x = e ∨ x ∈ q := by
  induction q with
  | nil => simp [insertEntry]
  | cons y q ih =>
    simp only [insertEntry]
    split
    · simp
    · simp only [List.mem_cons, ih]; tauto

theorem insertEntry_length (e : Entry) (q : List Entry) : (insertEntry e q).length = q.length + 1 := by
  induction q with
  | nil => rfl
  | cons y q ih =>
    simp only [insertEntry]
    split
    · rfl
    · simp [ih]

theorem insertEntry_countP (f : Entry → Bool) (e : Entry) (q : List Entry) :
    (insertEntry e q).countP f = q.countP f + (if f e then 1 else 0) := by
  induction q with
  | nil => simp [insertEntry, List.countP_cons]
  | cons y q ih =>
    simp only [insertEntry]
    split
    · rw [List.countP_cons]
    · rw [List.countP_cons, List.countP_cons, ih]; omega

theorem insertEntry_ascending {e : Entry} {q : List Entry} (hq : Ascending q) (hk : ∀ x ∈ q, x.key ≠ e.key) :
    Ascending (insertEntry e q) := by
  induction q with
  | nil => exact List.pairwise_singleton _ _
  | cons y q ih =>
    obtain ⟨h1, h2⟩ := List.pairwise_cons.1 hq
    simp only [insertEntry]
    split
    · next hlt =>
      refine List.pairwise_cons.2 ⟨fun x hx => ?_, hq⟩
      rcases List.mem_cons.1 hx with hx | hx
      · subst hx; exact hlt
      · exact BitVec.lt_trans hlt (h1 x hx)
    · next hnlt =>
      refine List.pairwise_cons.2 ⟨fun x hx => ?_, ih h2 fun x hx => hk x (List.mem_cons_of_mem _ hx)⟩
      rcases (mem_insertEntry e x q).1 hx with hx | hx
      · subst hx
        have hne := hk y List.mem_cons_self
        rw [BitVec.lt_def] at hnlt ⊢
        have : y.key.toNat ≠ x.key.toNat := fun h => hne (BitVec.eq_of_toNat_eq h)
        omega
      · exact h1 x hx

theorem QueueShape.insertEntry {e : Entry} {q : List Entry} (hq : QueueShape q) (hlen : q.length < 8)
    (hk : ∀ x ∈ q, x.key ≠ e.key) (hw : e.state = .waiting) : QueueShape (insertEntry e q) := by
  refine ⟨by rw [insertEntry_length]; omega, insertEntry_ascending hq.2.1 hk, ?_⟩
  rw [insertEntry_countP]
  simp only [hw]
  have := hq.2.2
  simpa using this

/-! ## Changes that keep the keys -/

theorem QueueShape.map {q : List Entry} (hq : QueueShape q) {f : Entry → Entry} (hk : ∀ e, (f e).key = e.key)
    (hf : flyingCount (q.map f) ≤ 1) : QueueShape (q.map f) := by
  refine ⟨by simpa using hq.1, ?_, hf⟩
  rw [List.pairwise_map]
  simpa only [hk] using hq.2.1

theorem QueueShape.merge {q : List Entry} (hq : QueueShape q) (k : Key) (c : Content) :
    QueueShape (mergeEntry k c q) := by
  refine hq.map (fun e => by split <;> rfl) ?_
  rw [flyingCount, List.countP_map]
  refine le_trans (le_of_eq ?_) hq.2.2
  apply List.countP_congr
  intro e _
  simp only [Function.comp]
  split <;> simp

theorem QueueShape.noteClear {q : List Entry} (hq : QueueShape q) (group : Nat) : QueueShape (noteClear group q) := by
  refine hq.map (fun e => by split <;> rfl) ?_
  rw [flyingCount, List.countP_map]
  refine le_trans (le_of_eq ?_) hq.2.2
  apply List.countP_congr
  intro e _
  simp only [Function.comp]
  split <;> simp

theorem QueueShape.land {q : List Entry} (hq : QueueShape q) (a : Attempt) (restore : Bool) :
    QueueShape (landFlying a restore q) := by
  refine hq.map (fun e => by split <;> rfl) ?_
  rw [flyingCount, List.countP_map]
  refine le_trans (le_of_eq (List.countP_eq_zero.2 ?_)) (Nat.zero_le 1)
  intro e _
  simp only [Function.comp]
  split
  · simp
  · next h => simpa using h

theorem QueueShape.mark {q : List Entry} (hq : QueueShape q) (hf : (flying q).isNone) (k : Key) :
    QueueShape (markInFlight k q) := by
  refine hq.map (fun e => by split <;> rfl) ?_
  have hnone : ∀ e ∈ q, e.state ≠ .inFlight := by
    intro e he
    have := List.find?_eq_none.1 (Option.isNone_iff_eq_none.1 hf) e he
    simpa using this
  have hasc := hq.2.1
  clear hq hf
  induction q with
  | nil => simp [flyingCount]
  | cons y q ih =>
    obtain ⟨h1, h2⟩ := List.pairwise_cons.1 hasc
    have hq' : ∀ e ∈ q, e.state ≠ .inFlight := fun e he => hnone e (List.mem_cons_of_mem _ he)
    by_cases hy : y.key = k
    · have hrest : flyingCount (q.map fun e => if e.key = k then { e with state := .inFlight, singleTry := false } else e)
          = 0 := by
        rw [flyingCount, List.countP_map]
        refine List.countP_eq_zero.2 fun e he => ?_
        have hek : e.key ≠ k := by
          intro h
          have := h1 e he
          rw [hy, h] at this
          exact absurd this (by simp)
        simp only [Function.comp, hek, if_false]
        simpa using hq' e he
      simp only [flyingCount, List.map_cons, List.countP_cons] at hrest ⊢
      rw [hrest]
      split <;> simp
    · have := ih hq' h2
      simp only [flyingCount, List.map_cons, List.countP_cons, hy, if_false] at this ⊢
      simpa [hnone y List.mem_cons_self] using this

/-! ## Requests (R38 to R40) -/

theorem holdsKey_false {q : List Entry} {k : Key} (h : ¬ holdsKey q k = true) : ∀ x ∈ q, x.key ≠ k := by
  intro x hx hk
  exact h (List.any_eq_true.2 ⟨x, hx, by simpa using hk⟩)

theorem lastWaiting_mem {q : List Entry} {e : Entry} (h : lastWaiting q = some e) : e ∈ q ∧ e.state = .waiting := by
  have := List.mem_filter.1 (List.mem_of_getLast? h)
  exact ⟨this.1, by simpa using this.2⟩

theorem dropKey_length_lt {q : List Entry} {e : Entry} (he : e ∈ q) : (dropKey e.key q).length < q.length :=
  List.length_filter_lt_length_iff_exists.2 ⟨e, he, by simp⟩

/-- A request keeps the shape of the queue. -/
theorem QueueShape.enqueue {q : List Entry} (hq : QueueShape q) {e : Entry} (hw : e.state = .waiting) :
    QueueShape (enqueue q e).1 := by
  unfold Sys2Proof.Machine.enqueue
  split
  · exact hq.merge _ _
  · next hk =>
    have hk := holdsKey_false hk
    split
    · next hlen => exact hq.insertEntry hlen hk hw
    · split
      · next high hh =>
        split
        · have hlt := dropKey_length_lt (lastWaiting_mem hh).1
          have := hq.1
          exact (hq.sublist (dropKey_sublist _ _)).insertEntry (by omega)
            (fun x hx => hk x (List.mem_of_mem_filter hx)) hw
        · exact hq
      · exact hq

theorem State.newEntry_waiting (s : State) (r : FrameRequest) : (s.newEntry r).state = .waiting := rfl

end Sys2Proof.Machine
end

