-- ==== Sys2Proof/Laws/Round.lean ====
section
/-!
SUPPORT. The round record: every operation on it keeps what R54, R55 and R56 say of it at every moment.
-/

namespace Sys2Proof.Machine

theorem Round.reset_consistent : Round.reset.consistent :=
  ⟨fun _ => rfl, fun h => (by rcases h with h | h <;> cases h), fun _ _ => rfl, List.nodup_nil, fun _ h => (List.not_mem_nil h).elim,
    fun h => Bool.noConfusion h⟩

/-- The record entering IDLE (R70). -/
theorem Round.enterIdle_consistent (r : Round) : r.enterIdle.consistent :=
  ⟨fun _ => rfl, fun h => (by rcases h with h | h <;> cases h), fun _ _ => rfl, List.nodup_nil, fun _ h => (List.not_mem_nil h).elim,
    fun h => Bool.noConfusion h⟩

theorem Round.enterService_consistent (r : Round) : r.enterService.consistent :=
  ⟨fun _ => rfl, fun h => (by rcases h with h | h <;> cases h), fun _ _ => rfl, List.nodup_nil, fun _ h => (List.not_mem_nil h).elim,
    fun h => Bool.noConfusion h⟩

theorem Round.arm_consistent (r : Round) (a : ArmFields) : (r.arm a).round.consistent :=
  ⟨fun h => Bool.noConfusion h, fun h => (by rcases h with h | h <;> cases h), fun _ _ => rfl, List.nodup_nil,
    fun _ h => (List.not_mem_nil h).elim, fun h => Bool.noConfusion h⟩

theorem Round.openBuzzers_consistent {r : Round} (h : r.consistent) : r.openBuzzers.round.consistent := by
  unfold Round.openBuzzers
  split
  · next hr =>
    have hw : r.windowEnd = none := by
      cases e : r.windowEnd with
      | none => rfl
      | some x => have := h.window (by simp [e]); rw [hr] at this; cases this
    have hs : r.synced = true := by
      cases e : r.synced with
      | true => rfl
      | false => have := h.synced e; rw [hr] at this; cases this
    refine ⟨fun e => ?_, fun e => ?_, fun _ _ => ?_, h.once, h.notExcluded, fun e => ?_⟩
    · simp [hs] at e
    · rcases e with e | e <;> cases e
    · exact h.noTurn (by rw [hr]; nofun) (by rw [hr]; nofun)
    · simp [hw] at e
  · exact h

theorem Round.buzz_consistent {r : Round} (h : r.consistent) {seat : Seat} (hv : r.validBuzz seat = true)
    (fire : StationTime) : (r.buzz seat fire).round.consistent := by
  simp only [Round.validBuzz, Bool.and_eq_true, Bool.or_eq_true, decide_eq_true_iff, Bool.not_eq_true'] at hv
  obtain ⟨⟨⟨hst, -⟩, hex⟩, hnew⟩ := hv
  have hs : r.synced = true := by
    cases e : r.synced with
    | true => rfl
    | false => have := h.synced e; rw [this] at hst; simp at hst
  unfold Round.buzz
  split
  · refine ⟨fun e => (by simp [hs] at e), fun _ => ⟨rfl, rfl⟩, fun e => absurd rfl e, List.nodup_singleton _, ?_,
      fun _ => rfl⟩
    intro x hx
    rw [List.mem_singleton] at hx
    subst hx; exact hex
  · next ho =>
    have ht : r.state = .locked ∨ r.state = .expired := by
      rcases hst with (e | e) | e
      · exact absurd e ho
      · exact .inl e
      · exact .inr e
    obtain ⟨h1, h2⟩ := h.turn ht
    refine ⟨fun e => (by simp [hs] at e), fun _ => ⟨h1, ?_⟩, h.noTurn, ?_, ?_, h.window⟩
    · cases hord : r.order with
      | nil => rw [hord] at h2; rw [← h2] at h1; simp at h1
      | cons x xs => rw [hord] at h2; simpa using h2
    · exact List.Nodup.append h.once (List.nodup_singleton _)
        (fun x hx hy => hnew (by rw [List.mem_singleton] at hy; exact hy ▸ hx))
    · intro x hx
      rcases List.mem_append.1 hx with hx | hx
      · exact h.notExcluded x hx
      · rw [List.mem_singleton] at hx; subst hx; exact hex

theorem Round.right_consistent {r : Round} (h : r.consistent) : r.right.round.consistent := by
  unfold Round.right
  split
  · exact r.enterIdle_consistent
  · exact h

theorem Round.void_consistent {r : Round} (h : r.consistent) : r.void.round.consistent := by
  unfold Round.void
  split
  · exact h
  · exact r.enterIdle_consistent

/-- What holds of the record between the exclusion of the winner and the rebound. -/
structure Round.rebounding (r : Round) : Prop where
  synced : r.synced = true
  winner : r.winner = none
  once : r.order.Nodup
  notExcluded : ∀ seat ∈ r.order, inSet r.excluded seat = false
  window : r.windowEnd = none

theorem Round.excludeWinner_rebounding {r : Round} (h : r.consistent) (ht : r.hasTurn = true) :
    r.excludeWinner.rebounding := by
  simp only [Round.hasTurn, Bool.or_eq_true, decide_eq_true_iff] at ht
  have hs : r.synced = true := by
    cases e : r.synced with
    | true => rfl
    | false => have := h.synced e; rw [this] at ht; simp at ht
  obtain ⟨h1, -⟩ := h.turn ht
  unfold Round.excludeWinner
  split
  · next e => rw [e] at h1; simp at h1
  · next w e =>
    refine ⟨hs, rfl, h.once.filter _, ?_, rfl⟩
    intro x hx
    obtain ⟨hx1, hx2⟩ := List.mem_filter.1 hx
    have hne : x ≠ w := by simpa using hx2
    have := inSet_or_single r.excluded w x
    rw [h.notExcluded x hx1] at this
    simpa [hne, Ne.symm hne] using this

theorem Round.reopen_consistent {r : Round} (h : r.rebounding) (before : List RoundOutput) :
    (r.reopen before).round.consistent := by
  unfold Round.reopen
  split
  · exact ⟨fun e => (by simp [h.synced] at e), fun e => (by rcases e with e | e <;> cases e), fun _ _ => h.winner,
      List.nodup_nil, fun _ hx => (by simp at hx), fun e => (by simp [h.window] at e)⟩
  · exact r.enterIdle_consistent

theorem Round.reboundStep_consistent {r : Round} (h : r.rebounding) (fire : StationTime) (before : List RoundOutput) :
    (r.reboundStep fire before).round.consistent := by
  unfold Round.reboundStep
  split
  · next next rest _ ho =>
    refine ⟨fun e => (by simp [h.synced] at e), fun _ => ⟨rfl, by simp [ho]⟩, fun e => absurd rfl e, h.once,
      h.notExcluded, fun _ => rfl⟩
  · exact Round.reopen_consistent h _
  · exact Round.reopen_consistent h _

theorem Round.wrong_consistent {r : Round} (h : r.consistent) (fire : StationTime) :
    (r.wrong fire).round.consistent := by
  unfold Round.wrong
  split
  · next ht => exact Round.reboundStep_consistent (Round.excludeWinner_rebounding h ht) fire _
  · exact h

theorem Round.expire_consistent {r : Round} (h : r.consistent) (hl : r.state = .locked) :
    r.expire.round.consistent := by
  have hs : r.synced = true := by
    cases e : r.synced with
    | true => rfl
    | false => have := h.synced e; rw [hl] at this; cases this
  exact ⟨fun e => (by simp [Round.expire, hs] at e), fun _ => h.turn (.inl hl), fun _ e => absurd rfl e, h.once,
    h.notExcluded, fun e => (by simp [Round.expire] at e)⟩

theorem answerWinner_fits {st : RoundState} {b : Byte} {w : Option Seat} (h : answerWinner st b = some w) :
    (st = .locked ∨ st = .expired → w.isSome) ∧ (st ≠ .locked → st ≠ .expired → w = none) := by
  have seat : (seatOf b).map some = some w → w.isSome := by
    cases seatOf b with
    | none => intro h; cases h
    | some x => intro h; cases h; rfl
  have noSeat : (if b = 0xFF then some (none : Option Seat) else none) = some w → w = none := by
    split
    · intro h; cases h; rfl
    · intro h; cases h
  cases st
  all_goals
    first
    | exact ⟨fun e => (by rcases e with e | e <;> cases e), fun _ _ => noSeat h⟩
    | exact ⟨fun _ => seat h, fun e => absurd rfl e⟩
    | exact ⟨fun _ => seat h, fun _ e => absurd rfl e⟩

/-- A TELL ROUND that the Dispatcher finds good names a winner that fits its state and is not excluded (R35). -/
theorem judgeAnswer_good {p : List Byte} {a : RoundAnswer} (h : judgeAnswer p = .answer a) :
    (a.state = .locked ∨ a.state = .expired → a.winner.isSome) ∧
      (a.state ≠ .locked → a.state ≠ .expired → a.winner = none) ∧ winnerAllowed a.winner a.excluded = true := by
  unfold judgeAnswer at h
  split at h
  · split at h
    · cases h
    · split at h
      · cases h
      · next hw =>
        split at h
        · next hok =>
          cases h
          exact ⟨(answerWinner_fits hw).1, (answerWinner_fits hw).2, hok.1⟩
        · cases h
  · cases h

theorem RoundAnswer.adopted_consistent {p : List Byte} {a : RoundAnswer} (h : judgeAnswer p = .answer a)
    (fire : StationTime) : (a.adopted fire).consistent := by
  obtain ⟨h1, h2, h3⟩ := judgeAnswer_good h
  refine ⟨fun e => Bool.noConfusion e, fun hst => ⟨h1 hst, ?_⟩, fun e1 e2 => h2 e1 e2, ?_, ?_, fun e => ?_⟩
  · cases hw : a.winner <;> simp [RoundAnswer.adopted, hw]
  · cases hw : a.winner <;> simp [RoundAnswer.adopted, hw]
  · intro seat hseat
    cases hw : a.winner with
    | none => simp [RoundAnswer.adopted, hw] at hseat
    | some w =>
      simp only [RoundAnswer.adopted, hw, Option.toList_some, List.mem_singleton] at hseat
      subst hseat
      simpa [RoundAnswer.adopted, winnerAllowed, hw] using h3
  · simp only [RoundAnswer.adopted] at e ⊢
    split at e
    · next hc => exact hc.1
    · cases e

end Sys2Proof.Machine
end

