-- ==== Sys2Proof/Laws/Work.lean ====
section
/-!
SUPPORT. What a trigger, a frame, a press or a change of the round can do to the station (`Work`): it leaves time, the
Line Port, the Start Loader, the clips, the flash and the service port alone, and keeps what holds of the pool, the queue,
the round and the error record at every moment. One lemma for each operation of the Cue Table, the Send Queue, the Round
Tracker, the Lamp Driver, the Dispatcher and the Input Scanner.
-/

namespace Sys2Proof.Machine

/-- What the work of the Dispatcher and the blocks behind it leaves alone, and what it keeps. -/
structure Work (s u : State) : Prop where
  clock : u.clock = s.clock
  powered : u.powered = s.powered
  resetLine : u.resetLine = s.resetLine
  loader : u.loader = s.loader
  station : u.station = s.station
  line : u.line = s.line
  clips : u.clips = s.clips
  fetch : u.fetch = s.fetch
  flash : u.flash = s.flash
  service : u.service = s.service
  freeCount : u.freeCount = s.freeCount
  pending : u.pending = s.pending
  pool : PoolReach s.pool u.pool
  queue : QueueShape s.queue → QueueShape u.queue
  quiet : s.loader.mode ≠ .online ∨ s.station.shadow = true → s.queue = [] → u.queue = []
  round : s.round.consistent → u.round.consistent
  errors : s.errors.inRange → u.errors.inRange

theorem Work.refl (s : State) : Work s s :=
  ⟨rfl, rfl, rfl, rfl, rfl, rfl, rfl, rfl, rfl, rfl, rfl, rfl, .rfl', id, fun _ => id, id, id⟩

theorem Work.trans {s u w : State} (h : Work s u) (k : Work u w) : Work s w where
  clock := k.clock.trans h.clock
  powered := k.powered.trans h.powered
  resetLine := k.resetLine.trans h.resetLine
  loader := k.loader.trans h.loader
  station := k.station.trans h.station
  line := k.line.trans h.line
  clips := k.clips.trans h.clips
  fetch := k.fetch.trans h.fetch
  flash := k.flash.trans h.flash
  service := k.service.trans h.service
  freeCount := k.freeCount.trans h.freeCount
  pending := k.pending.trans h.pending
  pool := h.pool.trans k.pool
  queue := fun hq => k.queue (h.queue hq)
  quiet := fun hm hq => k.quiet (by rw [h.loader, h.station]; exact hm) (h.quiet hm hq)
  round := fun hr => k.round (h.round hr)
  errors := fun he => k.errors (h.errors he)

theorem Work.foldl {α : Type} (f : State → α → State) (h : ∀ s a, Work s (f s a)) (s : State) (l : List α) :
    Work s (l.foldl f s) := by
  induction l generalizing s with
  | nil => exact .refl s
  | cons a l ih => exact (h s a).trans (ih _)

/-- A change of the pool alone. -/
theorem Work.ofPool (s : State) {p : Pool} (h : PoolReach s.pool p) : Work s { s with pool := p } :=
  ⟨rfl, rfl, rfl, rfl, rfl, rfl, rfl, rfl, rfl, rfl, rfl, rfl, h, id, fun _ => id, id, id⟩

/-- A change of one slot that is a touch. -/
theorem Work.ofSlot (s : State) (n : SlotNo) (f : Slot → Slot) (h : SlotTouch s.pool.slots[n] (f s.pool.slots[n])) :
    Work s { s with pool := s.pool.setSlot n f } :=
  .ofPool s (.setSlot s.pool n f h)

/-- A change of the lamps alone. -/
theorem Work.ofLamps (s : State) (l : Vector Lamp 8) : Work s { s with lamps := l } :=
  ⟨rfl, rfl, rfl, rfl, rfl, rfl, rfl, rfl, rfl, rfl, rfl, rfl, .rfl', id, fun _ => id, id, id⟩

/-- A change of the inputs alone. -/
theorem Work.ofInputs (s : State) (i : Vector Input 8) : Work s { s with inputs := i } :=
  ⟨rfl, rfl, rfl, rfl, rfl, rfl, rfl, rfl, rfl, rfl, rfl, rfl, .rfl', id, fun _ => id, id, id⟩

/-- A change of the Mixer alone. -/
theorem Work.ofMixer (s : State) (m : Mixer) : Work s { s with mixer := m } :=
  ⟨rfl, rfl, rfl, rfl, rfl, rfl, rfl, rfl, rfl, rfl, rfl, rfl, .rfl', id, fun _ => id, id, id⟩

/-- A change of the penalties alone. -/
theorem Work.ofPenalties (s : State) (p : Vector (Option StationTime) 16) : Work s { s with penalties := p } :=
  ⟨rfl, rfl, rfl, rfl, rfl, rfl, rfl, rfl, rfl, rfl, rfl, rfl, .rfl', id, fun _ => id, id, id⟩

/-- A change of the error record alone that keeps its range. -/
theorem Work.ofErrors (s : State) (e : ErrorRecord) (h : s.errors.inRange → e.inRange) :
    Work s { s with errors := e } :=
  ⟨rfl, rfl, rfl, rfl, rfl, rfl, rfl, rfl, rfl, rfl, rfl, rfl, .rfl', id, fun _ => id, id, h⟩

/-- Entries leave the queue, and nothing else changes. -/
theorem Work.ofSublist (s : State) {q : List Entry} (h : q.Sublist s.queue) : Work s { s with queue := q } :=
  ⟨rfl, rfl, rfl, rfl, rfl, rfl, rfl, rfl, rfl, rfl, rfl, rfl, .rfl', fun hq => hq.sublist h,
    fun _ he => List.sublist_nil.1 (he ▸ h), id, id⟩

/-- A new round record that keeps R54 to R56. -/
theorem Work.ofRound (s : State) {r : Round} (h : s.round.consistent → r.consistent) : Work s { s with round := r } :=
  ⟨rfl, rfl, rfl, rfl, rfl, rfl, rfl, rfl, rfl, rfl, rfl, rfl, .rfl', id, fun _ => id, h, id⟩

theorem State.count_work (s : State) (c : ErrorCount) : Work s (s.count c) :=
  .ofErrors s _ fun h => h.bump c

/-! ## The Send Queue, the Lamp Driver -/

theorem State.requestFrame_work (s : State) (r : FrameRequest) : Work s (s.requestFrame r) := by
  unfold State.requestFrame
  split
  · next h =>
    have hno : ¬(s.loader.mode ≠ .online ∨ s.station.shadow = true) := by
      rintro (hm | hm)
      · exact hm h.1
      · rw [h.2] at hm; cases hm
    exact ⟨rfl, rfl, rfl, rfl, rfl, rfl, rfl, rfl, rfl, rfl, rfl, rfl, .rfl', fun hq => hq.enqueue rfl,
      fun hm => absurd hm hno, id, fun he => he.bumpIf _ _⟩
  · exact .refl s

theorem State.lampAction_work (s : State) (o : LampOrder) : Work s (s.lampAction o) :=
  .ofLamps s _

theorem State.refreshSeatLamps_work (s : State) (again : Option Seat) : Work s (s.refreshSeatLamps again) :=
  .ofLamps s _

/-! ## The Cue Matcher and the Cue Table -/

theorem PlayResult.counted_inRange (r : PlayResult) {e : ErrorRecord} (h : e.inRange) : (r.counted e).inRange := by
  cases r
  · exact h
  · exact h
  · exact h.bump _
  · exact h.bump _

theorem State.runAction_work (s : State) (n : SlotNo) (a : SlotAction) (fire : StationTime) (seat : Option Seat) :
    Work s (s.runAction n a fire seat) := by
  unfold State.runAction
  cases a with
  | play c =>
    exact (Work.ofPool s (Pool.play_reach s.pool s.clips n c fire seat)).trans
      (Work.ofErrors _ _ fun h => PlayResult.counted_inRange _ h)
  | stopGroup group override => exact .ofPool s (Pool.groupStop_reach _ _ _)
  | lamp o => exact s.lampAction_work o
  | emit code singleTry seatThrough => exact s.requestFrame_work _

theorem State.act_work (s : State) (n : SlotNo) (fire : StationTime) (seat : Option Seat) :
    Work s (s.act n fire seat) := by
  unfold State.act
  split
  · exact .refl s
  · refine (Work.ofSlot s n (fun x => { x with fires := min 65535 (x.fires + 1) }) ?_).trans (State.runAction_work _ _ _ _ _)
    exact ⟨rfl, id, id, fun _ => Nat.min_le_left _ _⟩

theorem State.slotTake_work (s : State) (t : Trigger) (n : SlotNo) : Work s (s.slotTake t n) := by
  unfold State.slotTake
  split
  · next hh =>
    refine (Work.ofSlot s n (fun x =>
      { x with
        pending := some { fireTime := t.fireTime, seat := t.seat }
        lost := if x.pending.isSome then min 255 (x.lost + 1) else x.lost }) ?_).trans
      (Work.ofErrors _ _ fun h => h.bumpIf _ _)
    refine ⟨rfl, fun _ _ => hh, fun h => ?_, id⟩
    simp only
    split
    · exact Nat.min_le_left _ _
    · exact h
  · exact s.act_work n _ _

theorem State.takeTrigger_work (s : State) (t : Trigger) : Work s (s.takeTrigger t) := by
  unfold State.takeTrigger
  split
  · exact Work.foldl _ (fun s n => s.slotTake_work t n) s _
  · exact .refl s

theorem State.holdSlot_work (s : State) (n : SlotNo) : Work s (s.holdSlot n) :=
  .ofSlot s n _ ⟨rfl, fun _ _ => rfl, id, id⟩

theorem State.releaseSlot_work (s : State) (n : SlotNo) (fire : StationTime) : Work s (s.releaseSlot n fire) := by
  have h : Work s { s with pool := s.pool.setSlot n fun x => { x with held := false, pending := none } } :=
    .ofSlot s n _ ⟨rfl, fun _ h => by simp at h, id, id⟩
  unfold State.releaseSlot
  simp only
  split
  · split
    · exact h
    · exact h.trans (State.act_work _ _ _ _)
  · exact .refl s

theorem State.enableSlot_work (s : State) (n : SlotNo) : Work s (s.enableSlot n) :=
  .ofSlot s n _ ⟨rfl, id, id, id⟩

theorem State.disableSlot_work (s : State) (n : SlotNo) : Work s (s.disableSlot n) :=
  .ofSlot s n _ ⟨rfl, fun _ h => by simp at h, id, id⟩

theorem State.clearLostSlot_work (s : State) (n : SlotNo) : Work s (s.clearLostSlot n) :=
  .ofSlot s n _ ⟨rfl, id, fun _ => Nat.zero_le _, id⟩

theorem State.swapSlot_work (s : State) (n : SlotNo) (k : Nat) (clip : Byte) : Work s (s.swapSlot n k clip) :=
  .ofSlot s n _ ⟨rfl, id, id, id⟩

/-! ## The Round Tracker -/

theorem State.handOutput_work (fire : StationTime) (s : State) (o : RoundOutput) : Work s (s.handOutput fire o) := by
  unfold State.handOutput
  split
  · exact .ofSublist s (withdrawBuzzes_sublist _)
  · split
    · exact .refl s
    · exact s.takeTrigger_work _

theorem State.applyRound_work (s : State) (step : RoundStep) (fire : StationTime)
    (h : s.round.consistent → step.round.consistent) : Work s (s.applyRound step fire) :=
  ((Work.ofRound s h).trans (Work.foldl _ (fun s o => State.handOutput_work fire s o) _ _)).trans
    (State.refreshSeatLamps_work _ _)

theorem State.takeArm_work (s : State) (a : ArmFields) (sof : StationTime) : Work s (s.takeArm a sof) :=
  (Work.ofPenalties s _).trans (State.applyRound_work _ _ _ fun _ => Round.arm_consistent _ _)

theorem State.takeBuzz_work (s : State) (seat : Seat) (sof : StationTime) : Work s (s.takeBuzz seat sof) := by
  unfold State.takeBuzz
  split
  · next h => exact State.applyRound_work _ _ _ fun hr => Round.buzz_consistent hr h _
  · exact s.count_work _

theorem State.takeAnswer_work {p : List Byte} {a : RoundAnswer} (h : judgeAnswer p = .answer a) (s : State)
    (sender : BitVec 4) (sof : StationTime) : Work s (s.takeAnswer a sender sof) := by
  unfold State.takeAnswer
  split
  · exact (Work.ofRound s fun _ => RoundAnswer.adopted_consistent h _).trans (State.refreshSeatLamps_work _ _)
  · exact .refl s

theorem State.earlyPress_work (s : State) (seat : Seat) (press : StationTime) : Work s (s.earlyPress seat press) :=
  (((Work.ofPenalties s _).trans (State.count_work _ _)).trans (State.handOutput_work _ _ _)).trans
    (State.refreshSeatLamps_work _ _)

theorem State.buzzPress_work (s : State) (seat : Seat) (press : StationTime) : Work s (s.buzzPress seat press) := by
  unfold State.buzzPress
  split
  · exact .refl s
  · split
    · exact s.earlyPress_work seat press
    · split
      · exact .refl s
      · split
        · exact s.requestFrame_work _
        · exact .refl s

/-! ## The Dispatcher -/

/-- A round answer is delivered only when the frame's payload is a good TELL ROUND (R35). -/
theorem State.judge_answer {s : State} {f : LineFrame} {a : RoundAnswer} (h : s.judge f = .answer a) :
    judgeAnswer f.payload = .answer a := by
  have addressed : ∀ (t : Byte) (d : Delivery), s.station.ifAddressed t d = .answer a → d = .answer a := by
    intro t d h
    unfold StationConfig.ifAddressed at h
    split at h
    · cases h
    · cases h
    · exact h
  have slot : ∀ (b : Byte) (d : SlotNo → Delivery), (∀ n, d n ≠ .answer a) → judgeSlot b d ≠ .answer a := by
    intro b d hd h
    unfold judgeSlot at h
    split at h
    · exact hd _ h
    · cases h
  unfold State.judge at h
  split at h
  · cases h
  · split at h
    · unfold judgeStop at h; split at h <;> cases h
    · unfold judgeBuzz at h
      split at h
      · split at h <;> cases h
      · cases h
    · unfold judgeVerdict at h
      split at h
      · split at h <;> cases h
      all_goals cases h
    · unfold judgeCut at h; split at h <;> cases h
    · unfold judgeGo at h
      split at h
      · cases h
      · split at h <;> cases h
      · cases h
    · have h := addressed _ _ h
      unfold State.judgeAdjust at h
      split at h
      · split at h
        · exact absurd h (slot _ _ (fun _ => nofun))
        · exact absurd h (slot _ _ (fun _ => nofun))
        · exact absurd h (slot _ _ (fun _ => nofun))
        · exact absurd h (slot _ _ (fun _ => nofun))
        · exact absurd h (slot _ _ (fun _ => nofun))
        · cases h
      · split at h
        · refine absurd h (slot _ _ (fun n => ?_))
          split <;> nofun
        · cases h
      · split at h
        · split at h <;> cases h
        · cases h
      · cases h
    · have h := addressed _ _ h
      unfold State.judgeAsk at h
      split at h
      · split at h
        · split at h <;> cases h
        · cases h
        · cases h
        · split at h <;> cases h
        · split at h <;> cases h
        · cases h
      · cases h
    · unfold judgeTell at h
      split at h
      · exact h
      · split at h <;> cases h
      · split at h <;> cases h
      · split at h <;> cases h
      · split at h <;> cases h
      · cases h
    · cases h

theorem State.dispatchFrame_work (s : State) (f : LineFrame) : Work s (s.dispatchFrame f) := by
  unfold State.dispatchFrame State.deliver
  cases hd : s.judge f with
  | bad => exact s.count_work _
  | aside => exact .refl s
  | nobody => exact .refl s
  | stop ms => exact .ofPool s ((Pool.stop_reach _ _).trans (Pool.dropPending_reach _))
  | buzz seat => exact s.takeBuzz_work seat _
  | arm a => exact s.takeArm_work a _
  | openBuzzers => exact State.applyRound_work _ _ _ Round.openBuzzers_consistent
  | right => exact State.applyRound_work _ _ _ Round.right_consistent
  | wrong => exact State.applyRound_work _ _ _ fun h => Round.wrong_consistent h _
  | void => exact State.applyRound_work _ _ _ Round.void_consistent
  | cut code override => exact .ofPool s (Pool.cut_reach _ _ _)
  | go code seat => exact s.takeTrigger_work _
  | hold n => exact s.holdSlot_work n
  | release n => exact s.releaseSlot_work n _
  | enable n => exact s.enableSlot_work n
  | disable n => exact s.disableSlot_work n
  | clearLost n => exact s.clearLostSlot_work n
  | swap n entry clip => exact s.swapSlot_work n entry clip
  | master bus steps => exact .ofMixer s _
  | ask topic arg => exact s.requestFrame_work _
  | answer a => exact s.takeAnswer_work (State.judge_answer hd) _ _

/-! ## The Input Scanner, the Voice Pool's end codes -/

theorem State.fireAction_work (s : State) (a : InputAction) : Work s (s.fireAction a) := by
  unfold State.fireAction
  split
  · exact .refl s
  · exact s.buzzPress_work _ _
  · exact s.requestFrame_work _
  · exact s.takeTrigger_work _
  · exact s.requestFrame_work _
  · exact s.requestFrame_work _
  · exact s.requestFrame_work _

theorem State.scanInput_work (closed : Byte) (s : State) (i : Fin 8) : Work s (s.scanInput closed i) :=
  (Work.ofInputs s _).trans (State.fireAction_work _ _)

/-- A scan of all eight inputs (R160). -/
theorem State.scan_work (s : State) (closed : Byte) (order : List (Fin 8)) : Work s (s.scan closed order) :=
  Work.trans (u := { s with nextScan := s.clock / milliClocks + 1 })
    ⟨rfl, rfl, rfl, rfl, rfl, rfl, rfl, rfl, rfl, rfl, rfl, rfl, .rfl', id, fun _ => id, id, id⟩
    (Work.foldl _ (fun s i => State.scanInput_work closed s i) _ _)

theorem State.raiseEndCode_work (s : State) (code : Option Byte) (route : EndRoute) :
    Work s (s.raiseEndCode code route) := by
  unfold State.raiseEndCode
  split
  · exact .refl s
  · exact s.takeTrigger_work _
  · exact s.requestFrame_work _

end Sys2Proof.Machine
end

