-- ==== Sys2Proof/Laws/Line.lean ====
section
/-!
SUPPORT. What the events of the cue line can do to the station (`LineWork`): they leave time, the Start Loader, the clips,
the flash and the service port alone, and keep what holds of the Line Port, the queue, the pool, the round and the error
record at every moment. One lemma for each operation of the Line Port.
-/

namespace Sys2Proof.Machine

/-- What an event of the cue line leaves alone, and what it keeps. -/
structure LineWork (s u : State) : Prop where
  clock : u.clock = s.clock
  powered : u.powered = s.powered
  resetLine : u.resetLine = s.resetLine
  loader : u.loader = s.loader
  station : u.station = s.station
  clips : u.clips = s.clips
  fetch : u.fetch = s.fetch
  flash : u.flash = s.flash
  service : u.service = s.service
  freeCount : u.freeCount = s.freeCount
  pending : u.pending = s.pending
  pool : PoolReach s.pool u.pool
  queue : QueueShape s.queue → QueueShape u.queue
  round : s.round.consistent → u.round.consistent
  errors : s.errors.inRange → u.errors.inRange
  drives : s.running = true → s.drivesLawfully → u.drivesLawfully
  counts : s.line.tec ≤ 255 ∧ s.line.recCount ≤ 255 → u.line.tec ≤ 255 ∧ u.line.recCount ≤ 255
  silent : s.shadowSilent → u.shadowSilent

theorem State.running_eq {s u : State} (hp : u.powered = s.powered) (hr : u.resetLine = s.resetLine) :
    u.running = s.running := by
  simp only [State.running, hp, hr]

theorem LineWork.refl (s : State) : LineWork s s :=
  ⟨rfl, rfl, rfl, rfl, rfl, rfl, rfl, rfl, rfl, rfl, rfl, .rfl', id, id, id, fun _ => id, id, id⟩

theorem LineWork.trans {s u w : State} (h : LineWork s u) (k : LineWork u w) : LineWork s w where
  clock := k.clock.trans h.clock
  powered := k.powered.trans h.powered
  resetLine := k.resetLine.trans h.resetLine
  loader := k.loader.trans h.loader
  station := k.station.trans h.station
  clips := k.clips.trans h.clips
  fetch := k.fetch.trans h.fetch
  flash := k.flash.trans h.flash
  service := k.service.trans h.service
  freeCount := k.freeCount.trans h.freeCount
  pending := k.pending.trans h.pending
  pool := h.pool.trans k.pool
  queue := fun hq => k.queue (h.queue hq)
  round := fun hr => k.round (h.round hr)
  errors := fun he => k.errors (h.errors he)
  drives := fun hr hd => k.drives ((State.running_eq h.powered h.resetLine).trans hr) (h.drives hr hd)
  counts := fun hc => k.counts (h.counts hc)
  silent := fun hs => k.silent (h.silent hs)

/-- The work of the Dispatcher is work of the line. -/
theorem Work.toLine {s u : State} (h : Work s u) : LineWork s u where
  clock := h.clock
  powered := h.powered
  resetLine := h.resetLine
  loader := h.loader
  station := h.station
  clips := h.clips
  fetch := h.fetch
  flash := h.flash
  service := h.service
  freeCount := h.freeCount
  pending := h.pending
  pool := h.pool
  queue := h.queue
  round := h.round
  errors := h.errors
  drives := fun _ hd hne => by
    rw [State.running_eq h.powered h.resetLine, h.line, h.loader, h.station]
    rw [h.line] at hne
    exact hd hne
  counts := fun hc => by rw [h.line]; exact hc
  silent := fun hs =>
    { online := by rw [h.loader]; exact hs.online
      silent := by
        rw [h.station, h.loader, h.line]
        intro hw
        obtain ⟨h1, h2, h3, h4⟩ := hs.silent hw
        refine ⟨h1, h2, h.quiet ?_ h3, h4⟩
        rcases hw with hw | hw
        · exact .inr hw
        · left; intro ho; rw [hs.online ho] at hw; cases hw }

/-- A change of the Line Port alone: what it must keep. -/
theorem LineWork.ofLine (s : State) (l : LinePort)
    (hd : s.running = true → s.drivesLawfully → State.drivesLawfully { s with line := l })
    (hc : s.line.tec ≤ 255 ∧ s.line.recCount ≤ 255 → l.tec ≤ 255 ∧ l.recCount ≤ 255)
    (hs : s.line.tec = 0 ∧ s.line.framesSent = 0 ∧ s.line.attempt = none →
      s.station.shadow = true ∨ s.loader.loaded = false → l.tec = 0 ∧ l.framesSent = 0 ∧ l.attempt = none) :
    LineWork s { s with line := l } where
  clock := rfl
  powered := rfl
  resetLine := rfl
  loader := rfl
  station := rfl
  clips := rfl
  fetch := rfl
  flash := rfl
  service := rfl
  freeCount := rfl
  pending := rfl
  pool := .rfl'
  queue := id
  round := id
  errors := id
  drives := hd
  counts := hc
  silent := fun h =>
    { online := h.online
      silent := fun hw => by
        obtain ⟨h1, h2, h3, h4⟩ := h.silent hw
        obtain ⟨k1, k2, k4⟩ := hs ⟨h1, h2, h4⟩ hw
        exact ⟨k1, k2, h3, k4⟩ }

/-- A change of the Line Port alone that keeps its counts, its attempt and its line state, and drives nothing new. -/
theorem LineWork.ofCalm (s : State) (l : LinePort) (ht : l.tec = s.line.tec) (hr : l.recCount = s.line.recCount)
    (hst : l.lineState = s.line.lineState) (hj : l.joined = s.line.joined) (hf : l.framesSent = s.line.framesSent)
    (ha : l.attempt = s.line.attempt) (hdr : l.drive = s.line.drive ∨ l.drive = .released) :
    LineWork s { s with line := l } := by
  refine .ofLine s l ?_ (by rw [ht, hr]; exact id) (fun h _ => by rw [ht, hf, ha]; exact h)
  intro _ hd hne
  have hne' : s.line.drive ≠ .released := by
    rcases hdr with e | e
    · exact e ▸ hne
    · exact absurd e hne
  obtain ⟨h1, h2, h3, h4, h5⟩ := hd hne'
  exact ⟨h1, by simp only [hj]; exact h2, h3, h4, by simp only [hst]; exact h5⟩

/-! ## The counts and the line state (R21 to R24) -/

theorem lineStateOf_ne_off (w t r : Nat) : lineStateOf w t r ≠ .off := by
  unfold lineStateOf
  split
  · nofun
  · split <;> nofun

/-- Working out the line state leaves everything else of the Line Port alone, and neither enters nor leaves OFF. -/
theorem LinePort.refresh_spec (l : LinePort) :
    ∃ st, l.refresh = { l with lineState := st } ∧ (st = .off ↔ l.lineState = .off) := by
  unfold LinePort.refresh
  split
  · next h => exact ⟨_, rfl, by simp [lineStateOf_ne_off, h.2]⟩
  · exact ⟨_, rfl, Iff.rfl⟩

/-- A receive error: REC alone rises, by at most 1 and never above 255 (R21). -/
theorem LinePort.receiveError_spec (l : LinePort) :
    ∃ r st, l.receiveError = { l with recCount := r, lineState := st } ∧ (st = .off ↔ l.lineState = .off) ∧
      (l.recCount ≤ 255 → r ≤ 255) := by
  unfold LinePort.receiveError
  split
  · exact ⟨_, _, rfl, Iff.rfl, id⟩
  · obtain ⟨st, h, hst⟩ := LinePort.refresh_spec { l with recCount := min 255 (l.recCount + 1) }
    exact ⟨_, st, h, hst, fun _ => Nat.min_le_left _ _⟩

theorem LinePort.receiveGood_spec (l : LinePort) :
    ∃ r st, l.receiveGood = { l with recCount := r, lineState := st } ∧ (st = .off ↔ l.lineState = .off) ∧
      r ≤ l.recCount := by
  unfold LinePort.receiveGood
  split
  · exact ⟨_, _, rfl, Iff.rfl, le_refl _⟩
  · obtain ⟨st, h, hst⟩ := LinePort.refresh_spec { l with recCount := l.recCount - 1 }
    exact ⟨_, st, h, hst, Nat.sub_le _ _⟩

theorem LinePort.sendGood_spec (l : LinePort) :
    ∃ st, l.sendGood = { l with tec := l.tec - 1, lineState := st } ∧ (st = .off ↔ l.lineState = .off) :=
  LinePort.refresh_spec { l with tec := l.tec - 1 }

/-- A transmit error: TEC + 4, or entry to OFF with every drive stopped (R21, R23). -/
theorem LinePort.sendError_spec (l : LinePort) :
    (l.goesOff = true ∧ l.sendError = { l with tec := 255, recCount := 0, lineState := .off, drive := .released }) ∨
      (l.goesOff = false ∧ ∃ st, l.sendError = { l with tec := l.tec + 4, lineState := st } ∧ l.tec + 4 ≤ 255 ∧
        (st = .off ↔ l.lineState = .off)) := by
  unfold LinePort.sendError
  by_cases h : l.goesOff = true
  · exact .inl ⟨h, if_pos h⟩
  · obtain ⟨st, h1, h2⟩ := LinePort.refresh_spec { l with tec := l.tec + 4 }
    refine .inr ⟨by simpa using h, st, (if_neg h).trans h1, ?_, h2⟩
    simp only [LinePort.goesOff, decide_eq_true_iff] at h
    omega

theorem LinePort.releaseAck_spec (l : LinePort) :
    l.releaseAck = { l with drive := if l.drive = .ack then .released else l.drive } := by
  unfold LinePort.releaseAck; split <;> simp_all

/-! ## The operations -/

theorem State.completeFrame_line (s : State) (f : Followed) : LineWork s (s.completeFrame f) := by
  obtain ⟨r, st, hl, hst, hr⟩ := s.line.receiveGood_spec
  have h : LineWork s { s with line := { s.line.receiveGood with
      framesReceived := s.line.receiveGood.framesReceived + 1 } } := by
    refine .ofLine s _ ?_ ?_ ?_
    · intro _ hd hne
      obtain ⟨h1, h2, h3, h4, h5⟩ := hd (by simpa [hl] using hne)
      exact ⟨h1, by simpa [hl] using h2, h3, h4, by simpa [hl, hst] using h5⟩
    · rintro ⟨h1, h2⟩
      simp only [hl]
      exact ⟨h1, hr.trans h2⟩
    · intro h _; simpa [hl] using h
  unfold State.completeFrame
  simp only
  split
  · exact h.trans (State.dispatchFrame_work _ _).toLine
  · exact h

theorem State.endFollowed_line (s : State) (old : Option Followed) : LineWork s (s.endFollowed old) := by
  unfold State.endFollowed
  split
  · exact .refl s
  · split
    · exact s.completeFrame_line _
    · exact .refl s

theorem State.followEdge_line (s : State) : LineWork s s.followEdge := by
  have h : LineWork s { s with line := s.line.releaseAck.follow s.now } := by
    refine .ofCalm s _ ?_ ?_ ?_ ?_ ?_ ?_ ?_ <;> simp only [LinePort.follow, LinePort.releaseAck_spec]
    split
    · exact .inr rfl
    · exact .inl rfl
  exact h.trans (State.endFollowed_line _ _)

/-- The entry a station is offered (R41). -/
theorem State.offered_spec {s : State} {e : Entry} (h : s.offered = some e) :
    s.maySend = true ∧ (flying s.queue).isNone ∧ firstWaiting s.queue = some e := by
  unfold State.offered at h
  split at h
  · next hc => exact ⟨hc.1, hc.2, h⟩
  · cases h

theorem State.mayDrive_spec {s : State} (h : s.mayDrive = true) :
    s.line.joined = true ∧ s.loader.mode = .online ∧ s.station.shadow = false ∧ s.line.lineState ≠ .off := by
  simp only [State.mayDrive, Bool.and_eq_true, decide_eq_true_iff, Bool.not_eq_true'] at h
  exact ⟨h.1.1.1, h.1.1.2, h.1.2, h.2⟩

theorem State.maySpoil_spec {s : State} (h : s.maySpoil = true) : s.mayDrive = true := by
  simp only [State.maySpoil, Bool.and_eq_true] at h
  exact h.1

theorem State.beginAttempt_line (s : State) : LineWork s s.beginAttempt := by
  unfold State.beginAttempt
  split
  · exact .refl s
  · next e he =>
    obtain ⟨hsend, hfly, -⟩ := State.offered_spec he
    obtain ⟨h1, h2, h3, h4⟩ := State.mayDrive_spec hsend
    refine LineWork.trans (u := { s with
      queue := markInFlight e.key s.queue
      line := { s.line.follow s.now with attempt := some (s.newAttempt e), drive := .frame } }) ?_
      (State.endFollowed_line _ _)
    exact
      { clock := rfl, powered := rfl, resetLine := rfl, loader := rfl, station := rfl, clips := rfl, fetch := rfl
        flash := rfl, service := rfl, freeCount := rfl, pending := rfl, pool := .rfl'
        queue := fun hq => hq.mark hfly _
        round := id, errors := id
        drives := fun hr _ _ => ⟨hr, h1, h2, h3, h4⟩
        counts := id
        silent := fun hs =>
          { online := hs.online
            silent := fun hw => by
              rcases hw with hw | hw
              · simp only at hw; rw [h3] at hw; cases hw
              · simp only at hw; rw [hs.online h2] at hw; cases hw } }

/-- The clear that a completed TELL ERRORS carries only lowers counts (R50). -/
theorem ErrorRecord.inRange.afterTell {e : ErrorRecord} (h : e.inRange) (a : Attempt) : (e.afterTell a).inRange := by
  unfold ErrorRecord.afterTell
  split
  · exact h
  · split
    · refine h.mapGroup _ fun i n => ?_
      split
      · exact Nat.zero_le _
      · exact Nat.sub_le _ _
    · exact h

theorem landFlying_nil (a : Attempt) (restore : Bool) : landFlying a restore [] = [] := rfl

/-- Changes of the queue and the error record alone. -/
theorem LineWork.ofQueue (s : State) {q : List Entry} {e : ErrorRecord} (hq : QueueShape s.queue → QueueShape q)
    (hnil : s.queue = [] → q = []) (he : s.errors.inRange → e.inRange) :
    LineWork s { s with queue := q, errors := e } :=
  { clock := rfl, powered := rfl, resetLine := rfl, loader := rfl, station := rfl, clips := rfl, fetch := rfl
    flash := rfl, service := rfl, freeCount := rfl, pending := rfl, pool := .rfl', queue := hq, round := id
    errors := he, drives := fun _ => id, counts := id
    silent := fun hs =>
      { online := hs.online
        silent := fun hw => ⟨(hs.silent hw).1, (hs.silent hw).2.1, hnil (hs.silent hw).2.2.1, (hs.silent hw).2.2.2⟩ } }

theorem State.attemptReturned_line (s : State) (a : Attempt) : LineWork s (s.attemptReturned a) := by
  unfold State.attemptReturned
  split
  · exact .ofQueue s (fun h => h.sublist (dropFlying_sublist _)) (fun h => by rw [h]; rfl) (fun h => h.bump _)
  · exact .ofQueue s (fun h => h.land _ _) (fun h => by rw [h]; rfl) id

theorem State.attemptFailed_line (s : State) (a : Attempt) : LineWork s (s.attemptFailed a) := by
  unfold State.attemptFailed
  split
  · exact .ofQueue s (fun h => h.sublist (dropFlying_sublist _)) (fun h => by rw [h]; rfl) (fun h => h.bump _)
  · split
    · exact .ofQueue s (fun h => h.sublist (dropFlying_sublist _)) (fun h => by rw [h]; rfl) (fun h => h.bump _)
    · exact .ofQueue s (fun h => h.land _ _) (fun h => by rw [h]; rfl) id

theorem State.attemptCompleted_line (s : State) (a : Attempt) : LineWork s (s.attemptCompleted a) :=
  .ofQueue s (fun h => h.sublist (dropFlying_sublist _)) (fun h => by rw [h]; rfl) (fun h => h.afterTell _)

theorem State.endAttempt_line (s : State) (a : Attempt) (how : AttemptEnd) : LineWork s (s.endAttempt a how) := by
  have h : LineWork s { s with line := { s.line with
      attempt := none, holdoffOwed := decide (how ≠ AttemptEnd.lost)
      drive := if s.line.drive = Drive.frame then Drive.released else s.line.drive } } := by
    refine .ofLine s _ ?_ id fun h _ => ⟨h.1, h.2.1, rfl⟩
    intro _ hd hne
    refine hd fun e => hne ?_
    simp [e]
  unfold State.endAttempt
  simp only
  split
  · exact h.trans (State.attemptCompleted_line _ _)
  · exact h.trans (State.attemptReturned_line _ _)
  · exact h.trans (State.attemptFailed_line _ _)
  · exact h.trans (State.attemptReturned_line _ _)

/-- A transmit error on the Line Port, the frame given up, and the count of an entry to OFF. -/
theorem LineWork.ofSendError (s : State) (ha : s.line.attempt.isSome) (f : LinePort → LinePort)
    (hf : ∀ l, f l = { l with followed := (f l).followed, recessiveRun := (f l).recessiveRun }) (e : ErrorRecord)
    (he : s.errors.inRange → e.inRange) :
    LineWork s { s with line := f s.line.sendError, errors := e } := by
  have hstate : (f s.line.sendError).lineState = s.line.sendError.lineState := by rw [hf]
  have hdrive : (f s.line.sendError).drive = s.line.sendError.drive := by rw [hf]
  have htec : (f s.line.sendError).tec = s.line.sendError.tec := by rw [hf]
  have hrec : (f s.line.sendError).recCount = s.line.sendError.recCount := by rw [hf]
  have hjoin : (f s.line.sendError).joined = s.line.sendError.joined := by rw [hf]
  refine LineWork.trans (u := { s with line := f s.line.sendError }) (.ofLine s _ ?_ ?_ ?_)
    (.ofQueue _ (q := s.queue) id id he)
  · intro _ hd hne
    rcases s.line.sendError_spec with ⟨-, h⟩ | ⟨-, st, h, -, hst⟩
    · simp only [hdrive] at hne; rw [h] at hne; exact absurd rfl hne
    · simp only [hdrive] at hne; rw [h] at hne
      obtain ⟨h1, h2, h3, h4, h5⟩ := hd hne
      refine ⟨h1, ?_, h3, h4, ?_⟩
      · simp only [hjoin]; rw [h]; exact h2
      · simp only [hstate]; rw [h]; exact fun e => h5 (hst.1 e)
  · rintro ⟨-, h2⟩
    rw [htec, hrec]
    rcases s.line.sendError_spec with ⟨-, h⟩ | ⟨-, st, h, hle, -⟩
    · rw [h]; exact ⟨le_refl _, Nat.zero_le _⟩
    · rw [h]; exact ⟨hle, h2⟩
  · rintro ⟨-, -, h⟩ _
    rw [h] at ha; cases ha

theorem State.transmitError_line (s : State) (a : Attempt) (spoil : Bool) (ha : s.line.attempt.isSome)
    (hs : spoil = true → s.mayDrive = true) : LineWork s (s.transmitError a spoil) := by
  have h1 : LineWork s { s with
      line := { s.line.sendError with followed := none }
      errors := s.errors.bumpIf s.line.goesOff .lineOffEntries } :=
    .ofSendError s ha (fun l => { l with followed := none }) (fun _ => rfl) _ fun h => h.bumpIf _ _
  unfold State.transmitError
  simp only
  have h2 := h1.trans (State.endAttempt_line { s with
      line := { s.line.sendError with followed := none }
      errors := s.errors.bumpIf s.line.goesOff .lineOffEntries } a
    (if s.line.goesOff then .abandoned else .failed))
  split
  · next hc =>
    refine h2.trans (.ofLine _ _ ?_ id fun h _ => h)
    intro hr _ _
    have hrun : s.running = true := (State.running_eq h2.powered h2.resetLine).symm.trans hr
    obtain ⟨k1, k2, k3, k4⟩ := State.mayDrive_spec (hs hc.1)
    have hline : ∀ (u : State) (how : AttemptEnd), (u.endAttempt a how).line.joined = u.line.joined ∧
        (u.endAttempt a how).line.lineState = u.line.lineState := by
      intro u how
      unfold State.endAttempt
      cases how <;> simp only [State.attemptCompleted, State.attemptReturned, State.attemptFailed] <;>
        (repeat' split) <;> first | exact ⟨rfl, rfl⟩ | exact ⟨trivial, trivial⟩
    refine ⟨hr, ?_, ?_, ?_, ?_⟩
    · simp only [(hline _ _).1]
      rcases s.line.sendError_spec with ⟨-, h⟩ | ⟨-, st, h, -, -⟩ <;> rw [h] <;> exact k1
    · simp only [h2.loader]; exact k2
    · simp only [h2.station]; exact k3
    · simp only [(hline _ _).2]
      rcases s.line.sendError_spec with ⟨h, -⟩ | ⟨-, st, h, -, hst⟩
      · rw [hc.2] at h; cases h
      · rw [h]; exact fun e => k4 (hst.1 e)
  · exact h2

theorem State.receiveError_line (s : State) (kind : ErrorCount) : LineWork s (s.receiveError kind) := by
  obtain ⟨r, st, hl, hst, hr⟩ := s.line.receiveError_spec
  refine LineWork.trans (u := { s with line := { s.line.receiveError with
    followed := none, drive := if s.maySpoil then .spoil else s.line.receiveError.drive } }) (.ofLine s _ ?_ ?_ ?_)
    (.ofQueue _ (q := s.queue) id id fun h => h.bump _)
  · intro hrun hd hne
    have hall : s.line.joined = true ∧ s.loader.mode = .online ∧ s.station.shadow = false ∧
        s.line.lineState ≠ .off := by
      by_cases hm : s.maySpoil = true
      · exact State.mayDrive_spec (State.maySpoil_spec hm)
      · simp only [hm, hl] at hne
        exact (hd hne).2
    obtain ⟨h1, h2, h3, h4⟩ := hall
    exact ⟨hrun, by simpa [hl] using h1, h2, h3, by simpa [hl, hst] using h4⟩
  · rintro ⟨h1, h2⟩
    simp only [hl]
    exact ⟨h1, hr h2⟩
  · intro h _; simpa [hl] using h

theorem State.receiveChar_line (s : State) (f : Followed) (c : LineChar) : LineWork s (s.receiveChar f c) := by
  unfold State.receiveChar
  split
  · exact .refl s
  · split
    · exact s.receiveError_line _
    · refine .ofLine s _ ?_ id fun h _ => h
      intro hrun hd hne
      simp only at hne
      split at hne
      · next hm =>
        simp only [Bool.and_eq_true] at hm
        obtain ⟨h1, h2, h3, h4⟩ := State.mayDrive_spec (show s.mayDrive = true from hm.2)
        exact ⟨hrun, h1, h2, h3, h4⟩
      · exact hd hne

theorem State.sendChar_line (s : State) (a : Attempt) (f : Followed) (c : LineChar) :
    LineWork s (s.sendChar a f c) := by
  unfold State.sendChar
  split
  · exact .refl s
  · split
    · refine .ofCalm s _ rfl rfl rfl rfl rfl rfl ?_
      simp only
      split
      · exact .inr rfl
      · exact .inl rfl
    · exact .refl s

/-- A change of the recessive count alone. -/
theorem LineWork.ofRun (s : State) (n : Nat) : LineWork s { s with line := { s.line with recessiveRun := n } } :=
  .ofCalm s _ rfl rfl rfl rfl rfl rfl (.inl rfl)

/-- A quiet gap counted while OFF (R24). -/
theorem LineWork.ofGap (s : State) (n : Nat) :
    LineWork s { s with line := { s.line.countGap with recessiveRun := n } } := by
  unfold LinePort.countGap
  split
  · next hoff =>
    have hcalm : s.drivesLawfully → s.line.drive = .released := by
      intro hd
      by_contra hne
      exact (hd hne).2.2.2.2 hoff
    split
    · exact .ofLine s _ (fun _ hd hne => absurd (hcalm hd) hne) (fun _ => ⟨Nat.zero_le _, Nat.zero_le _⟩)
        fun h _ => ⟨rfl, h.2⟩
    · next hlt =>
      exact .ofLine s _ (fun _ hd hne => absurd (hcalm hd) hne) (fun h => ⟨h.1, by simp only; omega⟩) fun h _ => h
  · exact .ofRun s n

/-- The count of a character time, with the quiet gap it may hold. -/
theorem State.hear_line (s : State) (c : LineChar) : LineWork s { s with line := s.line.hear c } := by
  unfold LinePort.hear
  split
  · exact .ofRun s _
  · split
    · exact .ofGap s _
    · exact .ofRun s _

theorem State.takeChar_line (s : State) (c : LineChar) : LineWork s (s.takeChar c) := by
  unfold State.takeChar
  split
  · refine (s.hear_line c).trans ?_
    simp only
    split
    · exact .refl _
    · split
      · exact State.sendChar_line _ _ _ _
      · exact State.receiveChar_line _ _ _
  · exact .refl s

theorem State.seeSpoil_line (s : State) : LineWork s s.seeSpoil := by
  have h : LineWork s { s with
      line := { s.line.releaseAck with followed := none, recessiveRun := 0 }
      errors := s.errors.bump .spoilsSeen } := by
    refine LineWork.trans (u := { s with line := { s.line.releaseAck with followed := none, recessiveRun := 0 } }) ?_
      (.ofQueue _ (q := s.queue) id id fun h => h.bump _)
    refine .ofCalm s _ ?_ ?_ ?_ ?_ ?_ ?_ ?_ <;> simp only [LinePort.releaseAck_spec]
    split
    · exact .inr rfl
    · exact .inl rfl
  unfold State.seeSpoil
  simp only
  split
  · exact h
  · next a ha =>
    refine h.trans (State.transmitError_line _ a false ?_ (fun h => by cases h))
    simp only [LinePort.releaseAck_spec, ha, Option.isSome_some]

theorem State.windowAttempt_spec {s : State} {a : Attempt} {f : Followed} (h : s.windowAttempt = some (a, f)) :
    s.line.attempt = some a ∧ s.line.followed = some f ∧ f.inWindow = true := by
  unfold State.windowAttempt at h
  split at h
  · next h1 h2 =>
    split at h
    · next h3 => cases h; exact ⟨h1, h2, h3⟩
    · cases h
  · cases h

end Sys2Proof.Machine
end

