-- ==== Sys2Proof/Laws/Live.lean ====
section
/-!
SUPPORT. What the frame of a command comes to on a station that runs, and on one that does not.
-/

namespace Sys2Proof.Machine

/-- Time moves to the instant of the command. -/
theorem State.advance_of_le {s : State} {t : Nat} (h : s.clock ≤ t) : s.advance t = { s with clock := t } := by
  unfold State.advance
  rw [Nat.max_eq_right h]

theorem State.liveAt.advance {s : State} {t : Nat} (h : s.liveAt t) : s.advance t = { s with clock := t } :=
  State.advance_of_le h.time

theorem State.liveAt.running {s : State} {t : Nat} (h : s.liveAt t) : s.running = true := by
  simp [State.running, h.powered, h.released]

/-- On a station that runs the command takes its effect at its instant. -/
theorem State.liveAt.onEvent {s : State} {t : Nat} (h : s.liveAt t) (effect : State → State) :
    s.onEvent t effect = effect { s with clock := t } := by
  have hr : ({ s with clock := t } : State).running = true := h.running
  simp [State.onEvent, h.advance, hr]

/-- A command does one of two things: time moves on, or its effect happens at its instant. -/
theorem State.onEvent_cases (s : State) (t : Nat) (effect : State → State) :
    s.onEvent t effect = s.advance t ∨ (s.running = true ∧ s.onEvent t effect = effect (s.advance t)) := by
  unfold State.onEvent
  split
  · next h => exact .inr ⟨h, rfl⟩
  · exact .inl rfl

end Sys2Proof.Machine
end

