-- ==== Sys2Proof/Laws/Memory.lean ====
section
/-!
SUPPORT. The laws of the clip flash as a memory: what a byte reads after each operation, and that every operation keeps
the canonical form.
-/

namespace Sys2Proof.Machine

/-- Every address of `m` is `a` or above. -/
def Memory.startsAt (m : List Host.Cell) (a : Nat) : Prop :=
  ∀ c ∈ m, a ≤ c.1

theorem Memory.read_below {m : List Host.Cell} {a k : Nat} (h : Memory.startsAt m a) (hk : k < a) :
    Memory.read m k = erasedByte := by
  induction m with
  | nil => rfl
  | cons c rest ih =>
    obtain ⟨x, b⟩ := c
    have hx : a ≤ x := h (x, b) List.mem_cons_self
    simp only [Memory.read]
    rw [if_neg (by omega)]
    exact ih fun c hc => h c (List.mem_cons_of_mem _ hc)

/-- Rising addresses: the first cell is below the rest. -/
theorem Memory.rising_cons {x : Nat} {b : Byte} {rest : List Host.Cell}
    (h : List.Pairwise (fun a b : Host.Cell => a.1 < b.1) ((x, b) :: rest)) : Memory.startsAt rest (x + 1) :=
  fun c hc => (List.pairwise_cons.1 h).1 c hc

theorem Memory.read_write {m : List Host.Cell} (h : m.Pairwise (fun a b => a.1 < b.1)) (a : Nat) (b : Byte) (k : Nat) :
    Memory.read (Memory.write m a b) k = if k = a then b else Memory.read m k := by
  induction m with
  | nil =>
    simp only [Memory.write]
    by_cases hb : b = erasedByte
    · simp only [hb, if_true, Memory.read]; split <;> rfl
    · simp only [hb, if_false, Memory.read]
      by_cases hk : a = k
      · simp [hk]
      · simp [hk, Ne.symm hk]
  | cons c rest ih =>
    obtain ⟨x, v⟩ := c
    have hrest := Memory.rising_cons h
    have ih := ih (List.pairwise_cons.1 h).2
    simp only [Memory.write]
    by_cases h1 : a < x
    · by_cases hb : b = erasedByte
      · simp only [h1, if_true, hb]
        by_cases hk : k = a
        · subst hk
          rw [if_pos rfl]
          simp only [Memory.read]
          rw [if_neg (by omega)]
          exact Memory.read_below hrest (by omega)
        · rw [if_neg hk]
      · simp only [h1, if_true, hb, if_false]
        by_cases hk : k = a
        · subst hk; simp [Memory.read]
        · rw [if_neg hk]; simp only [Memory.read]; rw [if_neg (Ne.symm hk)]
    · by_cases h2 : a = x
      · subst h2
        by_cases hb : b = erasedByte
        · simp only [lt_irrefl, if_false, if_true, hb]
          by_cases hk : k = a
          · subst hk; rw [if_pos rfl]; exact Memory.read_below hrest (by omega)
          · rw [if_neg hk]; simp only [Memory.read]; rw [if_neg (Ne.symm hk)]
        · simp only [lt_irrefl, if_false, if_true, hb, Memory.read]
          by_cases hk : k = a
          · subst hk; simp
          · simp [hk, Ne.symm hk]
      · simp only [h1, if_false, h2, Memory.read]
        by_cases hk : x = k
        · subst hk; simp [Ne.symm h2]
        · simp only [hk, if_false]; exact ih

/-! ## The canonical form -/

theorem Memory.mem_write {m : List Host.Cell} {a : Nat} {b : Byte} {c : Host.Cell} (h : c ∈ Memory.write m a b) :
    c ∈ m ∨ (c = (a, b) ∧ b ≠ erasedByte) := by
  induction m with
  | nil =>
    simp only [Memory.write] at h
    split at h
    · cases h
    · next hb => exact .inr ⟨List.mem_singleton.1 h, hb⟩
  | cons d rest ih =>
    obtain ⟨x, v⟩ := d
    simp only [Memory.write] at h
    split at h
    · split at h
      · exact .inl h
      · next hb =>
        rcases List.mem_cons.1 h with h | h
        · exact .inr ⟨h, hb⟩
        · exact .inl h
    · split at h
      · split at h
        · exact .inl (List.mem_cons_of_mem _ h)
        · next hb =>
          rcases List.mem_cons.1 h with h | h
          · exact .inr ⟨h, hb⟩
          · exact .inl (List.mem_cons_of_mem _ h)
      · rcases List.mem_cons.1 h with h | h
        · exact .inl (h ▸ List.mem_cons_self)
        · rcases ih h with h | h
          · exact .inl (List.mem_cons_of_mem _ h)
          · exact .inr h

theorem Memory.write_rising {m : List Host.Cell} (h : m.Pairwise (fun a b => a.1 < b.1)) (a : Nat) (b : Byte) :
    (Memory.write m a b).Pairwise (fun a b => a.1 < b.1) := by
  induction m with
  | nil =>
    simp only [Memory.write]
    split
    · exact List.Pairwise.nil
    · exact List.pairwise_singleton _ _
  | cons d rest ih =>
    obtain ⟨x, v⟩ := d
    have hrest := Memory.rising_cons h
    have hp := (List.pairwise_cons.1 h).2
    simp only [Memory.write]
    split
    · next hlt =>
      split
      · exact h
      · refine List.pairwise_cons.2 ⟨?_, h⟩
        intro c hc
        rcases List.mem_cons.1 hc with hc | hc
        · subst hc; exact hlt
        · have := hrest c hc; simp only; omega
    · split
      · split
        · exact hp
        · next heq _ =>
          refine List.pairwise_cons.2 ⟨?_, hp⟩
          intro c hc
          have := hrest c hc
          simp only; omega
      · next hlt hne =>
        refine List.pairwise_cons.2 ⟨?_, ih hp⟩
        intro c hc
        rcases Memory.mem_write hc with hc | ⟨hc, _⟩
        · have := hrest c hc; simp only; omega
        · subst hc; simp only; omega

theorem Memory.wf.write {m : List Host.Cell} (h : Memory.wf m) {a : Nat} (ha : a < flashSize) (b : Byte) :
    Memory.wf (Memory.write m a b) := by
  refine ⟨Memory.write_rising h.1 a b, ?_⟩
  intro c hc
  rcases Memory.mem_write hc with hc | ⟨hc, hb⟩
  · exact h.2 c hc
  · subst hc; exact ⟨ha, hb⟩

theorem Memory.wf.erase {m : List Host.Cell} (h : Memory.wf m) (a : Nat) : Memory.wf (Memory.erase m a) :=
  ⟨h.1.filter _, fun c hc => h.2 c (List.mem_of_mem_filter hc)⟩

theorem Memory.wf.program {m : List Host.Cell} (h : Memory.wf m) {a : Nat} {data : List Byte}
    (ha : a + data.length ≤ flashSize) : Memory.wf (Memory.program m a data) := by
  induction data generalizing m a with
  | nil => exact h
  | cons d ds ih =>
    simp only [List.length_cons] at ha
    exact ih (h.write (by omega) _) (by omega)

theorem Memory.wf.eraseCut {m : List Host.Cell} (h : Memory.wf m) (a n : Nat) : Memory.wf (Memory.eraseCut m a n) := by
  constructor
  · refine List.Pairwise.filter _ (List.pairwise_map.2 (h.1.imp ?_))
    intro c d hcd
    split <;> split <;> exact hcd
  · intro c hc
    rw [Memory.eraseCut, List.mem_filter, List.mem_map] at hc
    obtain ⟨⟨d, hd, rfl⟩, hne⟩ := hc
    refine ⟨?_, of_decide_eq_true hne⟩
    split
    · exact (h.2 d hd).1
    · exact (h.2 d hd).1

theorem Memory.wf_nil : Memory.wf [] :=
  ⟨List.Pairwise.nil, fun _ h => by cases h⟩

/-! ## What a byte reads -/

theorem Memory.read_program {m : List Host.Cell} (h : m.Pairwise (fun a b => a.1 < b.1)) (a : Nat) (data : List Byte)
    (k : Nat) :
    Memory.read (Memory.program m a data) k =
      if a ≤ k ∧ k < a + data.length then Memory.read m k &&& data[k - a]?.getD erasedByte else Memory.read m k := by
  induction data generalizing m a with
  | nil => simp only [Memory.program, List.length_nil]; rw [if_neg (by omega)]
  | cons d ds ih =>
    simp only [Memory.program]
    rw [ih (Memory.write_rising h a _) (a + 1)]
    simp only [Memory.read_write h, List.length_cons]
    by_cases h1 : k = a
    · subst h1
      rw [if_neg (by omega), if_pos rfl, if_pos (by omega)]
      simp
    · rw [if_neg h1]
      by_cases h2 : a + 1 ≤ k ∧ k < a + 1 + ds.length
      · rw [if_pos h2, if_pos (by omega)]
        have : k - a = (k - (a + 1)) + 1 := by omega
        rw [this, List.getElem?_cons_succ]
      · rw [if_neg h2, if_neg (by omega)]

theorem Memory.read_filter {m : List Host.Cell} (p : Nat → Bool) (k : Nat) :
    Memory.read (m.filter fun c => p c.1) k = if p k then Memory.read m k else erasedByte := by
  induction m with
  | nil => simp [Memory.read]
  | cons c rest ih =>
    obtain ⟨x, b⟩ := c
    by_cases hx : p x = true
    · rw [List.filter_cons_of_pos (by simpa using hx)]
      simp only [Memory.read]
      by_cases hk : x = k
      · subst hk; simp [hx]
      · simp only [hk, if_false]; exact ih
    · rw [List.filter_cons_of_neg (by simpa using hx)]
      simp only [Memory.read]
      by_cases hk : x = k
      · subst hk; rw [ih]; simp [hx]
      · simp only [hk, if_false]; exact ih

theorem Memory.read_erase (m : List Host.Cell) (a k : Nat) :
    Memory.read (Memory.erase m a) k = if inSector a k then erasedByte else Memory.read m k := by
  rw [Memory.erase, Memory.read_filter (fun x => !inSector a x)]
  cases inSector a k <;> simp

theorem Memory.read_eraseCut {m : List Host.Cell} (h : m.Pairwise (fun a b => a.1 < b.1)) (a n k : Nat) :
    Memory.read (Memory.eraseCut m a n) k =
      if inSector a k then Memory.read m k ||| Config.eraseReached n k else Memory.read m k := by
  induction m with
  | nil =>
    simp only [Memory.eraseCut, List.map_nil, List.filter_nil, Memory.read, erasedByte]
    split
    · exact (BitVec.allOnes_or (x := Config.eraseReached n k)).symm
    · rfl
  | cons c rest ih =>
    obtain ⟨x, b⟩ := c
    have hrest := Memory.rising_cons h
    have ih := ih (List.pairwise_cons.1 h).2
    have hbelow : ∀ k', k' < x + 1 → Memory.read (Memory.eraseCut rest a n) k' = erasedByte := by
      intro k' hk'
      refine Memory.read_below (a := x + 1) ?_ hk'
      intro d hd
      rw [Memory.eraseCut, List.mem_filter, List.mem_map] at hd
      obtain ⟨⟨e, he, rfl⟩, -⟩ := hd
      have := hrest e he
      split
      · exact this
      · exact this
    simp only [Memory.eraseCut, List.map_cons] at *
    by_cases hs : inSector a x = true
    · simp only [hs, if_true]
      by_cases he : b ||| Config.eraseReached n x = erasedByte
      · rw [List.filter_cons_of_neg (by simpa using he)]
        by_cases hk : x = k
        · subst hk
          rw [hbelow x (by omega), if_pos hs]
          simp only [Memory.read, if_true]
          exact he.symm
        · rw [ih]; simp only [Memory.read, hk, if_false]
      · rw [List.filter_cons_of_pos (by simpa using he)]
        simp only [Memory.read]
        by_cases hk : x = k
        · subst hk; simp [hs]
        · simp only [hk, if_false]; exact ih
    · simp only [hs, Bool.false_eq_true, if_false]
      by_cases he : b = erasedByte
      · rw [List.filter_cons_of_neg (by simpa using he)]
        by_cases hk : x = k
        · subst hk
          rw [hbelow x (by omega), if_neg (by simpa using hs)]
          simp only [Memory.read, if_true]
          exact he.symm
        · rw [ih]; simp only [Memory.read, hk, if_false]
      · rw [List.filter_cons_of_pos (by simpa using he)]
        simp only [Memory.read]
        by_cases hk : x = k
        · subst hk; simp [hs]
        · simp only [hk, if_false]; exact ih

/-! ## Runs of bytes -/

theorem Memory.walk_length (m : List Host.Cell) (a n : Nat) : (Memory.walk m a n).length = n := by
  induction n generalizing m a with
  | zero => cases m <;> rfl
  | succ n ih =>
    cases m with
    | nil => simp [Memory.walk, ih]
    | cons c rest => obtain ⟨x, b⟩ := c; simp only [Memory.walk]; split <;> simp [ih]

@[simp] theorem Memory.readRun_length (m : List Host.Cell) (a n : Nat) : (Memory.readRun m a n).length = n :=
  Memory.walk_length _ _ _

theorem Memory.walk_get {m : List Host.Cell} (h : m.Pairwise (fun a b => a.1 < b.1)) {a : Nat} (ha : Memory.startsAt m a)
    {n i : Nat} (hi : i < n) : (Memory.walk m a n)[i]? = some (Memory.read m (a + i)) := by
  induction n generalizing m a i with
  | zero => omega
  | succ n ih =>
    cases m with
    | nil =>
      cases i with
      | zero => simp [Memory.walk, Memory.read]
      | succ i =>
        simp only [Memory.walk, List.getElem?_cons_succ]
        rw [ih h (a := a + 1) (fun c hc => by cases hc) (by omega)]
        rfl
    | cons c rest =>
      obtain ⟨x, b⟩ := c
      have hx : a ≤ x := ha (x, b) List.mem_cons_self
      have hrest := Memory.rising_cons h
      simp only [Memory.walk]
      by_cases hxa : x = a
      · subst hxa
        rw [if_pos rfl]
        cases i with
        | zero => simp [Memory.read]
        | succ i =>
          rw [List.getElem?_cons_succ, ih (List.pairwise_cons.1 h).2 hrest (by omega)]
          simp only [Memory.read]
          rw [if_neg (by omega)]
          congr 2; omega
      · rw [if_neg hxa]
        cases i with
        | zero => simp only [List.getElem?_cons_zero, Memory.read]; rw [if_neg (by omega), Memory.read_below hrest (by omega)]
        | succ i =>
          rw [List.getElem?_cons_succ, ih h (a := a + 1) ?_ (by omega)]
          · congr 2; omega
          · intro c hc
            rcases List.mem_cons.1 hc with hc | hc
            · subst hc; simp only; omega
            · have := hrest c hc; omega

theorem Memory.dropWhile_from {m : List Host.Cell} (h : m.Pairwise (fun a b => a.1 < b.1)) (a : Nat) :
    Memory.startsAt (m.dropWhile fun c => decide (c.1 < a)) a ∧
      (m.dropWhile fun c => decide (c.1 < a)).Pairwise (fun a b => a.1 < b.1) ∧
      (∀ k, a ≤ k → Memory.read (m.dropWhile fun c => decide (c.1 < a)) k = Memory.read m k) := by
  induction m with
  | nil => exact ⟨fun c hc => (List.not_mem_nil hc).elim, List.Pairwise.nil, fun _ _ => rfl⟩
  | cons c rest ih =>
    obtain ⟨x, b⟩ := c
    by_cases hx : x < a
    · rw [List.dropWhile_cons_of_pos (by simpa using hx)]
      obtain ⟨h1, h2, h3⟩ := ih (List.pairwise_cons.1 h).2
      refine ⟨h1, h2, fun k hk => ?_⟩
      rw [h3 k hk]
      simp only [Memory.read]
      rw [if_neg (by omega)]
    · rw [List.dropWhile_cons_of_neg (by simpa using hx)]
      refine ⟨?_, h, fun _ _ => rfl⟩
      intro d hd
      rcases List.mem_cons.1 hd with hd | hd
      · subst hd; simp only; omega
      · have := Memory.rising_cons h d hd; omega

/-- A run of bytes is the bytes at its addresses (R140). -/
theorem Memory.readRun_get {m : List Host.Cell} (h : Memory.wf m) (a : Nat) {n i : Nat} (hi : i < n) :
    (Memory.readRun m a n)[i]? = some (Memory.read m (a + i)) := by
  obtain ⟨h1, h2, h3⟩ := Memory.dropWhile_from h.1 a
  rw [Memory.readRun, Memory.walk_get h2 h1 hi, h3 _ (by omega)]

end Sys2Proof.Machine
end

