-- ==== Sys2Proof/Laws/Port.lean ====
section
/-!
SUPPORT. The characters of the service port on the wire (R184): how many bit times a response takes, and which bit goes out
in which of them.
-/

namespace Sys2Proof.Machine

@[simp] theorem portBits_length (b : Byte) : (portBits b).length = 11 := rfl

/-- A response is 5 characters and its payload (R197). -/
@[simp] theorem responseBytes_length (r : Response) : (responseBytes r).length = 5 + r.payload.length := by
  simp [responseBytes]
  omega

/-- Bit time `11 * k + i` of characters sent back to back is bit time `i` of the character at place `k`. -/
theorem serial_get (bytes : List Byte) (k : Nat) {i : Nat} (hi : i < 11) :
    (bytes.flatMap portBits)[11 * k + i]? = bytes[k]?.bind fun b => (portBits b)[i]? := by
  induction bytes generalizing k with
  | nil => simp
  | cons b bytes ih =>
    rw [List.flatMap_cons]
    cases k with
    | zero => rw [List.getElem?_append_left (by simpa using hi)]; simp
    | succ k =>
      rw [List.getElem?_append_right (by simp; omega), portBits_length,
        show 11 * (k + 1) + i - 11 = 11 * k + i by omega, ih]
      rfl

/-- The levels that a transmitter sends after the start bit of a character are those of the character. -/
theorem ofLevels_sent (b : Byte) (levels : BitVec 10)
    (h : ∀ i, i < 10 → some (levels.getLsbD i) = (portBits b)[i + 1]?) :
    PortChar.ofLevels levels = { data := b, parity := evenParity b, stopHigh := true } := by
  have data : levels.extractLsb' 0 8 = b := by
    refine BitVec.eq_of_getLsbD_eq fun i hi => ?_
    have hs := h i (by omega)
    simp only [portBits, List.getElem?_cons_succ] at hs
    rw [List.getElem?_append_left (by simpa using hi)] at hs
    simpa [hi] using hs
  have parity : levels.getLsbD 8 = evenParity b := Option.some_inj.1 (h 8 (by omega))
  have stop : levels.getLsbD 9 = true := Option.some_inj.1 (h 9 (by omega))
  unfold PortChar.ofLevels
  rw [data, parity, stop]

end Sys2Proof.Machine
end

