-- ==== Sys2Proof/Laws/Record.lean ====
section
/-!
SUPPORT. What the decoding of the start record and of a directory entry comes to, field by field (R129, R179, R195, R196).
-/

namespace Sys2Proof.Machine

/-! ## Bytes of a part of the record -/

theorem chunks_get (size : Nat) : ∀ (count : Nat) (bs : List Byte) (i : Nat), i < count →
    (chunks size count bs)[i]? = some ((bs.drop (size * i)).take size)
  | 0, _, _, h => absurd h (Nat.not_lt_zero _)
  | count + 1, bs, 0, _ => by simp [chunks]
  | count + 1, bs, i + 1, h => by
    rw [chunks, List.getElem?_cons_succ, chunks_get size count _ i (Nat.lt_of_succ_lt_succ h), List.drop_drop]
    congr 3
    rw [Nat.mul_succ, Nat.add_comm]

/-- A byte of the `i`-th record of a table is the byte of the whole at its offset. -/
theorem byteAt_chunk {size count start i k : Nat} (bs : List Byte) (hi : i < count) (hk : k < size) :
    byteAt ((chunks size count (bs.drop start))[i]?.getD []) k = byteAt bs (start + size * i + k) := by
  rw [chunks_get size count _ i hi, Option.getD_some, byteAt, byteAt, List.getElem?_take_of_lt hk, List.getElem?_drop,
    List.getElem?_drop, Nat.add_assoc]

theorem chunk_length {size count start i : Nat} (bs : List Byte) (hi : i < count)
    (h : start + size * i + size ≤ bs.length) :
    ((chunks size count (bs.drop start))[i]?.getD []).length = size := by
  rw [chunks_get size count _ i hi, Option.getD_some, List.length_take, List.length_drop, List.length_drop]
  omega

theorem run_eq (bs : List Byte) (start : Nat) : ∀ n, start + n ≤ bs.length →
    (bs.drop start).take n = (List.range n).map fun i => byteAt bs (start + i) := by
  intro n h
  apply List.ext_getElem?
  intro i
  by_cases hi : i < n
  · rw [List.getElem?_take_of_lt hi, List.getElem?_drop, List.getElem?_map, List.getElem?_range hi, Option.map_some,
      byteAt, List.getElem?_eq_getElem (by omega), Option.getD_some]
  · rw [List.getElem?_eq_none (by rw [List.length_take]; omega), List.getElem?_eq_none (by simpa using hi)]

theorem wordAt_eq (bs : List Byte) (i : Nat) : wordAt bs i = wordFrom (byteAt bs) i := by
  rw [wordAt, wordFrom, word16, BitVec.toNat_append, ← Nat.shiftLeft_add_eq_or_of_lt (byteAt bs i).isLt,
    Nat.shiftLeft_eq]
  omega

/-- A byte is the code `n` when its number is. -/
theorem byte_eq_iff {b : Byte} {n : Nat} (hn : n < 256) : b.toNat = n ↔ b = BitVec.ofNat 8 n :=
  ⟨fun h => BitVec.eq_of_toNat_eq (by rw [h, BitVec.toNat_ofNat, Nat.mod_eq_of_lt hn]),
    fun h => by rw [h, BitVec.toNat_ofNat, Nat.mod_eq_of_lt hn]⟩

/-! ## Fields -/

theorem inRange_some {lo hi : Nat} {b : Byte} {n : Nat} :
    inRange lo hi b = some n ↔ (lo ≤ b.toNat ∧ b.toNat ≤ hi) ∧ n = b.toNat := by
  unfold inRange
  split <;> simp_all [eq_comm]

theorem flagOf_some {b : Byte} {v : Bool} : flagOf b = some v ↔ SetOrClear b v := by
  unfold flagOf SetOrClear
  revert b
  cases v <;> decide

theorem seatOf_some {b : Byte} {k : Seat} : seatOf b = some k ↔ b = BitVec.ofNat 8 k.val := by
  revert k b
  decide

theorem goSeatOf_some {b : Byte} {seat : Option Seat} :
    goSeatOf b = some seat ↔ (b = 0xFF ∧ seat = none) ∨ ∃ k : Seat, b = BitVec.ofNat 8 k.val ∧ seat = some k := by
  unfold goSeatOf
  cases seat with
  | none => simp [Option.map_eq_some_iff]
  | some k =>
    by_cases h : b = 0xFF
    · subst h
      revert k
      decide
    · rw [if_neg h]
      simp only [Option.map_eq_some_iff, seatOf_some, Option.some.injEq, exists_eq_right, h, false_and, false_or,
        exists_eq_right']

theorem selectionOf_some {b : Byte} {v : Selection} :
    selectionOf b = some v ↔ (b, v) ∈ [((0 : Byte), Selection.fixed), (1, .cycle), (2, .seat)] := by
  revert b; cases v <;> decide

theorem retriggerOf_some {b : Byte} {v : Retrigger} :
    retriggerOf b = some v ↔ (b, v) ∈ [((0 : Byte), Retrigger.restart), (1, .layer), (2, .ignore)] := by
  revert b; cases v <;> decide

theorem endRouteOf_some {b : Byte} {v : EndRoute} :
    endRouteOf b = some v ↔ (b, v) ∈ [((0 : Byte), EndRoute.local), (1, .line)] := by
  revert b; cases v <;> decide

theorem patternOf_some {b : Byte} {v : PatternKind} :
    patternOf b = some v ↔ (b, v) ∈ [((0 : Byte), PatternKind.off), (1, .steady), (2, .blink)] := by
  revert b; cases v <;> decide

theorem filterOf_some {b : Byte} {v : SourceFilter} :
    filterOf b = some v ↔ (b, v) ∈ [((0 : Byte), SourceFilter.any), (1, .line), (2, .local)] := by
  revert b; cases v <;> decide

theorem bitRateOf_some {b : Byte} {v : BitRate} :
    bitRateOf b = some v ↔ (b, v) ∈ [((0 : Byte), BitRate.kbit125), (1, .kbit250), (2, .kbit500)] := by
  revert b; cases v <;> decide

theorem verbOf_some {b : Byte} {v : Verb} :
    verbOf b = some v ↔
      (b, v) ∈ [((0 : Byte), Verb.arm), (1, .openBuzzers), (2, .right), (3, .wrong), (4, .void)] := by
  revert b; cases v <;> decide

theorem lampNumberOf_some {b : Byte} {k : Fin 8} : lampNumberOf b = some k ↔ k.val = b.toNat := by
  unfold lampNumberOf
  split
  · simp [Fin.ext_iff, eq_comm]
  · simp; omega

theorem longTimeOf_some {b : Byte} {n : Nat} :
    longTimeOf b = some n ↔ (b = 0 ∨ 10 ≤ b.toNat) ∧ n = b.toNat := by
  have h0 : b.toNat = 0 ↔ b = 0 := byte_eq_iff (by decide)
  unfold longTimeOf
  rw [← h0]
  split <;> rename_i h
  · rw [Option.some.injEq]
    exact ⟨fun e => ⟨h, e.symm⟩, fun e => e.2.symm⟩
  · simp only [h, false_and, reduceCtorEq]

theorem duckTimeOf_some {w n : Nat} : duckTimeOf w = some n ↔ w ≤ 2550 ∧ n = w := by
  unfold duckTimeOf
  split <;> simp_all [eq_comm]

theorem eventCodeOf_some {w : Nat} {v : Option Byte} :
    eventCodeOf w = some v ↔ (w ≤ 255 ∧ v = some (BitVec.ofNat 8 w)) ∨ (w = 65535 ∧ v = none) := by
  unfold eventCodeOf byteOf
  by_cases h : w ≤ 255
  · simp [h, eq_comm]; omega
  · by_cases h2 : w = 65535 <;> simp [h, h2, eq_comm]

theorem allFields_some {α : Type} {n : Nat} {f : Fin n → Option α} {v : Vector α n} :
    allFields f = some v ↔ ∀ i, f i = some v[i] := by
  unfold allFields
  constructor
  · intro h i
    split at h
    · rename_i hs
      cases h
      simp
    · cases h
  · intro h
    have hs : ∀ i, (f i).isSome := fun i => by rw [h i]; rfl
    rw [dif_pos hs]
    congr 1
    ext i hi
    have := h ⟨i, hi⟩
    simp only [Vector.getElem_ofFn]
    rw [Option.get_of_eq_some _ this]
    rfl

/-! ## Parts of the record -/

theorem actionOf_some {kind a b c : Byte} {x : InputAction} :
    actionOf kind a b c = some x ↔ ActionHolds kind a b c x := by
  constructor
  · intro h
    unfold actionOf at h
    split at h <;> rename_i hk
    · exact .inl ⟨(byte_eq_iff (by decide)).1 hk, (Option.some.inj h).symm⟩
    · obtain ⟨k, hs, rfl⟩ := Option.map_eq_some_iff.1 h
      exact .inr (.inl ⟨(byte_eq_iff (by decide)).1 hk, k, seatOf_some.1 hs, rfl⟩)
    · obtain ⟨seat, hs, h⟩ := Option.bind_eq_some_iff.1 h
      obtain ⟨once, ho, rfl⟩ := Option.map_eq_some_iff.1 h
      exact .inr (.inr (.inl ⟨(byte_eq_iff (by decide)).1 hk, seat, once, goSeatOf_some.1 hs, flagOf_some.1 ho, rfl⟩))
    · exact .inr (.inr (.inr (.inl ⟨(byte_eq_iff (by decide)).1 hk, (Option.some.inj h).symm⟩)))
    · exact .inr (.inr (.inr (.inr (.inl ⟨(byte_eq_iff (by decide)).1 hk, (Option.some.inj h).symm⟩))))
    · obtain ⟨v, hv, rfl⟩ := Option.map_eq_some_iff.1 h
      exact .inr (.inr (.inr (.inr (.inr (.inl ⟨(byte_eq_iff (by decide)).1 hk, v, verbOf_some.1 hv, rfl⟩)))))
    · exact .inr (.inr (.inr (.inr (.inr (.inr ⟨(byte_eq_iff (by decide)).1 hk, (Option.some.inj h).symm⟩)))))
    · cases h
  · rintro (⟨rfl, rfl⟩ | ⟨rfl, k, ha, rfl⟩ | ⟨rfl, seat, once, hs, ho, rfl⟩ | ⟨rfl, rfl⟩ | ⟨rfl, rfl⟩ |
      ⟨rfl, v, hv, rfl⟩ | ⟨rfl, rfl⟩)
    · rfl
    · exact congrArg (Option.map InputAction.buzz) (seatOf_some.2 ha)
    · show ((goSeatOf b).bind fun seat => (flagOf c).map fun single => InputAction.go a seat single) = _
      rw [goSeatOf_some.2 hs, flagOf_some.2 ho]
      rfl
    · rfl
    · rfl
    · exact congrArg (Option.map InputAction.judge) (verbOf_some.2 hv)
    · rfl

theorem inputOf_some {bs : List Byte} {b : Nat → Byte} {x : InputConfig} (hb : ∀ k, k < 10 → byteAt bs k = b k) :
    inputOf bs = some x ↔ InputHolds b x := by
  rw [← show (fun k => b k) = b from rfl]
  unfold inputOf
  simp only [hb 0 (by decide), hb 1 (by decide), hb 2 (by decide), hb 3 (by decide), hb 4 (by decide),
    hb 5 (by decide), hb 6 (by decide), hb 7 (by decide), hb 8 (by decide), hb 9 (by decide), Option.bind_eq_bind,
    Option.bind_eq_some_iff, inRange_some, longTimeOf_some, actionOf_some, Option.some.injEq]
  constructor
  · rintro ⟨_, ⟨⟨h1, h2⟩, rfl⟩, _, ⟨h3, rfl⟩, s, h4, l, h5, rfl⟩
    exact ⟨⟨h1, h2, rfl⟩, ⟨h3, rfl⟩, h4, h5⟩
  · rintro ⟨⟨h1, h2, h3⟩, ⟨h4, h5⟩, h6, h7⟩
    exact ⟨_, ⟨⟨h1, h2⟩, h3⟩, _, ⟨h4, h5⟩, _, h6, _, h7, rfl⟩

theorem lampOf_some {bs : List Byte} {b : Nat → Byte} {x : LampAssign} (hb : ∀ k, k < 2 → byteAt bs k = b k) :
    lampOf bs = some x ↔ LampHolds b x := by
  unfold lampOf LampHolds
  rw [hb 0 (by decide), hb 1 (by decide)]
  constructor
  · intro h
    split at h <;> rename_i hk
    · obtain ⟨k, hs, rfl⟩ := Option.map_eq_some_iff.1 h
      exact .inl ⟨(byte_eq_iff (by decide)).1 hk, k, seatOf_some.1 hs, rfl⟩
    · exact .inr ⟨(byte_eq_iff (by decide)).1 hk, (Option.some.inj h).symm⟩
    · cases h
  · rintro (⟨h0, k, h1, rfl⟩ | ⟨h0, rfl⟩)
    · rw [h0, seatOf_some.2 h1]
      rfl
    · rw [h0]
      rfl

theorem playOf_some {bs : List Byte} {b : Nat → Byte} {p : PlayConfig} (hl : 24 ≤ bs.length)
    (hb : ∀ k, k < 24 → byteAt bs k = b k) : playOf bs = some p ↔ PlayHolds b p := by
  unfold playOf
  simp only [hb 5 (by decide), hb 10 (by decide), hb 11 (by decide), hb 12 (by decide), hb 13 (by decide),
    hb 14 (by decide), hb 15 (by decide), hb 16 (by decide), hb 17 (by decide), hb 18 (by decide), hb 19 (by decide),
    hb 20 (by decide), hb 21 (by decide), hb 22 (by decide), hb 23 (by decide), Option.bind_eq_bind,
    Option.bind_eq_some_iff, inRange_some, selectionOf_some, retriggerOf_some, endRouteOf_some, flagOf_some,
    Option.some.injEq]
  have run : ∀ n, n ≤ 4 → (bs.drop 6).take n = (List.range n).map fun i => b (6 + i) := fun n hn => by
    rw [run_eq bs 6 n (by omega)]
    exact List.map_congr_left fun i hi => hb _ (by have := List.mem_range.1 hi; omega)
  constructor
  · rintro ⟨_, ⟨⟨h1, h2⟩, rfl⟩, sel, h3, _, ⟨⟨-, h4⟩, rfl⟩, _, ⟨⟨-, h5⟩, rfl⟩, _, ⟨⟨-, h6⟩, rfl⟩, _, ⟨⟨-, h7⟩, rfl⟩, _,
      ⟨⟨-, h8⟩, rfl⟩, lp, h9, rt, h10, he, h11, rr, h12, rfl⟩
    refine ⟨⟨h1, h2, run _ h2⟩, h3, ⟨h4, rfl⟩, ⟨h5, rfl⟩, ⟨h6, rfl⟩, ⟨h7, rfl⟩, ⟨h8, rfl⟩, ⟨rfl, rfl, rfl⟩, h9, h10, ?_,
      h12⟩
    rcases h11 with ⟨h, rfl⟩ | ⟨h, rfl⟩
    · exact .inl ⟨h, rfl⟩
    · exact .inr ⟨h, rfl⟩
  · rintro ⟨⟨h1, h2, hc⟩, h3, ⟨h4, e4⟩, ⟨h5, e5⟩, ⟨h6, e6⟩, ⟨h7, e7⟩, ⟨h8, e8⟩, ⟨f1, f2, f3⟩, h9, h10, h11, h12⟩
    obtain ⟨_, _, _, _, _, _, _, _, _, _, _, _, _, _⟩ := p
    dsimp only at *
    subst e4 e5 e6 e7 e8 f1 f2 f3 hc
    rcases h11 with ⟨h, rfl⟩ | ⟨h, rfl⟩
    · exact ⟨_, ⟨⟨h1, h2⟩, rfl⟩, _, h3, _, ⟨⟨Nat.zero_le _, h4⟩, rfl⟩, _, ⟨⟨Nat.zero_le _, h5⟩, rfl⟩, _,
        ⟨⟨Nat.zero_le _, h6⟩, rfl⟩, _, ⟨⟨Nat.zero_le _, h7⟩, rfl⟩, _, ⟨⟨Nat.zero_le _, h8⟩, rfl⟩, _, h9, _, h10, false,
        .inl ⟨h, rfl⟩, _, h12, by rw [run _ h2]; rfl⟩
    · exact ⟨_, ⟨⟨h1, h2⟩, rfl⟩, _, h3, _, ⟨⟨Nat.zero_le _, h4⟩, rfl⟩, _, ⟨⟨Nat.zero_le _, h5⟩, rfl⟩, _,
        ⟨⟨Nat.zero_le _, h6⟩, rfl⟩, _, ⟨⟨Nat.zero_le _, h7⟩, rfl⟩, _, ⟨⟨Nat.zero_le _, h8⟩, rfl⟩, _, h9, _, h10, true,
        .inr ⟨h, rfl⟩, _, h12, by rw [run _ h2]; rfl⟩

theorem stopGroupOf_some {bs : List Byte} {b : Nat → Byte} {x : SlotAction} (hb : ∀ k, k < 24 → byteAt bs k = b k) :
    stopGroupOf bs = some x ↔ 1 ≤ (b 5).toNat ∧ (b 5).toNat ≤ 7 ∧
      ((b 6 = 0 ∧ x = .stopGroup (b 5).toNat none) ∨ (b 6 = 1 ∧ x = .stopGroup (b 5).toNat (some (b 7).toNat))) := by
  unfold stopGroupOf
  simp only [hb 5 (by decide), hb 6 (by decide), hb 7 (by decide), Option.bind_eq_bind, Option.bind_eq_some_iff,
    inRange_some, flagOf_some, Option.some.injEq]
  constructor
  · rintro ⟨_, ⟨⟨h1, h2⟩, rfl⟩, _, ⟨h, rfl⟩ | ⟨h, rfl⟩, rfl⟩
    · exact ⟨h1, h2, .inl ⟨h, rfl⟩⟩
    · exact ⟨h1, h2, .inr ⟨h, rfl⟩⟩
  · rintro ⟨h1, h2, ⟨h, rfl⟩ | ⟨h, rfl⟩⟩
    · exact ⟨_, ⟨⟨h1, h2⟩, rfl⟩, false, .inl ⟨h, rfl⟩, rfl⟩
    · exact ⟨_, ⟨⟨h1, h2⟩, rfl⟩, true, .inr ⟨h, rfl⟩, rfl⟩

theorem lampOrderOf_some {bs : List Byte} {b : Nat → Byte} {x : SlotAction} (hb : ∀ k, k < 24 → byteAt bs k = b k) :
    lampOrderOf bs = some x ↔ ∃ l, LampOrderHolds b l ∧ x = .lamp l := by
  unfold lampOrderOf
  simp only [hb 5 (by decide), hb 6 (by decide), hb 7 (by decide), hb 8 (by decide), hb 9 (by decide),
    hb 10 (by decide), Option.bind_eq_bind, Option.bind_eq_some_iff, inRange_some, lampNumberOf_some, patternOf_some,
    Option.some.injEq]
  constructor
  · rintro ⟨lamp, h1, pattern, h2, _, ⟨⟨h3, -⟩, rfl⟩, _, ⟨⟨h4, h5⟩, rfl⟩, rfl⟩
    exact ⟨_, ⟨h1, h2, rfl, ⟨h3, rfl⟩, ⟨h4, h5, rfl⟩, rfl⟩, rfl⟩
  · rintro ⟨⟨lamp, pattern, _, _, _, _⟩, ⟨h1, h2, e1, ⟨h3, e2⟩, ⟨h4, h5, e3⟩, e4⟩, rfl⟩
    dsimp only at *
    subst e1 e2 e3 e4
    exact ⟨_, h1, _, h2, _, ⟨⟨h3, by have := (b 8).isLt; omega⟩, rfl⟩, _, ⟨⟨h4, h5⟩, rfl⟩, rfl⟩

theorem emitOf_some {bs : List Byte} {b : Nat → Byte} {x : SlotAction} (hb : ∀ k, k < 24 → byteAt bs k = b k) :
    emitOf bs = some x ↔
      ∃ once through, SetOrClear (b 6) once ∧ SetOrClear (b 7) through ∧ x = .emit (b 5) once through := by
  unfold emitOf
  simp only [hb 5 (by decide), hb 6 (by decide), hb 7 (by decide), Option.bind_eq_bind, Option.bind_eq_some_iff,
    flagOf_some, Option.some.injEq]
  constructor
  · rintro ⟨once, h1, through, h2, rfl⟩
    exact ⟨once, through, h1, h2, rfl⟩
  · rintro ⟨once, through, h1, h2, rfl⟩
    exact ⟨once, h1, through, h2, rfl⟩

theorem slotActionOf_some {bs : List Byte} {b : Nat → Byte} {x : SlotAction} (hl : 24 ≤ bs.length)
    (hb : ∀ k, k < 24 → byteAt bs k = b k) : slotActionOf bs = some x ↔ SlotActionHolds b x := by
  unfold slotActionOf SlotActionHolds
  rw [hb 4 (by decide), ← stopGroupOf_some hb, ← lampOrderOf_some hb, ← emitOf_some hb]
  constructor
  · intro h
    split at h <;> rename_i hk
    · obtain ⟨p, hp, rfl⟩ := Option.map_eq_some_iff.1 h
      exact .inl ⟨(byte_eq_iff (by decide)).1 hk, p, (playOf_some hl hb).1 hp, rfl⟩
    · exact .inr (.inl ⟨(byte_eq_iff (by decide)).1 hk, h⟩)
    · exact .inr (.inr (.inl ⟨(byte_eq_iff (by decide)).1 hk, h⟩))
    · exact .inr (.inr (.inr ⟨(byte_eq_iff (by decide)).1 hk, h⟩))
    · cases h
  · rintro (⟨h4, p, hp, rfl⟩ | ⟨h4, h⟩ | ⟨h4, h⟩ | ⟨h4, h⟩)
    · rw [h4]
      exact congrArg (Option.map SlotAction.play) ((playOf_some hl hb).2 hp)
    all_goals
      rw [h4]
      exact h

theorem slotOfRecord_some {bs : List Byte} {b : Nat → Byte} {x : SlotRecord} (hl : 24 ≤ bs.length)
    (hb : ∀ k, k < 24 → byteAt bs k = b k) : slotOfRecord bs = some x ↔ SlotHolds b x := by
  unfold slotOfRecord
  simp only [hb 0 (by decide), hb 1 (by decide), hb 2 (by decide), hb 3 (by decide), Option.bind_eq_bind,
    Option.bind_eq_some_iff, flagOf_some, filterOf_some, slotActionOf_some hl hb, Option.some.injEq]
  constructor
  · rintro ⟨_, h1, _, h2, _, h3, rfl⟩
    exact ⟨h1, ⟨rfl, rfl⟩, h2, h3⟩
  · obtain ⟨_, _, _, _, _⟩ := x
    rintro ⟨h1, ⟨rfl, rfl⟩, h2, h3⟩
    exact ⟨_, h1, _, h2, _, h3, rfl⟩

theorem armOf_some {bs : List Byte} {x : ArmFields} (hl : 23 ≤ bs.length) :
    armOf ((bs.drop 18).take 5) = some x ↔
      ((byteAt bs 18 = 0 ∧ x.rebound = .queue) ∨ (byteAt bs 18 = 1 ∧ x.rebound = .reopen)) ∧
        x.window = (byteAt bs 19).toNat ∧ x.penalty = (byteAt bs 20).toNat ∧
        x.eligible = byteAt bs 21 ++ byteAt bs 22 := by
  rw [run_eq bs 18 5 hl]
  show (reboundOf (byteAt bs 18)).map _ = some x ↔ _
  obtain ⟨r, w, p, e⟩ := x
  have hr : reboundOf (byteAt bs 18) = some r ↔
      (byteAt bs 18 = 0 ∧ r = .queue) ∨ (byteAt bs 18 = 1 ∧ r = .reopen) := by
    generalize byteAt bs 18 = y
    revert y
    cases r <;> decide
  simp only [Option.map_eq_some_iff, ArmFields.mk.injEq]
  constructor
  · rintro ⟨_, h, rfl, rfl, rfl, rfl⟩
    exact ⟨hr.1 h, rfl, rfl, rfl⟩
  · rintro ⟨h, rfl, rfl, rfl⟩
    exact ⟨r, hr.2 h, rfl, rfl, rfl, rfl⟩

/-- R179, R196: the decoding of the whole record. -/
theorem recordOf_some {bs : List Byte} (hl : bs.length = 1536) {r : StartRecord} :
    recordOf bs = some r ↔ RecordHolds (byteAt bs) r := by
  have hin : ∀ (i : Fin 8) x, inputOf ((chunks 10 8 (bs.drop 64))[i.val]?.getD []) = some x ↔
      InputHolds (fun k => byteAt bs (64 + 10 * i + k)) x := fun i x => inputOf_some fun k hk => byteAt_chunk bs i.isLt hk
  have hla : ∀ (i : Fin 8) x, lampOf ((chunks 2 8 (bs.drop 144))[i.val]?.getD []) = some x ↔
      LampHolds (fun k => byteAt bs (144 + 2 * i + k)) x := fun i x => lampOf_some fun k hk => byteAt_chunk bs i.isLt hk
  have hsl : ∀ (i : Fin 48) x, slotOfRecord ((chunks 24 48 (bs.drop 160))[i.val]?.getD []) = some x ↔
      SlotHolds (fun k => byteAt bs (160 + 24 * i + k)) x := fun i x =>
    slotOfRecord_some (by rw [chunk_length bs i.isLt (by omega)]) fun k hk => byteAt_chunk bs i.isLt hk
  unfold recordOf stationOf
  simp only [Option.bind_eq_bind, Option.bind_eq_some_iff, inRange_some, flagOf_some, bitRateOf_some, duckTimeOf_some,
    eventCodeOf_some, allFields_some, armOf_some (show 23 ≤ bs.length by omega), hin, hla, hsl, wordAt_eq,
    Option.some.injEq]
  constructor
  · rintro ⟨_, ⟨n, ⟨⟨h1, h2⟩, rfl⟩, _, h3, _, ⟨⟨h4, h5⟩, rfl⟩, _, h6, _, h7, _, h8, rfl⟩, _, h9, _, ⟨⟨h10, h11⟩, rfl⟩, _,
      ⟨h12, rfl⟩, _, ⟨h13, rfl⟩, _, ⟨⟨-, h14⟩, rfl⟩, _, ⟨⟨-, h15⟩, rfl⟩, _, h16, _, h17, _, h18, rfl⟩
    exact
      { number := ⟨h1, h2, by rw [BitVec.toNat_ofNat, Nat.mod_eq_of_lt (by omega)]⟩, shadow := h3, bitRate := h9
        warningLevel := ⟨h10, h11, rfl⟩, fireLead := ⟨h4, h5, rfl⟩, whole := ⟨rfl, rfl, rfl⟩, attack := ⟨h12, rfl⟩
        release := ⟨h13, rfl⟩, airMaster := ⟨h14, rfl⟩, houseMaster := ⟨h15, rfl⟩, armPreset := h6, eventCodes := h7
        addSeat := h8, inputs := h16, lamps := h17, slots := h18 }
  · rintro ⟨⟨h1, h2, e1⟩, h3, h9, ⟨h10, h11, e2⟩, ⟨h4, h5, e3⟩, ⟨e4, e5, e6⟩, ⟨h12, e7⟩, ⟨h13, e8⟩, ⟨h14, e9⟩,
      ⟨h15, e10⟩, h6, h7, h8, h16, h17, h18⟩
    obtain ⟨⟨number, _, _, _, _, _, _, _⟩, _, _, _, _, _, _, _, _, _, _⟩ := r
    dsimp only at *
    subst e2 e3 e4 e5 e6 e7 e8 e9 e10
    have hn : BitVec.ofNat 4 (byteAt bs 4).toNat = number := BitVec.eq_of_toNat_eq (by
      rw [BitVec.toNat_ofNat, e1, Nat.mod_eq_of_lt (by omega)])
    exact ⟨_, ⟨_, ⟨⟨h1, h2⟩, rfl⟩, _, h3, _, ⟨⟨h4, h5⟩, rfl⟩, _, h6, _, h7, _, h8, rfl⟩, _, h9, _, ⟨⟨h10, h11⟩, rfl⟩, _,
      ⟨h12, rfl⟩, _, ⟨h13, rfl⟩, _, ⟨⟨Nat.zero_le _, h14⟩, rfl⟩, _, ⟨⟨Nat.zero_le _, h15⟩, rfl⟩, _, h16, _, h17, _, h18,
      by rw [hn]⟩

/-- R178: the words of the record add up to its word sum. -/
theorem wordSum_eq : ∀ (n : Nat) (bs : List Byte), bs.length = 2 * n →
    (wordSum bs).toNat = ((List.range n).map fun i => wordFrom (byteAt bs) (2 * i)).sum % 65536
  | 0, bs, h => by
    rw [List.length_eq_zero_iff.1 h]
    rfl
  | n + 1, lo :: hi :: rest, h => by
    have hw : (word16 hi lo).toNat = wordFrom (byteAt (lo :: hi :: rest)) 0 := wordAt_eq (lo :: hi :: rest) 0
    have hr : ∀ i, wordFrom (byteAt (lo :: hi :: rest)) (2 * (i + 1)) = wordFrom (byteAt rest) (2 * i) := fun i => rfl
    rw [wordSum, BitVec.toNat_add, wordSum_eq n rest (by simpa [Nat.mul_add] using h), hw, List.range_succ_eq_map,
      List.map_cons, List.map_map, List.sum_cons, Nat.add_mod_mod]
    rfl
  | n + 1, [_], h => by simp at h; omega
  | n + 1, [], h => by simp at h

/-- R178: the three stages on 1536 bytes. -/
theorem judgeRecord_cases {bs : List Byte} {b : Nat → Byte} {sum : Nat} (hl : bs.length = 1536) (hb : byteAt bs = b)
    (hs : sum = ((List.range 768).map fun i => wordFrom b (2 * i)).sum) :
    (wordFrom b 0 ≠ 0x4353 ∨ wordFrom b 2 ≠ 1 → judgeRecord bs = .fault .noRecord) ∧
    (wordFrom b 0 = 0x4353 → wordFrom b 2 = 1 →
      (sum % 65536 ≠ 0 → judgeRecord bs = .fault .badSum) ∧
      (sum % 65536 = 0 → (∀ r, ¬ RecordHolds b r) → judgeRecord bs = .fault .badValue) ∧
      ∀ r, sum % 65536 = 0 → RecordHolds b r → judgeRecord bs = .passed r) := by
  subst hb
  have hz : wordSum bs = 0 ↔ sum % 65536 = 0 := by
    rw [hs, ← wordSum_eq 768 bs hl]
    exact ⟨fun h => by rw [h]; rfl, fun h => BitVec.eq_of_toNat_eq h⟩
  unfold judgeRecord
  rw [wordAt_eq, wordAt_eq]
  refine ⟨fun h => if_pos h, fun h0 h2 => ?_⟩
  rw [if_neg fun h => h.elim (fun h => h h0) fun h => h h2]
  refine ⟨fun h => if_pos fun hw => h (hz.1 hw), fun h hr => ?_, fun r h hr => ?_⟩
  · rw [if_neg fun hw => hw (hz.2 h)]
    cases hc : recordOf bs with
    | none => rfl
    | some r => exact absurd ((recordOf_some hl).1 hc) (hr r)
  · rw [if_neg fun hw => hw (hz.2 h), (recordOf_some hl).2 hr]

/-! ## A directory entry -/

theorem littleEndian_take3 (bs : List Byte) (h : 3 ≤ bs.length) :
    littleEndian (bs.take 3) = entryAddress (byteAt bs) := by
  have := run_eq bs 0 3 (by omega)
  rw [List.drop_zero] at this
  rw [this]
  simp [littleEndian, List.range_succ, entryAddress]
  omega

theorem littleEndian_four (bs : List Byte) (i : Nat) (h : i + 4 ≤ bs.length) :
    littleEndian ((bs.drop i).take 4) = longFrom (byteAt bs) i := by
  rw [run_eq bs i 4 h]
  simp [littleEndian, List.range_succ, longFrom]
  omega

theorem blank_iff (bs : List Byte) (h : bs.length = 16) :
    (bs.all fun b => decide (b = erasedByte)) = true ↔ EntryBlank (byteAt bs) := by
  rw [List.all_eq_true]
  constructor
  · intro ha i hi
    rw [byteAt, List.getElem?_eq_getElem (by omega), Option.getD_some]
    exact of_decide_eq_true (ha _ (List.getElem_mem _))
  · intro hb x hx
    obtain ⟨i, hi, rfl⟩ := List.getElem_of_mem hx
    have := hb i (by omega)
    rw [byteAt, List.getElem?_eq_getElem hi, Option.getD_some] at this
    exact decide_eq_true this

theorem channelsOf_some {b : Byte} {c : Channels} :
    channelsOf b = some c ↔ (b, c) ∈ [((1 : Byte), Channels.mono), (2, .stereo)] := by
  revert b; cases c <;> decide

theorem channelsOf_none {b : Byte} : channelsOf b = none ↔ b ≠ 1 ∧ b ≠ 2 := by
  revert b; decide

/-- The tests of R129 on the clip an entry holds. -/
theorem fits_iff {b : Nat → Byte} {channels : Channels} {clip : Clip} (hc : channelsOf (b 3) = some channels)
    (e : clip =
      { address := entryAddress b, frames := longFrom b 4, channels := channels
        loop := markedLoop (longFrom b 8) (longFrom b 12) }) (hb : ¬ EntryBlank b) :
    clip.fits = true ↔ ¬ EntryRefused b := by
  have hch : b 3 = 1 ∧ channels.bytes = 2 * (b 3).toNat ∨ b 3 = 2 ∧ channels.bytes = 2 * (b 3).toNat := by
    rw [channelsOf_some] at hc
    simp only [List.mem_cons, Prod.mk.injEq, List.not_mem_nil, or_false] at hc
    rcases hc with ⟨h, rfl⟩ | ⟨h, rfl⟩
    · exact .inl ⟨h, by rw [h]; rfl⟩
    · exact .inr ⟨h, by rw [h]; rfl⟩
  have hw : channels.bytes = 2 * (b 3).toNat := by rcases hch with h | h <;> exact h.2
  have h12 : ¬ (b 3 ≠ 1 ∧ b 3 ≠ 2) := by
    rcases hch with h | h
    · exact fun k => k.1 h.1
    · exact fun k => k.2 h.1
  have hl : loopFits (longFrom b 4) (markedLoop (longFrom b 8) (longFrom b 12)) = true ↔
      ¬ (¬ (longFrom b 8 = 0xFFFFFFFF ∧ longFrom b 12 = 0xFFFFFFFF) ∧
        (longFrom b 12 ≤ longFrom b 8 ∨ longFrom b 4 < longFrom b 12)) := by
    unfold markedLoop
    split
    · simp_all [loopFits]
    · rename_i h
      simp only [loopFits, Bool.and_eq_true, decide_eq_true_eq, h, not_false_eq_true, true_and]
      omega
  subst e
  unfold Clip.fits EntryRefused
  simp only [Bool.and_eq_true, decide_eq_true_eq, hl, hw, hb, h12, not_false_eq_true, true_and, false_or, flashSize,
    not_or, ← Nat.mul_assoc]
  generalize longFrom b 4 * 2 * (b 3).toNat = size
  generalize hq : (¬ (longFrom b 8 = 0xFFFFFFFF ∧ longFrom b 12 = 0xFFFFFFFF) ∧ _) = q
  constructor
  · rintro ⟨⟨⟨⟨h1, h2⟩, h3⟩, h4⟩, h5⟩
    unfold maxFrames at h2
    unfold audioStart at h3
    exact ⟨by omega, by omega, by omega, by omega, h5⟩
  · rintro ⟨h1, h2, h3, h4, h5⟩
    have h6 : maxFrames = 4194304 := rfl
    have h7 : audioStart = 12288 := rfl
    exact ⟨⟨⟨⟨by omega, by omega⟩, by omega⟩, by omega⟩, h5⟩

/-- What an entry of 16 bytes is judged to be (R129, R195). -/
theorem judgeEntry_cases {bs : List Byte} {b : Nat → Byte} (h : bs.length = 16) (he : ∀ i, i < 16 → byteAt bs i = b i) :
    (EntryBlank b → judgeEntry bs = .blank) ∧ (EntryRefused b → judgeEntry bs = .refused) ∧
    (¬ EntryBlank b → ¬ EntryRefused b → ∃ c, judgeEntry bs = .taken c ∧ EntryHolds b c) := by
  have hb : (bs.all fun x => decide (x = erasedByte)) = true ↔ EntryBlank b :=
    (blank_iff bs h).trans
      ⟨fun k i hi => (he i hi).symm.trans (k i hi), fun k i hi => (he i hi).trans (k i hi)⟩
  have h4 : ∀ i, i + 4 ≤ 16 → longFrom (byteAt bs) i = longFrom b i := fun i hi => by
    simp only [longFrom, he i (by omega), he (i + 1) (by omega), he (i + 2) (by omega), he (i + 3) (by omega)]
  unfold judgeEntry
  rw [littleEndian_take3 bs (by omega), littleEndian_four bs 4 (by omega), littleEndian_four bs 8 (by omega),
    littleEndian_four bs 12 (by omega), h4 4 (by decide), h4 8 (by decide), h4 12 (by decide), he 3 (by decide)]
  simp only [entryAddress, he 0 (by decide), he 1 (by decide), he 2 (by decide)]
  refine ⟨fun hk => by rw [if_pos (hb.2 hk)], ?_, ?_⟩
  · rintro ⟨hk, hr⟩
    rw [if_neg fun hc => hk (hb.1 hc)]
    cases hc : channelsOf (b 3) with
    | none => rfl
    | some channels => exact if_neg fun hf => (fits_iff hc rfl hk).1 hf ⟨hk, hr⟩
  · intro hk hr
    rw [if_neg fun hc => hk (hb.1 hc)]
    cases hc : channelsOf (b 3) with
    | none => exact absurd ⟨hk, .inl (channelsOf_none.1 hc)⟩ hr
    | some channels =>
      refine ⟨_, if_pos ((fits_iff hc rfl hk).2 hr), rfl, rfl, channelsOf_some.1 hc, ?_, ?_⟩
      · exact fun h1 h2 => if_pos ⟨h1, h2⟩
      · exact fun h => if_neg h

/-- The bytes of entry `n` of the directory as it is read (R127, R129). -/
theorem directory_entry {m : List Host.Cell} (h : Memory.wf m) {n : Nat} (hn : n < 256) :
    ((chunks 16 256 (Memory.readRun m directoryStart directorySize))[n]?.getD []).length = 16 ∧
    ∀ i, i < 16 →
      byteAt ((chunks 16 256 (Memory.readRun m directoryStart directorySize))[n]?.getD []) i =
        Memory.read m (0x1000 + 16 * n + i) := by
  have hl : (Memory.readRun m directoryStart directorySize).length = 4096 := Memory.readRun_length ..
  have hg : ∀ i, i < 4096 → byteAt (Memory.readRun m directoryStart directorySize) i = Memory.read m (0x1000 + i) :=
    fun i hi => by rw [byteAt, Memory.readRun_get h directoryStart (show i < directorySize from hi)]; rfl
  generalize Memory.readRun m directoryStart directorySize = bs at *
  refine ⟨chunk_length (start := 0) bs hn (by omega), fun i hi => ?_⟩
  rw [show bs = bs.drop 0 from rfl, byteAt_chunk (start := 0) bs hn hi, hg _ (by omega)]
  congr 1
  omega

end Sys2Proof.Machine
end

