-- ==== Sys2Proof/WellFormed.lean ====
section
/-!
DEFINITION. The commands a partner can send. Most operands are of a type that holds only their legal values; the
checks below are the rest. `exec` is total: it also gives a meaning to a command that fails them.
-/

namespace Sys2Proof

/-- A command is well formed when its operands lie in the ranges the spec's formats can carry: a PROGRAM packet has
at most 70 payload bytes, three of them the address (R185, R186); a scan takes each input at most once (R160); a
start of frame follows a quiet gap, so its recessive run is at least 13 (R6, R14). -/
def Instr.wellFormed : Instr → Bool
  | .program _ _ data => decide (data.length ≤ 67)
  | .inputScan _ _ order => decide order.Nodup
  | .attemptStart _ run => decide (13 ≤ run)
  | .sofEdge _ run => decide (13 ≤ run)
  | .powerOn .. | .resetLine .. | .startRecordRead .. | .loadCompletion .. | .quietGap .. | .characterReceived ..
  | .spoilEnd .. | .spoilSeen .. | .arbitrationLost .. | .bitError .. | .ackMiss .. | .ownFrameSpoiled ..
  | .ownFrameComplete .. | .frameComplete .. | .staleDrop .. | .windowExpiry .. | .penaltyEnd .. | .voiceStart ..
  | .samplePeriod .. | .voiceNaturalEnd .. | .fadingRunDry .. | .silenceReached .. | .envelopeTick ..
  | .fetchReadIssue .. | .fetchReadComplete .. | .lampPeriod .. | .cueLampDurationEnd .. | .serviceCharacter ..
  | .gapTimeout .. | .status .. | .enter .. | .erase .. | .read .. | .errors .. | .restart .. | .eraseDone ..
  | .programDone .. | .readTransferEnd .. | .responseSent .. | .frameSpoiledInWindow .. | .resetLineLow ..
  | .powerLoss .. => true

end Sys2Proof
end

