-- ==== Sys2Proof/Tests/Slice0.lean ====
section
/-!
SUPPORT. Tests of single commands against worked examples and rules of the spec, and for every statement a concrete case
that meets its hypotheses. Expected values come from the spec's tables or are worked out by hand from the rule named.
-/

open Sys2Proof Sys2Proof.Machine

namespace Sys2Proof.Tests

/-! ## Small states -/

/-- The next state a command gives, if it gives one. -/
def after (c : Instr) (s : State) : Option State :=
  match exec c s with
  | .next u => some u
  | .fault _ | .refused _ => none

/-- Station 3, loaded and in LOADING still: warning level 80, holdoff 40, fire lead 10 ms, late limit 40 ms. -/
def loaded : State :=
  { State.reset with
    loader := { State.reset.loader with loaded := true }
    station := { State.reset.station with number := 3, fireLead := 10, lateLimit := 40 }
    line := { State.reset.line with bitRate := some .kbit250, warningLevel := 80, holdoff := 40 } }

/-- The same station, joined and ONLINE. -/
def online : State :=
  { loaded with
    loader := { loaded.loader with mode := .online }
    line := { loaded.line with listening := true, joined := true } }

/-- The same station in SERVICE. -/
def serving : State :=
  { online with loader := { online.loader with mode := .service } }

/-- A station in its Line Port `l`. -/
def lined (l : LinePort → LinePort) : State :=
  { online with line := l online.line }

/-- A BUZZ of seat 2 by station 3, key 4131 (Chapter 1, Two Buzzes at One Start of Frame). -/
def buzzEntry : Entry :=
  { key := 4131, content := .fixed [], enqueued := 0, lateLimit := none, singleTry := false, state := .waiting
    reported := none, portCleared := false }

/-- An entry with no payload of this key, late limit and single-try flag. -/
def entryOf (key : Key) (limit : Option Nat) (single : Bool) (state : EntryState) : Entry :=
  { key := key, content := .fixed [], enqueued := 0, lateLimit := limit, singleTry := single, state := state
    reported := none, portCleared := false }

/-- The attempt of a frame with no payload. -/
def attemptOf (key : Key) (single : Bool) : Attempt :=
  { key := key, payload := [], check := checkOf (frameHead key []), singleTry := single, tellArg := none
    portCleared := false }

/-- A frame of this key with no payload, taken through C2. -/
def whole (key : Key) : Followed :=
  { sof := 5000000, chars := frameChars key [] (checkOf (frameHead key [])) }

/-- The station in an attempt at its BUZZ, with TEC `tec` and these characters gone out. -/
def sending (tec : Nat) (single : Bool) (chars : List Byte) : State :=
  { online with
    queue := [entryOf 4131 none false .inFlight]
    line :=
      { online.line with
        tec := tec, attempt := some (attemptOf 4131 single), followed := some { sof := 5000000, chars := chars }
        drive := .frame } }

/-- The station following another station's frame. -/
def following (f : Followed) : State :=
  lined fun l => { l with followed := some f }

/-- A slot that plays clip 1 on code 20. -/
def playConfig : PlayConfig :=
  { clipList := [1, 2], selection := .cycle, priority := 3, choke := 1, airSend := 0, houseSend := 12, duckDepth := 24
    fadeIn := 25, fadeOut := 10, preDelay := 0, loopFlag := true, retrigger := .layer, endCode := none
    endRoute := .local }

/-- A slot with code 20 and this action. -/
def slotWith (a : SlotAction) : Slot :=
  { Slot.reset with enabled := true, config := some { code := 20, mask := 0xFF, filter := .any, action := a } }

/-- The station with this slot 0. -/
def withSlot (x : Slot) : State :=
  { online with pool := { online.pool with slots := online.pool.slots.set 0 x } }

/-- A clip of 100 mono frames from 3000 hexadecimal, looping from 40 to 90. -/
def clip1 : Clip :=
  { address := 0x3000, frames := 100, channels := .mono, loop := some { first := 40, last := 90 } }

/-- The station with clip 1 present. -/
def withClip (s : State) : State :=
  { s with clips := { s.clips with entries := s.clips.entries.set 1 (some clip1) } }

/-- A voice of slot 0 in this state. -/
def voiceIn (state : VoiceState) : Voice :=
  { Voice.reset with
    state := state, owner := some 0, clip := 1, priority := 3, choke := 1, fadeInRate := 123, fadeOutRate := 307
    rate := 307 }

/-- The station with this voice 0, in the voice set of slot 0. -/
def withVoice (x : Voice) : State :=
  { online with
    pool :=
      { online.pool with
        voices := online.pool.voices.set 0 x, slots := online.pool.slots.set 0 { Slot.reset with voices := 1 } } }

/-- The station with this round record. -/
def inRound (r : Round) : State :=
  { online with round := r }

/-- A round in this state, every seat eligible, with this winner and list. -/
def roundIn (state : RoundState) (winner : Option Seat) (order : List Seat) : Round :=
  { Round.reset with state := state, synced := true, winner := winner, order := order, eligible := 0xFFFF }

/-- The levels of a character without fault: stop bit, even parity, data. -/
def portChar (b : Byte) : BitVec 10 :=
  BitVec.setWidth 10 b ||| (if evenParity b then 0x300 else 0x200)

/-- The station with its service port in this state. -/
def atPort (s : State) (p : ServicePort → ServicePort) : State :=
  { s with service := p s.service }

/-! ## Well-formedness -/

theorem test_wellFormed_programTooLong : (Instr.program 0 0 (List.replicate 68 0)).wellFormed = false := rfl

theorem test_wellFormed_programLongest : (Instr.program 0 0 (List.replicate 67 0)).wellFormed = true := rfl

theorem test_wellFormed_scanTakesInputTwice : (Instr.inputScan 0 0 [1, 2, 1]).wellFormed = false := by decide

theorem test_wellFormed_attemptBeforeQuietGap : (Instr.attemptStart 0 12).wellFormed = false := by decide

theorem test_wellFormed_edgeBeforeQuietGap : (Instr.sofEdge 0 12).wellFormed = false := by decide

theorem test_wellFormed_edgeAtQuietGap : (Instr.sofEdge 0 13).wellFormed = true := by decide

/-! ## Arithmetic and formats -/

/-- R8: the check of the nine characters 1 to 9 with this generator, start value and bit order is 29B1 hexadecimal. -/
theorem test_check_nineDigits : checkOf [0x31, 0x32, 0x33, 0x34, 0x35, 0x36, 0x37, 0x38, 0x39] = 0x29B1 := by decide +kernel

/-- 11.4: the packet of a READ of 16 bytes at 1050 hexadecimal has the check 79. -/
theorem test_packetCheck_read : packetCheck 0x05 [0x00, 0x10, 0x50, 0x10] = 0x79 := by decide

/-- Chapter 7: the rates of 250 ms, 100 ms and 500 ms are 123, 307 and 61. -/
theorem test_rates : (rateOf 250, rateOf 100, rateOf 500, rateOf 0) = (123, 307, 61, 30720) := by decide

/-- Chapter 7, The Mix at Ordinary Values. -/
theorem test_contributions : (contributionAt 12000 6, contributionAt (-20000) 24, contributionAt (-1) 119) =
    (8485, -5000, -1) := by decide

/-- R1: an age is read as signed, across the wrap of station time. -/
theorem test_reachedAcrossWrap : (reached 5 0xFFFFFFF0, reached 0xFFFFFFF0 5) = (true, false) := by decide

/-- R144: one second is 24,576,000 master clock periods. -/
theorem test_stationTime_second : stationTimeAt 24576000 = 1000000 := by decide

/-- 11.1: the key of TELL ROUND by station 1 is 28673. -/
theorem test_key_tellRound : makeKey 7 0 1 = 28673 := by decide

/-! ## Power and start-up -/

/-- R175: power-on with the line released leaves LOADING with cause POWER. -/
theorem test_powerOn : (after (.powerOn 0 false) serving).map (fun u => (u.loader.mode, u.loader.cause, u.resetLine)) =
    some (.loading, .power, .released) := by decide

/-- R175: the release of a line held low since power-up leaves cause POWER. -/
theorem test_resetLine_fromPowerUp :
    (after (.resetLine 9) { online with resetLine := .lowFromPowerUp }).map (fun u => (u.loader.mode, u.loader.cause)) =
      some (.loading, .power) := by decide

/-- R175: the release of a line pulled low later leaves cause LINE. -/
theorem test_resetLine_fromLow :
    (after (.resetLine 9) { online with resetLine := .low }).map (fun u => (u.loader.mode, u.loader.cause, u.clock)) =
      some (.loading, .line, 0) := by decide

/-- R178: an erased sector 0 fails at the first stage; the read of 1536 bytes takes 24 + 2 × 1536 periods (R137). -/
theorem test_startRecordRead_erased :
    (after (.startRecordRead 3096) State.reset).map (fun u => (u.loader.mode, u.loader.fault)) =
      some (.service, .noRecord) := by decide

/-- R176: one period earlier the read has not ended. -/
theorem test_startRecordRead_early :
    (after (.startRecordRead 3095) State.reset).map (fun u => (u.loader.mode, u.loader.fault)) =
      some (.loading, .none) := by decide

/-- R181: without a record held there is no load completion. -/
theorem test_loadCompletion_nothingHeld :
    (after (.loadCompletion 100000) State.reset).map (fun u => u.loader.loaded) = some false := by decide

/-- R28: a low level on the line ends the drive and the attempt. -/
theorem test_resetLineLow : (after (.resetLineLow 7) (sending 0 false [0x10])).map
    (fun u => (u.line.drive, u.line.attempt, u.resetLine)) = some (.released, none, .low) := by decide

/-- R141: a power loss with the flash idle keeps its bytes. -/
theorem test_powerLoss : (after (.powerLoss 7) { online with flash := { Flash.erased with mem := [(3, 0)] } }).map
    (fun u => (u.powered, u.flash.mem)) = some (false, [(3, 0)]) := by decide

/-! ## The cue line -/

/-- R182: the first quiet gap joins, and asks for the round with key 6 × 4096 + 3. -/
theorem test_quietGap_joins : (after (.quietGap 13000) loaded).map
    (fun u => (u.loader.mode, u.line.joined, u.queue.map Entry.key)) = some (.online, true, [24579]) := by decide

/-- R24: the 96th gap while OFF recovers. -/
theorem test_quietGap_recovers :
    (after (.quietGap 9) (lined fun l => { l with lineState := .off, tec := 255, recCount := 95 })).map
      (fun u => (u.line.lineState, u.line.tec, u.line.recCount)) = some (.active, 0, 0) := by decide

/-- R15: the attempt takes the key of the entry, which is IN FLIGHT; its SOF capture is the station time. -/
theorem test_attemptStart :
    (after (.attemptStart 24576 13) { lined (fun l => { l with recessiveRun := 13 }) with queue := [buzzEntry] }).map
      (fun u => (u.line.attempt.map Attempt.key, u.queue.map Entry.state, u.line.followed.map Followed.sof)) =
    some (some 4131, [.inFlight], some 1000) := by decide

/-- R14: with a holdoff of 40 owed the required run is 53. -/
theorem test_attemptStart_holdoff :
    (after (.attemptStart 9 51)
        { lined (fun l => { l with recessiveRun := 39, holdoffOwed := true }) with queue := [buzzEntry] }).map
      (fun u => u.line.attempt) = some none := by decide

/-- R6: a station with nothing to send follows the edge. -/
theorem test_sofEdge : (after (.sofEdge 24576 13) (lined fun l => { l with recessiveRun := 13 })).map
    (fun u => (u.line.followed, u.line.attempt)) = some (some { sof := 1000, chars := [] }, none) := by decide

/-- R12: the last character of a good frame brings the ack. -/
theorem test_characterReceived_ack :
    (after (.characterReceived 9 (goodChar ((whole 4183).chars.getLast?.getD 0)))
        (following { sof := 0, chars := (whole 4183).chars.dropLast })).map
      (fun u => (u.line.drive, u.line.recCount)) = some (.ack, 0) := by decide +kernel

/-- R4, R9: LEN above 8 is a framing error, counted in REC, with a spoil. -/
theorem test_characterReceived_len9 :
    (after (.characterReceived 9 (goodChar 9)) (following { sof := 0, chars := [0x10, 0x57] })).map
      (fun u => (u.line.drive, u.line.recCount, u.errors.get .framingErrors, u.line.followed)) =
    some (.spoil, 1, 1, none) := by decide

/-- R10, R182: the spoil ends released; a station without a transceiver has counted its own spoil as recessive. -/
theorem test_spoilEnd : (after (.spoilEnd 9) (lined fun l => { l with drive := .spoil, recessiveRun := 12 })).map
    (fun u => (u.line.drive, u.line.recessiveRun)) = some (.released, 12) := by decide

/-- R11: a spoil seen is counted and the frame discarded, without a receive error. -/
theorem test_spoilSeen : (after (.spoilSeen 9) (following (whole 4183))).map
    (fun u => (u.errors.get .spoilsSeen, u.line.followed, u.line.recCount)) = some (1, none, 0) := by decide

/-- Chapter 1, Two Buzzes: key 4183 loses at the second data bit of K2 and waits again, with no holdoff. -/
theorem test_arbitrationLost :
    (after (.arbitrationLost 9 9)
        { lined (fun l =>
            { l with attempt := some (attemptOf 4183 false), followed := some { sof := 0, chars := [0x10] }
                     holdoffOwed := true }) with
          queue := [entryOf 4183 none false .inFlight] }).map
      (fun u => (u.queue.map Entry.state, u.line.attempt, u.line.holdoffOwed, u.line.followed.isSome)) =
    some ([.waiting], none, false, true) := by decide

/-- Chapter 1, From Failure to OFF: the 20th failure takes TEC from 76 to the warning level. -/
theorem test_bitError_warning : (after (.bitError 9 0) (sending 76 false [0x10])).map
    (fun u => (u.line.tec, u.line.lineState, u.line.drive, u.queue.map Entry.state)) =
    some (80, .warning, .spoil, [.waiting]) := by decide

/-- The same example: from 252 the next failure enters OFF and drives nothing. -/
theorem test_bitError_off : (after (.bitError 9 0) (sending 252 false [0x10])).map
    (fun u => (u.line.tec, u.line.lineState, u.line.drive, u.errors.get .lineOffEntries)) =
    some (255, .off, .released, 1) := by decide

/-- R21: an ack miss at 128 leaves TEC there. -/
theorem test_ackMiss_passive : (after (.ackMiss 9) (sending 128 false (whole 4131).chars)).map
    (fun u => (u.line.tec, u.errors.get .ackMisses, u.line.holdoffOwed)) = some (128, 1, true) := by decide

/-- R45: a failed single-try attempt drops its entry. -/
theorem test_ackMiss_singleTry : (after (.ackMiss 9) (sending 0 true (whole 4131).chars)).map
    (fun u => (u.line.tec, u.queue, u.errors.get .singleTryDrops)) = some (4, [], 1) := by decide

/-- R18: a spoil in the window of the own frame raises TEC by 4, without a spoil of its own. -/
theorem test_ownFrameSpoiled : (after (.ownFrameSpoiled 9) (sending 0 false (whole 4131).chars)).map
    (fun u => (u.line.tec, u.line.drive, u.queue.map Entry.state)) = some (4, .released, [.waiting]) := by decide

/-- Chapter 1, Two Buzzes: the own frame completes, and station 3 takes its own BUZZ; the round is open, so it wins. -/
theorem test_ownFrameComplete :
    (after (.ownFrameComplete 9) { sending 0 false (whole 4131).chars with round := roundIn .open none [] }).map
      (fun u => (u.line.tec, u.line.framesSent, u.queue, u.round.winner, u.line.framesReceived)) =
    some (0, 1, [], some 2, 0) := by decide

/-- R13: a frame of another station is counted and taken. -/
theorem test_frameComplete :
    (after (.frameComplete 9) { following (whole 4183) with round := roundIn .open none [] }).map
      (fun u => (u.line.framesReceived, u.round.winner, u.round.state)) = some (1, some 5, .locked) := by decide

/-- R12: a frame spoiled in its window is discarded without a count. -/
theorem test_frameSpoiledInWindow : (after (.frameSpoiledInWindow 9) (following (whole 4183))).map
    (fun u => (u.line.followed, u.line.framesReceived, u.line.recCount)) = some (none, 0, 0) := by decide

/-! ## Times -/

/-- R46: an entry of age 40 ms with a late limit of 40 is dropped. -/
theorem test_staleDrop :
    (after (.staleDrop (40 * 24576) 4131) { online with queue := [entryOf 4131 (some 40) false .waiting] }).map
      (fun u => (u.queue, u.errors.get .staleDrops)) = some ([], 1) := by decide

/-- R46: one microsecond younger it stays. -/
theorem test_staleDrop_young :
    (after (.staleDrop (40 * 24576 - 25) 4131) { online with queue := [entryOf 4131 (some 40) false .waiting] }).map
      (fun u => (u.queue.length, u.errors.get .staleDrops)) = some (1, 0) := by decide

/-- R71: at the window end the turn expires and the winner stays. -/
theorem test_windowExpiry :
    (after (.windowExpiry 24576) (inRound { roundIn .locked (some 5) [5, 8] with windowEnd := some 1000 })).map
      (fun u => (u.round.state, u.round.winner, u.round.windowEnd)) = some (.expired, some 5, none) := by decide

/-- R57: a penalty end that has come is absent. -/
theorem test_penaltyEnd :
    (after (.penaltyEnd 24576 5) { online with penalties := online.penalties.set 5 (some 1000) }).map
      (fun u => u.penalties[5]) = some none := by decide

/-! ## Voices and the mix -/

/-- Chapter 7, A Fade-In and a Cut: the voice starts at silence with target 0 and rate 123. -/
theorem test_voiceStart : (after (.voiceStart 512 0) (withVoice (voiceIn .scheduled))).map
    (fun u => (u.pool.voices[0].state, u.pool.voices[0].envelope, u.pool.voices[0].target, u.pool.voices[0].rate)) =
    some (.running, 30720, 0, 123) := by decide

/-- R114: before its start time it waits. -/
theorem test_voiceStart_early :
    (after (.voiceStart 512 0) (withVoice { voiceIn .scheduled with startTime := 21 })).map
      (fun u => u.pool.voices[0].state) = some .scheduled := by decide

/-- R117: a drained voice is FREE and its LINE end code is requested as a GO: key 4 × 4096 + 99 × 16 + 3. -/
theorem test_voiceNaturalEnd :
    (after (.voiceNaturalEnd 512 0)
        (withVoice { voiceIn .draining with exhausted := true, endCode := some 99, endRoute := .line })).map
      (fun u => (u.pool.voices[0].state, u.pool.slots[0].voices, u.queue.map Entry.key)) =
    some (.free, 0, [17971]) := by decide

/-- R123: a FADING voice run dry is FREE. -/
theorem test_fadingRunDry : (after (.fadingRunDry 512 0) (withVoice { voiceIn .fading with exhausted := true })).map
    (fun u => u.pool.voices[0].state) = some .free := by decide

/-- R122: a silent FADING voice is FREE. -/
theorem test_silenceReached : (after (.silenceReached 24576 0) (withVoice { voiceIn .fading with silent := true })).map
    (fun u => (u.pool.voices[0].state, u.pool.voices[0].owner)) = some (.free, none) := by decide

/-- Chapter 7, The Mix at Ordinary Values: the sting alone gives 8485 to AIR. -/
theorem test_samplePeriod :
    (after (.samplePeriod 512)
        { withVoice { voiceIn .running with fifo := [.mono 12000], envelope := 0, airSend := 6, houseSend := 120 } with
          mixer := { online.mixer with air := { current := 0, target := 0 } } }).map
      (fun u => (u.mixer.mix.airLeft, u.mixer.mix.houseLeft, u.pool.voices[0].fifo)) = some (8485, 0, []) := by decide

/-- Chapter 7, The Mix at the Limits: terms in range, sum out. -/
theorem test_attenuation : attenuation 60 10240 3072 10 = 122 := by decide

/-- R157: of the slots 8000 and 1 (the mix −32768 and 0), the first bit is a 1 on AIR, left, under a low word clock, the
24th a 1 on HOUSE, and the first of the right channel comes with the word clock high. -/
theorem test_serial :
    let o : OutputSlots := { airLeft := 0x800000, airRight := 0x800000, houseLeft := 1, houseRight := 0 }
    (o.serial[0]?, o.serial[23]?, o.serial[24]?, o.serial[32]?) =
      (some { wordClockHigh := false, air := true, house := false },
        some { wordClockHigh := false, air := false, house := true },
        some { wordClockHigh := false, air := false, house := false },
        some { wordClockHigh := true, air := true, house := false }) := by
  decide

/-- R115: an empty FIFO is an underrun, counted once. -/
theorem test_samplePeriod_underrun : (after (.samplePeriod 512) (withVoice (voiceIn .running))).map
    (fun u => (u.errors.get .underruns, u.pool.voices[0].underrun, u.mixer.mix.airLeft)) = some (1, true, 0) := by decide

/-- Chapter 7, A Fade-In and a Cut: the first tick takes E from 30720 to 30597. -/
theorem test_envelopeTick_fadeIn :
    (after (.envelopeTick 24576) (withVoice { voiceIn .running with rate := 123 })).map
      (fun u => u.pool.voices[0].envelope) = some 30597 := by decide

/-- The same example: the 101st tick of the cut stops at 30720 and reports silence. -/
theorem test_envelopeTick_silence :
    (after (.envelopeTick 24576) (withVoice { voiceIn .fading with envelope := 30700 })).map
      (fun u => (u.pool.voices[0].envelope, u.pool.voices[0].silent)) = some (30720, true) := by decide

/-! ## Clip memory -/

/-- R134, R137: a read of 32 mono frames, 64 bytes, takes 24 + 128 periods. -/
theorem test_fetchReadIssue : (after (.fetchReadIssue 1000) (withClip (withVoice (voiceIn .running)))).map
    (fun u => (u.fetch.map FetchRead.size, u.fetch.map FetchRead.dueAt, u.pool.voices[0].cursor)) =
    some (some 32, some 1152, 32) := by decide

/-- R134: a looping voice at frame 70 reads up to its loop end 90 and goes back to 40. -/
theorem test_fetchReadIssue_loop :
    (after (.fetchReadIssue 1000) (withClip (withVoice { voiceIn .running with cursor := 70, loop := true }))).map
      (fun u => (u.fetch.map FetchRead.size, u.pool.voices[0].cursor, u.pool.voices[0].exhausted)) =
    some (some 20, 40, false) := by decide

/-- R133: the voice granted at once is read before a lower-numbered one that holds as few frames. -/
theorem test_fetchReadIssue_granted :
    (after (.fetchReadIssue 1000)
        { withClip (withVoice (voiceIn .running)) with
          pool :=
            { (withVoice (voiceIn .running)).pool with
              voices := (withVoice (voiceIn .running)).pool.voices.set 9 (voiceIn .running)
              grant := some { voice := 9, generation := 0, clip := 1, loop := false } } }).map
      (fun u => (u.fetch.map FetchRead.voice, u.pool.grant)) = some (some 9, none) := by decide

/-- R127, R135: a sample is read low byte first. -/
theorem test_fetchReadComplete :
    (after (.fetchReadComplete 1152)
        { withVoice (voiceIn .running) with
          fetch := some
            { voice := 0, generation := 0, size := 1, address := 0x3000, channels := .mono, dueAt := 1152 }
          flash := { Flash.erased with mem := [(0x3000, 0x34), (0x3001, 0x12)] } }).map
      (fun u => (u.fetch, u.pool.voices[0].fifo)) = some (none, [.mono 0x1234]) := by decide

/-- R135: a read of an older generation is stale. -/
theorem test_fetchReadComplete_stale :
    (after (.fetchReadComplete 1152)
        { withVoice { voiceIn .running with generation := 1 } with
          fetch := some
            { voice := 0, generation := 0, size := 1, address := 0x3000, channels := .mono, dueAt := 1152 } }).map
      (fun u => (u.fetch, u.pool.voices[0].fifo)) = some (none, []) := by decide

/-! ## Inputs and lamps -/

/-- R160, R165: the scan that ends a debounce time of 2 requests GO 20: key 4 × 4096 + 20 × 16 + 3. -/
theorem test_inputScan_go :
    (after (.inputScan 24576 1 [])
        { online with
          inputs := online.inputs.set 0
            { config := some { debounce := 2, longTime := 0, short := .go 20 none false, long := .none }
              level := some .open, run := 1, pressTime := none, hold := .none } }).map
      (fun u => (u.queue.map Entry.key, u.inputs[0].level, u.inputs[0].pressTime)) =
    some ([16707], some .closed, some 1000) := by decide

/-- R167: a BLINK of 250 ms, duty 50, is on at count 124 and off at count 125. -/
theorem test_lampPeriod_blink :
    ((after (.lampPeriod (3124 * 24576))
        { online with
          lamps := online.lamps.set 3
            { Lamp.reset with
              pattern := { kind := .blink, level := 255, periodMs := 250, duty := 50 }, phaseStart := 3000 } }).map
      (fun u => u.lamps[3].level),
     (after (.lampPeriod (3125 * 24576))
        { online with
          lamps := online.lamps.set 3
            { Lamp.reset with
              pattern := { kind := .blink, level := 255, periodMs := 250, duty := 50 }, phaseStart := 3000 } }).map
      (fun u => u.lamps[3].level)) = (some 255, some 0) := by decide

/-- R171: the duration end turns the lamp OFF. -/
theorem test_cueLampDurationEnd :
    (after (.cueLampDurationEnd (7060 * 24576) 3)
        { online with
          lamps := online.lamps.set 3
            { Lamp.reset with
              pattern := { kind := .blink, level := 255, periodMs := 250, duty := 50 }
              durationEnd := some 7060000 } }).map
      (fun u => (u.lamps[3].pattern.kind, u.lamps[3].durationEnd)) = some (.off, none) := by decide

/-! ## The service port -/

/-- R185: 5A begins a packet. -/
theorem test_serviceCharacter_start : (after (.serviceCharacter 9 (.character (portChar 0x5A))) (atPort serving fun p => { p with receiver := .receiving })).map
    (fun u => (u.service.assembly, u.service.gapFrom)) = some (.command, some 9) := by decide

/-- R197: command 08 is UNKNOWN, and its response repeats it with bit 7 set. -/
theorem test_serviceCharacter_unknown :
    (after (.serviceCharacter 9 (.character (portChar 8))) (atPort serving fun p => { p with receiver := .receiving, assembly := .check 8 [] })).map
      (fun u => u.service.answers) = some [{ command := 0x88, status := .unknown, payload := [] }] := by decide

/-- R185: the gap timer runs out after 20 ms. -/
theorem test_gapTimeout :
    (after (.gapTimeout (20 * 24576 + 5))
        (atPort serving fun p => { p with assembly := .command, gapFrom := some 5 })).map
      (fun u => (u.service.assembly, u.service.gapFrom)) = some (.hunt, none) := by decide

/-- R185: a start bit stops the gap timer, so the packet stands at 20 ms; taken after the expiry it begins in HUNT. -/
theorem test_gapTimeout_startBit :
    (((after (.serviceCharacter (19 * 24576) .startBit)
        (atPort serving fun p => { p with assembly := .command, gapFrom := some 5 })).bind
      (after (.gapTimeout (20 * 24576 + 5)))).map fun u => (u.service.assembly, u.service.receiver),
     ((after (.gapTimeout (20 * 24576 + 5))
        (atPort serving fun p => { p with assembly := .command, gapFrom := some 5 })).bind
      (after (.serviceCharacter (20 * 24576 + 5) .startBit))).map fun u => (u.service.assembly, u.service.receiver)) =
      (some (.command, .receiving), some (.hunt, .receiving)) := by decide

/-- R188, 11.4: STATUS in SERVICE with cause POWER, TEC 4 and REC 1. -/
theorem test_status :
    (after (.status 9) { serving with line := { serving.line with tec := 4, recCount := 1 } }).map
      (fun u => u.service.answers.map Response.payload) = some [[2, 1, 0, 0, 0, 0, 0, 0, 4, 1]] := by decide

/-- R189: ENTER in LOADING is BUSY. -/
theorem test_enter_loading : (after (.enter 9) loaded).map
    (fun u => (u.loader.mode, u.service.answers.map Response.status)) = some (.loading, [.busy]) := by decide

/-- R183: ENTER while ONLINE empties the queue and the round. -/
theorem test_enter_online : (after (.enter 9) { sending 0 false [0x10] with round := roundIn .open none [] }).map
    (fun u => (u.loader.mode, u.queue, u.line.drive, u.round.state)) = some (.service, [], .released, .idle) := by decide

/-- R186: an ERASE address that is no multiple of 4096 is BAD_ARG. -/
theorem test_erase_unaligned : (after (.erase 9 0x1001) serving).map
    (fun u => (u.flash.op, u.service.answers.map Response.status)) = some (none, [.badArg]) := by decide

/-- R138: an ERASE lasts 40 ms. -/
theorem test_erase : (after (.erase 9 0x1000) serving).map
    (fun u => (u.flash.op, u.service.inProgress)) =
    some (some { job := .erase 0x1000, dueAt := 9 + 40 * 24576 }, .erase) := by decide

/-- R186: a PROGRAM past its page is BAD_ARG. -/
theorem test_program_page : (after (.program 9 0x10FF [1, 2]) serving).map
    (fun u => u.service.answers.map Response.status) = some [.badArg] := by decide

/-- R190: a READ outside SERVICE is NOT_SERVICE. -/
theorem test_read_online : (after (.read 9 0x1050 16) online).map
    (fun u => u.service.answers.map Response.status) = some [.notService] := by decide

/-- Chapter 10, Adding a Clip: a READ taken in SERVICE makes its answer at the end of its transfer. -/
theorem test_read : (after (.read 9 0x1050 16) serving).map (fun u => (u.service.reads, u.service.answers)) =
    some ([{ address := 0x1050, count := 16, dueAt := 9 + 56 }], []) := by decide

/-- Chapter 2, A Count Cleared: group 2 with 3, 11, 0, read by the service port with clear. -/
theorem test_errors_clear :
    (after (.errors 9 0x82)
        { serving with errors := { counts := (ErrorRecord.reset.counts.set 6 3).set 7 11 } }).map
      (fun u => (u.service.answers.map Response.payload, u.errors.get .staleDrops)) =
    some ([[2, 0, 3, 0, 11, 0, 0]], 0) := by decide

/-- R186: group 6 is BAD_ARG. -/
theorem test_errors_group6 : (after (.errors 9 0x06) serving).map
    (fun u => u.service.answers.map Response.status) = some [.badArg] := by decide

/-- R191: RESTART is answered and leaves restart pending. -/
theorem test_restart : (after (.restart 9) online).map
    (fun u => (u.service.restartPending, u.service.answers)) =
    some (true, [{ command := 0x87, status := .ok, payload := [] }]) := by decide

/-- R138, R190: the sector reads FF and ERASE OK is made. -/
theorem test_eraseDone :
    (after (.eraseDone 50)
        { atPort serving (fun p => { p with inProgress := .erase }) with
          flash :=
            { mem := [(0xFFF, 1), (0x1000, 2), (0x1FFF, 3), (0x2000, 4)]
              op := some { job := .erase 0x1000, dueAt := 50 }, freeSince := 0 } }).map
      (fun u => (u.flash.mem, u.flash.op, u.service.answers.map Response.command)) =
    some ([(0xFFF, 1), (0x2000, 4)], none, [0x83]) := by decide

/-- R139: a PROGRAM leaves old AND new. -/
theorem test_programDone :
    (after (.programDone 50)
        { serving with
          flash :=
            { mem := [(0x1000, 0xF0)], op := some { job := .program 0x1000 [0x3C, 0x0F], dueAt := 50 }
              freeSince := 0 } }).map
      (fun u => u.flash.mem) = some [(0x1000, 0x30), (0x1001, 0x0F)] := by decide

/-- R140: a READ answers the bytes as they stand; an erased byte reads FF. -/
theorem test_readTransferEnd :
    (after (.readTransferEnd 50)
        { atPort serving (fun p => { p with reads := [{ address := 0x1050, count := 2, dueAt := 50 }] }) with
          flash := { Flash.erased with mem := [(0x1051, 7)] } }).map
      (fun u => (u.service.reads, u.service.answers.map Response.payload)) = some ([], [[0xFF, 7]]) := by decide

/-- R191: the station resets when the answer of RESTART has been sent. -/
theorem test_responseSent_restart :
    (after (.responseSent 5867)
        (atPort online fun p =>
          { p with
            restartPending := true, answers := [{ command := 0x87, status := .ok, payload := [] }]
            sendingFrom := some 0 })).map
      (fun u => (u.loader.mode, u.loader.cause, u.service.answers)) = some (.loading, .restart, []) := by decide

/-- Chapter 10, Adding a Clip Without an Erase: ENTER OK, 5 characters from 0, is fully sent at 0.239 ms, and not a
master clock period before. -/
theorem test_responseSent_instant :
    ((after (.responseSent 5866) (atPort serving fun p =>
        { p with answers := [{ command := 0x82, status := .ok, payload := [] }], sendingFrom := some 0 })).map fun u =>
      u.service.answers.length,
     (after (.responseSent 5867) (atPort serving fun p =>
        { p with answers := [{ command := 0x82, status := .ok, payload := [] }], sendingFrom := some 0 })).map fun u =>
      (u.service.answers.length, u.service.sendingFrom)) = (some 1, some (0, none)) := by
  decide

/-- R184, 11.4: the start byte 5A goes out first: start bit, 0, 1, 0, 1, 1, 0, 1, 0, parity 0, stop bit, start bit. -/
theorem test_transmitLine :
    (List.range 12).map (fun i =>
      ({ atPort serving (fun p =>
          { p with answers := [{ command := 0x82, status := .ok, payload := [] }], sendingFrom := some 0 }) with
        clock := i * 107 } : State).transmitLine) =
      [false, false, true, false, true, true, false, true, false, false, true, false] := by
  decide

/-! ## Cases that meet the hypotheses of the statements

One theorem for each statement with hypotheses, named after it; where a statement has clauses, a case for each, at a
boundary of its range. -/

theorem live {s : State} {t : Nat} (hp : s.powered = true) (hr : s.resetLine = .released) (ht : s.clock ≤ t) :
    s.liveAt t :=
  ⟨hp, hr, ht⟩

theorem no_clip (n : Byte) : online.clips.clip n = none := by
  simp [ClipTable.clip, online, loaded, State.reset, ClipTable.reset]

theorem witness_StepTakesFront : State.reset.pending = [] := rfl

theorem witness_CommandsKeepPending : ∃ u, exec (.status 9) { serving with pending := [.enter 10] } = .next u :=
  ⟨_, rfl⟩

theorem witness_SoundStationNeverStops :
    State.flashSound { online with flash := { Flash.erased with mem := [(0xFFFFFF, 0)] }, pending := [.status 9] } where
  memory := by decide
  job := nofun
  reads := nofun
  clips n clip h := by rw [show _ = _ from no_clip n] at h; cases h
  fetch := nofun
  online := fun _ => rfl
  cursors v clip h := by rw [show _ = _ from no_clip _] at h; cases h
  unloaded := nofun

theorem witness_DrivesOnlyWhenAllowed : ∃ s u, State.drivesLawfully s ∧ s.line.drive = .ack ∧ step s = .next u :=
  ⟨{ lined (fun l => { l with drive := .ack }) with pending := [.spoilSeen 9] }, _,
    fun _ => by decide, rfl, rfl⟩

theorem witness_QueueShapeKept : ∃ s u, QueueShape s.queue ∧ s.queue.length = 2 ∧ step s = .next u :=
  ⟨{ sending 0 false [0x10] with
      queue := [entryOf 4131 none false .inFlight, entryOf 4183 none false .waiting], pending := [.ackMiss 9] }, _,
    ⟨by decide, by decide, by decide⟩, rfl, rfl⟩

theorem witness_CountsKept : ∃ s u, State.countsInRange s ∧ s.line.tec = 255 ∧ step s = .next u :=
  ⟨{ lined (fun l => { l with tec := 255 }) with pending := [.spoilSeen 9] }, _,
    { errors := fun c => by cases c <;> decide
      slots := by decide
      line := by decide }, rfl, rfl⟩

theorem witness_FifosKept : ∃ s u, State.fifosBounded s ∧ s.pool.voices[0].fifo.length = 32 ∧ s.framesInFlight 0 = 32 ∧
    step s = .next u :=
  ⟨{ withVoice { voiceIn .running with fifo := List.replicate 32 (.mono 5) } with
      fetch := some { voice := 0, generation := 0, size := 32, address := 0x3000, channels := .mono, dueAt := 152 }
      pending := [.fetchReadComplete 152] }, _,
    ⟨by decide, fun r h => by cases h; decide, nofun⟩, by decide, by decide, rfl⟩

theorem witness_VoiceSetsKept : ∃ s u, s.pool.setsAgree ∧ s.pool.orderWhole ∧ s.pool.voices[0].state = .scheduled ∧
    step s = .next u := by
  refine ⟨{ withVoice (voiceIn .scheduled) with pending := [.voiceStart 512 0] }, _, ⟨?_, ?_⟩, ⟨by decide, by decide⟩,
    by decide, rfl⟩
  · decide
  · decide

/-- A request of slot 0 for clip 1. -/
def request1 : VoiceRequest :=
  playConfig.request 0 1 5000 none

theorem witness_SuccessorsKept : ∃ s u, s.pool.successorsWait ∧ s.pool.voices[0].successor.isSome ∧
    step s = .next u := by
  refine ⟨{ withVoice { voiceIn .fading with successor := some request1 } with pending := [.silenceReached 9 0] }, _,
    ?_, by decide, rfl⟩
  unfold Pool.successorsWait
  decide

/-- A held slot with a pending trigger. -/
def heldSlot : Slot :=
  { slotWith (.emit 7 false false) with held := true, pending := some { fireTime := 4000, seat := some 3 } }

theorem witness_PendingsKept : ∃ s u, State.pendingsKept s ∧ s.pool.slots[0].pending.isSome ∧ step s = .next u :=
  ⟨{ withSlot heldSlot with pending := [.enter 9] }, _,
    { online := fun _ => rfl, unloaded := nofun, kept := by decide }, by decide, rfl⟩

theorem witness_RoundKept : ∃ s u, s.round.consistent ∧ s.round.state = .locked ∧ step s = .next u :=
  ⟨{ inRound { roundIn .locked (some 5) [5, 8] with windowEnd := some 1000 } with pending := [.windowExpiry 24576] }, _,
    { synced := nofun, turn := fun _ => by decide, noTurn := fun h => absurd rfl h, once := by decide
      notExcluded := by decide, window := fun _ => rfl }, rfl, rfl⟩

theorem witness_AnswersKept : ∃ s u, s.service.answersFit ∧ s.service.inProgress = .erase ∧
    s.service.answers.length = 3 ∧ step s = .next u := by
  refine ⟨{ atPort serving (fun p =>
      { p with
        inProgress := .erase, answers := List.replicate 3 { command := 0x81, status := .ok, payload := [] }
        sendingFrom := some 0 }) with
      pending := [.status 9] }, _, ?_, rfl, rfl, rfl⟩
  unfold ServicePort.answersFit
  decide

theorem witness_ShadowKept : ∃ s u, State.shadowSilent s ∧ s.station.shadow = true ∧ step s = .next u :=
  ⟨{ online with station := { online.station with shadow := true }, pending := [.quietGap 9] }, _,
    { online := fun _ => rfl, silent := fun _ => by decide }, rfl, rfl⟩

/-- An ERASE that has just begun at instant 9. -/
def eraseOp : FlashOp :=
  { job := .erase 0x1000, dueAt := 9 + 40 * 24576 }

theorem witness_ResetsLeaveResetValues :
    { online with powered := false }.powered = false ∧
    ({ online with resetLine := .lowFromPowerUp, flash := { Flash.erased with op := some eraseOp } } : State).powered =
      true ∧ online.clock ≤ 9 ∧ eraseOp.dueAt ≤ 9 + eraseOp.job.clocks := by
  decide

theorem witness_ResetLineLowStops : online.powered = true ∧ online.clock ≤ 0 := by decide

/-- A PROGRAM of two bytes at the end of the flash, begun at instant 9. -/
def programOp : FlashOp :=
  { job := .program 0xFFFFFE [0x0F, 0xF0], dueAt := 9 + 24576 }

theorem witness_PowerLossCutsFlash :
    (online.powered = true ∧ online.clock ≤ 9 ∧ Memory.wf online.flash.mem ∧ online.flash.op = none) ∧
    (Memory.wf [(0xFFFFFE, (0xAA : Byte))] ∧ programOp.job = .program 0xFFFFFE [0x0F, 0xF0] ∧
      programOp.dueAt ≤ 9 + milliClocks ∧ 0xFFFFFE + 2 ≤ flashSize) ∧
    (Memory.wf [(0x1FFF, (0xAA : Byte))] ∧ eraseOp.job = .erase 0x1000 ∧
      eraseOp.dueAt ≤ 9 + 40 * milliClocks) := by
  decide

/-- The cells of a flash that holds these bytes from address 0. -/
def image (bytes : List Byte) : List Host.Cell :=
  (bytes.zipIdx.map fun c => (c.2, c.1)).filter fun c => decide (c.2 ≠ erasedByte)

/-- A station in LOADING with this flash. -/
def starting (mem : List Host.Cell) : State :=
  { State.reset with flash := { Flash.erased with mem := mem } }

/-- A start record with every field in range: station 1, 250 kbit/s, warning level 96, fire lead 2 ms; all slots are
STOPGROUP, all inputs have a debounce time of 1 ms and no action. -/
def goodRecord : List Byte :=
  [0x53, 0x43, 1, 0, 1, 0, 1, 96, 2, 0, 0, 0] ++ List.replicate 52 0 ++
    (List.replicate 8 [1, 0, 0, 0, 0, 0, 0, 0, 0, 0]).flatten ++ (List.replicate 8 [1, 0]).flatten ++
    (List.replicate 48 ([0, 0, 0, 0, 1, 1] ++ List.replicate 18 0)).flatten ++ List.replicate 222 0 ++ [0x68, 0x2C]

theorem witness_StartRecordJudged_free : (starting []).liveAt 3096 ∧ (starting []).loader.mode = .loading ∧
    (starting []).loader.loaded = false ∧ (starting []).loader.record = none ∧ (starting []).flash.op = none ∧
    (starting []).flash.freeSince + 3096 ≤ 3096 :=
  ⟨live rfl rfl (by decide), rfl, rfl, rfl, rfl, by decide⟩

/-- The bytes of the record that the Start Loader reads of this flash. -/
def recordBytes (mem : List Host.Cell) : List Byte :=
  Memory.readRun mem 0 1536

theorem witness_StartRecordJudged_noRecord : wordFrom (byteAt (recordBytes [(0, 0x53), (1, 0x43)])) 2 ≠ 1 := by
  decide

theorem witness_StartRecordJudged_badSum :
    wordFrom (byteAt (recordBytes [(0, 0x53), (1, 0x43), (2, 1), (3, 0)])) 0 = 0x4353 ∧
    wordFrom (byteAt (recordBytes [(0, 0x53), (1, 0x43), (2, 1), (3, 0)])) 2 = 1 ∧
    wordSum (recordBytes [(0, 0x53), (1, 0x43), (2, 1), (3, 0)]) ≠ 0 := by
  decide +kernel

/-- A record whose word sum is 0 but whose fields are erased. -/
def erasedFields : List Host.Cell :=
  [(0, 0x53), (1, 0x43), (2, 1), (3, 0), (1534, 0xA9), (1535, 0xBF)]

/-- The sum of the statement is the word sum of these bytes. -/
theorem recordSum (mem : List Host.Cell) (h : wordSum (recordBytes mem) = 0) :
    ((List.range 768).map fun i => wordFrom (byteAt (recordBytes mem)) (2 * i)).sum % 65536 = 0 := by
  have hl : (recordBytes mem).length = 2 * 768 := Memory.readRun_length ..
  rw [← wordSum_eq 768 _ hl, h]
  rfl

/-- R179: an erased station number is out of range. -/
theorem witness_StartRecordJudged_badValue :
    wordFrom (byteAt (recordBytes erasedFields)) 0 = 0x4353 ∧ wordFrom (byteAt (recordBytes erasedFields)) 2 = 1 ∧
    wordSum (recordBytes erasedFields) = 0 ∧ ∀ r, ¬ RecordHolds (byteAt (recordBytes erasedFields)) r :=
  ⟨by decide +kernel, by decide +kernel, by decide +kernel, fun _ h => absurd h.number.2.1 (by decide +kernel)⟩

theorem goodRecord_passes : (recordOf (recordBytes (image goodRecord))).isSome := by decide

theorem witness_StartRecordJudged_passed :
    wordFrom (byteAt (recordBytes (image goodRecord))) 0 = 0x4353 ∧
    wordFrom (byteAt (recordBytes (image goodRecord))) 2 = 1 ∧ wordSum (recordBytes (image goodRecord)) = 0 ∧
    ∃ r, RecordHolds (byteAt (recordBytes (image goodRecord))) r :=
  ⟨by decide +kernel, by decide +kernel, by decide +kernel,
    (Option.isSome_iff_exists.1 goodRecord_passes).imp fun _ h => (recordOf_some (Memory.readRun_length ..)).1 h⟩

/-- R179: the same record with warning level 31 fails, and with 32 passes, where 11.3 puts it. -/
theorem test_recordOf_warningLevel : (recordOf (goodRecord.set 7 31)).isNone = true ∧
    (recordOf (goodRecord.set 7 32)).map StartRecord.warningLevel = some 32 := by
  decide

/-- The record of `goodRecord`, held since instant 3096. -/
def heldRecord : HeldRecord :=
  { record :=
      { station := { online.station with number := 1, fireLead := 2, lateLimit := 0 }, bitRate := .kbit250
        warningLevel := 96, holdoff := 0, attackMs := 0, releaseMs := 0, airMaster := 0, houseMaster := 0
        inputs := Vector.replicate 8 { debounce := 1, longTime := 0, short := .none, long := .none }
        lamps := Vector.replicate 8 .cue
        slots := Vector.replicate 48
          { enabled := false, config := { code := 0, mask := 0, filter := .any, action := .stopGroup 1 none } } }
    readAt := 3096 }

theorem witness_LoadCompletes : ∃ s : State, s.liveAt (3096 + 8216) ∧ s.loader.record = some heldRecord ∧
    s.loader.mode = .loading ∧ s.loader.loaded = false ∧ s.flash.op = none ∧
    heldRecord.readAt + 8216 ≤ 3096 + 8216 ∧ Memory.wf s.flash.mem :=
  ⟨{ State.reset with loader := { State.reset.loader with record := some heldRecord } }, live rfl rfl (by decide), rfl,
    rfl, rfl, rfl, by decide, by decide⟩

/-- The bytes of a directory entry: 100 mono frames from 3000 hexadecimal, looping from frame 40 to `last`. -/
def entryBytes (last : Byte) : Nat → Byte :=
  byteAt [0x00, 0x30, 0x00, 1, 100, 0, 0, 0, 40, 0, 0, 0, last, 0, 0, 0]

/-- R129: a blank entry, the clip it gives with its loop end at 90, and the same entry refused with it at 40 or 101. -/
theorem witness_LoadCompletes_entries : EntryBlank (fun _ => 0xFF) ∧
    (¬ EntryBlank (entryBytes 90) ∧ ¬ EntryRefused (entryBytes 90)) ∧ EntryRefused (entryBytes 40) ∧
    EntryRefused (entryBytes 101) ∧ ¬ EntryRefused (entryBytes 100) ∧ EntryHolds (entryBytes 90) clip1 :=
  ⟨fun _ _ => rfl, by decide, by decide, by decide, by decide,
    ⟨by decide, by decide, by decide, fun h => absurd h (by decide), fun _ => by decide⟩⟩

theorem witness_QuietGapCounted_joins : loaded.liveAt 13000 ∧ loaded.line.bitRate.isSome ∧
    loaded.loader.mode = .loading ∧ loaded.loader.loaded = true ∧ loaded.line.lineState ≠ .off ∧ loaded.queue = [] :=
  ⟨live rfl rfl (by decide), rfl, rfl, rfl, by decide, rfl⟩

theorem witness_QuietGapCounted_counts : ∃ s : State, s.liveAt 9 ∧ s.line.bitRate.isSome ∧
    ¬ (s.loader.mode = .loading ∧ s.loader.loaded = true) ∧ s.line.lineState = .off ∧ s.line.recCount + 1 = 96 :=
  ⟨lined fun l => { l with lineState := .off, tec := 255, recCount := 95 }, live rfl rfl (by decide), rfl, by decide,
    rfl, rfl⟩

/-- The station offering its BUZZ after 13 recessive bit times, with this frame followed. -/
def offering (f : Option Followed) : State :=
  { lined (fun l => { l with recessiveRun := 13, followed := f }) with queue := [buzzEntry] }

theorem offering_contends (f : Option Followed) : Contends (offering f) 13 buzzEntry where
  joined := rfl
  online := rfl
  sends := ⟨rfl, nofun⟩
  idle := ⟨rfl, rfl⟩
  offered := rfl
  required := Nat.le_refl 13
  counted := ⟨Nat.le_refl 13, by show 13 < nextGap 13; decide⟩

theorem idle_contends_not (run : Nat) (e : Entry) : ¬ Contends (lined fun l => { l with recessiveRun := 13 }) run e :=
  fun h => nomatch h.offered

theorem witness_AttemptBegins_window : (offering (some (whole 4183))).liveAt 9 ∧
    Contends (offering (some (whole 4183))) 13 buzzEntry ∧ (whole 4183).inWindow = true :=
  ⟨live rfl rfl (by decide), offering_contends _, by decide⟩

theorem witness_AttemptBegins_noFrame : (offering none).liveAt 9 ∧ Contends (offering none) 13 buzzEntry ∧
    ∀ f, (offering none).line.followed = some f → f.inWindow = false :=
  ⟨live rfl rfl (by decide), offering_contends _, nofun⟩

theorem witness_AttemptBegins_silent : (lined fun l => { l with recessiveRun := 13 }).liveAt 9 ∧
    ∀ e, ¬ Contends (lined fun l => { l with recessiveRun := 13 }) 13 e :=
  ⟨live rfl rfl (by decide), idle_contends_not 13⟩

theorem witness_SofEdgeFollowed_joins (f : Option Followed) : (offering f).liveAt 9 ∧
    (offering f).line.listening = true ∧ 13 ≤ (offering f).line.recessiveRun ∧ (offering f).line.attempt = none ∧
    Contends (offering f) 13 buzzEntry :=
  ⟨live rfl rfl (Nat.zero_le 9), rfl, Nat.le_refl 13, rfl, offering_contends f⟩

/-- The station with nothing to send after 13 recessive bit times, with this frame followed. -/
def quiet (f : Option Followed) : State :=
  lined fun l => { l with recessiveRun := 13, followed := f }

theorem witness_SofEdgeFollowed_follows (f : Option Followed) : (quiet f).liveAt 9 ∧ (quiet f).line.listening = true ∧
    13 ≤ (quiet f).line.recessiveRun ∧ (quiet f).line.attempt = none ∧ ∀ e, ¬ Contends (quiet f) 13 e :=
  ⟨live rfl rfl (Nat.zero_le 9), rfl, Nat.le_refl 13, rfl, fun _ h => nomatch h.offered⟩

theorem witness_CharacterTaken_noFrame : online.liveAt 9 ∧ online.line.bitRate.isSome ∧ online.line.followed = none :=
  ⟨live rfl rfl (by decide), rfl, rfl⟩

/-- Another station's frame but its last character. -/
def almost : Followed :=
  { sof := 0, chars := (whole 4183).chars.dropLast }

/-- Its last character. -/
def lastChar : LineChar :=
  goodChar ((whole 4183).chars.getLast?.getD 0)

theorem witness_CharacterTaken_acks : (following almost).liveAt 9 ∧ (following almost).line.bitRate.isSome ∧
    (following almost).line.followed = some almost ∧ (following almost).line.attempt = none ∧
    almost.inWindow = false ∧ charFault almost.chars lastChar = none ∧
    Followed.inWindow { almost with chars := almost.chars ++ [lastChar.data] } = true ∧ mayAckNow (following almost) :=
  ⟨live rfl rfl (by decide), rfl, rfl, rfl, by decide +kernel, by decide +kernel, by decide +kernel,
    by unfold mayAckNow; decide⟩

theorem witness_CharacterTaken_noAck : (following { sof := 0, chars := [] }).liveAt 9 ∧
    (following { sof := 0, chars := [] }).line.bitRate.isSome ∧
    Followed.inWindow { sof := 0, chars := [] } = false ∧ charFault [] (goodChar 0x10) = none ∧
    Followed.inWindow { sof := 0, chars := [0x10] } = false :=
  ⟨live rfl rfl (by decide), rfl, by decide, by decide, by decide⟩

theorem witness_CharacterTaken_own : (sending 0 false [0x10]).liveAt 9 ∧ (sending 0 false [0x10]).line.bitRate.isSome ∧
    (frameChars (attemptOf 4131 false).key (attemptOf 4131 false).payload (attemptOf 4131 false).check)[1]? =
      some 0x23 :=
  ⟨live rfl rfl (by decide), rfl, by decide⟩

theorem witness_CharacterTaken_window : (following (whole 4183)).liveAt 9 ∧
    (following (whole 4183)).line.followed = some (whole 4183) ∧ (whole 4183).inWindow = true ∧
    (whole 4183).chars.getLast? = some 0xD7 ∧ (following (whole 4183)).line.attempt = none ∧
    (following (whole 4183)).line.lineState ≠ .off :=
  ⟨live rfl rfl (by decide), rfl, by decide +kernel, by decide +kernel, rfl, by decide⟩

/-- The character time of an ack window in which nothing is driven. -/
def unacked : LineChar :=
  { start := .recessive, data := 0xFF, parity := true, stop := .recessive }

/-- R5: C2 of the frame 4131 closes in two recessive bit times, that of 4183 in one, so an ack window without an ack
reaches 13 after the first and 12 after the second. -/
theorem witness_CharacterTaken_off : ∃ s : State, s.liveAt 9 ∧ s.line.followed = some (whole 4131) ∧
    (whole 4131).inWindow = true ∧ (whole 4131).chars.getLast? = some 0x4A ∧ s.line.attempt = none ∧
    s.line.lineState = .off ∧ s.line.recessiveRun < 13 ∧
    runAfter 0 (charBits (goodChar 0x4A) ++ charBits unacked) = 13 ∧
    runAfter 0 (charBits (goodChar 0xD7) ++ charBits unacked) = 12 :=
  ⟨lined fun l => { l with lineState := .off, tec := 255, followed := some (whole 4131), recessiveRun := 2 },
    live rfl rfl (by decide), rfl, by decide +kernel, by decide +kernel, rfl, rfl, by decide, by decide, by decide⟩

theorem witness_CharacterTaken_ownDiffers : (goodChar 0x24 ≠ goodChar 0x23) ∧
    (sending 0 false (whole 4131).chars).line.followed = some (whole 4131) ∧
    (whole 4131).chars = frameChars (attemptOf 4131 false).key (attemptOf 4131 false).payload
      (attemptOf 4131 false).check :=
  ⟨by decide, rfl, by decide +kernel⟩

/-- R4: 31 hexadecimal has three 1s, so its parity bit is a 1. -/
theorem witness_ReceiveErrorSpoils_kinds :
    (List.range 8).countP (fun i => (0x31 : Byte).getLsbD i) + 1 = 4 ∧
    charFault [0x10] { goodChar 0x31 with start := .recessive } = some .framingErrors ∧
    charFault [0x10] { goodChar 0x31 with parity := false } = some .parityErrors ∧
    charFault [0x10] { goodChar 0x31 with stop := .dominant } = some .framingErrors ∧
    charFault [0x10, 0x23] (goodChar 8) = none ∧ charFault [0x10, 0x23] (goodChar 9) = some .framingErrors := by
  decide

/-- R8: the frame 4131 with C2 one too high. -/
theorem witness_ReceiveErrorSpoils_check :
    (whole 4131).chars.dropLast = [0x10, 0x23, 0] ++ [(whole 4131).chars[3]?.getD 0] ∧
    charFault (whole 4131).chars.dropLast (goodChar 0x4A) = none ∧
    charFault (whole 4131).chars.dropLast (goodChar 0x4B) = some .checkErrors := by
  decide +kernel

/-- A frame of another station after K1 and K2. -/
def keyed : Followed :=
  { sof := 0, chars := [0x10, 0x57] }

theorem witness_ReceiveErrorSpoils_spoils : (following keyed).liveAt 9 ∧ (following keyed).line.bitRate.isSome ∧
    (following keyed).line.followed = some keyed ∧ (following keyed).line.attempt = none ∧ keyed.inWindow = false ∧
    charFault keyed.chars (goodChar 9) = some .framingErrors ∧ mayAckNow (following keyed) ∧
    (following keyed).line.lineState ≠ .passive :=
  ⟨live rfl rfl (by decide), rfl, rfl, rfl, by decide, by decide, by unfold mayAckNow; decide, by decide⟩

theorem witness_ReceiveErrorSpoils_passive : ∃ s : State, s.liveAt 9 ∧ s.line.bitRate.isSome ∧
    s.line.followed = some keyed ∧ s.line.attempt = none ∧ s.line.recCount = 255 ∧
    ¬ (mayAckNow s ∧ s.line.lineState ≠ .passive) :=
  ⟨lined fun l => { l with followed := some keyed, recCount := 255, lineState := .passive },
    live rfl rfl (by decide), rfl, rfl, rfl, rfl, fun h => h.2 rfl⟩

theorem witness_SpoilsTaken_end : (lined fun l => { l with drive := .spoil }).liveAt 9 ∧
    (lined fun l => { l with drive := .spoil }).line.drive = .spoil :=
  ⟨live rfl rfl (by decide), rfl⟩

theorem witness_SpoilsTaken_window : (following (whole 4183)).liveAt 9 ∧
    (following (whole 4183)).line.followed = some (whole 4183) ∧ (following (whole 4183)).line.attempt = none ∧
    (whole 4183).inWindow = true ∧ (following (whole 4183)).line.listening = true :=
  ⟨live rfl rfl (by decide), rfl, rfl, by decide, rfl⟩

theorem witness_SpoilsTaken_own (tec : Nat) : (sending tec false [0x10]).liveAt 9 ∧
    (sending tec false [0x10]).line.listening = true ∧
    (sending tec false [0x10]).line.attempt = some (attemptOf 4131 false) ∧ (sending tec false [0x10]).line.tec = tec :=
  ⟨live rfl rfl (Nat.zero_le 9), rfl, rfl, rfl⟩

theorem witness_ArbitrationLost : (sending 0 false [0x10]).liveAt 9 ∧
    (sending 0 false [0x10]).line.attempt = some (attemptOf 4131 false) ∧
    (sending 0 false [0x10]).line.followed = some { sof := 5000000, chars := [0x10] } ∧
    [(0x10 : Byte)].length = (15 : Fin 16).val / 8 ∧ (attemptOf 4131 false).key.getMsbD (15 : Fin 16) = true :=
  ⟨live rfl rfl (by decide), rfl, rfl, rfl, by decide⟩

theorem witness_TransmitErrors_body (tec : Nat) : (sending tec false []).liveAt 9 ∧
    (sending tec false []).line.attempt = some (attemptOf 4131 false) ∧
    (sending tec false []).line.followed = some { sof := 5000000, chars := [] } ∧
    Followed.inWindow { sof := 5000000, chars := [] } = false ∧ (sending tec false []).line.tec = tec :=
  ⟨live rfl rfl (Nat.zero_le 9), rfl, rfl, by decide, rfl⟩

theorem witness_TransmitErrors_window (tec : Nat) : (sending tec true (whole 4131).chars).liveAt 9 ∧
    (sending tec true (whole 4131).chars).line.attempt = some (attemptOf 4131 true) ∧
    (sending tec true (whole 4131).chars).line.followed = some (whole 4131) ∧ (whole 4131).inWindow = true ∧
    (sending tec true (whole 4131).chars).line.tec = tec :=
  ⟨live rfl rfl (Nat.zero_le 9), rfl, rfl, by decide, rfl⟩

theorem witness_OwnFrameCompletes : (sending 0 false (whole 4131).chars).liveAt 9 ∧
    (sending 0 false (whole 4131).chars).line.attempt = some (attemptOf 4131 false) ∧
    (sending 0 false (whole 4131).chars).line.followed = some (whole 4131) ∧ (whole 4131).inWindow = true ∧
    (sending 0 false (whole 4131).chars).line.joined = true ∧
    (sending 0 false (whole 4131).chars).loader.mode ≠ .service :=
  ⟨live rfl rfl (by decide), rfl, rfl, by decide, rfl, by decide⟩

theorem witness_OwnFrameCompletes_notHanded : ∃ s : State, s.liveAt 9 ∧
    s.line.attempt = some (attemptOf 4131 false) ∧ s.line.followed = some (whole 4131) ∧
    (whole 4131).inWindow = true ∧ ¬ (s.line.joined = true ∧ s.loader.mode ≠ .service) :=
  ⟨{ sending 0 false (whole 4131).chars with loader := serving.loader }, live rfl rfl (by decide), rfl, rfl,
    by decide, fun h => h.2 rfl⟩

/-- An attempt at TELL ERRORS of group 2 with clear that reports 3, 11 and 0, and what a port clear made of it. -/
def tellGroup2 (portCleared : Bool) : Attempt :=
  { key := 28739, payload := [2, 0, 3, 0, 11, 0, 0], check := 0, singleTry := false, tellArg := some 0x82
    portCleared := portCleared }

/-- The counts of that group after one more send overflow and one more stale drop. -/
def counted : ErrorRecord :=
  { counts := (ErrorRecord.reset.counts.set 6 4).set 7 12 }

theorem witness_OwnFrameCompletes_clear (portCleared : Bool) :
    (tellGroup2 portCleared).tellArg = some 0x82 ∧ keyClass (tellGroup2 portCleared).key = 7 ∧
    keySubject (tellGroup2 portCleared).key = 4 ∧ (0x82 : Byte).msb = true ∧
    (7 : Fin 18).val / 3 = ((0x82 : Byte) &&& 0x7F).toNat ∧ (9 : Fin 18).val / 3 ≠ ((0x82 : Byte) &&& 0x7F).toNat := by
  cases portCleared <;> decide

/-- R50, R193: the clear leaves what came after the report, or 0 after a clear by the port. -/
theorem test_afterTell : ((counted.afterTell (tellGroup2 false)).counts[6], (counted.afterTell (tellGroup2 false)).counts[7],
    (counted.afterTell (tellGroup2 true)).counts[6], (counted.afterTell (tellGroup2 true)).counts[7]) =
    (1, 1, 0, 0) := by decide

theorem witness_FrameCompletes : (following (whole 4183)).liveAt 9 ∧ (following (whole 4183)).line.attempt = none ∧
    (following (whole 4183)).line.followed = some (whole 4183) ∧ (whole 4183).inWindow = true ∧
    (following (whole 4183)).line.joined = true ∧ (following (whole 4183)).loader.mode ≠ .service :=
  ⟨live rfl rfl (by decide), rfl, rfl, by decide, rfl, by decide⟩

theorem witness_FrameCompletes_notHanded : ∃ s : State, s.liveAt 9 ∧ s.line.attempt = none ∧
    s.line.followed = some (whole 4183) ∧ (whole 4183).inWindow = true ∧
    ¬ (s.line.joined = true ∧ s.loader.mode ≠ .service) :=
  ⟨{ following (whole 4183) with loader := serving.loader }, live rfl rfl (by decide), rfl, rfl, by decide,
    fun h => h.2 rfl⟩

theorem witness_TimesReached_stale : ∃ s : State, s.liveAt (40 * 24576) ∧
    s.queue = [entryOf 4131 (some 40) false .waiting] ∧
    (40 * 1000 : Int) ≤ (stationTimeAt (40 * 24576) - (entryOf 4131 (some 40) false .waiting).enqueued).toInt ∧
    (stationTimeAt (40 * 24576 - 25) - (entryOf 4131 (some 40) false .waiting).enqueued).toInt < 40 * 1000 :=
  ⟨{ online with queue := [entryOf 4131 (some 40) false .waiting] }, live rfl rfl (by decide), rfl, by decide,
    by decide⟩

theorem witness_TimesReached_penalty : ∃ s : State, s.liveAt 24576 ∧ s.penalties[(5 : Seat)] = some 1000 ∧
    0 ≤ (stationTimeAt 24576 - 1000).toInt ∧ (stationTimeAt 24575 - 1000).toInt < 0 :=
  ⟨{ online with penalties := online.penalties.set 5 (some 1000) }, live rfl rfl (by decide), by decide, by decide,
    by decide⟩

theorem witness_TimesReached_window : ∃ s : State, s.liveAt 24576 ∧ s.round.state = .locked ∧
    s.round.windowEnd = some 1000 ∧ 0 ≤ (stationTimeAt 24576 - 1000).toInt ∧ s.station.eventCode[4] = none :=
  ⟨inRound { roundIn .locked (some 5) [5, 8] with windowEnd := some 1000 }, live rfl rfl (by decide), rfl, rfl,
    by decide, by decide⟩

theorem witness_TimesReached_timeout : ∃ s : State, s.liveAt 24576 ∧ s.round.state = .locked ∧
    s.round.windowEnd = some 1000 ∧ s.station.eventCode[4] = some 105 ∧ s.round.winner = some 5 :=
  ⟨{ inRound { roundIn .locked (some 5) [5, 8] with windowEnd := some 1000 } with
      station := { online.station with eventCode := online.station.eventCode.set 4 (some 105) } },
    live rfl rfl (by decide), rfl, rfl, by decide, rfl⟩

theorem online_setsAgree : online.pool.setsAgree :=
  ⟨by decide, by decide⟩

theorem withVoice_setsAgree : (withVoice (voiceIn .fading)).pool.setsAgree :=
  ⟨by decide, by decide⟩

theorem clip1_present (s : State) : (withClip s).clips.clip 1 = some clip1 := by
  simp [ClipTable.clip, withClip]

theorem witness_VoicesFreedAndAllocated : (withVoice (voiceIn .fading)).pool.setsAgree ∧
    (withClip online).clips.clip request1.clip = some clip1 :=
  ⟨withVoice_setsAgree, clip1_present online⟩

theorem witness_VoicesFreedAndAllocated_granted : online.pool.grant = none ∧
    (∀ u : VoiceNo, u ≠ 0 → ¬ WantsFrames online.pool.voices[u]) ∧
    WantsFrames (withVoice (voiceIn .running)).pool.voices[(0 : VoiceNo)] ∧
    ({ online.pool with grant := some { voice := 0, generation := 0, clip := 1, loop := false } } : Pool).grant ≠ none :=
  by unfold WantsFrames; decide

theorem witness_VoiceStarts : (withVoice (voiceIn .scheduled)).liveAt 512 ∧ 512 % 512 = 0 ∧
    (withVoice (voiceIn .scheduled)).mixer.nextSample ≤ 512 / 512 ∧
    (withVoice (voiceIn .scheduled)).pool.voices[(0 : VoiceNo)].state = .scheduled ∧
    0 ≤ (stationTimeAt 512 - 20).toInt ∧ (stationTimeAt 512 - 21).toInt < 0 :=
  ⟨live rfl rfl (by decide), rfl, by decide, by decide, by decide, by decide⟩

/-- A DRAINING voice at its end, with this end code and route. -/
def drained (code : Option Byte) (route : EndRoute) : Voice :=
  { voiceIn .draining with exhausted := true, endCode := code, endRoute := route }

theorem witness_VoicesEnd_drained (code : Option Byte) (route : EndRoute) :
    (withVoice (drained code route)).liveAt 512 ∧ (withVoice (drained code route)).mixer.nextSample ≤ 512 / 512 ∧
    (withVoice (drained code route)).pool.voices[(0 : VoiceNo)] = drained code route ∧
    (drained code route).state = .draining ∧ (drained code route).exhausted = true ∧ (drained code route).fifo = [] ∧
    ∀ r, (withVoice (drained code route)).fetch = some r → r.voice ≠ 0 :=
  ⟨live rfl rfl (Nat.zero_le 512), Nat.zero_le 1, rfl, rfl, rfl, rfl, nofun⟩

/-- A FADING voice at its end, reported silent, with this successor. -/
def faded (r : Option VoiceRequest) : Voice :=
  { voiceIn .fading with exhausted := true, silent := true, successor := r }

theorem witness_VoicesEnd_faded (r : Option VoiceRequest) : (withVoice (faded r)).liveAt 512 ∧
    (withVoice (faded r)).pool.voices[(0 : VoiceNo)] = faded r ∧ (faded r).state = .fading ∧
    (faded r).silent = true ∧ (faded r).exhausted = true ∧ (faded r).fifo = [] ∧
    ∀ q, (withVoice (faded r)).fetch = some q → q.voice ≠ 0 :=
  ⟨live rfl rfl (Nat.zero_le 512), rfl, rfl, rfl, rfl, rfl, nofun⟩

theorem witness_RequestsSettled_free : online.pool.orderWhole ∧ online.pool.voices[(0 : VoiceNo)].state = .free ∧
    ∀ u : VoiceNo, u < 0 → online.pool.voices[u].state ≠ .free :=
  ⟨⟨by decide, by decide⟩, by decide, nofun⟩

/-- A pool of twelve voices like this one, in no slot. -/
def full (x : Voice) : Pool :=
  { Pool.reset with voices := Vector.replicate 12 x }

theorem witness_RequestsSettled_fading : (full (voiceIn .fading)).orderWhole ∧
    (∀ u : VoiceNo, (full (voiceIn .fading)).voices[u].state ≠ .free) ∧
    (full (voiceIn .fading)).voices[(0 : VoiceNo)].state = .fading ∧
    (full (voiceIn .fading)).voices[(0 : VoiceNo)].successor = none ∧
    ∀ u : VoiceNo, (full (voiceIn .fading)).voices[u].envelope = (full (voiceIn .fading)).voices[(0 : VoiceNo)].envelope ∧
      0 ≤ u :=
  ⟨⟨by decide, by decide⟩, by decide, by decide, by decide, by decide⟩

theorem witness_RequestsSettled_stolen (state : VoiceState) (h : state = .scheduled ∨ state = .running) :
    (full (voiceIn state)).orderWhole ∧ (∀ u : VoiceNo, (full (voiceIn state)).voices[u].state ≠ .free) ∧
    (∀ u : VoiceNo, (full (voiceIn state)).voices[u].state ≠ .fading) ∧
    (full (voiceIn state)).voices[(0 : VoiceNo)].priority ≤ request1.priority ∧
    ∀ u : VoiceNo, (full (voiceIn state)).voices[u].priority = (full (voiceIn state)).voices[(0 : VoiceNo)].priority ∧
      (full (voiceIn state)).order.idxOf 0 ≤ (full (voiceIn state)).order.idxOf u := by
  rcases h with rfl | rfl
  · exact ⟨⟨by decide, by decide⟩, by decide, by decide, by decide, by decide⟩
  · exact ⟨⟨by decide, by decide⟩, by decide, by decide, by decide, by decide⟩

theorem witness_RequestsSettled_refused : (full { voiceIn .running with priority := 4 }).orderWhole ∧
    (∀ u : VoiceNo, (full { voiceIn .running with priority := 4 }).voices[u].state = .running) ∧
    ∀ u : VoiceNo, request1.priority < (full { voiceIn .running with priority := 4 }).voices[u].priority :=
  ⟨⟨by decide, by decide⟩, by decide, by decide⟩

theorem witness_FadesReachVoices : (withVoice (voiceIn .fading)).pool.setsAgree ∧ request1.choke ≠ 0 :=
  ⟨withVoice_setsAgree, by decide⟩

/-- The station with a voice of slot 0 whose code is 20, carrying a request of that slot as its successor. -/
def cutPool : Pool :=
  { (withVoice { voiceIn .fading with successor := some request1 }).pool with
    slots := online.pool.slots.set 0 { slotWith (.play playConfig) with voices := 1 } }

theorem witness_FadesReachVoices_cut : cutFinds cutPool 20 0 = true ∧ cutFinds cutPool 21 0 = false ∧
    cutPool.voices[(0 : VoiceNo)].owner = some 0 ∧
    cutPool.slots[(0 : SlotNo)].config =
      some { code := 20, mask := 0xFF, filter := .any, action := .play playConfig } ∧
    cutPool.voices[(0 : VoiceNo)].successor = some request1 ∧ request1.slot = 0 := by
  decide

theorem cutPool_setsAgree : cutPool.setsAgree :=
  ⟨by decide, by decide⟩

/-- R95, R118, R121: a CUT of code 20 fades the voice of slot 0 at the 100 ms of its slot and discards its successor; one
of code 21 leaves both. -/
theorem test_cut :
    ((cutPool.cut 20 none).voices[(0 : VoiceNo)].rate, (cutPool.cut 20 none).voices[(0 : VoiceNo)].successor,
      (cutPool.cut 21 none).voices[(0 : VoiceNo)].successor) = (307, none, some request1) := by
  decide +kernel

theorem witness_GainArithmetic : 1 ≤ 1 ∧ 119 < 120 ∧ 0 ≤ 119 ∧ 120 ≤ 120 := by decide

theorem online_counts : online.countsInRange where
  errors c := by cases c <;> decide
  slots := by decide
  line := by decide

theorem witness_SamplePeriodMixed : online.liveAt 0 ∧ 0 % 512 = 0 ∧ online.mixer.nextSample ≤ 0 / 512 ∧
    online.countsInRange ∧ online.loader.loaded = true ∧ online.loader.mode ≠ .service :=
  ⟨live rfl rfl (by decide), rfl, by decide, online_counts, rfl, by decide⟩

theorem witness_SamplePeriodMixed_silent : serving.liveAt 0 ∧ serving.mixer.nextSample ≤ 0 / 512 ∧
    serving.loader.mode = .service :=
  ⟨live rfl rfl (by decide), by decide, rfl⟩

theorem witness_SamplePeriodMixed_needs : NeedsFrame (withVoice (voiceIn .running)) 0 ∧
    ¬ NeedsFrame (withVoice (drained none .local)) 0 := by
  decide

theorem witness_EnvelopeTickSteps : online.liveAt 24576 ∧ 24576 % 24576 = 0 ∧ online.mixer.nextTick ≤ 24576 / 24576 ∧
    online.mixer.nextSample ≤ 24576 / 512 :=
  ⟨live rfl rfl (by decide), rfl, by decide, by decide⟩

/-- Voice 1, of priority 7, ducks voice 0 by 24. -/
def ducking : Pool :=
  { (withVoice (voiceIn .running)).pool with
    voices := (withVoice (voiceIn .running)).pool.voices.set 1 { voiceIn .running with priority := 7, duckDepth := 24 } }

theorem witness_EnvelopeTickSteps_duck : Pushes ducking 1 0 ∧ ducking.voices[(1 : VoiceNo)].duckDepth = 24 ∧
    (∀ u : VoiceNo, Pushes ducking u 0 → ducking.voices[u].duckDepth ≤ 24) ∧
    ducking.voices[(0 : VoiceNo)].duck < 24 * 256 := by
  unfold Pushes
  decide

theorem witness_FetchReadIssued_none : online.liveAt 9 ∧ online.loader.mode = .online ∧ online.fetch = none ∧
    online.flash.op = none ∧ online.pool.grant = none ∧ ∀ v, ¬ Requests online v :=
  ⟨live rfl rfl (by decide), rfl, rfl, rfl, rfl, by unfold Requests WantsFrames; decide⟩

/-- The station with a voice 0 that requests a refill from `cursor`, looping or not. -/
def asking (cursor : Nat) (loop : Bool) : State :=
  withClip (withVoice { voiceIn .running with cursor := cursor, loop := loop })

theorem witness_FetchReadIssued (cursor : Nat) (loop : Bool) : (asking cursor loop).liveAt 9 ∧
    (asking cursor loop).loader.mode = .online ∧ (asking cursor loop).fetch = none ∧
    (asking cursor loop).flash.op = none ∧ Requests (asking cursor loop) 0 ∧
    (asking cursor loop).clips.clip (asking cursor loop).pool.voices[(0 : VoiceNo)].clip = some clip1 ∧
    (asking cursor loop).pool.voices[(0 : VoiceNo)].fifo = [] ∧
    (asking cursor loop).pool.voices[(0 : VoiceNo)].cursor = cursor ∧
    (asking cursor loop).pool.voices[(0 : VoiceNo)].loop = loop :=
  ⟨live rfl rfl (Nat.zero_le 9), rfl, rfl, rfl, ⟨.inr (.inl rfl), rfl, Nat.zero_le 32⟩, clip1_present _, rfl, rfl, rfl⟩

theorem witness_FetchReadIssued_alone : (asking 0 false).pool.grant = none ∧ ∀ u, Requests (asking 0 false) u →
    (asking 0 false).pool.voices[(0 : VoiceNo)].fifo.length < (asking 0 false).pool.voices[u].fifo.length ∨
      (asking 0 false).pool.voices[(0 : VoiceNo)].fifo.length = (asking 0 false).pool.voices[u].fifo.length ∧ 0 ≤ u :=
  ⟨rfl, by unfold Requests WantsFrames; decide⟩

/-- Voice 0 of clip 1, granted at once while its generation was `generation`. -/
def grantOf (generation : Byte) : Grant :=
  { voice := 0, generation := generation, clip := 1, loop := false }

/-- The same station with voice 0 granted at once, in generation `generation`. -/
def granted (generation : Byte) : State :=
  { asking 0 false with pool := { (asking 0 false).pool with grant := some (grantOf generation) } }

theorem witness_FetchReadIssued_granted : (granted 0).liveAt 9 ∧ (granted 0).loader.mode = .online ∧
    (granted 0).fetch = none ∧ (granted 0).flash.op = none ∧ Requests (granted 0) 0 ∧
    (granted 0).pool.grant = some (grantOf 0) ∧ (grantOf 0).voice = 0 ∧
    (grantOf 0).generation = (granted 0).pool.voices[(0 : VoiceNo)].generation ∧
    (granted 0).clips.clip (granted 0).pool.voices[(0 : VoiceNo)].clip = some clip1 :=
  ⟨live rfl rfl (Nat.zero_le 9), rfl, rfl, rfl, ⟨.inr (.inl rfl), rfl, Nat.zero_le 32⟩, rfl, rfl, by decide,
    clip1_present _⟩

theorem witness_FetchReadIssued_stale : (granted 7).liveAt 9 ∧ (granted 7).fetch = none ∧
    (granted 7).pool.grant = some (grantOf 7) ∧
    ¬ (Requests (granted 7) (grantOf 7).voice ∧
      (grantOf 7).generation = (granted 7).pool.voices[(grantOf 7).voice].generation) ∧
    (granted 7).clips.clip (grantOf 7).clip = some clip1 ∧ min 32 clip1.frames = 32 :=
  ⟨live rfl rfl (Nat.zero_le 9), rfl, rfl, fun h => absurd h.2 (by decide), clip1_present _, by decide⟩

theorem witness_FetchReadIssued_limits : 0 + min 32 (100 - 0) ≠ 100 ∧ 68 + min 32 (100 - 68) = 100 ∧
    58 + min 32 (90 - 58) = 90 ∧ clip1.loop = some { first := 40, last := 90 } := by
  decide

/-- A read of one mono frame at the end of the flash, for voice 0. -/
def lastRead : FetchRead :=
  { voice := 0, generation := 0, size := 1, address := 0xFFFFFE, channels := .mono, dueAt := 26 }

theorem witness_FetchReadCompletes_current : ∃ s : State, s.liveAt 26 ∧ s.fetch = some lastRead ∧ lastRead.dueAt ≤ 26 ∧
    Memory.wf s.flash.mem ∧ s.pool.voices[lastRead.voice].state ≠ .free ∧
    s.pool.voices[lastRead.voice].generation = lastRead.generation ∧
    lastRead.address + lastRead.size * (if lastRead.channels = .mono then 2 else 4) ≤ 16777216 :=
  ⟨{ withVoice (voiceIn .running) with fetch := some lastRead }, live rfl rfl (by decide), rfl, by decide, by decide,
    by decide, by decide, by decide⟩

theorem witness_FetchReadCompletes_stale : ∃ s : State, s.liveAt 26 ∧ s.fetch = some lastRead ∧
    Memory.wf s.flash.mem ∧ s.pool.voices[lastRead.voice].state = .free :=
  ⟨{ online with fetch := some lastRead }, live rfl rfl (by decide), rfl, by decide, by decide⟩

/-- An input configuration: debounce 2, short action GO 20, long action `long` after 100 ms. -/
def inputConfig (long : InputAction) : InputConfig :=
  { debounce := 2, longTime := 10, short := .go 20 (some 4) true, long := long }

/-- The station with this input 0. -/
def withInput (x : Input) : State :=
  { online with inputs := online.inputs.set 0 x }

/-- An input with this configuration, level, run, press time and hold. -/
def inputAt (long : InputAction) (level : Option Contact) (run : Nat) (press : Option StationTime) (hold : Hold) :
    Input :=
  { config := some (inputConfig long), level := level, run := run, pressTime := press, hold := hold }

theorem witness_InputRecordsScanned : (withInput (inputAt .none none 0 none .none)).liveAt 24576 ∧
    24576 % 24576 = 0 ∧ (withInput (inputAt .none none 0 none .none)).nextScan ≤ 24576 / 24576 ∧
    (inputAt .none none 0 none .none).level = none ∧ online.inputs[(0 : Fin 8)].config = none :=
  ⟨live rfl rfl (by decide), rfl, by decide, rfl, by decide⟩

theorem witness_InputRecordsScanned_changes :
    (inputAt .none (some .open) 0 none .none).run + 1 < (inputConfig .none).debounce ∧
    (inputConfig .none).debounce ≤ (inputAt .none (some .open) 1 none .none).run + 1 ∧
    ((1 : Byte).getLsbD (0 : Fin 8) = true) ∧ ((0 : Byte).getLsbD (0 : Fin 8) = false) := by
  decide

/-- An input whose short action is `a` and whose long action is not in use, one scan before its press. -/
def pressing (a : InputAction) : Input :=
  { inputAt .none (some .open) 1 none .none with config := some { inputConfig .none with short := a } }

theorem witness_InputActionsFired_order : (withInput (pressing .stop)).liveAt 24576 ∧ 24576 % 24576 = 0 ∧
    (withInput (pressing .stop)).nextScan ≤ 24576 / 24576 ∧ [(3 : Fin 8), 0].Nodup :=
  ⟨live rfl rfl (by decide), rfl, Nat.le_refl 1, by decide⟩

theorem witness_InputActionsFired_press (a : InputAction) :
    (withInput (pressing a)).inputs[(0 : Fin 8)] = pressing a ∧
    (pressing a).config = some { inputConfig .none with short := a } ∧ (pressing a).level = some .open ∧
    (1 : Byte).getLsbD (0 : Fin 8) = true ∧ (inputConfig .none).debounce ≤ (pressing a).run + 1 ∧
    ¬ LongInUse { inputConfig .none with short := a } ∧
    LongInUse (inputConfig .stop) ∧ (inputConfig .stop).debounce ≤ (inputAt .stop (some .open) 1 none .none).run + 1 :=
  ⟨rfl, rfl, rfl, by decide, Nat.le_refl 2, fun h => h.1 rfl, by decide, by decide⟩

/-- R162, R163: a release fires the short action from a WAITING hold, and nothing from NONE or SPENT. -/
theorem witness_InputActionsFired_release (hold : Hold) :
    (inputAt .stop (some .closed) 1 (some 0) hold).level = some .closed ∧ (0 : Byte).getLsbD (0 : Fin 8) = false ∧
    (inputConfig .stop).debounce ≤ (inputAt .stop (some .closed) 1 (some 0) hold).run + 1 ∧
    (inputAt .stop (some .closed) 1 (some 0) hold).hold = hold ∧ LongInUse (inputConfig .stop) :=
  ⟨rfl, by decide, Nat.le_refl 2, rfl, by decide⟩

/-- The station at instant 101 ms with an input held since 1 ms, whose long action takes 100 ms. -/
def held101 : State :=
  { withInput (inputAt .stop (some .closed) 0 (some 1000) .waiting) with clock := 101 * 24576 }

theorem witness_InputActionsFired_long : held101.inputs[(0 : Fin 8)].level = some .closed ∧
    held101.inputs[(0 : Fin 8)].hold = .waiting ∧ held101.inputs[(0 : Fin 8)].pressTime = some 1000 ∧
    held101.now = 1000 + BitVec.ofNat 32 ((inputConfig .stop).longTime * 10 * 1000) ∧
    (withInput (inputAt .stop (some .closed) 0 (some 1000) .waiting)).now ≠
      1000 + BitVec.ofNat 32 ((inputConfig .stop).longTime * 10 * 1000) := by
  decide

/-- R162: with the long action in use a press fires nothing; R163: nor does a release after the long action. -/
theorem test_inputScan_silent :
    ((after (.inputScan (24576) 1 []) (withInput (inputAt .stop (some .open) 1 none .none))).map fun u =>
      (u.queue, u.inputs[(0 : Fin 8)].hold),
     (after (.inputScan (24576) 0 []) (withInput (inputAt .stop (some .closed) 1 (some 0) .spent))).map fun u =>
      (u.queue, u.inputs[(0 : Fin 8)].hold)) = (some ([], .waiting), some ([], .none)) := by
  decide

/-- The verbs and modes of a JUDGE request are in the lists that name them. -/
theorem witness_InputActionsFired_judge :
    (Verb.void, (4 : Byte)) ∈ [(Verb.arm, (0 : Byte)), (.openBuzzers, 1), (.right, 2), (.wrong, 3), (.void, 4)] ∧
    (online.station.armPreset.rebound, (0 : Byte)) ∈ [(ReboundMode.queue, (0 : Byte)), (.reopen, 1)] := by
  decide

theorem witness_LampsShow_period : online.liveAt 0 ∧ 0 % 24576 = 0 ∧ online.nextLampPeriod ≤ 0 / 24576 ∧
    online.lamps[(0 : Fin 8)].assign = .cue :=
  ⟨live rfl rfl (by decide), rfl, by decide, by decide⟩

/-- The station with lamp 5 at a level, at an instant of lamp period 1. -/
def lampAt (level clock : Nat) : State :=
  { online with lamps := online.lamps.set 5 { Lamp.reset with level := level }, clock := 24576 + clock }

theorem witness_LampsShow_line (clock : Fin 24576) : (lampAt 128 clock).clock / 24576 = 1 ∧
    (lampAt 128 clock).lamps[(5 : Fin 8)].level = 128 ∧ 128 ≤ 255 :=
  ⟨by show (24576 + clock.val) / 24576 = 1; omega, rfl, by decide⟩

/-- R166: level 128 of 255 is 12336.2 of 24576 master clock periods. -/
theorem test_lampLine_level : (lampAt 128 12334).lampLine 5 = true ∧ (lampAt 128 12338).lampLine 5 = false :=
  ⟨State.lampLine_on (by decide) (by decide), State.lampLine_off (by decide) (by decide)⟩

/-- R166: level 0 keeps the line off all period, and level 255 keeps it on. -/
theorem test_lampLine_ends : (lampAt 0 0).lampLine 5 = false ∧ (lampAt 255 24575).lampLine 5 = true := by
  decide

/-- The station with a lamp 2 for seat 4 in this row. -/
def seatLamp (row : SeatRow) (s : State) : State :=
  { s with lamps := s.lamps.set 2 { Lamp.reset with assign := .seat 4, row := row } }

/-- An input here buzzes for seat 4, which is penalised until 1 ms. -/
def penalised4 : State :=
  { withInput (pressing (.buzz 4)) with penalties := online.penalties.set 4 (some 1000) }

theorem witness_LampsShow_pattern : (seatLamp .winnerLocked online).lamps[(2 : Fin 8)].assign = .seat 4 ∧
    ((seatLamp .winnerLocked online).lamps[(2 : Fin 8)].row, (250 : Nat)) = (.winnerLocked, 250) := by
  decide

/-- R168, R169: the lamp of a winner, and the same lamp when its seat has begun a penalty here. -/
theorem witness_LampsShow_rows :
    RowOf (inRound (roundIn .locked (some 4) [4])) 4 .winnerLocked ∧ RowOf penalised4 4 .penalised := by
  refine ⟨⟨?_, ?_, ?_, ?_, ?_, ?_, ?_, ?_⟩, ⟨?_, ?_, ?_, ?_, ?_, ?_, ?_, ?_⟩⟩
  case refine_1 =>
    rintro ⟨-, e, he, -⟩
    rw [show (inRound (roundIn .locked (some 4) [4])).penalties[(4 : Seat)] = none by decide] at he
    cases he
  case refine_6 => exact fun _ _ _ => ⟨fun _ => rfl, fun h => absurd h (by decide)⟩
  case refine_9 => exact fun _ => rfl
  all_goals first
    | (intro h; exfalso; exact h ⟨⟨0, _, rfl, .inl rfl⟩, 1000, by decide, by decide⟩)
    | (intros; rename_i h; exact absurd h (by decide))
    | (intros; rename_i h _; exact absurd h (by decide))
    | (intros; rename_i h _ _; exact absurd h (by decide))

/-- R169: a lamp takes the row of the winner with a new phase. -/
theorem test_refreshSeatLamps :
    ((State.refreshSeatLamps (seatLamp .openIn { inRound (roundIn .locked (some 4) [4]) with clock := 24577 })
        none).lamps[(2 : Fin 8)].row,
      (State.refreshSeatLamps (seatLamp .openIn { inRound (roundIn .locked (some 4) [4]) with clock := 24577 })
        none).lamps[(2 : Fin 8)].phaseStart) = (.winnerLocked, 2) := by
  decide

theorem witness_LampsShow_durationEnd : ∃ s : State, s.liveAt 24576 ∧ s.lamps[(3 : Fin 8)].assign = .cue ∧
    s.lamps[(3 : Fin 8)].durationEnd = some 1000 ∧ 0 ≤ (stationTimeAt 24576 - 1000).toInt ∧
    (stationTimeAt 24575 - 1000).toInt < 0 :=
  ⟨{ online with lamps := online.lamps.set 3 { Lamp.reset with durationEnd := some 1000 } },
    live rfl rfl (by decide), by decide, by decide, by decide, by decide⟩

/-- The station with its packet assembly in this state. -/
def assembling (a : Assembly) : State :=
  atPort serving fun p => { p with assembly := a, gapFrom := some 5 }

/-- The same while a character is being received. -/
def receiving (a : Assembly) : State :=
  atPort serving fun p => { p with assembly := a, receiver := .receiving }

theorem room_empty (a : Assembly) : (assembling a).service.hasRoom :=
  ⟨rfl, by show 0 < 4; decide⟩

theorem witness_PacketsAssembled (a : Assembly) : (receiving a).liveAt 9 ∧ (receiving a).service.assembly = a ∧
    (receiving a).service.receiver = .receiving ∧ (receiving a).service.hasRoom ∧
    (assembling a).service.receiver = .seeking :=
  ⟨live rfl rfl (Nat.zero_le 9), rfl, rfl, ⟨rfl, by show 0 < 4; decide⟩, rfl⟩

/-- R184: 5A is sent as 0, 1, 0, 1, 1, 0, 1, 0 with a parity bit of 0 between the start bit and the stop bit. -/
theorem witness_PacketsAssembled_levels : (∀ i, i < 8 → (0b1001011010 : BitVec 10).getLsbD i = (0x5A : Byte).getLsbD i) ∧
    (List.range 9).countP (0b1001011010 : BitVec 10).getLsbD % 2 = 0 ∧ (0b1001011010 : BitVec 10).getLsbD 9 = true := by
  decide

theorem witness_PacketsAssembled_sums :
    ((1 : Byte) :: byteOf 0 :: []).sum = 1 ∧ ((8 : Byte) :: byteOf 0 :: []).sum = 8 ∧
    ((1 : Byte) :: byteOf 0 :: []).sum ≠ 2 ∧ ((0 : Byte) :: byteOf 0 :: []).sum = 0 ∧
    ((5 : Byte) :: byteOf 4 :: (addressBytes 0x1050 ++ [16])).sum = 0x79 := by
  decide

/-- R186: an ENTER with a payload byte and a READ with three are BAD_ARG. -/
theorem witness_PacketsAssembled_length : ((2 : Byte) :: byteOf 1 :: [9]).sum = 12 ∧
    ((5 : Byte) :: byteOf 3 :: [0, 0, 9]).sum = 17 ∧ [(9 : Byte)] ≠ [] ∧ [(0 : Byte), 0, 9].length ≠ 4 ∧
    (assembling (.check 5 [0, 0, 9])).loader.mode = .service ∧
    (assembling (.check 5 [0, 0, 9])).service.inProgress = .none := by
  decide

theorem witness_PacketsAssembled_refused (s : State) (h : s ∈ [loaded, online, serving]) :
    ServicePort.hasRoom { s.service with assembly := .check 5 [0, 0, 9], inProgress := .erase } ∧
    ServicePort.hasRoom { s.service with assembly := .check 2 [9] } ∧ s.service.inProgress = .none ∧
    loaded.loader.mode = .loading ∧ online.loader.mode ≠ .service := by
  simp only [List.mem_cons, List.not_mem_nil, or_false] at h
  rcases h with rfl | rfl | rfl
  all_goals exact ⟨⟨rfl, by show 0 + 0 + 1 < 4; decide⟩, ⟨rfl, by show 0 < 4; decide⟩, rfl, by decide, by decide⟩

/-- R186: the BUSY and NOT_SERVICE of a known command come before its length is judged. -/
theorem test_serviceCharacter_length :
    ((after (.serviceCharacter 9 (.character (portChar 12))) (receiving (.check 2 [9]))).map fun u =>
      u.service.answers.map Response.status,
     (after (.serviceCharacter 9 (.character (portChar 17))) (atPort online fun p => { p with receiver := .receiving, assembly := .check 5 [0, 0, 9] })).map
      fun u => u.service.answers.map Response.status) = (some [.badArg], some [.notService]) := by
  decide

/-- A port with no place left for an answer. -/
def fullPort (s : State) : State :=
  atPort s fun p => { p with answers := List.replicate 4 { command := 0x81, status := .ok, payload := [] } }

theorem fullPort_noRoom (s : State) : ¬ (fullPort s).service.hasRoom := by
  intro h
  have hlt := h.2
  simp [fullPort, atPort] at hlt
  omega

theorem witness_PacketsAssembled_full : (fullPort (receiving (.check 1 []))).liveAt 9 ∧
    (fullPort (receiving (.check 1 []))).service.assembly = .check 1 [] ∧
    ¬ (fullPort (receiving (.check 1 []))).service.hasRoom :=
  ⟨live rfl rfl (by decide), rfl, fullPort_noRoom _⟩

theorem witness_PacketsAssembled_faults :
    (0b0001011010 : BitVec 10).getLsbD 9 = false ∧ (0b1101011010 : BitVec 10).getLsbD 9 = true ∧
    (List.range 9).countP (0b1101011010 : BitVec 10).getLsbD % 2 = 1 := by
  decide

/-- R184: after a framing error no start bit is found until the line has stood high for one bit time. -/
theorem test_serviceCharacter_framing :
    ((after (.serviceCharacter 9 (.character 0)) (receiving .command)).map fun u =>
      (u.service.receiver, u.service.assembly, u.errors.get .framingErrors),
     (after (.serviceCharacter 9 .startBit) (atPort serving fun p => { p with receiver := .waitingHigh })).map fun u =>
      u.service.receiver,
     ((after (.serviceCharacter 9 .lineHigh) (atPort serving fun p => { p with receiver := .waitingHigh })).bind
      (after (.serviceCharacter 10 .startBit))).map fun u => u.service.receiver) =
      (some (.waitingHigh, .hunt, 1), some .waitingHigh, some .receiving) := by
  decide

theorem witness_PacketsAssembled_gap : (assembling .command).liveAt (5 + 20 * 24576) ∧
    (assembling .command).service.gapFrom = some 5 ∧ 5 + 20 * 24576 ≤ 5 + 20 * 24576 ∧ online.service.gapFrom = none :=
  ⟨live rfl rfl (by decide), rfl, by decide, rfl⟩

theorem witness_PacketsRefused_busy : ∃ s : State, s.liveAt 9 ∧ s.service.hasRoom ∧ s.service.inProgress ≠ .none :=
  ⟨atPort serving fun p => { p with inProgress := .erase }, live rfl rfl (by decide),
    ⟨rfl, by show 0 + 0 + 1 < 4; decide⟩, by decide⟩

theorem serving_room : serving.service.hasRoom :=
  ⟨rfl, by show 0 < 4; decide⟩

theorem witness_PacketsRefused_mode : (loaded.liveAt 9 ∧ loaded.service.hasRoom ∧ loaded.service.inProgress = .none ∧
    loaded.loader.mode = .loading) ∧ loaded.loader.mode ≠ .service :=
  ⟨⟨live rfl rfl (by decide), serving_room, rfl, rfl⟩, by decide⟩

theorem witness_PacketsRefused_args : serving.liveAt 9 ∧ serving.service.hasRoom ∧ serving.service.inProgress = .none ∧
    serving.loader.mode = .service ∧ (0x1001 : BitVec 24).toNat % 4096 ≠ 0 ∧
    256 < (0x10FF : BitVec 24).toNat % 256 + [(1 : Byte), 2].length ∧
    16777216 < (0xFFFFFF : BitVec 24).toNat + (2 : Byte).toNat ∧ 6 ≤ ((0x86 : Byte) &&& 0x7F).toNat :=
  ⟨live rfl rfl (by decide), serving_room, rfl, rfl, by decide, by decide, by decide, by decide⟩

theorem witness_PacketsRefused_full : (fullPort serving).liveAt 9 ∧ ¬ (fullPort serving).service.hasRoom :=
  ⟨live rfl rfl (by decide), fullPort_noRoom _⟩

theorem witness_PacketsRefused_long : 67 < (List.replicate 68 (0 : Byte)).length := by rw [List.length_replicate]; decide

theorem witness_StatusErrorsRestartAnswered : serving.liveAt 9 ∧ serving.service.hasRoom ∧
    serving.service.inProgress = .none ∧ ((0x85 : Byte) &&& 0x7F).toNat = (5 : Fin 6).val ∧ (0x85 : Byte).msb = true ∧
    (serving.loader.mode, (2 : Byte)) ∈ [(StationMode.loading, (0 : Byte)), (.online, 1), (.service, 2)] ∧
    (serving.line.lineState, (0 : Byte)) ∈ [(LineState.active, (0 : Byte)), (.warning, 1), (.passive, 2), (.off, 3)] :=
  ⟨live rfl rfl (by decide), serving_room, rfl, by decide, by decide, by decide, by decide⟩

/-- The attempt of a TELL ERRORS of group 5 with clear. -/
def tellErrors : Attempt :=
  { key := 28739, payload := [], check := 0, singleTry := false, tellArg := some 0x85, portCleared := false }

theorem witness_StatusErrorsRestartAnswered_overtaken : ∃ s : State, s.liveAt 9 ∧ s.service.hasRoom ∧
    s.line.attempt = some tellErrors ∧ keyClass tellErrors.key = 7 ∧ keySubject tellErrors.key = 4 ∧
    ((0x85 : Byte) &&& 0x7F).toNat = (5 : Fin 6).val ∧ (0x85 : Byte).msb = true :=
  ⟨lined fun l => { l with attempt := some tellErrors }, live rfl rfl (by decide), serving_room, rfl, by decide,
    by decide, by decide, by decide⟩

/-- R50, R193: a clear by the port is noted on an attempt with clear, and not on one without. -/
theorem test_errors_noted :
    ((after (.errors 9 0x85) (lined fun l => { l with attempt := some tellErrors })).map fun u =>
      u.line.attempt.map Attempt.portCleared,
     (after (.errors 9 0x85) (lined fun l => { l with attempt := some { tellErrors with tellArg := some 0x05 } })).map
      fun u => u.line.attempt.map Attempt.portCleared) = (some (some true), some (some false)) := by
  decide

/-- A TELL ERRORS of group 5 with clear that waits to be retried. -/
def retried : Entry :=
  { key := 28739, content := .tell 0x85, enqueued := 0, lateLimit := none, singleTry := false, state := .waiting
    reported := some 5, portCleared := false }

theorem witness_StatusErrorsRestartAnswered_retried : ({ online with queue := [retried] } : State).queue[0]? = some retried ∧
    retried.state = .waiting ∧ retried.reported = some (5 : Fin 6).val ∧ keyClass retried.key = 7 ∧
    keySubject retried.key = 4 ∧ retried.content = .tell 0x85 ∧ ((0x85 : Byte) &&& 0x7F).toNat = (5 : Fin 6).val ∧
    (0x85 : Byte).msb = true := by
  decide

/-- R193: the retried attempt knows of the clear that came while its entry waited. -/
theorem test_errors_retried :
    (((after (.errors 9 0x85) { lined (fun l => { l with recessiveRun := 13 }) with queue := [retried] }).bind
      (after (.attemptStart 10 13))).map fun u => u.line.attempt.map Attempt.portCleared) = some (some true) := by
  decide

/-- R50: a retried attempt whose clear a merge has removed takes no note. -/
theorem test_errors_merged :
    ((after (.attemptStart 10 13)
      { lined (fun l => { l with recessiveRun := 13 }) with
        queue := [{ retried with content := .tell 0x05, portCleared := true }] }).map
      fun u => u.line.attempt.map Attempt.portCleared) = some (some false) := by
  decide

theorem witness_ServiceEntered_again : serving.liveAt 9 ∧ serving.service.hasRoom ∧ serving.service.inProgress = .none ∧
    serving.loader.mode = .service :=
  ⟨live rfl rfl (by decide), serving_room, rfl, rfl⟩

theorem witness_ServiceEntered : (withVoice (voiceIn .fading)).liveAt 9 ∧
    (withVoice (voiceIn .fading)).service.hasRoom ∧ (withVoice (voiceIn .fading)).service.inProgress = .none ∧
    (withVoice (voiceIn .fading)).loader.mode = .online ∧ (withVoice (voiceIn .fading)).pool.setsAgree :=
  ⟨live rfl rfl (by decide), serving_room, rfl, rfl, withVoice_setsAgree⟩

theorem witness_FlashCommandsStart : serving.liveAt 9 ∧ serving.service.hasRoom ∧ serving.service.inProgress = .none ∧
    serving.loader.mode = .service ∧ serving.fetch = none ∧ serving.service.reads = [] ∧
    (0xFFF000 : BitVec 24).toNat % 4096 = 0 ∧ (0xFFFFC0 : BitVec 24).toNat % 256 + 64 ≤ 256 ∧
    (0xFFFFC0 : BitVec 24).toNat + (64 : Byte).toNat ≤ 16777216 :=
  ⟨live rfl rfl (by decide), serving_room, rfl, rfl, rfl, rfl, by decide, by decide, by decide⟩

theorem witness_FlashCommandsStart_waits : ∃ s : State, s.liveAt 9 ∧ s.service.hasRoom ∧ s.service.inProgress = .none ∧
    s.loader.mode = .service ∧ s.fetch = some lastRead ∧
    s.service.reads = [{ address := 0, count := 1, dueAt := 52 }] ∧ lastRead.dueAt ≤ 52 ∧ 9 ≤ 52 :=
  ⟨{ atPort serving (fun p => { p with reads := [{ address := 0, count := 1, dueAt := 52 }] }) with
      fetch := some lastRead }, live rfl rfl (by decide), ⟨rfl, by show 0 + 1 + 0 < 4; decide⟩, rfl, rfl, rfl, rfl,
    by decide, by decide⟩

/-- The station in SERVICE with this operation under way and this command in progress. -/
def busyWith (o : FlashOp) (kind : InProgress) : State :=
  { atPort serving (fun p => { p with inProgress := kind }) with
    flash := { mem := [(0x1FFF, 0x55), (0xFFFFFF, 0xAA)], op := some o, freeSince := 0 } }

theorem witness_FlashOperationsEnd_erase (kind : InProgress) : (busyWith eraseOp kind).clock ≤ eraseOp.dueAt ∧
    (busyWith eraseOp kind).powered = true ∧ Memory.wf (busyWith eraseOp kind).flash.mem ∧
    (busyWith eraseOp kind).flash.op = some { job := .erase 0x1000, dueAt := 9 + 40 * 24576 } ∧
    (busyWith eraseOp kind).service.inProgress = kind :=
  ⟨Nat.zero_le _, rfl, show Memory.wf [(0x1FFF, (0x55 : Byte)), (0xFFFFFF, 0xAA)] by decide, rfl, rfl⟩

theorem witness_FlashOperationsEnd_program (kind : InProgress) : (busyWith programOp kind).clock ≤ programOp.dueAt ∧
    (busyWith programOp kind).powered = true ∧ Memory.wf (busyWith programOp kind).flash.mem ∧
    (busyWith programOp kind).flash.op = some { job := .program 0xFFFFFE [0x0F, 0xF0], dueAt := 9 + 24576 } ∧
    0xFFFFFE + [(0x0F : Byte), 0xF0].length ≤ 16777216 ∧ (busyWith programOp kind).service.inProgress = kind :=
  ⟨Nat.zero_le _, rfl, show Memory.wf [(0x1FFF, (0x55 : Byte)), (0xFFFFFF, 0xAA)] by decide, rfl, by decide, rfl⟩

theorem witness_FlashOperationsEnd_read : ∃ s : State, s.clock ≤ 52 ∧ s.powered = true ∧ Memory.wf s.flash.mem ∧
    s.resetLine = .released ∧ s.service.reads = [{ address := 0xFFFFFF, count := 1, dueAt := 52 }] ∧
    0xFFFFFF + 1 ≤ 16777216 :=
  ⟨atPort serving fun p => { p with reads := [{ address := 0xFFFFFF, count := 1, dueAt := 52 }] }, by decide, rfl,
    by decide, rfl, rfl, by decide⟩

/-- A station whose port sends this response since instant 0. -/
def sendingResponse (status : PacketStatus) (pending : Bool) : State :=
  { atPort serving (fun p =>
      { p with
        restartPending := pending, answers := [{ command := 0x87, status := status, payload := [] }]
        sendingFrom := some 0 }) with
    flash := { Flash.erased with op := some eraseOp } }

theorem witness_ResponsesSent_restart : (sendingResponse .ok true).liveAt 5867 ∧
    (sendingResponse .ok true).service.answers = [{ command := 0x87, status := .ok, payload := [] }] ∧
    (sendingResponse .ok true).service.sendingFrom = some 0 ∧ (sendingResponse .ok true).service.restartPending = true ∧
    3 * 0 + 3520 * (5 + ([] : List Byte).length) ≤ 3 * 5867 ∧ (sendingResponse .ok true).flash.op = some eraseOp ∧
    eraseOp.dueAt ≤ 5867 + eraseOp.job.clocks :=
  ⟨live rfl rfl (by decide), rfl, rfl, rfl, by decide, rfl, by decide⟩

theorem witness_ResponsesSent_other : (sendingResponse .busy false).liveAt 5867 ∧
    ¬ ((sendingResponse .busy false).service.restartPending = true ∧ (0x87 : Byte) = 0x87 ∧
      PacketStatus.busy = .ok) ∧ 3 * 5866 < 3 * 0 + 3520 * (5 + ([] : List Byte).length) ∧
    (sendingResponse .busy false).liveAt 5866 :=
  ⟨live rfl rfl (by decide), by decide, by decide, live rfl rfl (by decide)⟩

/-- At instant 3520 bit time 33 begins, the start bit of the fourth character, and at 5867 the last is out. -/
theorem witness_ResponsesSent_line : (PacketStatus.busy, (1 : Byte)) ∈
      [(PacketStatus.ok, (0 : Byte)), (.busy, 1), (.badSum, 2), (.badArg, 3), (.notService, 4), (.unknown, 5)] ∧
    (3520 - 0) * 3 / 320 = 11 * 3 + 0 ∧ (5867 - 0) * 3 / 320 = 11 * 5 + 0 ∧
    (online.service.answers = [] : Prop) := by
  decide

/-- A frame of station 1 with this class, subject and payload. -/
def frame (cls : BitVec 4) (subject : Byte) (payload : List Byte) : LineFrame :=
  { cls := cls, subject := subject, sender := 1, payload := payload, sof := 5000000 }

theorem witness_FramesJudged : (frame 0 0 [2]).sender ≠ 0 ∧ { frame 0 0 [] with sender := 0 }.sender = 0 ∧
    8 ≤ (frame 8 0 []).cls.toNat ∧ 16 ≤ (frame 1 16 []).subject.toNat ∧ 5 ≤ (frame 2 5 []).subject.toNat ∧
    (frame 2 0 [2, 0, 0, 0, 0]).payload.head? = some 2 ∧ 2 ≤ (2 : Byte).toNat ∧
    (frame 4 20 [BitVec.ofNat 8 (15 : Seat).val]).payload = [15] ∧ 16 ≤ (16 : Byte).toNat ∧
    (frame 5 15 []).subject.toNat < 16 ∧ (frame 5 15 []).subject.toNat ≠ online.station.number.toNat := by
  decide

theorem witness_AsksAndTellsTaken_ask : (frame 6 3 [3, 47]).sender ≠ 0 ∧
    (frame 6 3 [3, 47]).subject.toNat = online.station.number.toNat ∧ (47 : Byte).toNat < 48 ∧
    48 ≤ (48 : Byte).toNat ∧ ((0x85 : Byte) &&& 0x7F).toNat < 6 ∧ 6 ≤ ((0x06 : Byte) &&& 0x7F).toNat ∧
    5 ≤ (5 : Byte).toNat ∧ (frame 6 3 [3]).payload.length ≠ 2 ∧
    ¬ ((3 : Byte) = 0 ∧ (frame 6 3 [3, 47]).subject = 0 ∧ online.round.synced = false) := by
  decide

theorem witness_AsksAndTellsTaken_aside : (frame 6 0 [0, 0]).subject = 0 ∧ online.round.synced = false := by decide

/-- 11.1, One TELL ROUND on the Wire: the payload station 1 sends. -/
theorem witness_AsksAndTellsTaken_adopted :
    (((0x03 : Byte) &&& 0x0F), RoundState.locked) ∈
      [((0 : Byte), RoundState.idle), (1, .ready), (2, .open), (3, .locked), (4, .expired)] ∧
    (0x05 : Byte) = BitVec.ofNat 8 (5 : Seat).val ∧ inSet ((0xFE : Byte) ++ (0xDF : Byte)) (5 : Seat) = false ∧
    (0x02 : Byte).toNat ≤ 16 ∧ online.round.synced = false ∧ (frame 7 0 []).sender ≠ online.station.number := by
  decide

theorem witness_AsksAndTellsTaken_kept : (inRound (roundIn .open none [])).round.synced = true ∧
    (((2 : Byte) &&& 0x0F), RoundState.open) ∈
      [((0 : Byte), RoundState.idle), (1, .ready), (2, .open), (3, .locked), (4, .expired)] := by
  decide

theorem witness_AsksAndTellsTaken_bad : 5 ≤ ((0xF5 : Byte) &&& 0x0F).toNat ∧ 16 < (17 : Byte).toNat ∧
    3 ≤ ((3 : Byte) &&& 0x0F).toNat ∧ 16 ≤ (16 : Byte).toNat ∧ inSet ((0xFE : Byte) ++ (0xDF : Byte)) (8 : Seat) = false ∧
    inSet ((0xFE : Byte) ++ (0xDF : Byte)) (9 : Seat) = true ∧ ((2 : Byte) &&& 0x0F).toNat < 3 ∧ (0 : Byte) ≠ 0xFF ∧
    5 ≤ (frame 7 5 []).subject.toNat := by
  decide

theorem witness_AsksAndTellsTaken_answers : (frame 7 1 [3, 0, 0, 1, 0, 0, 0, 0]).payload = 3 :: List.replicate 2 0 ++
      1 :: List.replicate 4 0 ∧ (3 : Byte).toNat < 4 ∧ ¬ (4 : Byte).toNat < 4 ∧
    ((0x85 : Byte) &&& 0x7F).toNat < 6 ∧ ¬ ((6 : Byte) &&& 0x7F).toNat < 6 ∧
    (frame 7 4 (5 :: List.replicate 6 0)).subject = 4 ∧ (frame 7 1 []).payload = [] := by
  decide

/-- R194: line state 3 and group 5 are codes of their tables, with bit 7 of the group byte not examined; 4 and 6 are not. -/
theorem test_tells_coded :
    [online.judge (frame 7 1 [3, 0, 0, 1, 0, 0, 0, 0]), online.judge (frame 7 4 [0x85, 0, 0, 0, 0, 0, 0]),
      online.judge (frame 7 1 [4, 0, 0, 1, 0, 0, 0, 0]), online.judge (frame 7 4 [6, 0, 0, 0, 0, 0, 0])] =
      [.nobody, .nobody, .bad, .bad] := by
  decide

/-- Chapter 3, A Rack That Rejoins: 31 tenths of a second remain of a window that ends in 3,046,000 µs. -/
theorem witness_TellsBuilt_remaining : ∃ e : StationTime, (e - stationTimeAt 0).toInt = 3046000 ∧
    ((31 : Byte).toNat : Int) = min 255 ⌈(3046000 / 100000 : ℚ)⌉ := by
  refine ⟨3046000, by decide, ?_⟩
  rw [show (31 : Byte).toNat = 31 from rfl]
  norm_num

theorem witness_TellsBuilt_slot : (47 : Byte) = BitVec.ofNat 8 (47 : SlotNo).val ∧
    ((0x0F : Byte).toNat < 16 ∧ (0x0F : Byte).getLsbD 0 = true ∧ (0x0F : Byte).getLsbD 3 = true) ∧
    playConfig.clipList[if playConfig.selection = .cycle then 1 else 0]? = some 2 ∧
    ((0x85 : Byte) &&& 0x7F).toNat = (5 : Fin 6).val := by
  decide

theorem witness_AdjustsTaken : (frame 5 3 [1, 0]).sender ≠ 0 ∧
    (frame 5 3 [1, 0]).subject.toNat = online.station.number.toNat ∧
    (withSlot heldSlot).pool.slots[(0 : SlotNo)].held = true ∧
    (withSlot heldSlot).pool.slots[(0 : SlotNo)].pending = some { fireTime := 4000, seat := some 3 } ∧
    BitVec.ofNat 8 (47 : SlotNo).val = (47 : Byte) ∧ (120 : Byte).toNat ≤ 120 ∧ 120 < (121 : Byte).toNat ∧
    48 ≤ (48 : Byte).toNat := by
  decide

theorem witness_AdjustsTaken_swap :
    (withClip (withSlot (slotWith (.play playConfig)))).pool.slots[(0 : SlotNo)].config =
      some { code := 20, mask := 0xFF, filter := .any, action := .play playConfig } ∧
    (1 : Byte).toNat < 4 ∧ (1 : Byte).toNat < playConfig.clipList.length ∧ playConfig.clipList.length ≤ (2 : Byte).toNat ∧
    ((withClip (withSlot (slotWith (.play playConfig)))).clips.clip 1).isSome = true ∧ online.clips.clip 1 = none :=
  ⟨by decide, by decide, by decide, by decide, by rw [clip1_present]; rfl, no_clip 1⟩

theorem witness_AdjustsTaken_swapElsewhere : ∃ x : Slot, (withSlot heldSlot).pool.slots[(0 : SlotNo)] = x ∧
    ∀ c p, x.config = some c → c.action ≠ .play p :=
  ⟨heldSlot, by decide, fun c p h => by cases h; nofun⟩

theorem witness_OpenRightVoidJudged : (frame 2 1 []).sender ≠ 0 ∧ (frame 2 1 []).cls = 2 ∧
    (frame 2 1 []).payload = [] ∧ (inRound (roundIn .ready none [])).round.state = .ready ∧
    (inRound (roundIn .locked (some 5) [5])).round.state = .locked ∧
    (inRound (roundIn .expired (some 5) [5])).round.state = .expired ∧ online.round.state = .idle := by
  decide

theorem witness_RoundPlayed_arm : (frame 2 0 [1, 50, 25, 0x01, 0x20]).sender ≠ 0 ∧
    (frame 2 0 [1, 50, 25, 0x01, 0x20]).subject = 0 ∧ ((1 : Byte) = 1 ∧ ReboundMode.reopen = .reopen) := by
  decide

theorem witness_RoundPlayed_buzz : (frame 1 (BitVec.ofNat 8 (15 : Seat).val) []).sender ≠ 0 ∧
    ValidBuzz (roundIn .open none []) 15 ∧ ValidBuzz (roundIn .locked (some 5) [5, 8]) 15 ∧
    ¬ ValidBuzz (roundIn .locked (some 5) [5, 8]) 8 := by
  unfold ValidBuzz
  decide

theorem witness_RoundPlayed_wrong : (frame 2 3 []).sender ≠ 0 ∧
    (roundIn .locked (some 5) [5, 8]).winner = some 5 ∧ (roundIn .locked (some 5) [5, 8]).rebound = .queue ∧
    (roundIn .locked (some 5) [5, 8]).order.filter (fun k => decide (k ≠ 5)) = [8] ∧
    (roundIn .expired (some 5) [5]).order.filter (fun k => decide (k ≠ 5)) = [] ∧
    (∃ k : Seat, inSet (0xFFFF : SeatSet) k = true ∧ inSet ((0 : SeatSet) ||| BitVec.twoPow 16 (5 : Seat)) k = false) ∧
    ∀ k : Seat, inSet (BitVec.twoPow 16 (5 : Seat)) k = true →
      inSet ((0 : SeatSet) ||| BitVec.twoPow 16 (5 : Seat)) k = true := by
  decide

theorem witness_RoundPlayed_press : online.round.synced = false ∧
    (inRound (roundIn .ready none [])).round.synced = true ∧
    (inRound (roundIn .open none [])).penalised 4 = false ∧ ValidBuzz (inRound (roundIn .open none [])).round 4 ∧
    ({ inRound (roundIn .open none []) with penalties := online.penalties.set 4 (some 1) } : State).penalised 4 =
      true := by
  unfold ValidBuzz
  decide

/-- A trigger of code 20 from this source. -/
def trigger (source : Source) : Trigger :=
  { code := 20, source := source, seat := some 3, fireTime := 4000 }

theorem witness_TriggersTaken : online.loader.mode = .online ∧ serving.loader.mode ≠ .online ∧
    [(0 : SlotNo)].Pairwise (· < ·) ∧ (withSlot (slotWith (.play playConfig))).pool.slots[(0 : SlotNo)].enabled = true ∧
    (trigger .local).code &&& 0xFF = (20 : Byte) &&& 0xFF ∧
    ∀ n : SlotNo, n ≠ 0 → (withSlot (slotWith (.play playConfig))).pool.slots[n].enabled = false := by
  decide

theorem witness_TriggersTaken_held : (withSlot heldSlot).pool.slots[(0 : SlotNo)].held = true ∧
    (withSlot heldSlot).pool.slots[(0 : SlotNo)].pending = some { fireTime := 4000, seat := some 3 } ∧
    (withSlot { heldSlot with pending := none }).pool.slots[(0 : SlotNo)].pending = none ∧
    (withSlot (slotWith (.play playConfig))).pool.slots[(0 : SlotNo)].held = false := by
  decide

theorem witness_ActionsTaken_play :
    (withSlot { slotWith (.play playConfig) with cycle := 1 }).pool.slots[(0 : SlotNo)].cycle + 1 =
      playConfig.clipList.length ∧ playConfig.clipList[1]? = some 2 ∧ playConfig.retrigger ≠ .restart ∧
    (1 : Byte) ∈ playConfig.clipList ∧ 15 % playConfig.clipList.length = 1 := by
  decide

theorem witness_ActionsTaken_clips : (withClip online).clips.clip 1 ≠ none ∧ online.clips.clip 1 = none :=
  ⟨by rw [clip1_present]; nofun, no_clip 1⟩

theorem witness_ActionsTaken_underWay : UnderWay (withVoice (voiceIn .draining)).pool 0 ∧ ¬ UnderWay online.pool 0 := by
  refine ⟨.inl ⟨0, by decide, by decide⟩, ?_⟩
  rintro (⟨v, h, -⟩ | ⟨v, r, h, -⟩)
  · revert v
    decide
  · have hn : ∀ u : VoiceNo, online.pool.voices[u].successor = none := by decide
    rw [hn v] at h
    cases h

theorem witness_ActionsTaken_lamp :
    online.lamps[(3 : Fin 8)].assign = .cue ∧
    ({ online with lamps := online.lamps.set 3 { Lamp.reset with assign := .seat 4 } } : State).lamps[(3 : Fin 8)].assign =
      .seat 4 := by
  decide

/-- Eight WAITING entries. -/
def eight : List Entry :=
  (List.range 8).map fun i => entryOf (BitVec.ofNat 16 (4131 + 16 * i)) none false .waiting

theorem witness_RequestsEnterQueue : QueueShape eight ∧ eight.length = 8 ∧
    entryOf 4243 none false .waiting ∈ eight ∧ (∀ x ∈ eight, x.key ≤ 4243) ∧
    (∀ x ∈ eight, x.key ≠ makeKey 0 0 3) ∧ makeKey 0 0 3 < (4243 : Key) ∧ (∀ x ∈ eight, x.key ≠ makeKey 7 0 3) ∧
    (4243 : Key) < makeKey 7 0 3 ∧ (∃ x ∈ eight, x.key = makeKey 1 2 3) :=
  ⟨⟨by decide, by decide, by decide⟩, by decide, by decide, by decide, by decide, by decide, by decide, by decide,
    by decide⟩

theorem witness_RequestsEnterQueue_room : QueueShape (eight.take 7) ∧ (eight.take 7).length < 8 ∧
    (∀ x ∈ eight.take 7, x.key ≠ makeKey 0 0 3) ∧ serving.loader.mode ≠ .online ∧ online.station.shadow = false :=
  ⟨⟨by decide, by decide, by decide⟩, by decide, by decide, by decide, rfl⟩

end Sys2Proof.Tests
end

section
/-!
What a request does to the Send Queue (R37 to R40): one equation of `enqueue` for each case of the rules, then the
obligation O60.
-/

namespace Sys2Proof.Machine

/-! ## Keys in an ascending queue -/

theorem holdsKey_iff (q : List Entry) (k : Key) : holdsKey q k = true ↔ ∃ x ∈ q, x.key = k := by
  simp [holdsKey]

theorem holdsKey_eq_false {q : List Entry} {k : Key} (h : ∀ x ∈ q, x.key ≠ k) : holdsKey q k = false := by
  simpa [holdsKey] using h

/-- In an ascending queue a key names one entry. -/
theorem Ascending.eq_of_key_eq {q : List Entry} (hq : Ascending q) {x y : Entry} (hx : x ∈ q) (hy : y ∈ q)
    (hxy : x.key = y.key) : x = y := by
  have hkeys : (q.map Entry.key).Nodup :=
    List.pairwise_map.2 (hq.imp fun hlt => BitVec.ne_of_lt hlt)
  exact List.inj_on_of_nodup_map hkeys hx hy hxy

/-- Dropping the key of an entry held drops that entry alone. -/
theorem Ascending.mem_dropKey {q : List Entry} (hq : Ascending q) {high : Entry} (hh : high ∈ q) (x : Entry) :
    x ∈ dropKey high.key q ↔ x ∈ q ∧ x ≠ high := by
  have hkey (hx : x ∈ q) : x.key ≠ high.key ↔ x ≠ high :=
    not_congr ⟨hq.eq_of_key_eq hx hh, congrArg Entry.key⟩
  simpa [dropKey] using hkey

/-- No WAITING entry lies above the last one (R40). -/
theorem Ascending.key_le_lastWaiting {q : List Entry} (hq : Ascending q) {last x : Entry}
    (hl : lastWaiting q = some last) (hx : x ∈ q) (hw : x.state = .waiting) : x.key ≤ last.key := by
  obtain ⟨before, hsplit⟩ := List.getLast?_eq_some_iff.1 hl
  have hasc : Ascending (before ++ [last]) := hsplit ▸ hq.sublist List.filter_sublist
  have hmem : x ∈ before ++ [last] := hsplit ▸ List.mem_filter.2 ⟨hx, by simpa using hw⟩
  rcases List.mem_append.1 hmem with hb | he
  · exact BitVec.le_of_lt ((List.pairwise_append.1 hasc).2.2 x hb last (List.mem_singleton_self _))
  · rw [List.mem_singleton.1 he]
    exact BitVec.le_refl _

theorem lastWaiting_isSome {q : List Entry} {x : Entry} (hx : x ∈ q) (hw : x.state = .waiting) :
    ∃ last, lastWaiting q = some last := by
  have hne : q.filter (fun e => decide (e.state = .waiting)) ≠ [] :=
    List.ne_nil_of_mem (List.mem_filter.2 ⟨hx, by simpa using hw⟩)
  exact ⟨_, List.getLast?_eq_some_getLast hne⟩

/-- The WAITING entry weighed at a full queue is the one whose key bounds all WAITING keys (R40). -/
theorem Ascending.lastWaiting_eq {q : List Entry} (hq : Ascending q) {high : Entry} (hh : high ∈ q)
    (hw : high.state = .waiting) (hmax : ∀ x ∈ q, x.state = .waiting → x.key ≤ high.key) :
    lastWaiting q = some high := by
  obtain ⟨last, hl⟩ := lastWaiting_isSome hh hw
  obtain ⟨hlq, hlw⟩ := lastWaiting_mem hl
  have hkey : last.key = high.key := BitVec.le_antisymm (hmax last hlq hlw) (hq.key_le_lastWaiting hl hh hw)
  rw [hl, hq.eq_of_key_eq hlq hh hkey]

/-! ## The cases of a request -/

/-- R39: a held key merges. -/
theorem enqueue_of_held {q : List Entry} {e : Entry} (h : ∃ x ∈ q, x.key = e.key) :
    enqueue q e = (mergeEntry e.key e.content q, false) :=
  if_pos ((holdsKey_iff q e.key).2 h)

/-- R38: a new key is inserted while fewer than 8 entries are held. -/
theorem enqueue_of_room {q : List Entry} {e : Entry} (h : ∀ x ∈ q, x.key ≠ e.key) (hlen : q.length < 8) :
    enqueue q e = (insertEntry e q, false) := by
  simp [enqueue, holdsKey_eq_false h, hlen]

/-- R40: at a full queue a new key is weighed against the highest WAITING key. -/
theorem enqueue_of_full {q : List Entry} {e high : Entry} (h : ∀ x ∈ q, x.key ≠ e.key) (hlen : q.length = 8)
    (hl : lastWaiting q = some high) :
    enqueue q e = (if e.key < high.key then insertEntry e (dropKey high.key q) else q, true) := by
  by_cases hlt : e.key < high.key <;> simp [enqueue, holdsKey_eq_false h, hlen, hl, hlt]

/-- R37: the request is dropped outside ONLINE and at a shadow station. -/
theorem State.requestFrame_dropped {s : State} (h : s.loader.mode ≠ .online ∨ s.station.shadow = true)
    (r : FrameRequest) : s.requestFrame r = s := by
  refine if_neg fun ⟨hmode, hshadow⟩ => ?_
  rcases h with hm | hs
  · exact hm hmode
  · exact Bool.noConfusion (hs.symm.trans hshadow)

/-- R37: the request is taken when ONLINE and not a shadow; it changes the queue and the overflow count alone. -/
theorem State.requestFrame_taken {s : State} (hmode : s.loader.mode = .online) (hshadow : s.station.shadow = false)
    (r : FrameRequest) :
    s.requestFrame r =
      { s with
        queue := (enqueue s.queue (s.newEntry r)).1
        errors := s.errors.bumpIf (enqueue s.queue (s.newEntry r)).2 .sendOverflows } :=
  if_pos ⟨hmode, hshadow⟩

/-- Settles O60: R37 decides whether the request is taken; then the three cases of `enqueue` are R39, R38 and R40. -/
theorem requestsEnterQueue : Obligations.RequestsEnterQueue := by
  intro s r e hq he
  obtain rfl : e = s.newEntry r := he
  refine ⟨fun h => State.requestFrame_dropped h r, fun hmode hshadow =>
    ⟨_, _, State.requestFrame_taken hmode hshadow r, hq.enqueue (s.newEntry_waiting r), fun hheld => ?merged,
      fun hnew => ⟨fun hlen => ?inserted, fun hlen high hh hw hmax => ?weighed⟩⟩⟩
  case merged =>
    rw [enqueue_of_held hheld]
    exact ⟨rfl, rfl⟩
  case inserted =>
    rw [enqueue_of_room hnew hlen]
    exact ⟨rfl, fun x => mem_insertEntry _ x _⟩
  case weighed =>
    have hasc : Ascending s.queue := hq.2.1
    rw [enqueue_of_full hnew hlen (hasc.lastWaiting_eq hh hw hmax)]
    refine ⟨rfl, fun hlower x => ?_, fun hhigher => if_neg (BitVec.lt_asymm hhigher)⟩
    rw [if_pos hlower, mem_insertEntry, hasc.mem_dropKey hh]

end Sys2Proof.Machine
end

section
/-!
What OPEN, RIGHT and VOID do to the round (R61, R65, R69): what one output of the Round Tracker does to the station (R58,
R47), one equation for each verb where it is taken and where it is ignored, then the obligation O56.
-/

namespace Sys2Proof.Machine

/-! ## One output of the Round Tracker -/

/-- The class of a key is its place in units of 4096 (R7). -/
theorem keyClass_toNat (k : Key) : (keyClass k).toNat = k.toNat / 4096 := by
  have hk : k.toNat < 65536 := k.isLt
  rw [keyClass, BitVec.extractLsb'_toNat, Nat.shiftRight_eq_div_pow]
  omega

theorem keyClass_eq_one_iff (k : Key) : keyClass k = 1 ↔ k.toNat / 4096 = 1 := by
  rw [← keyClass_toNat]
  exact BitVec.toNat_inj.symm

/-- R47: the withdrawal leaves the entries that are not both WAITING and of class 1. -/
theorem withdrawBuzzes_eq (q : List Entry) :
    withdrawBuzzes q = q.filter fun e => decide (¬ (e.state = .waiting ∧ e.key.toNat / 4096 = 1)) :=
  List.filter_congr fun e _ => by simp only [← Bool.decide_and, ← decide_not, keyClass_eq_one_iff]

theorem State.handOutput_withdraw (fire : StationTime) (s : State) : s.handOutput fire .withdraw = withdrawn s := by
  simp only [State.handOutput, withdrawn, withdrawBuzzes_eq]

/-- The place of an event's add-seat flag among the five (R58); `addsSeat_eq_seatFlag` ties it to the model. -/
def RoundEvent.seatFlag : RoundEvent → Option (Fin 5)
  | .win => some 0
  | .late => some 1
  | .timeout => some 2
  | .right => some 3
  | .wrong => some 4
  | .armed | .opened | .void | .allout | .penalty => none

theorem StationConfig.addsSeat_eq_seatFlag (c : StationConfig) (e : RoundEvent) :
    c.addsSeat e = e.seatFlag.any fun i => c.addSeat[i] := by
  cases e <;> rfl

/-- R58: handing on an event raises the trigger of its event code, or none where the code is NONE. -/
theorem State.handOutput_event (fire : StationTime) (s : State) (e : RoundEvent) (seat : Option Seat) :
    s.handOutput fire (.event e seat) = raised s e.codeIndex e.seatFlag seat fire := by
  cases hcode : s.station.eventCode[e.codeIndex] with
  | none => simp only [State.handOutput, StationConfig.trigger, raised, hcode]
  | some code =>
    simp only [State.handOutput, StationConfig.trigger, raised, hcode, StationConfig.addsSeat_eq_seatFlag]
    rfl

/-! ## A round step taken by the station -/

theorem State.applyRound_ignore (s : State) (fire : StationTime) :
    s.applyRound s.round.ignore fire = s.refreshSeatLamps none := rfl

/-- A step that raises one event. -/
theorem State.applyRound_event (s : State) (r : Round) (e : RoundEvent) (seat : Option Seat) (fire : StationTime) :
    s.applyRound { round := r, outputs := [.event e seat] } fire =
      State.refreshSeatLamps (raised { s with round := r } e.codeIndex e.seatFlag seat fire) none := by
  simp only [State.applyRound, List.foldl_cons, List.foldl_nil, State.handOutput_event]

/-- A step that raises one event and then withdraws the BUZZ entries, as every entry to IDLE by a judgment does (R70). -/
theorem State.applyRound_event_withdraw (s : State) (r : Round) (e : RoundEvent) (seat : Option Seat)
    (fire : StationTime) :
    s.applyRound { round := r, outputs := [.event e seat, .withdraw] } fire =
      State.refreshSeatLamps (withdrawn (raised { s with round := r } e.codeIndex e.seatFlag seat fire)) none := by
  simp only [State.applyRound, List.foldl_cons, List.foldl_nil, State.handOutput_event, State.handOutput_withdraw]

/-! ## The verbs in each state of the round -/

theorem Round.hasTurn_iff (r : Round) : r.hasTurn = true ↔ r.state = .locked ∨ r.state = .expired := by
  simp [Round.hasTurn]

theorem Round.openBuzzers_of_ready {r : Round} (h : r.state = .ready) :
    r.openBuzzers = { round := { r with state := .open }, outputs := [.event .opened none] } :=
  if_pos h

theorem Round.openBuzzers_ignored {r : Round} (h : r.state ≠ .ready) : r.openBuzzers = r.ignore :=
  if_neg h

theorem Round.right_of_turn {r : Round} (h : r.state = .locked ∨ r.state = .expired) :
    r.right = { round := r.enterIdle, outputs := [.event .right r.winner, .withdraw] } :=
  if_pos (r.hasTurn_iff.2 h)

theorem Round.right_ignored {r : Round} (h : ¬ (r.state = .locked ∨ r.state = .expired)) : r.right = r.ignore :=
  if_neg (mt r.hasTurn_iff.1 h)

theorem Round.void_of_round {r : Round} (h : r.state ≠ .idle) :
    r.void = { round := r.enterIdle, outputs := [.event .void r.winner, .withdraw] } :=
  if_neg h

theorem Round.void_ignored {r : Round} (h : r.state = .idle) : r.void = r.ignore :=
  if_pos h

/-! ## The frames -/

section
variable (s : State) {f : LineFrame} (hsender : f.sender ≠ 0) (hcls : f.cls = 2)
include hsender hcls

/-- R31: a frame of class 2 with a sender is judged by its verb and payload. -/
theorem State.dispatchFrame_verdict {verb : Byte} {payload : List Byte} (hsubject : f.subject = verb)
    (hpayload : f.payload = payload) : s.dispatchFrame f = s.deliver f (judgeVerdict verb payload) := by
  subst hsubject hpayload
  simp only [State.dispatchFrame, State.judge, if_neg hsender, hcls]
  rfl

theorem State.dispatchFrame_open (hsubject : f.subject = 1) (hpayload : f.payload = []) :
    s.dispatchFrame f = s.applyRound s.round.openBuzzers (s.fireTime f.sof) :=
  s.dispatchFrame_verdict hsender hcls hsubject hpayload

theorem State.dispatchFrame_right (hsubject : f.subject = 2) (hpayload : f.payload = []) :
    s.dispatchFrame f = s.applyRound s.round.right (s.fireTime f.sof) :=
  s.dispatchFrame_verdict hsender hcls hsubject hpayload

theorem State.dispatchFrame_void (hsubject : f.subject = 4) (hpayload : f.payload = []) :
    s.dispatchFrame f = s.applyRound s.round.void (s.fireTime f.sof) :=
  s.dispatchFrame_verdict hsender hcls hsubject hpayload

end

/-- Settles O56: the frame reaches its verb (R31); each verb is taken or ignored by the state of the round (R61, R65, R69),
and what it hands on is raised and withdrawn in its order (R58, R70). -/
theorem openRightVoidJudged : Obligations.OpenRightVoidJudged := by
  intro s f fire hsender hcls hpayload hfire idle hidle
  obtain rfl : fire = s.fireTime f.sof := hfire
  obtain rfl : idle = s.round.enterIdle := hidle
  refine ⟨fun hsubject => ?opening, fun hsubject => ?right, fun hsubject => ?void⟩
  case opening =>
    rw [s.dispatchFrame_open hsender hcls hsubject hpayload]
    refine ⟨fun hready => ?_, fun hother => ?_⟩
    · rw [Round.openBuzzers_of_ready hready, State.applyRound_event]
      rfl
    · rw [Round.openBuzzers_ignored hother, State.applyRound_ignore]
  case right =>
    rw [s.dispatchFrame_right hsender hcls hsubject hpayload]
    refine ⟨fun hturn => ?_, fun hlocked hexpired => ?_⟩
    · rw [Round.right_of_turn hturn, State.applyRound_event_withdraw]
      rfl
    · rw [Round.right_ignored (not_or.2 ⟨hlocked, hexpired⟩), State.applyRound_ignore]
  case void =>
    rw [s.dispatchFrame_void hsender hcls hsubject hpayload]
    refine ⟨fun hround => ?_, fun hnone => ?_⟩
    · rw [Round.void_of_round hround, State.applyRound_event_withdraw]
      rfl
    · rw [Round.void_ignored hnone, State.applyRound_ignore]

end Sys2Proof.Machine
end

section
/-!
The gain arithmetic (R142, R143, R153 to R155): the equations of rates, attenuations and contributions, the fall of the
gain factor from each attenuation to the next, then the obligation O37.
-/

namespace Sys2Proof.Machine

/-! ## Rates and attenuations -/

@[simp] theorem rateOf_zero : rateOf 0 = fullRange :=
  if_pos rfl

theorem rateOf_of_pos {ms : Nat} (h : 1 ≤ ms) : rateOf ms = max 1 ((2 * fullRange + ms) / (2 * ms)) :=
  if_neg (Nat.ne_of_gt h)

/-- Rounding a quotient half up adds one half to it and rounds down. -/
theorem floor_div_add_half (n : Nat) {d : Nat} (hd : 1 ≤ d) :
    ⌊(n / d + 1 / 2 : ℚ)⌋ = ((2 * n + d) / (2 * d) : Nat) := by
  have hne : (d : ℚ) ≠ 0 := Nat.cast_ne_zero.2 (Nat.ne_of_gt hd)
  have hquot : (n / d + 1 / 2 : ℚ) = (2 * n + d : Nat) / (2 * d : Nat) := by
    push_cast
    field_simp
  rw [hquot, Rat.floor_natCast_div_natCast, Int.natCast_div]

/-- R143: the rate of a time in milliseconds is `30720 / ms` rounded half up, and at least 1. -/
theorem rateOf_eq_floor {ms : Nat} (h : 1 ≤ ms) : (rateOf ms : Int) = max 1 ⌊(30720 / ms + 1 / 2 : ℚ)⌋ := by
  have hround := floor_div_add_half fullRange h
  rw [show (fullRange : ℚ) = 30720 from rfl] at hround
  rw [rateOf_of_pos h, hround, Nat.cast_max, Nat.cast_one]

theorem attenuation_eq (send envelope duck master : Nat) :
    attenuation send envelope duck master = send + envelope / 256 + duck / 256 + master :=
  rfl

/-! ## Gain factors -/

/-- The gain table as R154 prints it. -/
theorem gainTable_eq_getD : ∀ k < 12,
    gainTable k =
      [32768, 30929, 29193, 27554, 26008, 24548, 23170, 21870, 20643, 19484, 18390, 17358][k]?.getD 0 := by
  decide

theorem gainTable_succ_le : ∀ k < 11, gainTable (k + 1) ≤ gainTable k := by
  decide

/-- Half the first value of the table is not above its last, so the factor falls from one halving to the next as well. -/
theorem half_gainTable_zero_le_gainTable_last : gainTable 0 / 2 ≤ gainTable 11 := by
  decide

/-- One step more of attenuation is the next value of the table, or the first one halved once more. -/
theorem gainFactor_succ_le (a : Nat) : gainFactor (a + 1) ≤ gainFactor a := by
  unfold gainFactor
  by_cases hlast : a % 12 = 11
  · have hmod : (a + 1) % 12 = 0 := by omega
    have hdiv : (a + 1) / 12 = a / 12 + 1 := by omega
    calc gainTable ((a + 1) % 12) / 2 ^ ((a + 1) / 12)
        = gainTable 0 / 2 / 2 ^ (a / 12) := by rw [hmod, hdiv, pow_succ', Nat.div_div_eq_div_mul]
      _ ≤ gainTable (a % 12) / 2 ^ (a / 12) := by
        rw [hlast]
        exact Nat.div_le_div_right half_gainTable_zero_le_gainTable_last
  · have hmod : (a + 1) % 12 = a % 12 + 1 := by omega
    have hdiv : (a + 1) / 12 = a / 12 := by omega
    rw [hmod, hdiv]
    exact Nat.div_le_div_right (gainTable_succ_le _ (by omega))

/-- R154: the gain factor never rises with the attenuation. -/
theorem gainFactor_antitone : Antitone gainFactor :=
  antitone_nat_of_succ_le gainFactor_succ_le

theorem gainFactor_le (a : Nat) : gainFactor a ≤ 32768 :=
  gainFactor_antitone (Nat.zero_le a)

theorem le_gainFactor {a : Nat} (h : a < 120) : 33 ≤ gainFactor a :=
  calc 33 = gainFactor 119 := by decide
    _ ≤ gainFactor a := gainFactor_antitone (Nat.le_of_lt_succ h)

/-! ## Contributions -/

/-- R155: a contribution is the product over 32768, rounded toward minus infinity. -/
theorem contribution_eq_floor (x : Sample) (factor : Nat) :
    contribution x factor = ⌊((x.toInt * factor : Int) / 32768 : ℚ)⌋ :=
  calc contribution x factor = x.toInt * factor / (32768 : Nat) := Int.fdiv_eq_ediv_of_nonneg _ (by decide)
    _ = ⌊((x.toInt * factor : Int) / (32768 : Nat) : ℚ)⌋ := (Rat.floor_intCast_div_natCast _ _).symm

theorem contributionAt_of_lt (x : Sample) {a : Nat} (h : a < 120) :
    contributionAt x a = contribution x (gainFactor a) :=
  if_pos h

theorem contributionAt_of_le (x : Sample) {a : Nat} (h : 120 ≤ a) : contributionAt x a = 0 :=
  if_neg (Nat.not_lt.2 h)

/-- Settles O37: each part is the rule of its function; the bounds of the gain factor are its values at the ends of a range
on which it falls. -/
theorem gainArithmetic : Obligations.GainArithmetic := by
  refine ⟨rateOf_zero, fun _ => rateOf_eq_floor, attenuation_eq, fun a ha => ⟨?factor, le_gainFactor ha, gainFactor_le a⟩,
    fun a b hab _ => gainFactor_antitone hab, fun x a ha => ?taken, fun x _ => contributionAt_of_le x⟩
  case factor => rw [gainFactor, gainTable_eq_getD _ (Nat.mod_lt a (by decide))]
  case taken => rw [contributionAt_of_lt x ha, contribution_eq_floor]

end Sys2Proof.Machine
end

section
/-!
What the work of the slots and voices does to pending triggers and successors (R89, R111): every operation of the Voice
Pool leaves each slot enabled and held as it was and adds no pending trigger, and none puts a successor on a voice that
is not FADING (`PoolCalm`); what follows for the work of the Dispatcher and for the events of the cue line (`CueWork`).
-/

namespace Sys2Proof.Machine

/-! ## Slots and successors under the operations of the Voice Pool -/

/-- A slot stays enabled and held as it was and gains no pending trigger. -/
structure SlotCalm (x y : Slot) : Prop where
  enabled : y.enabled = x.enabled
  held : y.held = x.held
  pending : y.pending.isSome → x.pending.isSome

theorem SlotCalm.refl (x : Slot) : SlotCalm x x :=
  ⟨rfl, rfl, id⟩

theorem SlotCalm.trans {x y z : Slot} (h : SlotCalm x y) (k : SlotCalm y z) : SlotCalm x z :=
  ⟨k.enabled.trans h.enabled, k.held.trans h.held, fun hz => h.pending (k.pending hz)⟩

/-- R111 for one voice: it carries a successor only while it is FADING. -/
def Voice.waits (x : Voice) : Prop :=
  x.successor.isSome → x.state = .fading

/-- The slots stay calm, and successors stay on FADING voices alone. -/
structure PoolCalm (p q : Pool) : Prop where
  slots : ∀ n : SlotNo, SlotCalm p.slots[n] q.slots[n]
  successors : p.successorsWait → q.successorsWait

theorem PoolCalm.refl (p : Pool) : PoolCalm p p :=
  ⟨fun _ => .refl _, id⟩

theorem PoolCalm.trans {p q r : Pool} (h : PoolCalm p q) (k : PoolCalm q r) : PoolCalm p r :=
  ⟨fun n => (h.slots n).trans (k.slots n), fun hp => k.successors (h.successors hp)⟩

theorem PoolCalm.foldl {α : Type} (f : Pool → α → Pool) (h : ∀ p a, PoolCalm p (f p a)) (p : Pool) (l : List α) :
    PoolCalm p (l.foldl f p) := by
  induction l generalizing p with
  | nil => exact .refl p
  | cons a l ih => exact (h p a).trans (ih _)

theorem PoolCalm.eachVoice (p : Pool) (f : Pool → VoiceNo → Pool) (h : ∀ p v, PoolCalm p (f p v)) :
    PoolCalm p (p.eachVoice f) :=
  PoolCalm.foldl f h p _

theorem PoolCalm.mapVoices (p : Pool) (f : VoiceNo → Voice → Voice) (h : ∀ v x, x.waits → (f v x).waits) :
    PoolCalm p { p with voices := mapEach p.voices f } := by
  refine ⟨fun _ => .refl _, fun hp v => ?_⟩
  rw [mapEach_get]
  exact h v _ (hp v)

theorem PoolCalm.setVoice (p : Pool) (v : VoiceNo) (f : Voice → Voice)
    (h : p.voices[v].waits → (f p.voices[v]).waits) : PoolCalm p (p.setVoice v f) := by
  refine ⟨fun _ => .refl _, fun hp u => ?_⟩
  rw [Pool.setVoice_voices, update_get]
  split
  · next e => exact h (hp v)
  · exact hp u

theorem PoolCalm.setSlot (p : Pool) (n : SlotNo) (f : Slot → Slot) (h : SlotCalm p.slots[n] (f p.slots[n])) :
    PoolCalm p (p.setSlot n f) := by
  refine ⟨fun m => ?_, id⟩
  rw [Pool.setSlot_slots, update_get]
  split
  · next e => subst e; exact h
  · exact .refl _

theorem Pool.leaveSet_calm (p : Pool) (v : VoiceNo) (n : SlotNo) : SlotCalm p.slots[n] (p.leaveSet v).slots[n] := by
  rw [Pool.leaveSet_slot]
  split
  · exact ⟨rfl, rfl, id⟩
  · exact .refl _

/-- A voice that becomes FREE keeps its successor field, so it must not be one that waits for silence. -/
theorem Pool.free_calm {p : Pool} {v : VoiceNo} (h : p.voices[v].state = .fading → p.voices[v].successor = none) :
    PoolCalm p (p.free v) := by
  refine ⟨fun n => Pool.leaveSet_calm p v n, fun hp u => ?_⟩
  rw [Pool.free_voice]
  split
  · intro hs
    have hfading := hp v hs
    rw [show p.voices[v].freed.successor = p.voices[v].successor from rfl, h hfading] at hs
    cases hs
  · exact hp u

theorem Pool.allocate_calm (p : Pool) (clips : ClipTable) (v : VoiceNo) (r : VoiceRequest) :
    PoolCalm p (p.allocate clips v r) := by
  refine ⟨fun n => ?_, fun hp u => ?_⟩
  · rw [Pool.allocate_slot]
    split
    · exact (Pool.leaveSet_calm p v n).trans ⟨rfl, rfl, id⟩
    · exact Pool.leaveSet_calm p v n
  · rw [Pool.allocate_voice]
    split
    · nofun
    · exact hp u

theorem Voice.startFade_waits (x : Voice) (rate : Nat) : (x.startFade rate).waits :=
  fun _ => rfl

theorem Voice.waits.withoutSuccessor {x : Voice} : Voice.waits { x with successor := none } :=
  nofun

theorem Pool.fade_calm (p : Pool) (rate : FadeRate) (v : VoiceNo) : PoolCalm p (p.fade rate v) := by
  unfold Pool.fade
  split
  · exact .refl p
  · next h => exact Pool.free_calm fun hf => by rw [h] at hf; cases hf
  · exact .setVoice p v _ fun _ => Voice.startFade_waits _ _
  · exact .setVoice p v _ fun _ => Voice.startFade_waits _ _
  · exact .setVoice p v _ id

theorem Pool.discard_calm (p : Pool) (f : VoiceRequest → Bool) : PoolCalm p (p.discard f) := by
  refine .mapVoices p _ fun v x h => ?_
  split
  · exact Voice.waits.withoutSuccessor
  · exact h

theorem Pool.attach_calm {p : Pool} {v : VoiceNo} (h : p.voices[v].state = .fading) (r : VoiceRequest) :
    PoolCalm p (p.attach v r) :=
  .setVoice p v _ fun _ _ => h

theorem Pool.chokeVoice_calm (chosen : VoiceNo) (group : Nat) (p : Pool) (v : VoiceNo) :
    PoolCalm p (Pool.chokeVoice chosen group p v) := by
  unfold Pool.chokeVoice
  split
  · split
    · next h => exact Pool.free_calm fun hf => by rw [h] at hf; cases hf
    · exact .setVoice p v _ fun _ => Voice.startFade_waits _ _
    · exact .setVoice p v _ fun _ => Voice.startFade_waits _ _
    · exact .refl p
    · exact .refl p
  · exact .refl p

theorem Pool.choke_calm (p : Pool) (chosen : VoiceNo) (r : VoiceRequest) : PoolCalm p (p.choke chosen r) := by
  unfold Pool.choke
  split
  · exact .refl p
  · refine (PoolCalm.eachVoice p _ (Pool.chokeVoice_calm chosen r.choke)).trans (.mapVoices _ _ fun v x h => ?_)
    split
    · exact Voice.waits.withoutSuccessor
    · exact h

theorem Pool.steal_calm (p : Pool) (clips : ClipTable) (v : VoiceNo) (r : VoiceRequest) :
    PoolCalm p (p.steal clips v r) := by
  unfold Pool.steal
  split
  · exact Pool.allocate_calm p clips v r
  · refine (PoolCalm.setVoice p v _ fun _ => Voice.startFade_waits _ _).trans (Pool.attach_calm ?_ r)
    rw [Pool.setVoice_voices, update_get_self]
    rfl

/-- The first of the best of those that qualify, as a list is gone through (R109, R133). -/
def firstBest {α : Type} (ok : α → Bool) (better : α → α → Prop) [DecidableRel better] (best : Option α) (l : List α) :
    Option α :=
  l.foldl
    (fun best v =>
      if ok v then
        match best with
        | none => some v
        | some b => if better v b then some v else best
      else best)
    best

section firstBest

variable {α : Type} {ok : α → Bool} {better : α → α → Prop} [DecidableRel better]

/-- What is found was found before, or qualifies and stands in the list. -/
theorem firstBest_mem {best : Option α} {l : List α} {v : α} (h : firstBest ok better best l = some v) :
    best = some v ∨ (v ∈ l ∧ ok v = true) := by
  induction l generalizing best with
  | nil => exact .inl h
  | cons u l ih =>
    rw [firstBest, List.foldl_cons] at h
    have hrest := ih h
    split at hrest
    · next hu =>
      split at hrest
      · rcases hrest with hfound | ⟨hmem, hok⟩
        · cases hfound; exact .inr ⟨List.mem_cons_self, hu⟩
        · exact .inr ⟨List.mem_cons_of_mem _ hmem, hok⟩
      · split at hrest
        · rcases hrest with hfound | ⟨hmem, hok⟩
          · cases hfound; exact .inr ⟨List.mem_cons_self, hu⟩
          · exact .inr ⟨List.mem_cons_of_mem _ hmem, hok⟩
        · exact hrest.imp id fun ⟨hmem, hok⟩ => ⟨List.mem_cons_of_mem _ hmem, hok⟩
    · exact hrest.imp id fun ⟨hmem, hok⟩ => ⟨List.mem_cons_of_mem _ hmem, hok⟩

theorem firstBest_ok {l : List α} {v : α} (h : firstBest ok better none l = some v) : ok v = true := by
  rcases firstBest_mem h with hnone | ⟨-, hok⟩
  · cases hnone
  · exact hok

theorem firstBest_none {l : List α} (h : ∀ u ∈ l, ok u = false) (best : Option α) :
    firstBest ok better best l = best := by
  induction l with
  | nil => rfl
  | cons u l ih =>
    obtain ⟨hu, hl⟩ := List.forall_mem_cons.1 h
    rw [firstBest, List.foldl_cons, hu]
    exact ih hl

/-- One that nothing after it beats stays. -/
theorem firstBest_stays {l : List α} {v : α} (h : ∀ u ∈ l, ok u = true → ¬ better u v) :
    firstBest ok better (some v) l = some v := by
  induction l with
  | nil => rfl
  | cons u l ih =>
    obtain ⟨hu, hl⟩ := List.forall_mem_cons.1 h
    rw [firstBest, List.foldl_cons]
    split
    · next hok =>
      simp only [if_neg (hu hok)]
      exact ih hl
    · exact ih hl

/-- One that beats all before it, and that nothing after it beats, is found. -/
theorem firstBest_eq {before after : List α} {v : α} (hv : ok v = true)
    (hbefore : ∀ u ∈ before, ok u = true → better v u) (hafter : ∀ u ∈ after, ok u = true → ¬ better u v) :
    firstBest ok better none (before ++ v :: after) = some v := by
  have htaken : firstBest ok better (firstBest ok better none before) [v] = some v := by
    cases hfound : firstBest ok better none before with
    | none => simp [firstBest, hv]
    | some u =>
      obtain hnone | ⟨hmem, hok⟩ := firstBest_mem hfound
      · cases hnone
      · simp [firstBest, hv, hbefore u hmem hok]
  rw [firstBest, List.foldl_append, List.foldl_cons]
  rw [firstBest, firstBest, List.foldl_cons, List.foldl_nil] at htaken
  rw [htaken]
  exact firstBest_stays hafter

end firstBest

theorem Pool.nearestSilence_eq (p : Pool) :
    p.nearestSilence =
      firstBest (fun v : VoiceNo => p.voices[v].canWait) (fun v b => p.voices[b].envelope < p.voices[v].envelope) none
        (List.finRange 12) := by
  unfold Pool.nearestSilence firstBest
  congr 1
  funext best v
  cases best
  · rfl
  · rfl

/-- The voice that choice 2 finds is FADING (R109). -/
theorem Pool.nearestSilence_fading {p : Pool} {v : VoiceNo} (h : p.nearestSilence = some v) :
    p.voices[v].state = .fading := by
  rw [Pool.nearestSilence_eq] at h
  have hwaits : p.voices[v].canWait = true := firstBest_ok (ok := fun v : VoiceNo => p.voices[v].canWait) h
  simp only [Voice.canWait, Bool.and_eq_true, decide_eq_true_iff] at hwaits
  exact hwaits.1

theorem Pool.settle_calm {p q : Pool} {clips : ClipTable} {r : VoiceRequest} (h : p.settle clips r = some q) :
    PoolCalm p q := by
  unfold Pool.settle at h
  split at h
  · cases h; exact (Pool.allocate_calm p clips _ r).trans (Pool.choke_calm _ _ _)
  · split at h
    · next hv => cases h; exact (Pool.attach_calm (Pool.nearestSilence_fading hv) r).trans (Pool.choke_calm _ _ _)
    · split at h
      · cases h; exact (Pool.steal_calm p clips _ r).trans (Pool.choke_calm _ _ _)
      · cases h

theorem Pool.groupStop_calm (p : Pool) (group : Nat) (rate : FadeRate) : PoolCalm p (p.groupStop group rate) := by
  refine (PoolCalm.eachVoice p _ fun p v => ?_).trans (Pool.discard_calm _ _)
  split
  · exact Pool.fade_calm p rate v
  · exact .refl p

theorem Pool.stop_calm (p : Pool) (ms : Nat) : PoolCalm p (p.stop ms) :=
  (Pool.discard_calm p _).trans (PoolCalm.eachVoice _ _ fun p v => Pool.fade_calm p _ v)

theorem Pool.silence_calm (p : Pool) (clips : ClipTable) (v : VoiceNo) : PoolCalm p (p.silence clips v) := by
  unfold Pool.silence
  split
  · next h => exact Pool.free_calm fun _ => h
  · exact Pool.allocate_calm p clips v _

theorem Pool.restartSlot_calm (p : Pool) (n : SlotNo) : PoolCalm p (p.restartSlot n) := by
  refine (PoolCalm.eachVoice p _ fun q v => ?_).trans (Pool.discard_calm _ _)
  split
  · exact Pool.fade_calm q _ v
  · exact .refl q

theorem Pool.request_calm (p : Pool) (clips : ClipTable) (r : VoiceRequest) : PoolCalm p (p.request clips r).1 := by
  unfold Pool.request
  split
  · next hq => exact Pool.settle_calm hq
  · exact .refl p

theorem Pool.retrigger_calm (p : Pool) (clips : ClipTable) (n : SlotNo) (policy : Retrigger) (r : VoiceRequest) :
    PoolCalm p (p.retrigger clips n policy r).1 := by
  unfold Pool.retrigger
  split
  · split
    · exact .refl p
    · exact Pool.request_calm p clips r
  · exact (Pool.restartSlot_calm p n).trans (Pool.request_calm _ clips r)
  · exact Pool.request_calm p clips r

theorem Pool.play_calm (p : Pool) (clips : ClipTable) (n : SlotNo) (c : PlayConfig) (fire : StationTime)
    (seat : Option Seat) : PoolCalm p (p.play clips n c fire seat).1 := by
  have hmoved : PoolCalm p (p.setSlot n fun x => { x with cycle := c.nextCycle x.cycle }) :=
    .setSlot p n _ ⟨rfl, rfl, id⟩
  unfold Pool.play
  simp only
  split
  · exact hmoved
  · exact hmoved.trans (Pool.retrigger_calm _ _ _ _ _)

theorem Pool.cut_calm (p : Pool) (code : Byte) (override : Option Nat) : PoolCalm p (p.cut code override) := by
  have hslot (p : Pool) (n : SlotNo) (ms : Nat) : PoolCalm p (p.cutSlot n ms) := by
    have hdrop : PoolCalm p (p.setSlot n fun x => { x with pending := none }) := .setSlot p n _ ⟨rfl, rfl, nofun⟩
    refine hdrop.trans ((PoolCalm.eachVoice _ _ fun q v => ?_).trans (Pool.discard_calm _ _))
    split
    · exact Pool.fade_calm q _ v
    · exact .refl q
  refine PoolCalm.foldl _ (fun p n => ?_) p _
  unfold Pool.cutIfFound
  split
  · exact .refl p
  · split
    · exact hslot p n _
    · exact .refl p

theorem Pool.dropPending_calm (p : Pool) : PoolCalm p p.dropPending := by
  refine ⟨fun n => ?_, fun hp v => by simpa using hp v⟩
  rw [Pool.dropPending, mapEach_get]
  exact ⟨rfl, rfl, nofun⟩

/-! ## The Cue Matcher, the Round Tracker, the Dispatcher -/

/-- What the work of the Dispatcher keeps of pending triggers and successors. -/
structure CueWork (s u : State) : Prop where
  loader : u.loader = s.loader
  successors : s.pool.successorsWait → u.pool.successorsWait
  pendings : s.pendingsKept → u.pendingsKept

theorem CueWork.refl (s : State) : CueWork s s :=
  ⟨rfl, id, id⟩

theorem CueWork.trans {s u w : State} (h : CueWork s u) (k : CueWork u w) : CueWork s w :=
  ⟨k.loader.trans h.loader, fun hp => k.successors (h.successors hp), fun hp => k.pendings (h.pendings hp)⟩

theorem CueWork.foldl {α : Type} (f : State → α → State) (h : ∀ s a, CueWork s (f s a)) (s : State) (l : List α) :
    CueWork s (l.foldl f s) := by
  induction l generalizing s with
  | nil => exact .refl s
  | cons a l ih => exact (h s a).trans (ih _)

/-- A slot where R89 holds. -/
def Slot.pendingFits (x : Slot) : Prop :=
  x.pending.isSome → x.held = true ∧ x.enabled = true

theorem SlotCalm.pendingFits {x y : Slot} (h : SlotCalm x y) (hx : x.pendingFits) : y.pendingFits := by
  intro hy
  rw [h.held, h.enabled]
  exact hx (h.pending hy)

/-- A change whose slots gain pending triggers only where R89 allows them, and none before loading. -/
theorem CueWork.ofSlots {s u : State} (hl : u.loader = s.loader)
    (hsucc : s.pool.successorsWait → u.pool.successorsWait)
    (hfits : ∀ n : SlotNo, s.pool.slots[n].pendingFits → u.pool.slots[n].pendingFits)
    (hnone : s.loader.mode = .online ∨ ∀ n : SlotNo, s.pool.slots[n].pending = none → u.pool.slots[n].pending = none) :
    CueWork s u where
  loader := hl
  successors := hsucc
  pendings hs :=
    { online := by rw [hl]; exact hs.online
      unloaded := by
        rw [hl]
        intro hunloaded n
        rcases hnone with hmode | hnone
        · exact absurd (hs.online hmode) (by simp [hunloaded])
        · exact hnone n (hs.unloaded hunloaded n)
      kept := fun n => hfits n (hs.kept n) }

theorem CueWork.ofCalm {s u : State} (hl : u.loader = s.loader) (h : PoolCalm s.pool u.pool) : CueWork s u :=
  .ofSlots hl h.successors (fun n => (h.slots n).pendingFits) <| .inr fun n hn => by
    have hpending := (h.slots n).pending
    rw [hn] at hpending
    exact Option.not_isSome_iff_eq_none.1 fun hu => Bool.noConfusion (hpending hu)

/-- A calm change of the pool alone. -/
theorem CueWork.ofPool (s : State) {p : Pool} (h : PoolCalm s.pool p) : CueWork s { s with pool := p } :=
  .ofCalm rfl h

theorem CueWork.ofSame {s u : State} (hl : u.loader = s.loader) (hp : u.pool = s.pool) : CueWork s u :=
  .ofCalm hl (hp ▸ .refl _)

/-- A change of one slot by an ADJUST (R90 to R93). -/
theorem CueWork.ofSlot (s : State) (n : SlotNo) (f : Slot → Slot)
    (hfits : s.pool.slots[n].pendingFits → (f s.pool.slots[n]).pendingFits)
    (hnone : s.pool.slots[n].pending = none → (f s.pool.slots[n]).pending = none) :
    CueWork s { s with pool := s.pool.setSlot n f } := by
  refine .ofSlots rfl id (fun m hm => ?_) (.inr fun m hm => ?_)
  all_goals
    simp only [Pool.setSlot_slots, update_get]
    split
  · next e => subst e; exact hfits hm
  · exact hm
  · next e => subst e; exact hnone hm
  · exact hm

theorem State.requestFrame_cue (s : State) (r : FrameRequest) : CueWork s (s.requestFrame r) := by
  unfold State.requestFrame
  split
  · exact .ofSame rfl rfl
  · exact .refl s

theorem State.requestFrame_pool (s : State) (r : FrameRequest) : (s.requestFrame r).pool = s.pool := by
  unfold State.requestFrame; split <;> rfl

theorem State.runAction_calm (s : State) (n : SlotNo) (a : SlotAction) (fire : StationTime) (seat : Option Seat) :
    PoolCalm s.pool (s.runAction n a fire seat).pool := by
  cases a with
  | play c => exact Pool.play_calm s.pool s.clips n c fire seat
  | stopGroup group override => exact Pool.groupStop_calm _ _ _
  | lamp o => exact .refl _
  | emit code singleTry seatThrough =>
    simp only [State.runAction, State.requestFrame_pool]
    exact .refl _

theorem State.act_calm (s : State) (n : SlotNo) (fire : StationTime) (seat : Option Seat) :
    PoolCalm s.pool (s.act n fire seat).pool := by
  unfold State.act
  split
  · exact .refl _
  · refine (PoolCalm.setSlot s.pool n (fun x => { x with fires := min 65535 (x.fires + 1) }) ⟨rfl, rfl, id⟩).trans ?_
    exact State.runAction_calm
      { s with pool := s.pool.setSlot n fun x => { x with fires := min 65535 (x.fires + 1) } } n _ fire seat

theorem State.act_cue (s : State) (n : SlotNo) (fire : StationTime) (seat : Option Seat) :
    CueWork s (s.act n fire seat) :=
  .ofCalm (s.act_work n fire seat).loader (s.act_calm n fire seat)

/-- The hold stage enables and disables no slot (R89). -/
theorem State.slotTake_enabled (s : State) (t : Trigger) (n m : SlotNo) :
    (s.slotTake t n).pool.slots[m].enabled = s.pool.slots[m].enabled := by
  unfold State.slotTake
  split
  · simp only [Pool.setSlot_slots, update_get]
    split
    · next e => subst e; rfl
    · rfl
  · exact ((s.act_calm n t.fireTime t.seat).slots m).enabled

/-- A trigger taken at an enabled slot of a station that is ONLINE (R89). -/
theorem State.slotTake_cue {s : State} {n : SlotNo} (hmode : s.loader.mode = .online)
    (henabled : s.pool.slots[n].enabled = true) (t : Trigger) : CueWork s (s.slotTake t n) := by
  unfold State.slotTake
  split
  · next hheld =>
    refine .ofSlots rfl id (fun m hm => ?_) (.inl hmode)
    simp only [Pool.setSlot_slots, update_get]
    split
    · next e => subst e; exact fun _ => ⟨hheld, henabled⟩
    · exact hm
  · exact s.act_cue n _ _

theorem State.slotTakes_cue (t : Trigger) : ∀ (l : List SlotNo) (s : State), s.loader.mode = .online →
    (∀ n ∈ l, s.pool.slots[n].enabled = true) → CueWork s (l.foldl (fun s n => s.slotTake t n) s)
  | [], s, _, _ => .refl s
  | n :: l, s, hmode, hl => by
    have hfirst : CueWork s (s.slotTake t n) := s.slotTake_cue hmode (hl n List.mem_cons_self) t
    refine hfirst.trans (State.slotTakes_cue t l _ (by rw [hfirst.loader]; exact hmode) fun m hm => ?_)
    rw [State.slotTake_enabled]
    exact hl m (List.mem_cons_of_mem _ hm)

theorem Slot.matchesTrigger_enabled {x : Slot} {t : Trigger} {own : BitVec 4} (h : x.matchesTrigger t own = true) :
    x.enabled = true := by
  unfold Slot.matchesTrigger at h
  split at h
  · cases h
  · simp only [Bool.and_eq_true] at h
    obtain ⟨⟨⟨henabled, -⟩, -⟩, -⟩ := h
    exact henabled

theorem State.takeTrigger_cue (s : State) (t : Trigger) : CueWork s (s.takeTrigger t) := by
  unfold State.takeTrigger
  split
  · next hmode =>
    exact State.slotTakes_cue t _ s hmode fun n hn => Slot.matchesTrigger_enabled (List.mem_filter.1 hn).2
  · exact .refl s

theorem State.releaseSlot_cue (s : State) (n : SlotNo) (fire : StationTime) : CueWork s (s.releaseSlot n fire) := by
  have hreleased : CueWork s { s with pool := s.pool.setSlot n fun x => { x with held := false, pending := none } } :=
    .ofSlot s n _ (fun _ => nofun) fun _ => rfl
  unfold State.releaseSlot
  simp only
  split
  · split
    · exact hreleased
    · exact hreleased.trans (State.act_cue _ _ _ _)
  · exact .refl s

theorem State.handOutput_cue (fire : StationTime) (s : State) (o : RoundOutput) : CueWork s (s.handOutput fire o) := by
  unfold State.handOutput
  split
  · exact .ofSame rfl rfl
  · split
    · exact .refl s
    · exact s.takeTrigger_cue _

theorem State.applyRound_cue (s : State) (step : RoundStep) (fire : StationTime) :
    CueWork s (s.applyRound step fire) :=
  have hround : CueWork s { s with round := step.round } := .ofSame rfl rfl
  (hround.trans (CueWork.foldl _ (State.handOutput_cue fire) _ step.outputs)).trans (.ofSame rfl rfl)

theorem State.takeArm_cue (s : State) (a : ArmFields) (sof : StationTime) : CueWork s (s.takeArm a sof) :=
  have hpenalties (p : Vector (Option StationTime) 16) : CueWork s { s with penalties := p } := .ofSame rfl rfl
  (hpenalties _).trans (State.applyRound_cue _ _ _)

theorem State.takeBuzz_cue (s : State) (seat : Seat) (sof : StationTime) : CueWork s (s.takeBuzz seat sof) := by
  unfold State.takeBuzz
  split
  · exact s.applyRound_cue _ _
  · exact .ofSame rfl rfl

theorem State.takeAnswer_cue (s : State) (a : RoundAnswer) (sender : BitVec 4) (sof : StationTime) :
    CueWork s (s.takeAnswer a sender sof) := by
  unfold State.takeAnswer
  split
  · exact .ofSame rfl rfl
  · exact .refl s

theorem State.earlyPress_cue (s : State) (seat : Seat) (press : StationTime) : CueWork s (s.earlyPress seat press) :=
  have hpenalty (p : Vector (Option StationTime) 16) : CueWork s
    (State.count { s with penalties := p } .earlyPresses) :=
    .ofSame rfl rfl
  ((hpenalty _).trans (State.handOutput_cue press _ _)).trans (.ofSame rfl rfl)

theorem State.buzzPress_cue (s : State) (seat : Seat) (press : StationTime) : CueWork s (s.buzzPress seat press) := by
  unfold State.buzzPress
  split
  · exact .refl s
  · split
    · exact s.earlyPress_cue seat press
    · split
      · exact .refl s
      · split
        · exact s.requestFrame_cue _
        · exact .refl s

theorem State.deliver_cue (s : State) (f : LineFrame) (d : Delivery) : CueWork s (s.deliver f d) := by
  cases d with
  | bad => exact .ofSame rfl rfl
  | aside => exact .refl s
  | nobody => exact .refl s
  | stop ms => exact .ofPool s ((Pool.stop_calm _ _).trans (Pool.dropPending_calm _))
  | buzz seat => exact s.takeBuzz_cue seat _
  | arm a => exact s.takeArm_cue a _
  | openBuzzers => exact s.applyRound_cue _ _
  | right => exact s.applyRound_cue _ _
  | wrong => exact s.applyRound_cue _ _
  | void => exact s.applyRound_cue _ _
  | cut code override => exact .ofPool s (Pool.cut_calm _ _ _)
  | go code seat => exact s.takeTrigger_cue _
  | hold n => exact .ofSlot s n _ (fun h hp => ⟨rfl, (h hp).2⟩) id
  | release n => exact s.releaseSlot_cue n _
  | enable n => exact .ofSlot s n _ (fun h hp => ⟨(h hp).1, rfl⟩) id
  | disable n => exact .ofSlot s n _ (fun _ => nofun) fun _ => rfl
  | clearLost n => exact .ofSlot s n _ id id
  | swap n entry clip => exact .ofSlot s n _ id id
  | master bus steps => exact .ofSame rfl rfl
  | ask topic arg => exact s.requestFrame_cue _
  | answer a => exact s.takeAnswer_cue a _ _

theorem State.dispatchFrame_cue (s : State) (f : LineFrame) : CueWork s (s.dispatchFrame f) :=
  s.deliver_cue f _

theorem State.fireAction_cue (s : State) (a : InputAction) : CueWork s (s.fireAction a) := by
  cases a with
  | none => exact .refl s
  | buzz seat => exact s.buzzPress_cue _ _
  | go code seat singleTry => exact s.requestFrame_cue _
  | localCode code => exact s.takeTrigger_cue _
  | cut code => exact s.requestFrame_cue _
  | judge verb => exact s.requestFrame_cue _
  | stop => exact s.requestFrame_cue _

theorem State.scanInput_cue (closed : Byte) (s : State) (i : Fin 8) : CueWork s (s.scanInput closed i) :=
  have hinput (x : Input) : CueWork s { s with inputs := s.inputs.set i x } := .ofSame rfl rfl
  (hinput _).trans (State.fireAction_cue _ _)

theorem State.scan_cue (s : State) (closed : Byte) (order : List (Fin 8)) : CueWork s (s.scan closed order) :=
  have hnext (n : Nat) : CueWork s { s with nextScan := n } := .ofSame rfl rfl
  (hnext _).trans (CueWork.foldl _ (State.scanInput_cue closed) _ _)

theorem State.raiseEndCode_cue (s : State) (code : Option Byte) (route : EndRoute) :
    CueWork s (s.raiseEndCode code route) := by
  unfold State.raiseEndCode
  split
  · exact .refl s
  · exact s.takeTrigger_cue _
  · exact s.requestFrame_cue _

/-! ## The Line Port -/

theorem State.completeFrame_cue (s : State) (f : Followed) : CueWork s (s.completeFrame f) := by
  have hcounted (l : LinePort) : CueWork s { s with line := l } := .ofSame rfl rfl
  unfold State.completeFrame
  simp only
  split
  · exact (hcounted _).trans (State.dispatchFrame_cue _ _)
  · exact hcounted _

theorem State.endFollowed_cue (s : State) (old : Option Followed) : CueWork s (s.endFollowed old) := by
  unfold State.endFollowed
  split
  · exact .refl s
  · split
    · exact s.completeFrame_cue _
    · exact .refl s

theorem State.followEdge_cue (s : State) : CueWork s s.followEdge :=
  have hline (l : LinePort) : CueWork s { s with line := l } := .ofSame rfl rfl
  (hline _).trans (State.endFollowed_cue _ _)

theorem State.beginAttempt_cue (s : State) : CueWork s s.beginAttempt := by
  unfold State.beginAttempt
  split
  · exact .refl s
  · have hline (q : List Entry) (l : LinePort) : CueWork s { s with queue := q, line := l } := .ofSame rfl rfl
    exact (hline _ _).trans (State.endFollowed_cue _ _)

theorem State.endAttempt_pool (s : State) (a : Attempt) (how : AttemptEnd) : (s.endAttempt a how).pool = s.pool := by
  have hreturned (s : State) : (s.attemptReturned a).pool = s.pool := by unfold State.attemptReturned; split <;> rfl
  have hfailed (s : State) : (s.attemptFailed a).pool = s.pool := by
    unfold State.attemptFailed
    split
    · rfl
    · split <;> rfl
  cases how with
  | completed => rfl
  | lost => exact hreturned _
  | failed => exact hfailed _
  | abandoned => exact hreturned _

theorem State.endAttempt_cue (s : State) (a : Attempt) (how : AttemptEnd) : CueWork s (s.endAttempt a how) :=
  .ofSame (s.endAttempt_line a how).loader (s.endAttempt_pool a how)

theorem State.transmitError_cue (s : State) (a : Attempt) (spoil : Bool) : CueWork s (s.transmitError a spoil) := by
  have hline (l : LinePort) (e : ErrorRecord) : CueWork s { s with line := l, errors := e } := .ofSame rfl rfl
  have hended (how : AttemptEnd) := (hline { s.line.sendError with followed := none }
    (s.errors.bumpIf s.line.goesOff .lineOffEntries)).trans (State.endAttempt_cue _ a how)
  unfold State.transmitError
  simp only
  split
  · exact (hended _).trans (.ofSame rfl rfl)
  · exact hended _

theorem State.takeChar_cue (s : State) (c : LineChar) : CueWork s (s.takeChar c) := by
  have hreceive (s : State) (f : Followed) : CueWork s (s.receiveChar f c) := by
    unfold State.receiveChar
    split
    · exact .refl s
    · split <;> exact .ofSame rfl rfl
  have hsend (s : State) (a : Attempt) (f : Followed) : CueWork s (s.sendChar a f c) := by
    unfold State.sendChar
    split
    · exact .refl s
    · split
      · exact .ofSame rfl rfl
      · exact .refl s
  have hheard : CueWork s { s with line := s.line.hear c } := .ofSame rfl rfl
  unfold State.takeChar
  split
  · refine hheard.trans ?_
    simp only
    split
    · exact .refl _
    · split
      · exact hsend _ _ _
      · exact hreceive _ _
  · exact .refl s

theorem State.seeSpoil_cue (s : State) : CueWork s s.seeSpoil := by
  have hseen (e : ErrorRecord) (l : LinePort) : CueWork s { s with errors := e, line := l } := .ofSame rfl rfl
  unfold State.seeSpoil
  simp only
  split
  · exact hseen _ _
  · exact (hseen _ _).trans (State.transmitError_cue _ _ _)

end Sys2Proof.Machine
end

section
/-!
Every invariant through every command (O5 to O15). `Keeps` gathers what each of them asks of one change of the station.
The work of the Dispatcher and the events of the cue line keep all of them (`Keeps.ofWork`); the operations that reach
further, loading, joining, the Fetch Engine, the service port, the flash and the resets, have a lemma each;
`exec_keeps` goes through the commands once, and each obligation is one field of it.
-/

namespace Sys2Proof.Machine

/-- What a change of the station keeps: the waiting commands, and each invariant of the station by itself. -/
structure Keeps (s u : State) : Prop where
  pending : u.pending = s.pending
  flash : s.flashSound → u.flashSound
  drives : s.drivesLawfully → u.drivesLawfully
  queue : QueueShape s.queue → QueueShape u.queue
  counts : s.countsInRange → u.countsInRange
  fifos : s.fifosBounded → u.fifosBounded
  sets : s.pool.setsAgree → u.pool.setsAgree
  order : s.pool.orderWhole → u.pool.orderWhole
  successors : s.pool.successorsWait → u.pool.successorsWait
  pendings : s.pendingsKept → u.pendingsKept
  round : s.round.consistent → u.round.consistent
  answers : s.service.answersFit → u.service.answersFit
  silent : s.shadowSilent → u.shadowSilent

theorem Keeps.refl (s : State) : Keeps s s :=
  ⟨rfl, id, id, id, id, id, id, id, id, id, id, id, id⟩

theorem Keeps.trans {s u w : State} (h : Keeps s u) (k : Keeps u w) : Keeps s w where
  pending := k.pending.trans h.pending
  flash := k.flash ∘ h.flash
  drives := k.drives ∘ h.drives
  queue := k.queue ∘ h.queue
  counts := k.counts ∘ h.counts
  fifos := k.fifos ∘ h.fifos
  sets := k.sets ∘ h.sets
  order := k.order ∘ h.order
  successors := k.successors ∘ h.successors
  pendings := k.pendings ∘ h.pendings
  round := k.round ∘ h.round
  answers := k.answers ∘ h.answers
  silent := k.silent ∘ h.silent

/-! ## Work of the Dispatcher and the cue line -/

theorem State.framesInFlight_eq {s u : State} (h : u.fetch = s.fetch) (v : VoiceNo) :
    u.framesInFlight v = s.framesInFlight v := by
  unfold State.framesInFlight
  rw [h]

theorem Keeps.ofWork {s u : State} (line : LineWork s u) (cue : CueWork s u) (hrun : s.running = true) : Keeps s u where
  pending := line.pending
  flash h :=
    { memory := by rw [line.flash]; exact h.memory
      job := by rw [line.flash]; exact h.job
      reads := by rw [line.service]; exact h.reads
      clips := by rw [line.clips]; exact h.clips
      fetch := by rw [line.fetch]; exact h.fetch
      online := by rw [line.loader]; exact h.online
      cursors := fun v => by rw [line.clips]; exact line.pool.cursorFits s.clips v (h.cursors v)
      unloaded := fun hl v => line.pool.cursorZero v (h.unloaded (by rw [← line.loader]; exact hl) v) }
  drives := line.drives hrun
  queue := line.queue
  counts h := ⟨line.errors h.errors, line.pool.slotCounts h.slots, line.counts h.line⟩
  fifos h := by
    obtain ⟨hheld, hsize, hgrant⟩ := h
    refine ⟨fun v => ?_, by rw [line.fetch]; exact hsize, line.pool.grantEmpty hgrant⟩
    rw [State.framesInFlight_eq line.fetch]
    exact Nat.add_le_of_le_sub (by have := hheld v; omega)
      (line.pool.fifo v (n := 64 - s.framesInFlight v) (by have := hheld v; omega))
  sets := line.pool.setsAgree
  order := line.pool.orderWhole
  successors := cue.successors
  pendings := cue.pendings
  round := line.round
  answers := by rw [line.service]; exact id
  silent := line.silent

theorem State.advance_keeps (s : State) (t : Nat) : Keeps s (s.advance t) where
  pending := rfl
  flash h := ⟨h.memory, h.job, h.reads, h.clips, h.fetch, h.online, h.cursors, h.unloaded⟩
  drives := id
  queue := id
  counts h := ⟨h.errors, h.slots, h.line⟩
  fifos := id
  sets := id
  order := id
  successors := id
  pendings h := ⟨h.online, h.unloaded, h.kept⟩
  round := id
  answers := id
  silent h := ⟨h.online, h.silent⟩

/-- A command keeps what its effect keeps on a station that runs. -/
theorem State.onEvent_keeps (s : State) (t : Nat) (effect : State → State)
    (h : ∀ w : State, w.running = true → Keeps w (effect w)) : Keeps s (s.onEvent t effect) := by
  rcases State.onEvent_cases s t effect with htime | ⟨hrun, heffect⟩
  · rw [htime]; exact s.advance_keeps t
  · rw [heffect]; exact (s.advance_keeps t).trans (h _ hrun)

/-! ## Loading and joining -/

/-- The Start Loader alone changes and does not go ONLINE, or says no less of what is loaded. -/
theorem Keeps.ofLoader (s : State) (l : Loader) (hl : l.loaded = s.loader.loaded) (hm : s.loader.mode ≠ .online)
    (hn : l.mode ≠ .online) : Keeps s { s with loader := l } where
  pending := rfl
  flash h :=
    ⟨h.memory, h.job, h.reads, h.clips, h.fetch, fun e => absurd e hn, h.cursors, fun e => h.unloaded (hl ▸ e)⟩
  drives h hne := absurd (h hne).2.2.1 hm
  queue := id
  counts h := ⟨h.errors, h.slots, h.line⟩
  fifos := id
  sets := id
  order := id
  successors := id
  pendings h := ⟨fun e => absurd e hn, fun e => h.unloaded (hl ▸ e), h.kept⟩
  round := id
  answers := id
  silent h := ⟨fun e => absurd e hn, fun e => h.silent (hl ▸ e)⟩

theorem State.judgeStart_keeps {s : State} (h : s.recordReadEnds = true) : Keeps s s.judgeStart := by
  have hmode : s.loader.mode = .loading := by
    simp only [State.recordReadEnds, Bool.and_eq_true, decide_eq_true_iff] at h
    obtain ⟨⟨⟨⟨hmode, -⟩, -⟩, -⟩, -⟩ := h
    exact hmode
  unfold State.judgeStart
  split
  · exact .ofLoader s _ rfl (by rw [hmode]; nofun) nofun
  · exact .ofLoader s _ rfl (by rw [hmode]; nofun) (by simp [hmode])

/-- R129: every clip of a Clip Table taken from a directory fits. -/
theorem takeDirectory_fits {bs : List Byte} {n : Byte} {clip : Clip} (h : (takeDirectory bs).clip n = some clip) :
    clip.fits = true := by
  have hentry : ∀ e : List Byte, (judgeEntry e).clip = some clip → clip.fits = true := by
    intro e he
    unfold judgeEntry at he
    split at he
    · cases he
    · split at he
      · cases he
      · simp only at he
        split at he
        · next hfits => cases he; exact hfits
        · cases he
  simp only [ClipTable.clip, takeDirectory, Vector.getElem_ofFn] at h
  exact hentry _ h

theorem State.loadable_spec {s : State} {r : StartRecord} (h : s.loadable = some r) :
    s.loader.mode = .loading ∧ s.loader.loaded = false := by
  unfold State.loadable at h
  split at h
  · cases h
  · split at h
    · next hc => exact ⟨hc.1, hc.2.1⟩
    · cases h

theorem State.completeLoad_keeps {s : State} {r : StartRecord} (hmode : s.loader.mode = .loading)
    (hloaded : s.loader.loaded = false) : Keeps s (s.completeLoad r) := by
  have hpool : (s.completeLoad r).pool = s.pool.configure r := rfl
  have hvoices : (s.pool.configure r).voices = s.pool.voices := by unfold Pool.configure; rfl
  have hgrant : (s.pool.configure r).grant = s.pool.grant := by unfold Pool.configure; rfl
  have hreach := Pool.configure_reach s.pool r
  constructor
  case pending => rfl
  case flash =>
    intro h
    have hclips : ∀ n clip, (s.completeLoad r).clips.clip n = some clip → clip.fits = true := fun n clip =>
      takeDirectory_fits
    refine ⟨h.memory, h.job, h.reads, hclips, h.fetch, fun _ => rfl, fun v clip _ => ?_, nofun⟩
    rw [hpool, hvoices, h.unloaded hloaded v]
    exact Nat.zero_le _
  case drives => exact fun h hne => absurd (h hne).2.2.1 (by rw [hmode]; nofun)
  case queue => exact id
  case counts => exact fun h => ⟨h.errors, hreach.slotCounts h.slots, h.line⟩
  case fifos =>
    rintro ⟨hheld, hsize, hempty⟩
    refine ⟨fun v => ?_, hsize, ?_⟩
    · rw [hpool, hvoices, State.framesInFlight_eq (show (s.completeLoad r).fetch = s.fetch from rfl)]
      exact hheld v
    · rw [hpool, Pool.grantEmpty, hgrant, hvoices]
      exact hempty
  case sets => exact hreach.setsAgree
  case order => exact hreach.orderWhole
  case successors =>
    intro h
    rw [hpool, Pool.successorsWait, hvoices]
    exact h
  case pendings =>
    intro h
    have hnone (n : SlotNo) : (s.completeLoad r).pool.slots[n].pending = none := by
      simpa [hpool, Pool.configure] using h.unloaded hloaded n
    exact ⟨fun _ => rfl, nofun, fun n hp => by rw [hnone n] at hp; cases hp⟩
  case round => exact id
  case answers => exact id
  case silent => exact fun h => ⟨fun _ => rfl, fun _ => h.silent (.inr hloaded)⟩

/-- A loaded station in LOADING joins: it goes ONLINE, and drives nothing yet (R182). -/
theorem State.goOnline_keeps {s : State} (hmode : s.loader.mode = .loading) (hloaded : s.loader.loaded = true) :
    Keeps s
      { s with
        line := { s.line with listening := true, joined := true }
        loader := { s.loader with mode := .online } } where
  pending := rfl
  flash h := ⟨h.memory, h.job, h.reads, h.clips, h.fetch, fun _ => hloaded, h.cursors, h.unloaded⟩
  drives h hne := absurd (h hne).2.2.1 (by rw [hmode]; nofun)
  queue := id
  counts h := ⟨h.errors, h.slots, h.line⟩
  fifos := id
  sets := id
  order := id
  successors := id
  pendings h := ⟨fun _ => hloaded, h.unloaded, h.kept⟩
  round := id
  answers := id
  silent h := ⟨fun _ => hloaded, h.silent⟩

theorem State.requestFrame_keeps {s : State} (hrun : s.running = true) (r : FrameRequest) :
    Keeps s (s.requestFrame r) :=
  .ofWork (s.requestFrame_work r).toLine (s.requestFrame_cue r) hrun

theorem State.join_keeps {s : State} (hrun : s.running = true) (hmode : s.loader.mode = .loading)
    (hloaded : s.loader.loaded = true) : Keeps s s.join := by
  have honline := s.goOnline_keeps hmode hloaded
  unfold State.join
  simp only
  split
  · exact honline
  · refine honline.trans (State.requestFrame_keeps ?_ _)
    exact hrun

theorem State.takeGap_keeps {s : State} (hrun : s.running = true) : Keeps s s.takeGap := by
  have hgap : Keeps s { s with line := { s.line.countGap with recessiveRun := nextGap s.line.recessiveRun } } :=
    .ofWork (.ofGap s _) (.ofSame rfl rfl) hrun
  unfold State.takeGap
  split
  · simp only
    split
    · next h => exact hgap.trans (State.join_keeps hrun h.1 h.2)
    · exact hgap
  · exact .refl s

/-! ## The Fetch Engine -/

/-- A read is issued or ends: the FIFOs and cursors change, each voice keeps its owner and stays FREE or not. -/
structure FetchTouch (x y : Voice) : Prop where
  owner : y.owner = x.owner
  free : y.state = .free ↔ x.state = .free
  waits : x.waits → y.waits

theorem FetchTouch.refl (x : Voice) : FetchTouch x x :=
  ⟨rfl, Iff.rfl, id⟩

/-- What the Fetch Engine keeps, its own frames and addresses apart. -/
theorem Keeps.ofFetch (s : State) (r : Option FetchRead) (g : Option Grant) (voices : Vector Voice 12)
    (hvoices : ∀ v : VoiceNo, FetchTouch s.pool.voices[v] voices[v])
    (hflash : s.flashSound →
      State.flashSound { s with fetch := r, pool := { s.pool with grant := g, voices := voices } })
    (hfifos : s.fifosBounded →
      State.fifosBounded { s with fetch := r, pool := { s.pool with grant := g, voices := voices } }) :
    Keeps s { s with fetch := r, pool := { s.pool with grant := g, voices := voices } } where
  pending := rfl
  flash := hflash
  drives := id
  queue := id
  counts h := ⟨h.errors, h.slots, h.line⟩
  fifos := hfifos
  sets h :=
    ⟨fun n v => (h.1 n v).trans (by simp only [(hvoices v).owner]),
      fun v => by simp only [(hvoices v).owner, (hvoices v).free]; exact h.2 v⟩
  order := id
  successors h v := (hvoices v).waits (h v)
  pendings h := ⟨h.online, h.unloaded, h.kept⟩
  round := id
  answers := id
  silent h := ⟨h.online, h.silent⟩

theorem Clip.fits_spec {c : Clip} (h : c.fits = true) :
    1 ≤ c.frames ∧ c.address + 2 * c.channels.count * c.frames ≤ flashSize ∧
      ∀ l, c.loop = some l → l.first < l.last ∧ l.last ≤ c.frames := by
  have hbytes : c.frames * c.channels.bytes = 2 * c.channels.count * c.frames := by
    rw [Nat.mul_comm]
    cases c.channels <;> rfl
  simp only [Clip.fits, Bool.and_eq_true, decide_eq_true_iff, hbytes] at h
  obtain ⟨⟨⟨⟨hframes, -⟩, -⟩, hend⟩, hloop⟩ := h
  refine ⟨hframes, hend, fun l hl => ?_⟩
  rw [hl] at hloop
  simpa [loopFits] using hloop

theorem readLimit_le {c : Clip} (h : c.fits = true) (looping : Bool) : readLimit c looping ≤ c.frames := by
  obtain ⟨-, -, hloop⟩ := Clip.fits_spec h
  unfold readLimit
  split
  · next hl => exact (hloop _ hl).2
  · exact le_refl _

/-- Frames of a clip lie inside the flash (R127, R129). -/
theorem Clip.frames_inFlash {c : Clip} (h : c.fits = true) {first size : Nat} (hle : first + size ≤ c.frames) :
    c.frameAddress first + size * 2 * c.channels.count ≤ flashSize := by
  obtain ⟨-, hend, -⟩ := Clip.fits_spec h
  calc c.frameAddress first + size * 2 * c.channels.count
      = c.address + 2 * c.channels.count * (first + size) := by unfold Clip.frameAddress; ring
    _ ≤ c.address + 2 * c.channels.count * c.frames := by gcongr
    _ ≤ flashSize := hend

theorem Voice.readSize_fits {x : Voice} {c : Clip} (h : c.fits = true) (hx : x.cursor ≤ c.frames) :
    x.cursor + x.readSize c ≤ c.frames := by
  have := readLimit_le h x.loop
  unfold Voice.readSize
  omega

theorem Voice.readSize_le (x : Voice) (c : Clip) : x.readSize c ≤ 32 :=
  Nat.min_le_left _ _

theorem Voice.advanceCursor_touch (x : Voice) (c : Clip) (size : Nat) : FetchTouch x (x.advanceCursor c size) := by
  unfold Voice.advanceCursor
  split
  · split
    · exact ⟨rfl, Iff.rfl, id⟩
    · by_cases hrun : x.state = .running
      · exact ⟨rfl, by simp [hrun], fun h hs => by rw [h hs] at hrun; cases hrun⟩
      · exact ⟨rfl, by simp [hrun], fun h hs => by simpa [hrun] using h hs⟩
  · exact ⟨rfl, Iff.rfl, id⟩

theorem Voice.advanceCursor_clip (x : Voice) (c : Clip) (size : Nat) : (x.advanceCursor c size).clip = x.clip := by
  unfold Voice.advanceCursor
  split
  · split <;> rfl
  · rfl

theorem Voice.advanceCursor_fifo (x : Voice) (c : Clip) (size : Nat) : (x.advanceCursor c size).fifo = x.fifo := by
  unfold Voice.advanceCursor
  split
  · split <;> rfl
  · rfl

theorem Voice.advanceCursor_fits {x : Voice} {c : Clip} {size : Nat} (h : c.fits = true)
    (hx : x.cursor + size ≤ c.frames) : (x.advanceCursor c size).cursor ≤ c.frames := by
  obtain ⟨-, -, hloop⟩ := Clip.fits_spec h
  unfold Voice.advanceCursor
  split
  · split
    · simp only [loopStart]
      split
      · next hl => have := hloop _ hl; omega
      · exact Nat.zero_le _
    · exact hx
  · exact hx

theorem State.requestsRefill_held {s : State} {v : VoiceNo} (h : s.requestsRefill v = true) :
    s.pool.voices[v].fifo.length + s.framesInFlight v ≤ 32 := by
  simp only [State.requestsRefill, Bool.and_eq_true, decide_eq_true_iff] at h
  exact h.2

/-- A read of at most 32 frames for a voice that holds at most 32, with none in flight before (R131). -/
theorem State.fifosBounded.issue {s : State} (h : s.fifosBounded) (hfetch : s.fetch = none) {r : FetchRead}
    {voices : Vector Voice 12} (hfifo : ∀ u : VoiceNo, voices[u].fifo = s.pool.voices[u].fifo) (hsize : r.size ≤ 32)
    (hheld : s.pool.voices[r.voice].fifo.length ≤ 32) :
    State.fifosBounded { s with fetch := some r, pool := { s.pool with grant := none, voices := voices } } := by
  obtain ⟨hall, -, -⟩ := h
  refine ⟨fun u => ?_, fun r' hr => (by cases hr; exact hsize), nofun⟩
  have hu := hall u
  simp only [State.framesInFlight, hfetch, hfifo] at hu ⊢
  split
  · next e => subst e; omega
  · omega

theorem State.issueRead_keeps {s : State} {v : VoiceNo} {clip : Clip} (hfetch : s.fetch = none)
    (hmode : s.loader.mode = .online) (hclip : s.clips.clip s.pool.voices[v].clip = some clip)
    (hreq : s.requestsRefill v = true) (hgrant : s.pool.grant = none) : Keeps s (s.issueRead v clip) := by
  have hvoice : ∀ u : VoiceNo,
      (update s.pool.voices v fun x => x.advanceCursor clip (x.readSize clip))[u] =
        if v = u then s.pool.voices[v].advanceCursor clip (s.pool.voices[v].readSize clip) else s.pool.voices[u] :=
    fun u => update_get _ _ _ _
  have hstate : s.issueRead v clip =
      { s with
        fetch := some (s.readFor v clip)
        pool :=
          { s.pool with
            grant := none, voices := update s.pool.voices v fun x => x.advanceCursor clip (x.readSize clip) } } := by
    rw [← hgrant]; rfl
  rw [hstate]
  refine .ofFetch s _ _ _ (fun u => ?_) (fun h => ?_) fun h => h.issue hfetch (fun u => ?_) (Voice.readSize_le _ _) ?_
  · rw [hvoice]
    split
    · next e => subst e; exact Voice.advanceCursor_touch _ _ _
    · exact .refl _
  · have hfits := h.clips _ _ hclip
    have hread := Voice.readSize_fits hfits (h.cursors v clip hclip)
    refine ⟨h.memory, h.job, h.reads, h.clips, fun r hr => ?_, h.online, fun u c hc => ?_, fun hl => ?_⟩
    · cases hr
      exact Clip.frames_inFlash hfits hread
    · simp only [hvoice] at hc ⊢
      split
      · next e =>
        rw [if_pos e, Voice.advanceCursor_clip, hclip] at hc
        cases hc
        exact Voice.advanceCursor_fits hfits hread
      · next e =>
        rw [if_neg e] at hc
        exact h.cursors u c hc
    · exact absurd (h.online hmode) (by simpa using hl)
  · rw [hvoice]
    split
    · next e => subst e; exact Voice.advanceCursor_fifo _ _ _
    · rfl
  · have := State.requestsRefill_held hreq
    exact le_trans (Nat.le_add_right _ _) this

theorem State.refill_keeps {s : State} {v : VoiceNo} (hfetch : s.fetch = none) (hmode : s.loader.mode = .online)
    (hreq : s.requestsRefill v = true) (hgrant : s.pool.grant = none) : Keeps s (s.refill v) := by
  unfold State.refill
  split
  · exact .refl s
  · next hclip => exact State.issueRead_keeps hfetch hmode hclip hreq hgrant

/-- The grant is taken up (R133). -/
theorem State.dropGrant_keeps (s : State) : Keeps s { s with pool := { s.pool with grant := none } } :=
  .ofFetch s s.fetch none s.pool.voices (fun _ => .refl _)
    (fun h => ⟨h.memory, h.job, h.reads, h.clips, h.fetch, h.online, h.cursors, h.unloaded⟩)
    fun h => ⟨h.1, h.2.1, nofun⟩

/-- A read of the first frames of the clip of a grant, for a voice that holds none. -/
theorem State.staleRead_keeps {s : State} {g : Grant} {clip : Clip} (hfetch : s.fetch = none)
    (hgrant : s.pool.grant = some g) (hclip : s.clips.clip g.clip = some clip) (clock : Nat) :
    Keeps s { s with fetch := some (g.read clip clock), pool := { s.pool with grant := none } } := by
  refine .ofFetch s _ none s.pool.voices (fun _ => .refl _) (fun h => ?_) fun h => ?_
  · have hfits := h.clips _ _ hclip
    have hlimit : 0 + min 32 (readLimit clip g.loop) ≤ clip.frames := by
      have := readLimit_le hfits g.loop
      omega
    refine ⟨h.memory, h.job, h.reads, h.clips, fun r hr => ?_, h.online, h.cursors, h.unloaded⟩
    cases hr
    exact Clip.frames_inFlash hfits hlimit
  · have hempty : s.pool.voices[g.voice].fifo = [] := h.2.2 g hgrant
    exact h.issue hfetch (fun _ => rfl) (Nat.min_le_left _ _) (by
      show s.pool.voices[g.voice].fifo.length ≤ 32
      rw [hempty]; exact Nat.zero_le _)

theorem State.issueGrant_keeps {s : State} {g : Grant} (hfetch : s.fetch = none) (hmode : s.loader.mode = .online)
    (hgrant : s.pool.grant = some g) : Keeps s (s.issueGrant g) := by
  unfold State.issueGrant
  simp only
  split
  · next hstands =>
    have hreq : State.requestsRefill { s with pool := { s.pool with grant := none } } g.voice = true := by
      simp only [State.grantStands, Bool.and_eq_true] at hstands
      exact hstands.1
    exact s.dropGrant_keeps.trans (State.refill_keeps hfetch hmode hreq rfl)
  · split
    · exact s.dropGrant_keeps
    · next hclip => exact State.staleRead_keeps hfetch hgrant hclip _

theorem State.refillChoice_eq (s : State) :
    s.refillChoice =
      firstBest s.requestsRefill (fun v b => s.pool.voices[v].fifo.length < s.pool.voices[b].fifo.length) none
        (List.finRange 12) := by
  unfold State.refillChoice firstBest
  congr 1
  funext best v
  cases best
  · rfl
  · rfl

/-- The arbiter's choice requests (R133). -/
theorem State.refillChoice_requests {s : State} {v : VoiceNo} (h : s.refillChoice = some v) :
    s.requestsRefill v = true := by
  rw [State.refillChoice_eq] at h
  exact firstBest_ok h

theorem State.issueNext_keeps {s : State} (hfetch : s.fetch = none) (hmode : s.loader.mode = .online) :
    Keeps s s.issueNext := by
  unfold State.issueNext
  split
  · next hgrant => exact State.issueGrant_keeps hfetch hmode hgrant
  · next hgrant =>
    split
    · exact .refl s
    · next hv => exact State.refill_keeps hfetch hmode (State.refillChoice_requests hv) hgrant

/-- A run of the bytes of `n` frames holds `n` frames (R127). -/
theorem framesOf_length (channels : Channels) : ∀ (n : Nat) (bs : List Byte), bs.length = n * 2 * channels.count →
    (framesOf channels bs).length = n
  | 0, bs, h => by
    rw [List.length_eq_zero_iff.1 (h.trans (by simp))]
    cases channels <;> rfl
  | n + 1, bs, h => by
    cases channels with
    | mono =>
      match bs, h with
      | lo :: hi :: rest, h =>
        have hrest : rest.length = n * 2 * Channels.mono.count := by
          simp only [List.length_cons, Channels.count] at h ⊢; omega
        simp only [framesOf, List.length_cons, framesOf_length .mono n rest hrest]
      | [_], h => simp only [List.length_singleton, Channels.count] at h; omega
      | [], h => simp only [List.length_nil, Channels.count] at h; omega
    | stereo =>
      match bs, h with
      | ll :: lh :: rl :: rh :: rest, h =>
        have hrest : rest.length = n * 2 * Channels.stereo.count := by
          simp only [List.length_cons, Channels.count] at h ⊢; omega
        simp only [framesOf, List.length_cons, framesOf_length .stereo n rest hrest]
      | [_, _, _], h | [_, _], h | [_], h | [], h =>
        simp only [List.length_cons, List.length_nil, Channels.count] at h; omega

theorem State.finishRead_keeps {s : State} {r : FetchRead} (hfetch : s.fetch = some r) : Keeps s (s.finishRead r) := by
  have hother {u : VoiceNo} (hu : r.voice ≠ u) : s.framesInFlight u = 0 := by
    simp only [State.framesInFlight, hfetch, if_neg hu]
  have hown : s.framesInFlight r.voice = r.size := by
    simp only [State.framesInFlight, hfetch, if_true]
  unfold State.finishRead
  simp only
  split
  · have hframes : (framesOf r.channels (Memory.readRun s.flash.mem r.address r.bytes)).length = r.size :=
      framesOf_length _ _ _ (Memory.readRun_length _ _ _)
    have hvoice : ∀ u : VoiceNo, (update s.pool.voices r.voice fun x =>
        { x with fifo := x.fifo ++ framesOf r.channels (Memory.readRun s.flash.mem r.address r.bytes) })[u] =
          if r.voice = u then
            { s.pool.voices[r.voice] with
              fifo := s.pool.voices[r.voice].fifo ++
                framesOf r.channels (Memory.readRun s.flash.mem r.address r.bytes) }
          else s.pool.voices[u] := fun u => update_get _ _ _ _
    refine .ofFetch s none none _ (fun u => ?_) (fun h => ?_) fun h => ⟨fun u => ?_, nofun, nofun⟩
    · rw [hvoice]
      split
      · next e => subst e; exact ⟨rfl, Iff.rfl, id⟩
      · exact .refl _
    · refine ⟨h.memory, h.job, h.reads, h.clips, nofun, h.online, fun u => ?_, fun hl u => ?_⟩
      all_goals
        simp only [hvoice]
        split
      · next e => subst e; exact h.cursors r.voice
      · exact h.cursors u
      · next e => subst e; exact h.unloaded hl r.voice
      · exact h.unloaded hl u
    · have hu := h.1 u
      simp only [hvoice, State.framesInFlight]
      split
      · next e =>
        subst e
        rw [hown] at hu
        rw [List.length_append, hframes]
        exact hu
      · next e =>
        rw [hother e] at hu
        exact hu
  · refine .ofFetch s none none s.pool.voices (fun _ => .refl _)
      (fun h => ⟨h.memory, h.job, h.reads, h.clips, nofun, h.online, h.cursors, h.unloaded⟩)
      fun h => ⟨fun u => le_trans ?_ (h.1 u), nofun, nofun⟩
    exact Nat.le_add_right _ _

/-! ## The flash and the service port -/

/-- The memory is in canonical form and an operation stays inside it. -/
structure Flash.sound (f : Flash) : Prop where
  memory : Memory.wf f.mem
  job : ∀ o, f.op = some o → o.job.inFlash

theorem State.flashSound.ofFlash {s : State} (h : s.flashSound) {f : Flash} (hf : f.sound) :
    State.flashSound { s with flash := f } :=
  ⟨hf.memory, hf.job, h.reads, h.clips, h.fetch, h.online, h.cursors, h.unloaded⟩

theorem State.flashSound.flash {s : State} (h : s.flashSound) : s.flash.sound :=
  ⟨h.memory, h.job⟩

theorem Keeps.ofFlash (s : State) (f : Flash) (hf : s.flash.sound → f.sound) : Keeps s { s with flash := f } where
  pending := rfl
  flash h := h.ofFlash (hf h.flash)
  drives := id
  queue := id
  counts h := ⟨h.errors, h.slots, h.line⟩
  fifos := id
  sets := id
  order := id
  successors := id
  pendings h := ⟨h.online, h.unloaded, h.kept⟩
  round := id
  answers := id
  silent h := ⟨h.online, h.silent⟩

theorem Keeps.ofService (s : State) (p : ServicePort)
    (hreads : ∀ r ∈ p.reads, r ∈ s.service.reads ∨ r.address + r.count ≤ flashSize)
    (hfit : s.service.answersFit → p.answersFit) : Keeps s { s with service := p } where
  pending := rfl
  flash h :=
    ⟨h.memory, h.job, fun r hr => (hreads r hr).elim (h.reads r) id, h.clips, h.fetch, h.online, h.cursors, h.unloaded⟩
  drives := id
  queue := id
  counts h := ⟨h.errors, h.slots, h.line⟩
  fifos := id
  sets := id
  order := id
  successors := id
  pendings h := ⟨h.online, h.unloaded, h.kept⟩
  round := id
  answers := hfit
  silent h := ⟨h.online, h.silent⟩

/-- A change of the port that leaves its answers, its reads and its operation alone. -/
theorem Keeps.ofReceiver (s : State) (p : ServicePort) (ha : p.answers = s.service.answers)
    (hr : p.reads = s.service.reads) (hi : p.inProgress = s.service.inProgress)
    (hs : p.sendingFrom = s.service.sendingFrom) : Keeps s { s with service := p } := by
  refine .ofService s p (fun r h => .inl (hr ▸ h)) fun h => ?_
  unfold ServicePort.answersFit
  rw [ha, hr, hi, hs]
  exact h

theorem State.assemble_keeps (s : State) (a : Assembly) : Keeps s (s.assemble a) :=
  .ofReceiver s _ rfl rfl rfl rfl

theorem State.receiverTo_keeps (s : State) (r : Receiver) : Keeps s (s.receiverTo r) :=
  .ofReceiver s _ rfl rfl rfl rfl

theorem State.count_keeps {s : State} (hrun : s.running = true) (c : ErrorCount) : Keeps s (s.count c) :=
  .ofWork (s.count_work c).toLine (.ofSame rfl rfl) hrun

/-- R187: the port takes a packet exactly where it has room. -/
theorem State.portFull_eq_false_iff (s : State) : s.portFull = false ↔ s.service.hasRoom := by
  unfold State.portFull ServicePort.hasRoom
  by_cases hprogress : s.service.inProgress = .none
  · simp [hprogress]
  · simp only [hprogress, if_false, ne_eq, not_false_eq_true, decide_true, Bool.true_and, Bool.or_eq_false_iff,
      decide_eq_false_iff_not, and_assoc]
    exact and_congr_right fun _ => by omega

/-- The answers, with one more, and what is under way beside them. -/
theorem ServicePort.hasRoom.respond {p : ServicePort} (hroom : p.hasRoom) (t : Nat) (r : Response) :
    ServicePort.answersFit { p with answers := p.answers ++ [r], sendingFrom := some (p.sendingFrom.getD t) } := by
  obtain ⟨-, hplaces⟩ := hroom
  refine ⟨?_, by simp⟩
  simp only [List.length_append, List.length_singleton]
  omega

theorem State.respond_keeps {s : State} (hroom : s.service.hasRoom) (cmd : Byte) (status : PacketStatus)
    (payload : List Byte) : Keeps s (s.respond cmd status payload) :=
  .ofService s _ (fun _ h => .inl h) fun _ => hroom.respond _ _

/-- An operation starts in the place that the port has left for its answer. -/
theorem State.startJob_keeps {s : State} {job : FlashJob} {kind : InProgress} (hjob : job.inFlash)
    (hroom : s.service.hasRoom) : Keeps s (s.startJob job kind) := by
  obtain ⟨-, hplaces⟩ := hroom
  refine (Keeps.ofFlash s { s.flash with op := some { job := job, dueAt := s.transferStart + job.clocks } } fun h =>
    ⟨h.memory, fun o ho => (by cases ho; exact hjob)⟩).trans
      (Keeps.ofService _ _ (fun _ h => .inl h) fun h => ⟨?_, h.2⟩)
  simp only
  split <;> omega

theorem State.startRead_keeps {s : State} {address count : Nat} (hread : address + count ≤ flashSize)
    (hroom : s.service.hasRoom) : Keeps s (s.startRead address count) := by
  obtain ⟨-, hplaces⟩ := hroom
  refine .ofService s _ (fun r h => ?_) fun h => ⟨?_, h.2⟩
  · rcases List.mem_append.1 h with h | h
    · exact .inl h
    · rw [List.mem_singleton] at h
      subst h
      exact .inr hread
  · simp only [List.length_append, List.length_singleton]
    omega

theorem State.errorsClear_keeps {s : State} (hrun : s.running = true) (arg : Byte) : Keeps s (s.errorsClear arg) := by
  have hclear (group : Nat) : LineWork s (s.clearGroup group) :=
    (LineWork.ofQueue s (q := noteClear group s.queue) (e := s.errors.mapGroup group fun _ _ => 0)
      (fun h => h.noteClear group) (fun h => by rw [h]; rfl) fun h => h.mapGroup group fun _ _ => Nat.zero_le _).trans
      (.ofLine _ _ (fun _ h => h) id fun h _ => ⟨h.1, h.2.1, by rw [h.2.2]; rfl⟩)
  unfold State.errorsClear
  split
  · exact .ofWork (hclear _) (.ofSame rfl rfl) hrun
  · exact .refl s

/-! ## Entry to SERVICE -/

/-- The Line Port and the queue leave the line: every drive stops, an attempt is over with its own frame, the queue is
empty (R27, R52). -/
theorem State.leaveLine_eq (s : State) :
    s.leaveLine =
      { s with
        queue := []
        line :=
          { s.line with
            drive := .released, attempt := none
            followed := if s.line.attempt.isSome then none else s.line.followed
            holdoffOwed := s.line.holdoffOwed || s.line.attempt.isSome } } := by
  cases ha : s.line.attempt with
  | none => simp [State.leaveLine, ha]
  | some a => simp [State.leaveLine, ha, State.endAttempt, State.attemptReturned, flyingStale, flying, landFlying]

/-- R183: the whole station after its entry to SERVICE. -/
theorem State.enterService_eq (s : State) :
    ∃ lamps, s.enterService =
      { s with
        loader := { s.loader with mode := .service }
        line :=
          { s.line with
            drive := .released, attempt := none
            followed := if s.line.attempt.isSome then none else s.line.followed
            holdoffOwed := s.line.holdoffOwed || s.line.attempt.isSome }
        queue := [], round := s.round.enterService, penalties := Vector.replicate 16 none
        pool := { s.pool.freeAll.dropPending with grant := none }, lamps := lamps
        mixer := { s.mixer with mix := BusMix.silence } } := by
  unfold State.enterService
  rw [State.leaveLine_eq]
  exact ⟨_, rfl⟩

/-- With every successor discarded no voice that is made FREE keeps one (R125). -/
theorem Pool.freeAll_successor (p : Pool) (v : VoiceNo) : p.freeAll.voices[v].successor = none := by
  have hfold : ∀ (l : List VoiceNo) (q : Pool), (∀ u : VoiceNo, q.voices[u].successor = none) →
      ∀ u : VoiceNo,
        (l.foldl (fun p v => if p.voices[v].state = .free then p else p.free v) q).voices[u].successor = none := by
    intro l
    induction l with
    | nil => exact fun q hq => hq
    | cons w l ih =>
      refine fun q hq => ih _ fun u => ?_
      simp only
      split
      · exact hq u
      · rw [Pool.free_voice]
        split
        · next e => exact hq w
        · exact hq u
  refine hfold _ _ (fun u => ?_) v
  simp only [Pool.discard, mapEach_get]
  split
  · rfl
  · next h => simpa using h

theorem Pool.dropPending_pending (p : Pool) (n : SlotNo) : p.dropPending.slots[n].pending = none := by
  rw [Pool.dropPending, mapEach_get]

theorem State.enterService_keeps (s : State) : Keeps s s.enterService := by
  obtain ⟨lamps, heq⟩ := s.enterService_eq
  have hreach : PoolReach s.pool s.pool.freeAll.dropPending :=
    (Pool.freeAll_reach s.pool).trans (Pool.dropPending_reach _)
  have hnone (n : SlotNo) : s.pool.freeAll.dropPending.slots[n].pending = none := Pool.dropPending_pending _ n
  have hsucc (v : VoiceNo) : s.pool.freeAll.dropPending.voices[v].successor = none := by
    rw [Pool.dropPending_voices]; exact Pool.freeAll_successor _ v
  generalize s.pool.freeAll.dropPending = p at *
  rw [heq]
  exact
    { pending := rfl
      flash := fun h =>
        { memory := h.memory, job := h.job, reads := h.reads, clips := h.clips, fetch := h.fetch, online := nofun
          cursors := fun v => hreach.cursorFits s.clips v (h.cursors v)
          unloaded := fun hl v => hreach.cursorZero v (h.unloaded hl v) }
      drives := fun _ hne => absurd rfl hne
      queue := fun _ => QueueShape.nil
      counts := fun h => ⟨h.errors, hreach.slotCounts h.slots, h.line⟩
      fifos := fun h =>
        ⟨fun v => Nat.add_le_of_le_sub (by have := h.1 v; exact le_trans (Nat.le_add_left _ _) this)
          (hreach.fifo v (n := 64 - s.framesInFlight v) (by have := h.1 v; omega)), h.2.1, nofun⟩
      sets := hreach.setsAgree
      order := hreach.orderWhole
      successors := fun _ v hv => absurd (hsucc v) (Option.ne_none_iff_isSome.2 hv)
      pendings := fun _ =>
        ⟨nofun, fun _ => hnone, fun n hn => absurd (hnone n) (Option.ne_none_iff_isSome.2 hn)⟩
      round := fun _ => Round.enterService_consistent _
      answers := id
      silent := fun h => ⟨nofun, fun hw => ⟨(h.silent hw).1, (h.silent hw).2.1, rfl, rfl⟩⟩ }

theorem State.enterService_service (s : State) : s.enterService.service = s.service := by
  obtain ⟨lamps, heq⟩ := s.enterService_eq
  rw [heq]

/-! ## Packets -/

/-- What a command of the service port asks of the flash lies inside it. -/
def ServiceCommand.inFlash : ServiceCommand → Prop
  | .erase a => a < flashSize
  | .program a data => a + data.length ≤ flashSize
  | .read a n => a + n ≤ flashSize
  | .status | .enter | .errors _ | .restart => True

theorem addressOf_lt (hi mid lo : Byte) : addressOf hi mid lo < flashSize := by
  have := hi.isLt
  have := mid.isLt
  have := lo.isLt
  unfold addressOf flashSize
  omega

theorem noArgs_inFlash {c d : ServiceCommand} {payload : List Byte} (hc : c.inFlash) (h : noArgs c payload = some d) :
    d.inFlash := by
  unfold noArgs at h
  split at h
  · cases h; exact hc
  · cases h

/-- R186: a command whose arguments fit it stays inside the flash. -/
theorem commandOf_inFlash {cmd : Byte} {payload : List Byte} {c : ServiceCommand} (h : commandOf cmd payload = some c) :
    c.inFlash := by
  unfold commandOf at h
  split at h
  · exact noArgs_inFlash (by trivial) h
  · exact noArgs_inFlash (by trivial) h
  · unfold eraseArgs at h
    split at h
    · split at h
      · cases h; exact addressOf_lt _ _ _
      · cases h
    · cases h
  · unfold programArgs at h
    split at h
    · next hi mid lo data =>
      split at h
      · next hc =>
        cases h
        have := addressOf_lt hi mid lo
        simp only [ServiceCommand.inFlash, flashSize, pageSize] at *
        omega
      · cases h
    · cases h
  · unfold readArgs at h
    split at h
    · split at h
      · next hc => cases h; exact hc.2.2
      · cases h
    · cases h
  · unfold errorsArgs at h
    split at h
    · split at h
      · cases h; trivial
      · cases h
    · cases h
  · exact noArgs_inFlash (by trivial) h
  · cases h

theorem State.judgePacket_carryOut {s : State} {cmd : Byte} {payload : List Byte} {sumOk : Bool} {c : ServiceCommand}
    (h : s.judgePacket cmd payload sumOk = .carryOut c) : commandOf cmd payload = some c := by
  unfold State.judgePacket at h
  split at h
  · cases h
  · split at h
    · cases h
    · split at h
      · cases h
      · split at h
        · cases h
        · next hc => cases h; exact hc

theorem State.errorsClear_service (s : State) (arg : Byte) : (s.errorsClear arg).service = s.service := by
  unfold State.errorsClear
  split <;> rfl

theorem State.carryOut_keeps {s : State} (hrun : s.running = true) (hroom : s.service.hasRoom) (cmd : Byte)
    {c : ServiceCommand} (hc : c.inFlash) : Keeps s (s.carryOut cmd c) := by
  cases c with
  | status => exact State.respond_keeps hroom _ _ _
  | enter =>
    unfold State.carryOut
    simp only
    split
    · exact s.enterService_keeps.trans (State.respond_keeps (by rw [State.enterService_service]; exact hroom) _ _ _)
    · exact State.respond_keeps hroom _ _ _
  | erase a => exact State.startJob_keeps hc hroom
  | program a data => exact State.startJob_keeps hc hroom
  | read a n => exact State.startRead_keeps hc hroom
  | errors arg =>
    exact (State.errorsClear_keeps hrun arg).trans
      (State.respond_keeps (by rw [State.errorsClear_service]; exact hroom) _ _ _)
  | restart =>
    exact .ofService s _ (fun _ h => .inl h) fun _ =>
      hroom.respond s.clock { command := cmd ||| 0x80, status := .ok, payload := [] }

theorem State.takePacket_keeps {s : State} (hrun : s.running = true) (cmd : Byte) (payload : List Byte)
    (sumOk : Bool) : Keeps s (s.takePacket cmd payload sumOk) := by
  unfold State.takePacket
  split
  · exact .refl s
  · next hfull =>
    have hroom : s.service.hasRoom := s.portFull_eq_false_iff.1 (by simpa using hfull)
    split
    · exact State.respond_keeps hroom _ _ _
    · next hc => exact State.carryOut_keeps hrun hroom cmd (commandOf_inFlash (State.judgePacket_carryOut hc))

theorem State.takeByte_keeps {s : State} (hrun : s.running = true) (b : Byte) : Keeps s (s.takeByte b) := by
  unfold State.takeByte
  split
  · split
    · exact s.assemble_keeps _
    · exact .refl s
  · exact s.assemble_keeps _
  · split <;> exact s.assemble_keeps _
  · exact s.assemble_keeps _
  · refine (s.assemble_keeps _).trans (State.takePacket_keeps ?_ _ _ _)
    exact hrun

theorem State.takePortChar_keeps {s : State} (hrun : s.running = true) (c : PortChar) : Keeps s (s.takePortChar c) := by
  unfold State.takePortChar
  split
  · exact State.takeByte_keeps hrun _
  · split
    · exact .refl s
    · refine (s.assemble_keeps _).trans (State.count_keeps ?_ _)
      exact hrun

theorem State.takePortEvent_keeps {s : State} (hrun : s.running = true) (e : PortEvent) :
    Keeps s (s.takePortEvent e) := by
  cases e with
  | startBit =>
    simp only [State.takePortEvent, State.findStartBit]
    split
    · exact .ofReceiver s _ rfl rfl rfl rfl
    · exact .refl s
  | character levels =>
    unfold State.takePortEvent
    simp only
    split
    · refine (s.receiverTo_keeps _).trans (State.takePortChar_keeps ?_ _)
      exact hrun
    · exact .refl s
  | lineHigh =>
    unfold State.takePortEvent
    simp only
    split
    · exact s.receiverTo_keeps _
    · exact .refl s

theorem State.wholePacket_keeps {s : State} (hrun : s.running = true) (cmd : Byte) (payload : List Byte) :
    Keeps s (s.wholePacket cmd payload) := by
  have hready : Keeps s ((s.receiverTo .seeking).assemble .hunt) :=
    (s.receiverTo_keeps _).trans (State.assemble_keeps _ _)
  unfold State.wholePacket
  simp only
  split
  · exact hready
  · refine hready.trans (State.takePacket_keeps ?_ _ _ _)
    exact hrun

/-! ## The flash finishes, responses leave -/

theorem State.finishJob_keeps (s : State) {mem : List Host.Cell} {kind : InProgress} (hkind : kind ≠ .none)
    (hmem : s.flash.sound → Memory.wf mem) (cmd : Byte) : Keeps s (s.finishJob mem kind cmd) := by
  have hdone : Keeps s { s with flash := { mem := mem, op := none, freeSince := s.clock } } :=
    .ofFlash s _ fun h => ⟨hmem h, nofun⟩
  unfold State.finishJob
  simp only
  split
  · next hprogress =>
    refine hdone.trans (.ofService _ _ (fun _ h => .inl h) fun h => ⟨?_, by simp⟩)
    obtain ⟨hplaces, -⟩ := h
    simp only [hprogress, if_neg hkind] at hplaces
    simpa [Nat.add_right_comm] using hplaces
  · exact hdone

theorem State.opEnded_spec {s : State} {job : FlashJob} (h : s.opEnded = some job) :
    ∃ o, s.flash.op = some o ∧ o.job = job := by
  unfold State.opEnded at h
  split at h
  · cases h
  · next o ho =>
    split at h
    · cases h; exact ⟨o, ho, rfl⟩
    · cases h

theorem Flash.sound.inFlash {s : State} {job : FlashJob} (h : s.flash.sound) (ho : s.opEnded = some job) :
    job.inFlash := by
  obtain ⟨o, hop, rfl⟩ := State.opEnded_spec ho
  exact h.job o hop

theorem State.finishTransfer_keeps {s : State} {r : ServiceRead} (h : s.endedTransfer = some r) :
    Keeps s (s.finishTransfer r) := by
  have hreads : ∃ rest, s.service.reads = r :: rest := by
    unfold State.endedTransfer at h
    split at h
    · cases h
    · next r' rest hr =>
      split at h
      · cases h; exact ⟨rest, hr⟩
      · cases h
  obtain ⟨rest, hr⟩ := hreads
  refine .ofService s _ (fun x hx => .inl (List.mem_of_mem_tail hx)) fun hfit => ⟨?_, by simp⟩
  obtain ⟨hplaces, -⟩ := hfit
  rw [hr, List.length_cons] at hplaces
  simp only [hr, List.tail_cons, List.length_append, List.length_singleton]
  omega

theorem State.dropResponse_keeps {s : State} {r : Response} {rest : List Response}
    (h : s.service.answers = r :: rest) : Keeps s (s.dropResponse rest) := by
  refine .ofService s _ (fun _ hx => .inl hx) fun hfit => ⟨?_, ?_⟩
  · obtain ⟨hplaces, -⟩ := hfit
    rw [h, List.length_cons] at hplaces
    simp only
    omega
  · by_cases hrest : rest = [] <;> simp [hrest]

/-! ## Power and the reset line -/

theorem Pool.reset_setsAgree : Pool.reset.setsAgree := by
  refine ⟨fun n v => ?_, fun v => ?_⟩ <;> simp [Pool.reset, Slot.reset, Voice.reset, inSet]

theorem Pool.reset_orderWhole : Pool.reset.orderWhole := by
  unfold Pool.orderWhole Pool.reset
  exact ⟨by decide, by decide⟩

theorem ServicePort.reset_answersFit : ServicePort.reset.answersFit :=
  ⟨by decide, by decide⟩

/-- A station at its reset values, whatever the cause, the power and the reset line. -/
def State.atReset (powered : Bool) (resetLine : ResetLine) (cause : ResetCause) (flash : Flash) (freeCount : Nat)
    (pending : List Instr) : State :=
  { State.reset with
    powered := powered, resetLine := resetLine, loader := Loader.reset cause, flash := flash, freeCount := freeCount
    pending := pending }

/-- Every invariant but that of the flash. -/
structure Resting (u : State) : Prop where
  drives : u.drivesLawfully
  queue : QueueShape u.queue
  counts : u.countsInRange
  fifos : u.fifosBounded
  sets : u.pool.setsAgree
  order : u.pool.orderWhole
  successors : u.pool.successorsWait
  pendings : u.pendingsKept
  round : u.round.consistent
  answers : u.service.answersFit
  silent : u.shadowSilent

section atReset

variable (powered : Bool) (resetLine : ResetLine) (cause : ResetCause) (flash : Flash) (freeCount : Nat)
  (pending : List Instr)

theorem State.atReset_resting : Resting (State.atReset powered resetLine cause flash freeCount pending) where
  drives hne := absurd rfl hne
  queue := QueueShape.nil
  counts :=
    { errors := ErrorRecord.reset_inRange
      slots := fun n => by simp [State.atReset, State.reset, Pool.reset, Slot.reset]
      line := ⟨Nat.zero_le _, Nat.zero_le _⟩ }
  fifos := ⟨fun v => by simp [State.atReset, State.reset, Pool.reset, Voice.reset, State.framesInFlight], nofun, nofun⟩
  sets := Pool.reset_setsAgree
  order := Pool.reset_orderWhole
  successors v hv := by simp [State.atReset, State.reset, Pool.reset, Voice.reset] at hv
  pendings :=
    have hnone (n : SlotNo) : Pool.reset.slots[n].pending = none := by simp [Pool.reset, Slot.reset]
    ⟨nofun, fun _ => hnone, fun n hn => absurd (hnone n) (Option.ne_none_iff_isSome.2 hn)⟩
  round := Round.reset_consistent
  answers := ServicePort.reset_answersFit
  silent := ⟨nofun, fun _ => ⟨rfl, rfl, rfl, rfl⟩⟩

variable {flash} in
theorem State.atReset_flashSound (h : flash.sound) :
    State.flashSound (State.atReset powered resetLine cause flash freeCount pending) where
  memory := h.memory
  job := h.job
  reads := nofun
  clips n clip hc := by simp [State.atReset, State.reset, ClipTable.clip, ClipTable.reset] at hc
  fetch := nofun
  online := nofun
  cursors v clip _ := by simp [State.atReset, State.reset, Pool.reset, Voice.reset]
  unloaded _ v := by simp [State.atReset, State.reset, Pool.reset, Voice.reset]

variable {flash} in
theorem State.atReset_keeps (s : State) (hflash : s.flash.sound → flash.sound) :
    Keeps s (State.atReset powered resetLine cause flash freeCount s.pending) :=
  have hrest := State.atReset_resting powered resetLine cause flash freeCount s.pending
  { pending := rfl
    flash := fun h => State.atReset_flashSound powered resetLine cause freeCount s.pending (hflash h.flash)
    drives := fun _ => hrest.drives
    queue := fun _ => hrest.queue
    counts := fun _ => hrest.counts
    fifos := fun _ => hrest.fifos
    sets := fun _ => hrest.sets
    order := fun _ => hrest.order
    successors := fun _ => hrest.successors
    pendings := fun _ => hrest.pendings
    round := fun _ => hrest.round
    answers := fun _ => hrest.answers
    silent := fun _ => hrest.silent }

/-- R175: what a reset leaves. -/
theorem State.atReset_leaves : ResetLeaves (State.atReset powered resetLine cause flash freeCount pending) cause where
  clock := by simp [State.now, stationTimeAt, State.atReset, State.reset]
  mode := ⟨rfl, rfl, rfl, rfl⟩
  line_counts := ⟨rfl, rfl, rfl, rfl⟩
  line_flags := ⟨rfl, rfl, rfl, rfl⟩
  line_idle := ⟨rfl, rfl, rfl, rfl, rfl⟩
  queue := rfl
  round := rfl
  penalties seat := by simp [State.atReset, State.reset]
  slots n := by simp [State.atReset, State.reset, Pool.reset, Slot.reset]
  voices v := by simp [State.atReset, State.reset, Pool.reset, Voice.reset]
  order := rfl
  grant := rfl
  clips := ⟨fun n => by simp [State.atReset, State.reset, ClipTable.clip, ClipTable.reset], rfl⟩
  fetch := rfl
  mixer := ⟨rfl, rfl, rfl, rfl, rfl, rfl⟩
  inputs i := by simp [State.atReset, State.reset, Input.reset]
  lamps i := by simp [State.atReset, State.reset, Lamp.reset, LampPattern.dark]
  service := ⟨rfl, rfl, rfl, rfl, rfl, rfl, rfl, rfl⟩
  errors c := by cases c <;> rfl

end atReset

theorem Flash.sound.dropWaiting {f : Flash} (h : f.sound) (clock : Nat) : (f.dropWaiting clock).sound :=
  ⟨h.memory, fun o ho => h.job o (Option.filter_eq_some_iff.1 ho).1⟩

theorem Flash.sound.throughReset {f : Flash} (h : f.sound) (clock : Nat) : (f.throughReset clock).sound := by
  refine ⟨h.memory, fun o ho => ?_⟩
  obtain ⟨o', ho', rfl⟩ := Option.map_eq_some_iff.1 ho
  exact (h.dropWaiting clock).job o' ho'

theorem programCut_length (n a : Nat) (data : List Byte) : (programCut n a data).length = data.length := by
  induction data generalizing a with
  | nil => rfl
  | cons d ds ih => simp [programCut, ih]

theorem Flash.sound.losePower {f : Flash} (h : f.sound) (clock n : Nat) : (f.losePower clock n).sound := by
  refine ⟨?_, nofun⟩
  unfold Flash.losePower
  simp only
  split
  · exact h.memory
  · next o ho =>
    have hjob := (h.dropWaiting clock).job o ho
    unfold FlashJob.cutShort
    split
    · exact h.memory.eraseCut _ _
    · next a data hj =>
      rw [hj] at hjob
      exact h.memory.program (by rw [programCut_length]; exact hjob)

theorem State.losePower_keeps (s : State) : Keeps s s.losePower :=
  State.atReset_keeps false .released .power _ s fun h => h.losePower _ _

theorem State.resetTo_keeps (s : State) (cause : ResetCause) : Keeps s (s.resetTo cause) :=
  State.atReset_keeps true .released cause _ s fun h => h.throughReset _

theorem State.powerUp_keeps (s : State) (resetLine : ResetLine) :
    Keeps s { s.resetTo .power with resetLine := resetLine } :=
  State.atReset_keeps true resetLine .power _ s fun h => h.throughReset _

theorem State.holdInReset_keeps (s : State) : Keeps s s.holdInReset where
  pending := rfl
  flash h :=
    ⟨h.memory, (h.flash.dropWaiting _).job, nofun, h.clips, nofun, h.online, h.cursors, h.unloaded⟩
  drives _ hne := absurd rfl hne
  queue := id
  counts h := ⟨h.errors, h.slots, h.line⟩
  fifos h := ⟨fun v => le_trans (Nat.le_add_right _ _) (h.1 v), nofun, h.2.2⟩
  sets := id
  order := id
  successors := id
  pendings h := ⟨h.online, h.unloaded, h.kept⟩
  round := id
  answers _ := ServicePort.reset_answersFit
  silent h := ⟨h.online, fun hw => ⟨(h.silent hw).1, (h.silent hw).2.1, (h.silent hw).2.2.1, rfl⟩⟩

end Sys2Proof.Machine
end

section
/-!
The commands one by one: each keeps every invariant (`exec_keeps`), and none stops on a sound flash (`exec_completes`).
The invariants of a step (O5 to O15), of the reset state (O3), and the queue of waiting commands (O1, O4) follow.
-/

namespace Sys2Proof.Machine

/-! ## Changes of the Voice Pool, the Mixer and the Lamp Driver -/

/-- A change of the pool and of what the Cue Matcher does not read. -/
theorem Keeps.ofPool {s : State} (hrun : s.running = true) {p : Pool} (hreach : PoolReach s.pool p)
    (hcalm : PoolCalm s.pool p) : Keeps s { s with pool := p } :=
  .ofWork (Work.ofPool s hreach).toLine (.ofPool s hcalm) hrun

theorem Keeps.ofMixer {s : State} (hrun : s.running = true) (m : Mixer) : Keeps s { s with mixer := m } :=
  .ofWork (Work.ofMixer s m).toLine (.ofSame rfl rfl) hrun

theorem Keeps.ofErrors {s : State} (hrun : s.running = true) {e : ErrorRecord} (h : s.errors.inRange → e.inRange) :
    Keeps s { s with errors := e } :=
  .ofWork (Work.ofErrors s e h).toLine (.ofSame rfl rfl) hrun

theorem Keeps.ofLamps {s : State} (hrun : s.running = true) (l : Vector Lamp 8) : Keeps s { s with lamps := l } :=
  .ofWork (Work.ofLamps s l).toLine (.ofSame rfl rfl) hrun

theorem State.running_ofPool {s : State} (hrun : s.running = true) (p : Pool) :
    State.running { s with pool := p } = true := hrun

/-- R114. -/
theorem State.startVoice_keeps {s : State} (hrun : s.running = true) {v : VoiceNo}
    (hv : s.pool.voices[v].state = .scheduled) (late : Bool) :
    Keeps s { s with pool := s.pool.setVoice v Voice.start, errors := s.errors.bumpIf late .lateStarts } := by
  have hfree : (Voice.start s.pool.voices[v]).state ≠ .free := by
    unfold Voice.start
    simp only
    split <;> nofun
  have htouch : VoiceTouch s.pool.voices[v] (Voice.start s.pool.voices[v]) :=
    ⟨rfl, ⟨fun e => absurd e hfree, fun e => by rw [hv] at e; cases e⟩, le_refl _, rfl, rfl, rfl⟩
  have hwaits : s.pool.voices[v].waits → (Voice.start s.pool.voices[v]).waits := by
    intro hw hs
    have hfading := hw hs
    rw [hv] at hfading
    cases hfading
  exact (Keeps.ofPool hrun (.setVoice s.pool v _ htouch) (.setVoice s.pool v _ hwaits)).trans
    (Keeps.ofErrors (State.running_ofPool hrun _) fun h => h.bumpIf _ _)

/-- R117, R123: a voice that is not FADING carries no successor on to its end. -/
theorem State.endVoice_keeps {s : State} (hrun : s.running = true) {v : VoiceNo}
    (hv : s.pool.voices[v].state = .draining) (code : Option Byte) (route : EndRoute) :
    Keeps s (State.raiseEndCode { s with pool := s.pool.free v } code route) := by
  have hcalm : PoolCalm s.pool (s.pool.free v) :=
    Pool.free_calm fun hf => by rw [hv] at hf; cases hf
  refine (Keeps.ofPool hrun (.step (.free s.pool v)) hcalm).trans ?_
  exact .ofWork (State.raiseEndCode_work _ _ _).toLine (State.raiseEndCode_cue _ _ _) hrun

theorem State.silence_keeps {s : State} (hrun : s.running = true) (v : VoiceNo) :
    Keeps s { s with pool := s.pool.silence s.clips v } :=
  .ofPool hrun (Pool.silence_reach _ _ _) (Pool.silence_calm _ _ _)

theorem State.mixPeriod_keeps {s : State} (hrun : s.running = true) : Keeps s s.mixPeriod := by
  have htouch (v : VoiceNo) (x : Voice) : VoiceTouch x (if s.needsFrame v then x.takeFrame else x) := by
    split
    · exact ⟨rfl, Iff.rfl, by simp [Voice.takeFrame], rfl, rfl, rfl⟩
    · exact .refl x
  have hwaits (v : VoiceNo) (x : Voice) (hx : x.waits) : (if s.needsFrame v then x.takeFrame else x).waits := by
    split
    · exact hx
    · exact hx
  refine (Keeps.ofPool hrun (.mapVoices s.pool _ htouch) (.mapVoices s.pool _ hwaits)).trans ?_
  refine (Keeps.ofErrors (State.running_ofPool hrun _) fun h =>
    (h.bumpTimes .underruns s.newUnderruns).bumpTimes .outputClamps s.clampCount).trans ?_
  refine Keeps.ofMixer ?_ _
  exact hrun

theorem State.tick_keeps {s : State} (hrun : s.running = true) : Keeps s s.tick := by
  refine (Keeps.ofPool hrun
    (.mapVoices s.pool (s.pool.tickVoice s.mixer.attack s.mixer.release) fun v x => ?_)
    (.mapVoices s.pool _ fun v x hx => hx)).trans ?_
  · exact ⟨rfl, Iff.rfl, le_refl _, rfl, rfl, rfl⟩
  · refine Keeps.ofMixer ?_ _
    exact hrun

/-- The number of the next lamp period concerns the Lamp Driver alone. -/
theorem State.lampPeriod_keeps {s : State} (hrun : s.running = true) (n : Nat) :
    Keeps s { s with nextLampPeriod := n } :=
  .ofWork
    ⟨rfl, rfl, rfl, rfl, rfl, rfl, rfl, rfl, rfl, rfl, rfl, .rfl', id, id, id, fun _ => id, id,
      fun h => ⟨h.online, h.silent⟩⟩
    (.ofSame rfl rfl) hrun

theorem State.beginLampPeriod_keeps {s : State} (hrun : s.running = true) (period : Nat) :
    Keeps s (s.beginLampPeriod period) := by
  refine (State.lampPeriod_keeps hrun (period + 1)).trans (Keeps.ofLamps ?_ _)
  exact hrun

/-! ## The cue line -/

/-- An event of the cue line. -/
theorem Keeps.ofEvent {s u : State} (hrun : s.running = true) (line : LineWork s u) (cue : CueWork s u) : Keeps s u :=
  .ofWork line cue hrun

/-- A change of the Line Port alone. -/
theorem Keeps.ofLine {s : State} (hrun : s.running = true) {l : LinePort} (h : LineWork s { s with line := l }) :
    Keeps s { s with line := l } :=
  .ofWork h (.ofSame rfl rfl) hrun

theorem LineWork.running {s u : State} (h : LineWork s u) (hrun : s.running = true) : u.running = true :=
  (State.running_eq h.powered h.resetLine).trans hrun

theorem State.endAttempt_keeps {s : State} (hrun : s.running = true) (a : Attempt) (how : AttemptEnd) :
    Keeps s (s.endAttempt a how) :=
  .ofWork (s.endAttempt_line a how) (s.endAttempt_cue a how) hrun

theorem State.transmitError_keeps {s : State} (hrun : s.running = true) (a : Attempt) {spoil : Bool}
    (ha : s.line.attempt.isSome) (hs : spoil = true → s.mayDrive = true) : Keeps s (s.transmitError a spoil) :=
  .ofWork (s.transmitError_line a spoil ha hs) (s.transmitError_cue a spoil) hrun

theorem Keeps.ofRun {s : State} (hrun : s.running = true) (n : Nat) :
    Keeps s { s with line := { s.line with recessiveRun := n } } :=
  .ofLine hrun (.ofRun s n)

/-- The ack of a receiver is released and its frame is over. -/
theorem LineWork.ofRelease (s : State) (run : Nat) :
    LineWork s { s with line := { s.line.releaseAck with followed := none, recessiveRun := run } } := by
  refine .ofCalm s _ ?_ ?_ ?_ ?_ ?_ ?_ ?_ <;> simp only [LinePort.releaseAck_spec]
  split
  · exact .inr rfl
  · exact .inl rfl

theorem State.ackMiss_line (s : State) (ha : s.line.attempt.isSome) :
    LineWork s
      { s with
        errors := s.errors.bump .ackMisses
        line := { s.line.missAck with followed := none, recessiveRun := s.line.recessiveRun + 1 } } := by
  unfold LinePort.missAck
  split
  · exact .ofSendError s ha (fun l => { l with followed := none, recessiveRun := s.line.recessiveRun + 1 })
      (fun _ => rfl) _ fun h => h.bump _
  · exact LineWork.trans
      (u := { s with line := { s.line with followed := none, recessiveRun := s.line.recessiveRun + 1 } })
      (.ofCalm s _ rfl rfl rfl rfl rfl rfl (.inl rfl)) (.ofQueue _ (q := s.queue) id id fun h => h.bump _)

theorem State.sendGood_line (s : State) (ha : s.line.attempt.isSome) :
    LineWork s
      { s with line := { s.line.sendGood with framesSent := s.line.sendGood.framesSent + 1, followed := none } } := by
  obtain ⟨st, hl, hst⟩ := s.line.sendGood_spec
  rw [hl]
  refine .ofLine s _ ?_ ?_ ?_
  · intro _ hd hne
    obtain ⟨hrun, hjoined, hmode, hshadow, hoff⟩ := hd hne
    exact ⟨hrun, hjoined, hmode, hshadow, fun e => hoff (hst.1 e)⟩
  · rintro ⟨htec, hrec⟩
    exact ⟨(Nat.sub_le _ _).trans htec, hrec⟩
  · rintro ⟨-, -, hnone⟩ _
    rw [hnone] at ha
    cases ha

theorem State.completeOwn_keeps {s : State} (hrun : s.running = true) {a : Attempt} (f : Followed)
    (ha : s.line.attempt.isSome) (hands : Bool) :
    Keeps s
      (let s1 := { s with
        line := { s.line.sendGood with framesSent := s.line.sendGood.framesSent + 1, followed := none } }
       let s2 := s1.endAttempt a .completed
       if hands then s2.dispatchFrame (frameOf a.key a.payload f.sof) else s2) := by
  have hsent := s.sendGood_line ha
  have hended := (Keeps.ofLine hrun hsent).trans (State.endAttempt_keeps (hsent.running hrun) a .completed)
  simp only
  split
  · exact hended.trans (.ofWork (State.dispatchFrame_work _ _).toLine (State.dispatchFrame_cue _ _)
      ((State.endAttempt_line _ _ _).running (hsent.running hrun)))
  · exact hended

/-! ## Every command -/

section exec

variable {s u : State} {t : Nat}

theorem execPowerOn_keeps (lineLow : Bool) (h : execPowerOn t lineLow s = .next u) : Keeps s u := by
  cases h
  refine (s.advance_keeps t).trans ?_
  split
  · exact (State.losePower_keeps _).trans (State.powerUp_keeps _ _)
  · exact State.powerUp_keeps _ _

theorem execPowerLoss_keeps (h : execPowerLoss t s = .next u) : Keeps s u := by
  cases h
  refine (s.advance_keeps t).trans ?_
  split
  · exact State.losePower_keeps _
  · exact .refl _

theorem execResetLine_keeps (h : execResetLine t s = .next u) : Keeps s u := by
  cases h
  refine (s.advance_keeps t).trans ?_
  split
  · exact State.resetTo_keeps _ _
  · exact .refl _

theorem execResetLineLow_keeps (h : execResetLineLow t s = .next u) : Keeps s u := by
  cases h
  refine (s.advance_keeps t).trans ?_
  split
  · exact State.holdInReset_keeps _
  · exact .refl _

theorem execStartRecordRead_keeps (h : execStartRecordRead t s = .next u) : Keeps s u := by
  cases h
  refine s.onEvent_keeps t _ fun w _ => ?_
  split
  · next hends => exact State.judgeStart_keeps hends
  · exact .refl w

theorem execLoadCompletion_keeps (h : execLoadCompletion t s = .next u) : Keeps s u := by
  cases h
  refine s.onEvent_keeps t _ fun w _ => ?_
  split
  · exact .refl w
  · next r hr =>
    obtain ⟨hmode, hloaded⟩ := State.loadable_spec hr
    exact State.completeLoad_keeps hmode hloaded

theorem execQuietGap_keeps (h : execQuietGap t s = .next u) : Keeps s u := by
  cases h
  exact s.onEvent_keeps t _ fun w hrun => State.takeGap_keeps hrun

theorem State.beginAttempt_keeps {w : State} (hrun : w.running = true) : Keeps w w.beginAttempt :=
  .ofWork w.beginAttempt_line w.beginAttempt_cue hrun

theorem execAttemptStart_keeps {run : Nat} (h : execAttemptStart t run s = .next u) : Keeps s u := by
  cases h
  refine s.onEvent_keeps t _ fun w hrun => ?_
  split
  · exact State.beginAttempt_keeps hrun
  · exact .refl w

theorem execSofEdge_keeps {run : Nat} (h : execSofEdge t run s = .next u) : Keeps s u := by
  cases h
  refine s.onEvent_keeps t _ fun w hrun => ?_
  split
  · split
    · exact State.beginAttempt_keeps hrun
    · exact .ofWork w.followEdge_line w.followEdge_cue hrun
  · exact .refl w

theorem execCharacterReceived_keeps {c : LineChar} (h : execCharacterReceived t c s = .next u) : Keeps s u := by
  cases h
  exact s.onEvent_keeps t _ fun w hrun => .ofWork (w.takeChar_line c) (w.takeChar_cue c) hrun

theorem execSpoilEnd_keeps (h : execSpoilEnd t s = .next u) : Keeps s u := by
  cases h
  refine s.onEvent_keeps t _ fun w hrun => ?_
  split
  · exact .ofLine hrun (.ofCalm w _ rfl rfl rfl rfl rfl rfl (.inr rfl))
  · exact .refl w

theorem execSpoilSeen_keeps (h : execSpoilSeen t s = .next u) : Keeps s u := by
  cases h
  refine s.onEvent_keeps t _ fun w hrun => ?_
  split
  · exact .ofWork w.seeSpoil_line w.seeSpoil_cue hrun
  · exact .refl w

theorem execArbitrationLost_keeps {bit : Fin 16} (h : execArbitrationLost t bit s = .next u) : Keeps s u := by
  cases h
  refine s.onEvent_keeps t _ fun w hrun => ?_
  split
  · split
    · refine (Keeps.ofRun hrun 0).trans (State.endAttempt_keeps ?_ _ _)
      exact hrun
    · exact .refl w
  · exact .refl w

theorem execBitError_keeps {run : Nat} (h : execBitError t run s = .next u) : Keeps s u := by
  cases h
  refine s.onEvent_keeps t _ fun w hrun => ?_
  split
  · next a f ha hf =>
    split
    · exact .refl w
    · refine (Keeps.ofRun hrun run).trans (State.transmitError_keeps ?_ a ?_ ?_)
      · exact hrun
      · exact Option.isSome_iff_exists.2 ⟨a, ha⟩
      · exact fun hspoil => State.maySpoil_spec hspoil
  · exact .refl w

theorem execAckMiss_keeps (h : execAckMiss t s = .next u) : Keeps s u := by
  cases h
  refine s.onEvent_keeps t _ fun w hrun => ?_
  split
  · exact .refl w
  · next a f hwindow =>
    obtain ⟨ha, -, -⟩ := State.windowAttempt_spec hwindow
    have hmiss := w.ackMiss_line (Option.isSome_iff_exists.2 ⟨a, ha⟩)
    exact Keeps.trans (.ofWork hmiss (.ofSame rfl rfl) hrun) (State.endAttempt_keeps (hmiss.running hrun) a .failed)

theorem execOwnFrameSpoiled_keeps (h : execOwnFrameSpoiled t s = .next u) : Keeps s u := by
  cases h
  refine s.onEvent_keeps t _ fun w hrun => ?_
  split
  · exact .refl w
  · next a f hwindow =>
    obtain ⟨ha, -, -⟩ := State.windowAttempt_spec hwindow
    refine (Keeps.ofRun hrun 0).trans (State.transmitError_keeps ?_ a ?_ nofun)
    · exact hrun
    · exact Option.isSome_iff_exists.2 ⟨a, ha⟩

theorem execOwnFrameComplete_keeps (h : execOwnFrameComplete t s = .next u) : Keeps s u := by
  cases h
  refine s.onEvent_keeps t _ fun w hrun => ?_
  split
  · exact .refl w
  · next a f hwindow =>
    obtain ⟨ha, -, -⟩ := State.windowAttempt_spec hwindow
    exact State.completeOwn_keeps hrun f (Option.isSome_iff_exists.2 ⟨a, ha⟩) w.handsOn

theorem execFrameComplete_keeps (h : execFrameComplete t s = .next u) : Keeps s u := by
  cases h
  refine s.onEvent_keeps t _ fun w hrun => ?_
  split
  · split
    · have hrelease := LineWork.ofRelease w w.line.releaseAck.recessiveRun
      exact Keeps.trans (.ofLine hrun hrelease)
        (.ofWork (State.completeFrame_line _ _) (State.completeFrame_cue _ _) (hrelease.running hrun))
    · exact .refl w
  · exact .refl w

theorem execFrameSpoiledInWindow_keeps (h : execFrameSpoiledInWindow t s = .next u) : Keeps s u := by
  cases h
  refine s.onEvent_keeps t _ fun w hrun => ?_
  split
  · split
    · exact .ofLine hrun (.ofRelease w 0)
    · exact .refl w
  · exact .refl w

theorem execStaleDrop_keeps {key : Key} (h : execStaleDrop t key s = .next u) : Keeps s u := by
  cases h
  refine s.onEvent_keeps t _ fun w hrun => ?_
  split
  · refine Keeps.trans (.ofWork (Work.ofSublist w (dropKey_sublist key w.queue)).toLine (.ofSame rfl rfl) hrun)
      (State.count_keeps ?_ .staleDrops)
    exact hrun
  · exact .refl w

theorem execWindowExpiry_keeps (h : execWindowExpiry t s = .next u) : Keeps s u := by
  cases h
  refine s.onEvent_keeps t _ fun w hrun => ?_
  split
  · exact .refl w
  · split
    · next hc =>
      exact .ofWork (w.applyRound_work _ _ fun hr => Round.expire_consistent hr hc.1).toLine
        (w.applyRound_cue _ _) hrun
    · exact .refl w

theorem execPenaltyEnd_keeps {seat : Seat} (h : execPenaltyEnd t seat s = .next u) : Keeps s u := by
  cases h
  refine s.onEvent_keeps t _ fun w hrun => ?_
  split
  · exact .refl w
  · split
    · exact .ofWork ((Work.ofPenalties w _).trans (State.refreshSeatLamps_work _ _)).toLine (.ofSame rfl rfl) hrun
    · exact .refl w

theorem execVoiceStart_keeps {v : VoiceNo} (h : execVoiceStart t v s = .next u) : Keeps s u := by
  cases h
  refine s.onEvent_keeps t _ fun w hrun => ?_
  simp only
  split
  · next hc => exact State.startVoice_keeps hrun hc.2.1 _
  · exact .refl w

theorem execSamplePeriod_keeps (h : execSamplePeriod t s = .next u) : Keeps s u := by
  cases h
  refine s.onEvent_keeps t _ fun w hrun => ?_
  split
  · exact State.mixPeriod_keeps hrun
  · exact .refl w

theorem execVoiceNaturalEnd_keeps {v : VoiceNo} (h : execVoiceNaturalEnd t v s = .next u) : Keeps s u := by
  cases h
  refine s.onEvent_keeps t _ fun w hrun => ?_
  simp only
  split
  · next hc => exact State.endVoice_keeps hrun hc.2.1 _ _
  · exact .refl w

theorem execFadingRunDry_keeps {v : VoiceNo} (h : execFadingRunDry t v s = .next u) : Keeps s u := by
  cases h
  refine s.onEvent_keeps t _ fun w hrun => ?_
  split
  · exact State.silence_keeps hrun v
  · exact .refl w

theorem execSilenceReached_keeps {v : VoiceNo} (h : execSilenceReached t v s = .next u) : Keeps s u := by
  cases h
  refine s.onEvent_keeps t _ fun w hrun => ?_
  split
  · exact State.silence_keeps hrun v
  · exact .refl w

theorem execEnvelopeTick_keeps (h : execEnvelopeTick t s = .next u) : Keeps s u := by
  cases h
  refine s.onEvent_keeps t _ fun w hrun => ?_
  split
  · exact State.tick_keeps hrun
  · exact .refl w

theorem execFetchReadIssue_keeps (h : execFetchReadIssue t s = .next u) : Keeps s u := by
  cases h
  refine s.onEvent_keeps t _ fun w _ => ?_
  split
  · next hc => exact State.issueNext_keeps (Option.isNone_iff_eq_none.1 hc.2.1) hc.1
  · exact .refl w

theorem State.readEnded_spec {w : State} {r : FetchRead} (h : w.readEnded = some r) : w.fetch = some r := by
  unfold State.readEnded at h
  split at h
  · cases h
  · next r' hr =>
    split at h
    · cases h; exact hr
    · cases h

theorem execFetchReadComplete_keeps (h : execFetchReadComplete t s = .next u) : Keeps s u := by
  unfold execFetchReadComplete at h
  split at h
  · cases h; exact s.advance_keeps t
  · next r hr =>
    split at h
    · cases h
    · cases h
      exact (s.advance_keeps t).trans (State.finishRead_keeps (State.readEnded_spec hr))

theorem execInputScan_keeps {closed : Byte} {order : List (Fin 8)} (h : execInputScan t closed order s = .next u) :
    Keeps s u := by
  cases h
  refine s.onEvent_keeps t _ fun w hrun => ?_
  split
  · exact .ofWork (w.scan_work _ _).toLine (w.scan_cue _ _) hrun
  · exact .refl w

theorem execLampPeriod_keeps (h : execLampPeriod t s = .next u) : Keeps s u := by
  cases h
  refine s.onEvent_keeps t _ fun w hrun => ?_
  split
  · exact State.beginLampPeriod_keeps hrun _
  · exact .refl w

theorem execCueLampDurationEnd_keeps {lamp : Fin 8} (h : execCueLampDurationEnd t lamp s = .next u) : Keeps s u := by
  cases h
  refine s.onEvent_keeps t _ fun w hrun => ?_
  split
  · exact .ofLamps hrun _
  · exact .refl w

theorem execServiceCharacter_keeps {e : PortEvent} (h : execServiceCharacter t e s = .next u) : Keeps s u := by
  cases h
  exact s.onEvent_keeps t _ fun w hrun => State.takePortEvent_keeps hrun e

theorem execGapTimeout_keeps (h : execGapTimeout t s = .next u) : Keeps s u := by
  cases h
  refine s.onEvent_keeps t _ fun w _ => ?_
  split
  · exact w.assemble_keeps .hunt
  · exact .refl w

/-- The commands of a whole packet. -/
theorem State.onPacket_keeps (s : State) (t : Nat) (cmd : Byte) (payload : List Byte) :
    Keeps s (s.onEvent t fun w => w.wholePacket cmd payload) :=
  s.onEvent_keeps t _ fun _ hrun => State.wholePacket_keeps hrun cmd payload

theorem execEraseDone_keeps (h : execEraseDone t s = .next u) : Keeps s u := by
  unfold execEraseDone at h
  split at h
  · cases h
    refine (s.advance_keeps t).trans (State.finishJob_keeps _ (by decide) (fun hs => ?_) _)
    exact hs.memory.erase _
  · cases h; exact s.advance_keeps t
  · cases h; exact s.advance_keeps t

theorem execProgramDone_keeps (h : execProgramDone t s = .next u) : Keeps s u := by
  unfold execProgramDone at h
  split at h
  · next hended =>
    split at h
    · cases h
    · cases h
      refine (s.advance_keeps t).trans (State.finishJob_keeps _ (by decide) (fun hs => ?_) _)
      exact hs.memory.program (hs.inFlash hended)
  · cases h; exact s.advance_keeps t
  · cases h; exact s.advance_keeps t

theorem execReadTransferEnd_keeps (h : execReadTransferEnd t s = .next u) : Keeps s u := by
  unfold execReadTransferEnd at h
  split at h
  · cases h; exact s.advance_keeps t
  · next hended =>
    split at h
    · cases h
    · cases h
      exact (s.advance_keeps t).trans (State.finishTransfer_keeps hended)

theorem execResponseSent_keeps (h : execResponseSent t s = .next u) : Keeps s u := by
  cases h
  refine s.onEvent_keeps t _ fun w _ => ?_
  split
  · next hanswers _ =>
    split
    · split
      · exact w.resetTo_keeps _
      · exact State.dropResponse_keeps hanswers
    · exact .refl w
  · exact .refl w

end exec

/-- Every command keeps every invariant. -/
theorem exec_keeps {c : Instr} {s u : State} (h : exec c s = .next u) : Keeps s u := by
  cases c with
  | powerOn t lineLow => exact execPowerOn_keeps lineLow h
  | resetLine t => exact execResetLine_keeps h
  | startRecordRead t => exact execStartRecordRead_keeps h
  | loadCompletion t => exact execLoadCompletion_keeps h
  | quietGap t => exact execQuietGap_keeps h
  | attemptStart t run => exact execAttemptStart_keeps h
  | sofEdge t run => exact execSofEdge_keeps h
  | characterReceived t c => exact execCharacterReceived_keeps h
  | spoilEnd t => exact execSpoilEnd_keeps h
  | spoilSeen t => exact execSpoilSeen_keeps h
  | arbitrationLost t bit => exact execArbitrationLost_keeps h
  | bitError t run => exact execBitError_keeps h
  | ackMiss t => exact execAckMiss_keeps h
  | ownFrameSpoiled t => exact execOwnFrameSpoiled_keeps h
  | ownFrameComplete t => exact execOwnFrameComplete_keeps h
  | frameComplete t => exact execFrameComplete_keeps h
  | staleDrop t key => exact execStaleDrop_keeps h
  | windowExpiry t => exact execWindowExpiry_keeps h
  | penaltyEnd t seat => exact execPenaltyEnd_keeps h
  | voiceStart t v => exact execVoiceStart_keeps h
  | samplePeriod t => exact execSamplePeriod_keeps h
  | voiceNaturalEnd t v => exact execVoiceNaturalEnd_keeps h
  | fadingRunDry t v => exact execFadingRunDry_keeps h
  | silenceReached t v => exact execSilenceReached_keeps h
  | envelopeTick t => exact execEnvelopeTick_keeps h
  | fetchReadIssue t => exact execFetchReadIssue_keeps h
  | fetchReadComplete t => exact execFetchReadComplete_keeps h
  | inputScan t closed order => exact execInputScan_keeps h
  | lampPeriod t => exact execLampPeriod_keeps h
  | cueLampDurationEnd t lamp => exact execCueLampDurationEnd_keeps h
  | serviceCharacter t e => exact execServiceCharacter_keeps h
  | gapTimeout t => exact execGapTimeout_keeps h
  | eraseDone t => exact execEraseDone_keeps h
  | programDone t => exact execProgramDone_keeps h
  | readTransferEnd t => exact execReadTransferEnd_keeps h
  | responseSent t => exact execResponseSent_keeps h
  | frameSpoiledInWindow t => exact execFrameSpoiledInWindow_keeps h
  | resetLineLow t => exact execResetLineLow_keeps h
  | powerLoss t => exact execPowerLoss_keeps h
  | status t | enter t | erase t addr | program t addr data | read t addr count | errors t arg | restart t =>
    cases h; exact s.onPacket_keeps t _ _

/-! ## Commands that read the flash complete (R127, R129, R134, R186) -/

section completes

variable {s : State}

theorem State.flashSound.advance (h : s.flashSound) (t : Nat) : (s.advance t).flashSound :=
  (s.advance_keeps t).flash h

theorem execFetchReadComplete_completes (h : s.flashSound) (t : Nat) : Completes (execFetchReadComplete t s) := by
  unfold execFetchReadComplete
  split
  · exact ⟨_, rfl⟩
  · next r hr =>
    have hinside : ¬ flashSize < r.address + r.bytes :=
      Nat.not_lt.2 ((h.advance t).fetch r (State.readEnded_spec hr))
    rw [if_neg fun hc => hinside hc.2]
    exact ⟨_, rfl⟩

theorem execProgramDone_completes (h : s.flashSound) (t : Nat) : Completes (execProgramDone t s) := by
  unfold execProgramDone
  split
  · next a data hended =>
    have hinside : a + data.length ≤ flashSize := (h.advance t).flash.inFlash hended
    rw [if_neg (Nat.not_lt.2 hinside)]
    exact ⟨_, rfl⟩
  · exact ⟨_, rfl⟩
  · exact ⟨_, rfl⟩

theorem State.endedTransfer_mem {r : ServiceRead} (h : s.endedTransfer = some r) : r ∈ s.service.reads := by
  unfold State.endedTransfer at h
  split at h
  · cases h
  · next r' rest hreads =>
    split at h
    · cases h; rw [hreads]; exact List.mem_cons_self
    · cases h

theorem execReadTransferEnd_completes (h : s.flashSound) (t : Nat) : Completes (execReadTransferEnd t s) := by
  unfold execReadTransferEnd
  split
  · exact ⟨_, rfl⟩
  · next r hended =>
    have hinside : r.address + r.count ≤ flashSize := (h.advance t).reads r (State.endedTransfer_mem hended)
    rw [if_neg (Nat.not_lt.2 hinside)]
    exact ⟨_, rfl⟩

theorem execEraseDone_completes (t : Nat) : Completes (execEraseDone t s) := by
  unfold execEraseDone
  split
  · exact ⟨_, rfl⟩
  · exact ⟨_, rfl⟩
  · exact ⟨_, rfl⟩

/-- No command stops a station whose flash is sound: three have a fault, and their accesses are in range. -/
theorem exec_completes (h : s.flashSound) (c : Instr) : Completes (exec c s) := by
  cases c with
  | fetchReadComplete t => exact execFetchReadComplete_completes h t
  | programDone t => exact execProgramDone_completes h t
  | readTransferEnd t => exact execReadTransferEnd_completes h t
  | eraseDone t => exact execEraseDone_completes t
  | _ => exact ⟨_, rfl⟩

end completes

/-! ## The step -/

section step

variable {s u : State}

theorem State.flashSound.setPending (h : s.flashSound) (q : List Instr) :
    State.flashSound { s with pending := q } :=
  ⟨h.memory, h.job, h.reads, h.clips, h.fetch, h.online, h.cursors, h.unloaded⟩

theorem State.countsInRange.setPending (h : s.countsInRange) (q : List Instr) :
    State.countsInRange { s with pending := q } :=
  ⟨h.errors, h.slots, h.line⟩

theorem State.pendingsKept.setPending (h : s.pendingsKept) (q : List Instr) :
    State.pendingsKept { s with pending := q } :=
  ⟨h.online, h.unloaded, h.kept⟩

theorem State.shadowSilent.setPending (h : s.shadowSilent) (q : List Instr) :
    State.shadowSilent { s with pending := q } :=
  ⟨h.online, h.silent⟩

/-- A step takes its command from the waiting ones and keeps every invariant. -/
theorem step_keeps (h : step s = .next u) : ∃ q, Keeps { s with pending := q } u := by
  unfold step at h
  split at h
  · cases h; exact ⟨s.pending, .refl s⟩
  · next c rest hp => exact ⟨rest, exec_keeps h⟩

theorem step_completes (h : s.flashSound) : Completes (step s) := by
  unfold step
  split
  · exact ⟨s, rfl⟩
  · next c rest _ => exact exec_completes (h.setPending rest) c

end step

/-- Settles O1. -/
theorem stepTakesFront : Obligations.StepTakesFront :=
  ⟨fun _ _ _ => rfl, fun s h => by simp [step, h]⟩

/-- Settles O4. -/
theorem commandsKeepPending : Obligations.CommandsKeepPending :=
  fun _ _ _ h => (exec_keeps h).pending

/-- Settles O5: the three commands that could fault find their accesses in range, and every command keeps the flash
sound. -/
theorem soundStationNeverStops : Obligations.SoundStationNeverStops := by
  intro s hs
  obtain ⟨u, hu⟩ := step_completes hs
  obtain ⟨q, hkeeps⟩ := step_keeps hu
  exact ⟨u, hu, hkeeps.flash (hs.setPending q)⟩

/-- Settles O6. -/
theorem drivesOnlyWhenAllowed : Obligations.DrivesOnlyWhenAllowed := by
  intro s u hs h
  obtain ⟨q, hkeeps⟩ := step_keeps h
  exact hkeeps.drives hs

/-- Settles O7. -/
theorem queueShapeKept : Obligations.QueueShapeKept := by
  intro s u hs h
  obtain ⟨q, hkeeps⟩ := step_keeps h
  exact hkeeps.queue hs

/-- Settles O8. -/
theorem countsKept : Obligations.CountsKept := by
  intro s u hs h
  obtain ⟨q, hkeeps⟩ := step_keeps h
  exact hkeeps.counts (hs.setPending q)

/-- Settles O9. -/
theorem fifosKept : Obligations.FifosKept := by
  intro s u hs h
  obtain ⟨q, hkeeps⟩ := step_keeps h
  exact hkeeps.fifos hs

/-- Settles O10. -/
theorem voiceSetsKept : Obligations.VoiceSetsKept := by
  intro s u hsets horder h
  obtain ⟨q, hkeeps⟩ := step_keeps h
  exact ⟨hkeeps.sets hsets, hkeeps.order horder⟩

/-- Settles O11. -/
theorem successorsKept : Obligations.SuccessorsKept := by
  intro s u hs h
  obtain ⟨q, hkeeps⟩ := step_keeps h
  exact hkeeps.successors hs

/-- Settles O12. -/
theorem pendingsKept : Obligations.PendingsKept := by
  intro s u hs h
  obtain ⟨q, hkeeps⟩ := step_keeps h
  exact hkeeps.pendings (hs.setPending q)

/-- Settles O13. -/
theorem roundKept : Obligations.RoundKept := by
  intro s u hs h
  obtain ⟨q, hkeeps⟩ := step_keeps h
  exact hkeeps.round hs

/-- Settles O14. -/
theorem answersKept : Obligations.AnswersKept := by
  intro s u hs h
  obtain ⟨q, hkeeps⟩ := step_keeps h
  exact hkeeps.answers hs

/-- Settles O15. -/
theorem shadowKept : Obligations.ShadowKept := by
  intro s u hs h
  obtain ⟨q, hkeeps⟩ := step_keeps h
  exact hkeeps.silent (hs.setPending q)

/-! ## Power, reset, and the reset line (R28, R141, R175) -/

/-- Settles O2. -/
theorem powerOnValues : Obligations.PowerOnValues :=
  ⟨State.atReset_leaves true .released .power Flash.erased 0 [], rfl, rfl, rfl⟩

/-- Settles O3: the reset state is a station at its reset values with an erased flash. -/
theorem resetHoldsInvariants : Obligations.ResetHoldsInvariants :=
  have hrest := State.atReset_resting true .released .power Flash.erased 0 []
  have hflash : Flash.erased.sound := ⟨Memory.wf_nil, nofun⟩
  ⟨State.atReset_flashSound true .released .power 0 [] hflash, hrest.drives, hrest.queue, hrest.counts, hrest.fifos,
    hrest.sets, hrest.order, hrest.successors, hrest.pendings, hrest.round, hrest.answers, hrest.silent⟩

/-- R141: an operation that has begun runs on through a reset at instant `t`. -/
theorem Flash.throughReset_begun {f : Flash} {o : FlashOp} {t : Nat} (ho : f.op = some o)
    (hdue : o.dueAt ≤ t + o.job.clocks) : (f.throughReset t).op = some { o with dueAt := o.dueAt - t } := by
  have hbegun : o.begun t = true := decide_eq_true hdue
  simp [Flash.throughReset, Flash.dropWaiting, ho, Option.filter, hbegun]

/-- Settles O16. -/
theorem resetsLeaveResetValues : Obligations.ResetsLeaveResetValues := by
  refine ⟨fun s t low => ?_, fun s t hpowered htime => ?_⟩
  · refine ⟨_, rfl, State.atReset_leaves true _ .power _ _ _, rfl, rfl, ?_, fun hoff => ?_⟩
    · show (if s.powered then (s.advance t).losePower else s.advance t).pending = s.pending
      split <;> rfl
    · rw [hoff]
      rfl
  · have hexec : exec (.resetLine t) s = .next (State.resetTo { s with clock := t } s.resetLine.cause) := by
      show Host.Outcome.next (if s.powered then (s.advance t).resetTo s.resetLine.cause else s.advance t) = _
      rw [if_pos hpowered, State.advance_of_le htime]
    have hcause : s.resetLine.cause = if s.resetLine = .lowFromPowerUp then .power else .line := by
      cases s.resetLine <;> rfl
    refine ⟨_, hexec, ?_, rfl, rfl, rfl, rfl, fun o ho hdue => Flash.throughReset_begun ho hdue⟩
    rw [← hcause]
    exact State.atReset_leaves true .released _ _ _ _

/-- Settles O17. -/
theorem resetLineLowStops : Obligations.ResetLineLowStops := by
  intro s t hpowered htime
  show Host.Outcome.next (if s.powered then (s.advance t).holdInReset else s.advance t) = _
  rw [if_pos hpowered, State.advance_of_le htime]
  rfl

end Sys2Proof.Machine
end

section
/-!
The flash and the start: what a loss of power leaves of an operation (O18), the end of an operation or a READ transfer
(O50), the judgment of the start record (O19) and load completion (O20).
-/

namespace Sys2Proof.Machine

/-! ## A loss of power (R141) -/

theorem State.powered_powerLoss {s : State} {t : Nat} (hpowered : s.powered = true) (htime : s.clock ≤ t) :
    exec (.powerLoss t) s = .next (State.losePower { s with clock := t }) := by
  show Host.Outcome.next (if s.powered then (s.advance t).losePower else s.advance t) = _
  rw [if_pos hpowered, State.advance_of_le htime]

theorem Flash.losePower_idle {f : Flash} (h : f.op = none) (t n : Nat) : (f.losePower t n).mem = f.mem := by
  simp [Flash.losePower, Flash.dropWaiting, h]

/-- An operation that has begun is cut short (R141, log entry 28). -/
theorem Flash.losePower_begun {f : Flash} {o : FlashOp} {t : Nat} (h : f.op = some o)
    (hdue : o.dueAt ≤ t + o.job.clocks)
    (n : Nat) : (f.losePower t n).mem = o.job.cutShort f.mem n := by
  have hbegun : o.begun t = true := decide_eq_true hdue
  simp [Flash.losePower, Flash.dropWaiting, h, Option.filter, hbegun]

theorem programCut_get (n a : Nat) (data : List Byte) (i : Nat) :
    (programCut n a data)[i]? = data[i]?.map fun d => d ||| ~~~Config.programReached n (a + i) := by
  induction data generalizing a i with
  | nil => rfl
  | cons d ds ih =>
    cases i with
    | zero => rfl
    | succ i =>
      simp only [programCut, List.getElem?_cons_succ, ih]
      rw [Nat.add_right_comm, Nat.add_assoc]

/-- R141: what a PROGRAM cut short leaves in a byte it addresses. -/
theorem Memory.read_programCut {m : List Host.Cell} (h : Memory.wf m) (a n i : Nat) {data : List Byte} {d : Byte}
    (hi : data[i]? = some d) :
    Memory.read (Memory.program m a (programCut n a data)) (a + i) =
      Memory.read m (a + i) &&& (d ||| ~~~Config.programReached n (a + i)) := by
  obtain ⟨hlt, -⟩ := List.getElem?_eq_some_iff.1 hi
  rw [Memory.read_program h.1, programCut_length, if_pos (by omega), Nat.add_sub_cancel_left, programCut_get, hi]
  rfl

theorem inSector_iff (a k : Nat) : inSector a k = true ↔ a ≤ k ∧ k < a + sectorSize := by
  simp [inSector]

/-- Settles O18. -/
theorem powerLossCutsFlash : Obligations.PowerLossCutsFlash := by
  intro s t hpowered htime hwf
  refine ⟨_, State.powered_powerLoss hpowered htime, rfl, rfl, rfl, rfl, ?_, ?_, ?_⟩
  case refine_1 => exact fun hop => Flash.losePower_idle hop _ _
  case refine_2 =>
    intro a data due hop hdue hinside
    have hmem : (State.losePower { s with clock := t }).flash.mem =
        Memory.program s.flash.mem a (programCut s.freeCount a data) := Flash.losePower_begun hop hdue _
    rw [hmem]
    refine ⟨fun k hk => ?_, fun i d bit hi => ?_⟩
    · rw [Memory.read_program hwf.1, programCut_length, if_neg (by omega)]
    · rw [Memory.read_programCut hwf a _ i hi, BitVec.getLsbD_and, BitVec.getLsbD_or]
      cases d.getLsbD bit with
      | true => exact .inl (by simp)
      | false =>
        cases (~~~Config.programReached s.freeCount (a + i)).getLsbD bit with
        | true => exact .inl (by simp)
        | false => exact .inr ⟨rfl, by simp⟩
  case refine_3 =>
    intro a due hop hdue
    have hmem : (State.losePower { s with clock := t }).flash.mem = Memory.eraseCut s.flash.mem a s.freeCount :=
      Flash.losePower_begun hop hdue _
    rw [hmem]
    refine ⟨fun k hk => ?_, fun k bit hlo hhi => ?_⟩
    · have houtside : ¬ inSector a k = true := fun h => by have := (inSector_iff a k).1 h; omega
      rw [Memory.read_eraseCut hwf.1, if_neg houtside]
    · rw [Memory.read_eraseCut hwf.1, if_pos ((inSector_iff a k).2 ⟨hlo, hhi⟩), BitVec.getLsbD_or]
      cases (Config.eraseReached s.freeCount k).getLsbD bit with
      | true => exact .inr (by simp)
      | false => exact .inl (by simp)

/-! ## Operations and READ transfers end (R138 to R140, R190) -/

/-- R187: a response joins the answers, and goes out from now on if none was before it. -/
theorem State.respond_eq (s : State) (cmd : Byte) (status : PacketStatus) (payload : List Byte) :
    s.respond cmd status payload =
      { s with
        service :=
          s.service.withAnswer s.clock { command := cmd ||| 0x80, status := status, payload := payload } } := by
  unfold State.respond ServicePort.withAnswer
  cases s.service.sendingFrom <;> rfl

/-- What the end of a flash operation makes of the port (R190). -/
theorem State.finishJob_eq (s : State) (mem : List Host.Cell) (kind : InProgress) (cmd : Byte) :
    s.finishJob mem kind cmd =
      { s with
        flash := { mem := mem, op := none, freeSince := s.clock }
        service :=
          if s.service.inProgress = kind then
            { s.service.withAnswer s.clock { command := cmd ||| 0x80, status := .ok, payload := [] } with
              inProgress := .none }
          else s.service } := by
  unfold State.finishJob
  simp only [State.respond_eq]
  split
  · rfl
  · rfl

theorem State.opEnded_eq {s : State} {job : FlashJob} {due t : Nat}
    (ho : s.flash.op = some { job := job, dueAt := due })
    (hpowered : s.powered = true) (hdue : due ≤ t) : State.opEnded { s with clock := t } = some job := by
  simp only [State.opEnded, ho, hpowered, hdue, and_self, if_true]

/-- The port after the end of an operation of this kind. -/
theorem finished_service {p service : ServicePort} {kind : InProgress} {after : ServicePort}
    (h : service = if p.inProgress = kind then after else p) :
    (p.inProgress ≠ kind → service = p) ∧ (p.inProgress = kind → service = after) := by
  subst h
  exact ⟨fun hne => if_neg hne, fun he => if_pos he⟩

/-- Settles O50. -/
theorem flashOperationsEnd : Obligations.FlashOperationsEnd := by
  intro s t htime hpowered hwf
  refine ⟨?erase, ?program, ?read⟩
  case erase =>
    intro a due hop hdue
    have hended : State.opEnded { s with clock := t } = some (.erase a) := State.opEnded_eq hop hpowered hdue
    refine ⟨Memory.erase s.flash.mem a, _, ?_, fun k => ?_, finished_service rfl⟩
    · simp only [exec, execEraseDone, State.advance_of_le htime, hended, State.finishJob_eq]
      rfl
    · rw [Memory.read_erase]
      exact if_congr (inSector_iff a k) rfl rfl
  case program =>
    intro a data due hop hdue hinside
    have hended : State.opEnded { s with clock := t } = some (.program a data) := State.opEnded_eq hop hpowered hdue
    refine ⟨Memory.program s.flash.mem a data, _, ?_, fun k hk => ?_, fun i d hi => ?_, finished_service rfl⟩
    · have hfits : ¬ flashSize < a + data.length := Nat.not_lt.2 hinside
      simp only [exec, execProgramDone, State.advance_of_le htime, hended, hfits, if_false, State.finishJob_eq]
      rfl
    · rw [Memory.read_program hwf.1, if_neg (by omega)]
    · obtain ⟨hlt, -⟩ := List.getElem?_eq_some_iff.1 hi
      rw [Memory.read_program hwf.1, if_pos (by omega), Nat.add_sub_cancel_left, hi]
      rfl
  case read =>
    intro r rest hline hreads hdue hinside
    have hended : State.endedTransfer { s with clock := t } = some r := by
      have hrunning : State.running { s with clock := t } = true := by simp [State.running, hpowered, hline]
      simp only [State.endedTransfer, hreads, hrunning, hdue, and_self, if_true]
    refine ⟨Memory.readRun s.flash.mem r.address r.count, ?_, Memory.readRun_length .., fun i hi =>
      Memory.readRun_get hwf _ hi⟩
    have hfits : ¬ flashSize < r.address + r.count := Nat.not_lt.2 hinside
    simp only [exec, execReadTransferEnd, State.advance_of_le htime, hended, hfits, if_false, State.finishTransfer,
      State.respond_eq, hreads]
    rfl

/-! ## The start record (R176 to R179) -/

/-- The record's read has ended: the Start Loader takes the verdict (R177, R178, R180). -/
theorem State.liveAt.startRecordRead {s : State} {t : Nat} (hlive : s.liveAt t) (hmode : s.loader.mode = .loading)
    (hloaded : s.loader.loaded = false) (hnone : s.loader.record = none) (hfree : s.flash.op = none)
    (htime : s.flash.freeSince + 3096 ≤ t) :
    exec (.startRecordRead t) s = .next (State.judgeStart { s with clock := t }) := by
  have hends : State.recordReadEnds { s with clock := t } = true := by
    simp [State.recordReadEnds, hmode, hloaded, hnone, Flash.busy, hfree, readClocks, recordSize, htime]
  show Host.Outcome.next (s.onEvent t _) = _
  rw [hlive.onEvent, if_pos hends]

theorem State.judgeStart_fault {s : State} {f : StartFault}
    (h : judgeRecord (Memory.readRun s.flash.mem 0 recordSize) = .fault f) :
    s.judgeStart = { s with loader := { s.loader with mode := .service, fault := f } } := by
  simp only [State.judgeStart, h]

theorem State.judgeStart_passed {s : State} {r : StartRecord}
    (h : judgeRecord (Memory.readRun s.flash.mem 0 recordSize) = .passed r) :
    s.judgeStart = { s with loader := { s.loader with record := some { record := r, readAt := s.clock } } } := by
  simp only [State.judgeStart, h]

/-- Settles O19. -/
theorem startRecordJudged : Obligations.StartRecordJudged := by
  intro s t hlive hmode hloaded hnone hfree htime b sum hb hsum
  have hbytes : byteAt (Memory.readRun s.flash.mem 0 recordSize) = b := funext fun i => (hb i).symm
  obtain ⟨hmagic, hstages⟩ := judgeRecord_cases (Memory.readRun_length s.flash.mem 0 recordSize) hbytes hsum
  have hread := hlive.startRecordRead hmode hloaded hnone hfree htime
  have hfault {f : StartFault} (h : judgeRecord (Memory.readRun s.flash.mem 0 recordSize) = .fault f) :
      exec (.startRecordRead t) s = .next
        { s with clock := t, loader := { s.loader with mode := .service, fault := f } } :=
    hread.trans (congrArg _ (State.judgeStart_fault h))
  refine ⟨fun hwf i hi => ?_, fun h => hfault (hmagic h), fun h0 h2 h => hfault ((hstages h0 h2).1 h),
    fun h0 h2 h hr => hfault ((hstages h0 h2).2.1 h hr), fun r h0 h2 h hr => ?_⟩
  · rw [hb, Memory.readRun_get hwf 0 hi, Nat.zero_add]
    rfl
  · exact hread.trans (congrArg _ (State.judgeStart_passed ((hstages h0 h2).2.2 r h hr)))

/-! ## Load completion (R129, R181) -/

theorem State.liveAt.loadCompletion {s : State} {t : Nat} {h : HeldRecord} (hlive : s.liveAt t)
    (hrecord : s.loader.record = some h) (hmode : s.loader.mode = .loading) (hloaded : s.loader.loaded = false)
    (hfree : s.flash.op = none) (htime : h.readAt + 8216 ≤ t) :
    exec (.loadCompletion t) s = .next (State.completeLoad { s with clock := t } h.record) := by
  have hloadable : State.loadable { s with clock := t } = some h.record := by
    simp [State.loadable, hrecord, hmode, hloaded, Flash.busy, hfree, readClocks, directorySize, htime]
  show Host.Outcome.next (s.onEvent t _) = _
  rw [hlive.onEvent]
  simp only [hloadable]

theorem EntryVerdict.clip_of_taken {e : EntryVerdict} {c : Clip} (h : e = .taken c) : e.clip = some c := by
  rw [h]; rfl

/-- R129: clip `n` of the directory is what its own 16 bytes give. -/
theorem directory_clip {m : List Host.Cell} (hwf : Memory.wf m) {entry : Nat → Nat → Byte}
    (hentry : ∀ n i, entry n i = Memory.read m (0x1000 + 16 * n + i)) {n : Nat} (hn : n < 256) {e : EntryVerdict}
    (he : e = judgeEntry ((chunks 16 256 (Memory.readRun m directoryStart directorySize))[n]?.getD [])) :
    (EntryBlank (entry n) → e = .blank) ∧ (EntryRefused (entry n) → e = .refused) ∧
      (¬ EntryBlank (entry n) → ¬ EntryRefused (entry n) → ∃ c, e = .taken c ∧ EntryHolds (entry n) c) := by
  obtain ⟨hlength, hbytes⟩ := directory_entry hwf hn
  rw [he]
  exact judgeEntry_cases hlength fun i hi => (hbytes i hi).trans (hentry n i).symm

theorem takeDirectory_clip (bs : List Byte) (n : Byte) :
    (takeDirectory bs).clip n = (judgeEntry ((chunks 16 256 bs)[n.toNat]?.getD [])).clip := by
  simp [ClipTable.clip, takeDirectory]

theorem chunks_length (size : Nat) : ∀ (count : Nat) (bs : List Byte), (chunks size count bs).length = count
  | 0, _ => rfl
  | count + 1, bs => by rw [chunks, List.length_cons, chunks_length]

/-- A count over the entries of a table is the count over their numbers. -/
theorem countP_entries (l : List (List Byte)) (f : List Byte → Bool) :
    l.countP f = (List.range l.length).countP fun n => f (l[n]?.getD []) := by
  have hl : l = (List.range l.length).map fun n => l[n]?.getD [] := by
    refine List.ext_getElem (by simp) fun i hi _ => ?_
    simp [hi]
  conv_lhs => rw [hl]
  rw [List.countP_map]
  rfl

/-- The dropped count is the number of refused entries (R129). -/
theorem takeDirectory_dropped {m : List Host.Cell} (hwf : Memory.wf m) {entry : Nat → Nat → Byte}
    (hentry : ∀ n i, entry n i = Memory.read m (0x1000 + 16 * n + i)) :
    (takeDirectory (Memory.readRun m directoryStart directorySize)).dropped =
      (List.range 256).countP fun n => decide (EntryRefused (entry n)) := by
  simp only [takeDirectory]
  rw [countP_entries, chunks_length]
  refine List.countP_congr fun n hn => ?_
  obtain ⟨hblank, hrefused, htaken⟩ := directory_clip hwf hentry (List.mem_range.1 hn) rfl
  simp only [decide_eq_true_eq]
  refine ⟨fun h => ?_, hrefused⟩
  by_contra hnot
  by_cases hb : EntryBlank (entry n)
  · rw [hblank hb] at h; cases h
  · obtain ⟨c, hc, -⟩ := htaken hb hnot
    rw [hc] at h; cases h

/-- Settles O20. -/
theorem loadCompletes : Obligations.LoadCompletes := by
  intro s t h hlive hrecord hmode hloaded hfree htime hwf
  refine ⟨s.pool.configure h.record, takeDirectory (Memory.readRun s.flash.mem directoryStart directorySize), _, _,
    hlive.loadCompletion hrecord hmode hloaded hfree htime, ?_, ?_, ?_, fun n => ?_, fun i => mapEach_get _ _ _,
    fun i => mapEach_get _ _ _, fun entry hentry => ⟨fun n => ?_, takeDirectory_dropped hwf hentry⟩⟩
  · unfold Pool.configure; rfl
  · unfold Pool.configure; rfl
  · unfold Pool.configure; rfl
  · rw [Pool.configure, mapEach_get]
  · obtain ⟨hblank, hrefused, htaken⟩ := directory_clip hwf hentry n.isLt rfl
    rw [takeDirectory_clip]
    refine ⟨fun habsent => ?_, fun hb hr => ?_⟩
    · rcases habsent with hb | hr
      · rw [hblank hb]; rfl
      · rw [hrefused hr]; rfl
    · obtain ⟨c, hc, hholds⟩ := htaken hb hr
      exact ⟨c, EntryVerdict.clip_of_taken hc, hholds⟩

end Sys2Proof.Machine
end

section
/-!
The Voice Pool, operation by operation: a voice made FREE and an allocation (O32), the choices that settle a request
(O35), and what the fades reach (O36). A fade goes through the voices one by one and looks at each alone (`VoiceWise`),
so the pool after it is told voice by voice and slot by slot.
-/

namespace Sys2Proof.Machine

/-! ## A voice made FREE, an allocation (R84, R107, R108, R110) -/

@[simp] theorem Pool.free_order (p : Pool) (v : VoiceNo) : (p.free v).order = p.order :=
  p.leaveSet_order v

@[simp] theorem Pool.free_grant (p : Pool) (v : VoiceNo) : (p.free v).grant = p.grant :=
  p.leaveSet_grant v

theorem Voice.requests_iff (x : Voice) : x.requests = true ↔ WantsFrames x := by
  simp [Voice.requests, WantsFrames, or_assoc, and_assoc]

theorem Pool.allocate_order (p : Pool) (clips : ClipTable) (v : VoiceNo) (r : VoiceRequest) :
    (p.allocate clips v r).order = p.order.filter (fun u => decide (u ≠ v)) ++ [v] := by
  simp only [Pool.allocate, Pool.grantFirst_order, Pool.setVoice_order, Pool.toEnd, Pool.joinSet, Pool.setSlot_order,
    Pool.leaveSet_order]

/-- R133: a voice is granted at once when no other requests and none is granted. -/
theorem Pool.grantFirst_grant (p : Pool) (v : VoiceNo) :
    (p.grant = none → (∀ u : VoiceNo, u ≠ v → ¬ WantsFrames p.voices[u]) →
      (p.grantFirst v).grant =
        some
          { voice := v, generation := p.voices[v].generation, clip := p.voices[v].clip, loop := p.voices[v].loop }) ∧
    (p.grant ≠ none ∨ (∃ u : VoiceNo, u ≠ v ∧ WantsFrames p.voices[u]) → (p.grantFirst v).grant = p.grant) := by
  have hfirst : (p.grant.isNone && (List.finRange 12).all fun u => decide (u = v) || !p.voices[u].requests) = true ↔
      p.grant = none ∧ ∀ u : VoiceNo, u ≠ v → ¬ WantsFrames p.voices[u] := by
    simp only [Bool.and_eq_true, Option.isNone_iff_eq_none, List.all_eq_true, List.mem_finRange, true_implies,
      Bool.or_eq_true, decide_eq_true_eq, Bool.not_eq_true', ← Voice.requests_iff, Bool.not_eq_true,
        or_iff_not_imp_left,
      ne_eq]
  unfold Pool.grantFirst
  refine ⟨fun hgrant hothers => ?_, fun hkept => ?_⟩
  · rw [if_pos (hfirst.2 ⟨hgrant, hothers⟩)]
  · rw [if_neg fun h => ?_]
    obtain ⟨hgrant, hothers⟩ := hfirst.1 h
    rcases hkept with hsome | ⟨u, hne, hwants⟩
    · exact hsome hgrant
    · exact hothers u hne hwants

/-- An allocation ends with the grant of a voice that is the first to request (R133). -/
theorem Pool.allocate_grantFirst (p : Pool) (clips : ClipTable) (v : VoiceNo) (r : VoiceRequest) :
    ∃ q : Pool, p.allocate clips v r = q.grantFirst v ∧ q.grant = p.grant ∧
      q.voices = (p.allocate clips v r).voices :=
  ⟨_, rfl, p.leaveSet_grant v, (Pool.grantFirst_voices _ v).symm⟩

/-- A slot whose voice set alone may differ. -/
def Slot.sameButVoices (x y : Slot) : Prop :=
  y = { x with voices := y.voices }

theorem Slot.sameButVoices.refl (x : Slot) : x.sameButVoices x :=
  rfl

theorem Slot.sameButVoices.trans {x y z : Slot} (h : x.sameButVoices y) (k : y.sameButVoices z) :
    x.sameButVoices z := by
  unfold Slot.sameButVoices at *
  rw [k, h]

theorem Slot.lose_same (x : Slot) (v : VoiceNo) : x.sameButVoices (x.lose v) :=
  rfl

theorem Slot.gain_same (x : Slot) (v : VoiceNo) : x.sameButVoices (x.gain v) :=
  rfl

theorem Pool.leaveSet_same (p : Pool) (v : VoiceNo) (n : SlotNo) :
    p.slots[n].sameButVoices (p.leaveSet v).slots[n] := by
  rw [Pool.leaveSet_slot]
  split
  · exact Slot.lose_same _ _
  · exact .refl _

theorem Pool.allocate_same (p : Pool) (clips : ClipTable) (v : VoiceNo) (r : VoiceRequest) (n : SlotNo) :
    p.slots[n].sameButVoices (p.allocate clips v r).slots[n] := by
  rw [Pool.allocate_slot]
  split
  · exact (p.leaveSet_same v n).trans (Slot.gain_same _ _)
  · exact p.leaveSet_same v n

/-- R84: after an allocation the voice stands in the set of its slot alone, and the others stand where they stood. -/
theorem Pool.inSet_allocate {p : Pool} (hp : p.setsAgree) (clips : ClipTable) (v u : VoiceNo) (r : VoiceRequest)
    (n : SlotNo) :
    inSet (p.allocate clips v r).slots[n].voices u =
      if u = v then decide (n = r.slot) else inSet p.slots[n].voices u := by
  have hleft : inSet (p.leaveSet v).slots[n].voices u = (decide (u ≠ v) && inSet p.slots[n].voices u) := by
    rw [Bool.eq_iff_iff, Pool.inSet_leaveSet p hp, Bool.and_eq_true, hp.1 n u, decide_eq_true_eq, ne_comm]
  rw [Pool.allocate_slot]
  by_cases hu : u = v <;> by_cases hn : r.slot = n
  · rw [if_pos hn, Slot.inSet_gain, hleft]; simp [hu, hn]
  · rw [if_neg hn, hleft]; simp [hu, Ne.symm hn]
  · rw [if_pos hn, Slot.inSet_gain, hleft]; simp [hu, Ne.symm hu]
  · rw [if_neg hn, hleft]; simp [hu]

/-- Settles O32. -/
theorem voicesFreedAndAllocated : Obligations.VoicesFreedAndAllocated := by
  refine ⟨fun p v x hx => ?_, fun p clips v r clip hagree hclip => ?_⟩
  · subst hx
    refine ⟨p.free_order v, p.free_grant v, ?_, fun u hu => ?_, fun n => Pool.free_slot p v n⟩
    · rw [Pool.free_voice, if_pos rfl]
      rfl
    · rw [Pool.free_voice, if_neg (Ne.symm hu)]
  · have hvoice : (p.allocate clips v r).voices[v] = p.voices[v].setUp (some clip) r := by
      rw [Pool.allocate_voice, if_pos rfl, hclip]
    have hothers (u : VoiceNo) (hu : u ≠ v) : (p.allocate clips v r).voices[u] = p.voices[u] := by
      rw [Pool.allocate_voice, if_neg (Ne.symm hu)]
    obtain ⟨q, hq, hgrant, hvoices⟩ := p.allocate_grantFirst clips v r
    obtain ⟨hfirst, hkept⟩ := q.grantFirst_grant v
    rw [hgrant, hvoices, ← hq, hvoice] at hfirst
    rw [hgrant, hvoices, ← hq] at hkept
    have hwants (u : VoiceNo) (hu : u ≠ v) :
        WantsFrames (p.allocate clips v r).voices[u] ↔ WantsFrames p.voices[u] := by
      rw [hothers u hu]
    refine ⟨p.allocate_order clips v r, hvoice, hothers, fun hnone hall => ?_, fun hany => ?_, fun n => ?_⟩
    · exact hfirst hnone fun u hu => (hwants u hu).not.2 (hall u hu)
    · exact hkept (hany.imp id fun ⟨u, hu, hw⟩ => ⟨u, hu, (hwants u hu).2 hw⟩)
    · exact ⟨_, p.allocate_same clips v r n, fun u => Pool.inSet_allocate hagree clips v u r n⟩

/-! ## The choices that settle a request (R109 to R112) -/

/-- The voices before and after one in the allocation order. -/
theorem Pool.order_split {p : Pool} (hp : p.orderWhole) (v : VoiceNo) :
    ∃ before after, p.order = before ++ v :: after ∧ (∀ u ∈ before, p.order.idxOf u < p.order.idxOf v) := by
  obtain ⟨hnodup, hall⟩ := hp
  obtain ⟨before, after, hsplit⟩ := List.append_of_mem (hall v)
  refine ⟨before, after, hsplit, fun u hu => ?_⟩
  have hv : v ∉ before := by
    rw [hsplit, List.nodup_append] at hnodup
    exact fun h => hnodup.2.2 v h v List.mem_cons_self rfl
  rw [hsplit, List.idxOf_append_of_mem hu, List.idxOf_append_of_notMem hv, List.idxOf_cons_self, Nat.add_zero]
  exact List.idxOf_lt_length_iff.2 hu

/-- The voices before and after one in number order. -/
theorem finRange_split (v : VoiceNo) :
    ∃ before after, List.finRange 12 = before ++ v :: after ∧ (∀ u ∈ before, u < v) := by
  obtain ⟨before, after, hsplit⟩ := List.append_of_mem (List.mem_finRange v)
  refine ⟨before, after, hsplit, fun u hu => ?_⟩
  have hsorted := List.pairwise_lt_finRange 12
  rw [hsplit, List.pairwise_append] at hsorted
  exact hsorted.2.2 u hu v List.mem_cons_self

theorem Pool.freeVoice_none {p : Pool} (h : ∀ u : VoiceNo, p.voices[u].state ≠ .free) : p.freeVoice = none := by
  simpa [Pool.freeVoice] using h

/-- Choice 1 is the lowest-numbered FREE voice. -/
theorem Pool.freeVoice_eq {p : Pool} {v : VoiceNo} (hv : p.voices[v].state = .free)
    (hlow : ∀ u : VoiceNo, u < v → p.voices[u].state ≠ .free) : p.freeVoice = some v := by
  obtain ⟨before, after, hsplit, hbefore⟩ := finRange_split v
  rw [Pool.freeVoice, hsplit, List.find?_append, List.find?_eq_none.2 fun u hu => ?_]
  · rw [Option.none_or]
    exact List.find?_cons_of_pos (p := fun u : VoiceNo => decide (p.voices[u].state = .free)) (decide_eq_true hv)
  · simpa using hlow u (hbefore u hu)

theorem Voice.canWait_iff (x : Voice) : x.canWait = true ↔ x.state = .fading ∧ x.successor = none := by
  simp [Voice.canWait]

theorem Pool.nearestSilence_none {p : Pool} (h : ∀ u : VoiceNo, p.voices[u].state = .fading →
    p.voices[u].successor ≠ none) :
    p.nearestSilence = none := by
  rw [Pool.nearestSilence_eq]
  refine firstBest_none (fun u _ => ?_) none
  rw [← Bool.not_eq_true, Voice.canWait_iff]
  exact fun ⟨hfading, hnone⟩ => h u hfading hnone

/-- Choice 2 is the FADING voice without a successor nearest silence, the lowest-numbered among equals. -/
theorem Pool.nearestSilence_first {p : Pool} {v : VoiceNo} (hv : p.voices[v].state = .fading)
    (hnone : p.voices[v].successor = none)
    (hfirst : ∀ u : VoiceNo, p.voices[u].state = .fading → p.voices[u].successor = none →
      p.voices[u].envelope < p.voices[v].envelope ∨ p.voices[u].envelope = p.voices[v].envelope ∧ v ≤ u) :
    p.nearestSilence = some v := by
  obtain ⟨before, after, hsplit, hbefore⟩ := finRange_split v
  rw [Pool.nearestSilence_eq, hsplit]
  refine firstBest_eq ((Voice.canWait_iff _).2 ⟨hv, hnone⟩) (fun u hu hok => ?_) fun u _ hok => ?_
  · obtain ⟨hfading, hsucc⟩ := (Voice.canWait_iff _).1 hok
    rcases hfirst u hfading hsucc with hlt | ⟨-, hle⟩
    · exact hlt
    · exact absurd (hbefore u hu) (not_lt.2 hle)
  · obtain ⟨hfading, hsucc⟩ := (Voice.canWait_iff _).1 hok
    rcases hfirst u hfading hsucc with hlt | ⟨heq, -⟩
    · exact not_lt.2 hlt.le
    · exact not_lt.2 heq.le

theorem Voice.canSteal_iff {x : Voice} (hx : x.state ≠ .free) (priority : Nat) :
    x.canSteal priority = true ↔ x.state ≠ .fading ∧ x.priority ≤ priority := by
  unfold Voice.canSteal
  cases hstate : x.state <;> simp_all

theorem Pool.victim_eq (p : Pool) (priority : Nat) :
    p.victim priority =
      firstBest (fun v : VoiceNo => p.voices[v].canSteal priority)
        (fun v b => p.voices[v].priority < p.voices[b].priority) none p.order := by
  unfold Pool.victim firstBest
  congr 1
  funext best v
  cases best
  · rfl
  · rfl

theorem Pool.victim_none {p : Pool} {priority : Nat} (hfree : ∀ u : VoiceNo, p.voices[u].state ≠ .free)
    (h : ∀ u : VoiceNo, p.voices[u].state ≠ .fading → priority < p.voices[u].priority) : p.victim priority = none := by
  rw [Pool.victim_eq]
  refine firstBest_none (fun u _ => ?_) none
  rw [← Bool.not_eq_true, Voice.canSteal_iff (hfree u)]
  exact fun ⟨hfading, hle⟩ => absurd (h u hfading) (not_lt.2 hle)

/-- Choice 3 is the voice of lowest priority, not above the request's, allocated longest ago among equals. -/
theorem Pool.victim_first {p : Pool} {priority : Nat} {v : VoiceNo} (hp : p.orderWhole)
    (hfree : ∀ u : VoiceNo, p.voices[u].state ≠ .free) (hv : p.voices[v].state ≠ .fading)
    (hle : p.voices[v].priority ≤ priority)
    (hfirst : ∀ u : VoiceNo, p.voices[u].state ≠ .fading → p.voices[u].priority ≤ priority →
      p.voices[v].priority < p.voices[u].priority ∨
        p.voices[v].priority = p.voices[u].priority ∧ p.order.idxOf v ≤ p.order.idxOf u) :
    p.victim priority = some v := by
  obtain ⟨before, after, hsplit, hbefore⟩ := Pool.order_split hp v
  rw [Pool.victim_eq, hsplit]
  refine firstBest_eq ((Voice.canSteal_iff (hfree v) _).2 ⟨hv, hle⟩) (fun u hu hok => ?_) fun u _ hok => ?_
  · obtain ⟨hfading, hpriority⟩ := (Voice.canSteal_iff (hfree u) _).1 hok
    rcases hfirst u hfading hpriority with hlt | ⟨-, hidx⟩
    · exact hlt
    · exact absurd (hbefore u hu) (not_lt.2 hidx)
  · obtain ⟨hfading, hpriority⟩ := (Voice.canSteal_iff (hfree u) _).1 hok
    rcases hfirst u hfading hpriority with hlt | ⟨heq, -⟩
    · exact not_lt.2 hlt.le
    · exact not_lt.2 heq.le

theorem Pool.settle_free {p : Pool} {clips : ClipTable} {r : VoiceRequest} {v : VoiceNo} (h : p.freeVoice = some v) :
    p.settle clips r = some ((p.allocate clips v r).choke v r) := by
  simp only [Pool.settle, h]

theorem Pool.settle_wait {p : Pool} {clips : ClipTable} {r : VoiceRequest} {v : VoiceNo} (hnone : p.freeVoice = none)
    (h : p.nearestSilence = some v) : p.settle clips r = some ((p.attach v r).choke v r) := by
  simp only [Pool.settle, hnone, h]

theorem Pool.settle_steal {p : Pool} {clips : ClipTable} {r : VoiceRequest} {v : VoiceNo} (hnone : p.freeVoice = none)
    (hquiet : p.nearestSilence = none) (h : p.victim r.priority = some v) :
    p.settle clips r = some ((p.steal clips v r).choke v r) := by
  simp only [Pool.settle, hnone, hquiet, h]

theorem Pool.settle_refused {p : Pool} {clips : ClipTable} {r : VoiceRequest} (hnone : p.freeVoice = none)
    (hquiet : p.nearestSilence = none) (h : p.victim r.priority = none) : p.settle clips r = none := by
  simp only [Pool.settle, hnone, hquiet, h]

/-- R112: a sounding victim fades with the request as its successor. -/
theorem Pool.steal_sounding {p : Pool} {clips : ClipTable} {r : VoiceRequest} {v : VoiceNo}
    (h : p.voices[v].state ≠ .scheduled) :
    p.steal clips v r =
      { p with
        voices :=
          p.voices.set v
            { p.voices[v] with
              state := .fading, rate := max p.voices[v].fadeOutRate 6144, target := 30720, successor := some r } } := by
  rw [Pool.steal, if_neg h]
  simp [Pool.attach, Pool.setVoice, update, Voice.startFade, stealRate, fullRange]

/-- Settles O35: the three choices are searches for the first of the best. -/
theorem requestsSettled : Obligations.RequestsSettled := by
  intro p clips r horder
  refine ⟨fun v hv hlow => Pool.settle_free (Pool.freeVoice_eq hv hlow), fun hfree => ?_⟩
  have hnone := Pool.freeVoice_none hfree
  refine ⟨fun v hv hsucc hfirst => Pool.settle_wait hnone (Pool.nearestSilence_first hv hsucc hfirst), fun hwait => ?_⟩
  have hquiet := Pool.nearestSilence_none hwait
  refine ⟨fun v hv hle hfirst => ?_, fun hhigh => Pool.settle_refused hnone hquiet (Pool.victim_none hfree hhigh)⟩
  have hsettle := Pool.settle_steal (clips := clips) hnone hquiet (Pool.victim_first horder hfree hv hle hfirst)
  refine ⟨fun hscheduled => ?_, fun hsounding => ?_⟩
  · rw [hsettle, Pool.steal, if_pos hscheduled]
  · rw [hsettle, Pool.steal_sounding hsounding]

end Sys2Proof.Machine
end

section
/-!
What the fades reach (O36). A fade goes through the voices one by one and looks at each alone (`VoiceWise`), so the
pool after it is told voice by voice and slot by slot; a CUT does so slot by slot.
-/

namespace Sys2Proof.Machine

/-! ## Operations that go through the voices one by one -/

/-- An operation on one voice after another that looks at the voice alone: voice `v` becomes `f v` of itself and is
made FREE where `freed v` says so. -/
structure VoiceWise (f : VoiceNo → Voice → Voice) (freed : VoiceNo → Voice → Prop) (g : Pool → VoiceNo → Pool) :
    Prop where
  order : ∀ p v, (g p v).order = p.order
  grant : ∀ p v, (g p v).grant = p.grant
  self : ∀ p v, (g p v).voices[v] = f v p.voices[v]
  other : ∀ (p : Pool) (v u : VoiceNo), u ≠ v → (g p v).voices[u] = p.voices[u]
  lost : ∀ (p : Pool) (v : VoiceNo) (n : SlotNo), freed v p.voices[v] → p.voices[v].owner = some n →
    (g p v).slots[n] = p.slots[n].lose v
  kept : ∀ (p : Pool) (v : VoiceNo) (n : SlotNo), ¬ (freed v p.voices[v] ∧ p.voices[v].owner = some n) →
    (g p v).slots[n] = p.slots[n]

/-- What a change of the pool leaves of a slot: its voice set alone changes, by the voices of `lost`. -/
structure SlotLoses (x y : Slot) (lost : VoiceNo → Prop) : Prop where
  same : x.sameButVoices y
  voices : ∀ v : VoiceNo, inSet y.voices v = true ↔ inSet x.voices v = true ∧ ¬ lost v

theorem SlotLoses.refl (x : Slot) {lost : VoiceNo → Prop} (h : ∀ v, ¬ lost v) : SlotLoses x x lost :=
  ⟨.refl x, fun v => (and_iff_left (h v)).symm⟩

theorem SlotLoses.congr {x y : Slot} {lost lost' : VoiceNo → Prop} (h : SlotLoses x y lost)
    (hl : ∀ v, inSet x.voices v = true → (lost v ↔ lost' v)) : SlotLoses x y lost' :=
  ⟨h.same, fun v => (h.voices v).trans (and_congr_right fun hv => not_congr (hl v hv))⟩

/-- A slot with its set, as the statements write it. -/
theorem SlotLoses.exists_set {x y : Slot} {lost : VoiceNo → Prop} (h : SlotLoses x y lost) :
    ∃ set, y = { x with voices := set } ∧
      ∀ v : VoiceNo, inSet set v = true ↔ inSet x.voices v = true ∧ ¬ lost v :=
  ⟨y.voices, h.same, h.voices⟩

section VoiceWise

variable {f : VoiceNo → Voice → Voice} {freed : VoiceNo → Voice → Prop} {g : Pool → VoiceNo → Pool}

theorem VoiceWise.foldl_order (h : VoiceWise f freed g) (l : List VoiceNo) (p : Pool) :
    (l.foldl g p).order = p.order := by
  induction l generalizing p with
  | nil => rfl
  | cons v l ih => exact (ih _).trans (h.order p v)

theorem VoiceWise.foldl_grant (h : VoiceWise f freed g) (l : List VoiceNo) (p : Pool) :
    (l.foldl g p).grant = p.grant := by
  induction l generalizing p with
  | nil => rfl
  | cons v l ih => exact (ih _).trans (h.grant p v)

theorem VoiceWise.foldl_other (h : VoiceWise f freed g) {l : List VoiceNo} {u : VoiceNo} (hu : u ∉ l) (p : Pool) :
    (l.foldl g p).voices[u] = p.voices[u] := by
  induction l generalizing p with
  | nil => rfl
  | cons v l ih =>
    obtain ⟨hne, hl⟩ := not_or.1 (List.mem_cons.not.1 hu)
    exact (ih hl _).trans (h.other p v u hne)

theorem VoiceWise.foldl_self (h : VoiceWise f freed g) {l : List VoiceNo} (hl : l.Nodup) {u : VoiceNo} (hu : u ∈ l)
    (p : Pool) : (l.foldl g p).voices[u] = f u p.voices[u] := by
  induction l generalizing p with
  | nil => cases hu
  | cons v l ih =>
    obtain ⟨hv, hrest⟩ := List.nodup_cons.1 hl
    rcases List.mem_cons.1 hu with rfl | hmem
    · exact (h.foldl_other hv _).trans (h.self p u)
    · have hne : u ≠ v := fun e => hv (e ▸ hmem)
      rw [List.foldl_cons, ih hrest hmem, h.other p v u hne]

theorem VoiceWise.slot (h : VoiceWise f freed g) (p : Pool) (v : VoiceNo) (n : SlotNo) :
    SlotLoses p.slots[n] (g p v).slots[n] fun u => u = v ∧ freed u p.voices[u] ∧ p.voices[u].owner = some n := by
  by_cases hfreed : freed v p.voices[v] ∧ p.voices[v].owner = some n
  · rw [h.lost p v n hfreed.1 hfreed.2]
    refine ⟨Slot.lose_same _ _, fun u => ?_⟩
    rw [Slot.inSet_lose, Bool.and_eq_true, decide_eq_true_eq]
    refine and_congr_right fun _ => ⟨fun hne hlost => hne hlost.1.symm, fun hkept e => ?_⟩
    subst e
    exact hkept ⟨rfl, hfreed⟩
  · rw [h.kept p v n hfreed]
    exact .refl _ fun u hlost => hfreed (hlost.1 ▸ hlost.2)

theorem SlotLoses.trans {x y z : Slot} {a b : VoiceNo → Prop} (h : SlotLoses x y a) (k : SlotLoses y z b) :
    SlotLoses x z fun v => a v ∨ b v :=
  ⟨h.same.trans k.same, fun v => by rw [k.voices, h.voices, not_or, and_assoc]⟩

theorem VoiceWise.foldl_slot (h : VoiceWise f freed g) {l : List VoiceNo} (hl : l.Nodup) (p : Pool) (n : SlotNo) :
    SlotLoses p.slots[n] (l.foldl g p).slots[n] fun u =>
      u ∈ l ∧ freed u p.voices[u] ∧ p.voices[u].owner = some n := by
  induction l generalizing p with
  | nil => exact .refl _ fun u hu => List.not_mem_nil hu.1
  | cons v l ih =>
    obtain ⟨hv, hrest⟩ := List.nodup_cons.1 hl
    refine ((h.slot p v n).trans (ih hrest (g p v))).congr fun u _ => ?_
    by_cases huv : u = v
    · subst huv
      simp [hv]
    · rw [h.other p v u huv]
      simp [huv]

theorem VoiceWise.eachVoice_order (h : VoiceWise f freed g) (p : Pool) : (p.eachVoice g).order = p.order :=
  h.foldl_order _ p

theorem VoiceWise.eachVoice_grant (h : VoiceWise f freed g) (p : Pool) : (p.eachVoice g).grant = p.grant :=
  h.foldl_grant _ p

theorem VoiceWise.eachVoice_voice (h : VoiceWise f freed g) (p : Pool) (v : VoiceNo) :
    (p.eachVoice g).voices[v] = f v p.voices[v] :=
  h.foldl_self (List.nodup_finRange 12) (List.mem_finRange v) p

/-- R84: with voice sets and owners in agreement, each slot loses the voices of its own that are made FREE. -/
theorem VoiceWise.eachVoice_slot (h : VoiceWise f freed g) {p : Pool} (hp : p.setsAgree) (n : SlotNo) :
    SlotLoses p.slots[n] (p.eachVoice g).slots[n] fun v => freed v p.voices[v] := by
  refine (h.foldl_slot (List.nodup_finRange 12) p n).congr fun v hv => ?_
  have howner : p.voices[v].owner = some n := (hp.1 n v).1 hv
  simp only [List.mem_finRange, true_and, howner, and_true]

end VoiceWise

/-! ## The fade of one voice (R108, R118, R119) -/

theorem Voice.freed_eq (x : Voice) :
    x.freed =
      { x with
        state := .free, owner := none, fifo := [], exhausted := false, underrun := false, envelope := 30720
        target := 30720, silent := false } :=
  rfl

theorem reachedBy_free {x : Voice} (h : x.state = .free) (first again : Nat) : reachedBy x first again = x := by
  simp [reachedBy, h]

theorem reachedBy_scheduled {x : Voice} (h : x.state = .scheduled) (first again : Nat) :
    reachedBy x first again = x.freed := by
  simp [reachedBy, h, Voice.freed_eq]

theorem reachedBy_sounding {x : Voice} (h : x.state = .running ∨ x.state = .draining) (first again : Nat) :
    reachedBy x first again = x.startFade first := by
  rcases h with h | h <;> simp [reachedBy, h, Voice.startFade, fullRange]

theorem reachedBy_fading {x : Voice} (h : x.state = .fading) (first again : Nat) :
    reachedBy x first again = { x with rate := max x.rate again } := by
  simp [reachedBy, h]

/-- One voice may be changed, or made FREE; the others and their slots stay. -/
theorem VoiceWise.of_cases {f : VoiceNo → Voice → Voice} {freed : VoiceNo → Voice → Prop} {g : Pool → VoiceNo → Pool}
    (h : ∀ (p : Pool) (v : VoiceNo),
      (freed v p.voices[v] ∧ f v p.voices[v] = p.voices[v].freed ∧ g p v = p.free v) ∨
        (¬ freed v p.voices[v] ∧ ∃ change, f v p.voices[v] = change p.voices[v] ∧ g p v = p.setVoice v change)) :
    VoiceWise f freed g where
  order p v := by rcases h p v with ⟨-, -, e⟩ | ⟨-, change, -, e⟩ <;> rw [e] <;> simp
  grant p v := by rcases h p v with ⟨-, -, e⟩ | ⟨-, change, -, e⟩ <;> rw [e] <;> simp
  self p v := by
    rcases h p v with ⟨-, hf, e⟩ | ⟨-, change, hf, e⟩
    · rw [e, hf, Pool.free_voice, if_pos rfl]
    · rw [e, hf, Pool.setVoice_voices, update_get_self]
  other p v u hu := by
    rcases h p v with ⟨-, -, e⟩ | ⟨-, change, -, e⟩
    · rw [e, Pool.free_voice, if_neg (Ne.symm hu)]
    · rw [e, Pool.setVoice_voices, update_get_other _ (Ne.symm hu)]
  lost p v n hfreed howner := by
    rcases h p v with ⟨-, -, e⟩ | ⟨hnot, -⟩
    · rw [e, Pool.free_slot, if_pos howner]
    · exact absurd hfreed hnot
  kept p v n hkept := by
    rcases h p v with ⟨hfreed, -, e⟩ | ⟨-, change, -, e⟩
    · rw [e, Pool.free_slot, if_neg fun howner => hkept ⟨hfreed, howner⟩]
    · rw [e, Pool.setVoice_slots]

theorem Pool.setVoice_id (p : Pool) (v : VoiceNo) : p.setVoice v id = p := by
  rw [Pool.setVoice, update_keep _ _ _ rfl]

/-- The fade of the voices that `reaches` picks, at a rate (R118, R119). -/
theorem Pool.fade_voiceWise (rate : FadeRate) (reaches : VoiceNo → Voice → Prop)
    [∀ v x, Decidable (reaches v x)] {g : Pool → VoiceNo → Pool}
    (hg : ∀ (p : Pool) (v : VoiceNo), g p v = if reaches v p.voices[v] then p.fade rate v else p) :
    VoiceWise (fun v x => if reaches v x then reachedBy x (rate.forVoice x) (rate.forFading x) else x)
      (fun v x => reaches v x ∧ x.state = .scheduled) g := by
  refine .of_cases fun p v => ?_
  rw [hg]
  by_cases hreaches : reaches v p.voices[v]
  · have hnot {state : VoiceState} (hstate : p.voices[v].state = state) (hne : state ≠ .scheduled) :
        ¬ (reaches v p.voices[v] ∧ p.voices[v].state = .scheduled) :=
      fun h => hne (hstate ▸ h.2)
    rw [if_pos hreaches, if_pos hreaches]
    unfold Pool.fade
    split
    · next hstate =>
      exact .inr ⟨hnot hstate nofun, id, reachedBy_free hstate _ _, (p.setVoice_id v).symm⟩
    · next hstate => exact .inl ⟨⟨hreaches, hstate⟩, reachedBy_scheduled hstate _ _, rfl⟩
    · next hstate => exact .inr ⟨hnot hstate nofun, _, reachedBy_sounding (.inl hstate) _ _, rfl⟩
    · next hstate => exact .inr ⟨hnot hstate nofun, _, reachedBy_sounding (.inr hstate) _ _, rfl⟩
    · next hstate => exact .inr ⟨hnot hstate nofun, _, reachedBy_fading hstate _ _, rfl⟩
  · rw [if_neg hreaches, if_neg hreaches]
    exact .inr ⟨fun h => hreaches h.1, id, rfl, (p.setVoice_id v).symm⟩

/-- The choke of the group's voices but the chosen one (R113). -/
theorem Pool.choke_voiceWise (chosen : VoiceNo) (group : Nat) :
    VoiceWise
      (fun v x => if v ≠ chosen ∧ x.choke = group ∧ x.state ≠ .fading then reachedBy x x.fadeOutRate 0 else x)
      (fun v x => (v ≠ chosen ∧ x.choke = group) ∧ x.state = .scheduled) (Pool.chokeVoice chosen group) := by
  refine .of_cases fun p v => ?_
  unfold Pool.chokeVoice
  by_cases hreaches : v ≠ chosen ∧ p.voices[v].choke = group
  · obtain ⟨hne, hgroup⟩ := hreaches
    simp only [hne, hgroup, ne_eq, not_false_eq_true, and_self, true_and, if_true]
    cases hstate : p.voices[v].state with
    | scheduled =>
      rw [if_pos nofun]
      exact .inl ⟨rfl, reachedBy_scheduled hstate _ _, rfl⟩
    | running =>
      rw [if_pos nofun]
      exact .inr ⟨nofun, _, reachedBy_sounding (.inl hstate) _ _, rfl⟩
    | draining =>
      rw [if_pos nofun]
      exact .inr ⟨nofun, _, reachedBy_sounding (.inr hstate) _ _, rfl⟩
    | free =>
      rw [if_pos nofun]
      exact .inr ⟨nofun, id, reachedBy_free hstate _ _, (p.setVoice_id v).symm⟩
    | fading =>
      rw [if_neg fun h => h rfl]
      exact .inr ⟨nofun, id, rfl, (p.setVoice_id v).symm⟩
  · rw [if_neg fun h => hreaches ⟨h.1, h.2.1⟩, if_neg hreaches]
    exact .inr ⟨fun h => hreaches h.1, id, rfl, (p.setVoice_id v).symm⟩

/-! ## Successors discarded (R113, R120, R121, R124) -/

/-- A voice without the successors that `f` picks. -/
theorem Voice.discard_eq (x : Voice) (f : VoiceRequest → Bool) :
    (if x.successor.any f then { x with successor := none } else x) =
      { x with successor := x.successor.filter fun r => !f r } := by
  cases x
  rename Option VoiceRequest => successor
  cases successor with
  | none => rfl
  | some r => cases hf : f r <;> simp [Option.filter, hf]

theorem Pool.discard_voice (p : Pool) (f : VoiceRequest → Bool) (v : VoiceNo) :
    (p.discard f).voices[v] =
      { p.voices[v] with successor := p.voices[v].successor.filter fun r => !f r } := by
  rw [← Voice.discard_eq, Pool.discard, mapEach_get]

/-- A fade does not look at the successor. -/
theorem reachedBy_successor (x : Voice) (first again : Nat) (r : Option VoiceRequest) :
    reachedBy { x with successor := r } first again = { reachedBy x first again with successor := r } := by
  cases x
  cases ‹VoiceState› <;> rfl

theorem reachedBy_keeps_successor (x : Voice) (first again : Nat) :
    (reachedBy x first again).successor = x.successor := by
  cases x
  cases ‹VoiceState› <;> rfl

/-! ## STOP, group stop, RESTART and choke -/

theorem Pool.discard_setsAgree {p : Pool} (hp : p.setsAgree) (f : VoiceRequest → Bool) : (p.discard f).setsAgree :=
  (Pool.discard_reach p f).setsAgree hp

/-- A fade of the voices that `reaches` picks, and the discard of some successors (R118 to R121). -/
theorem Pool.fadeThenDiscard {rate : FadeRate} {reaches : VoiceNo → Voice → Prop} [∀ v x, Decidable (reaches v x)]
    {g : Pool → VoiceNo → Pool} {p q : Pool} {discards : VoiceRequest → Bool} (hp : p.setsAgree)
    (hg : ∀ (p : Pool) (v : VoiceNo), g p v = if reaches v p.voices[v] then p.fade rate v else p)
    (hq : q = (p.eachVoice g).discard discards) :
    (q.order = p.order ∧ q.grant = p.grant) ∧
    (∀ n : SlotNo, SlotLoses p.slots[n] q.slots[n] fun v =>
      reaches v p.voices[v] ∧ p.voices[v].state = .scheduled) ∧
    ∀ v : VoiceNo, q.voices[v] =
      { (if reaches v p.voices[v] then
          reachedBy p.voices[v] (rate.forVoice p.voices[v]) (rate.forFading p.voices[v])
        else p.voices[v]) with
        successor := p.voices[v].successor.filter fun r => !discards r } := by
  have hwise := Pool.fade_voiceWise rate reaches hg
  subst hq
  refine ⟨⟨hwise.eachVoice_order p, hwise.eachVoice_grant p⟩, fun n => hwise.eachVoice_slot hp n, fun v => ?_⟩
  rw [Pool.discard_voice, hwise.eachVoice_voice]
  split
  · rw [reachedBy_keeps_successor]
  · rfl

theorem not_decide_eq (a b : Nat) : (!decide (a = b)) = decide (a ≠ b) :=
  (decide_not ..).symm

/-- R118, R119, R124: a STOP. -/
theorem Pool.stop_fades {p q : Pool} {ms : Nat} (hp : p.setsAgree) (hq : q = (p.stop ms).dropPending) :
    q.order = p.order ∧ q.grant = p.grant ∧
      (∀ n : SlotNo, ∃ set, q.slots[n] = { p.slots[n] with pending := none, voices := set } ∧
        ∀ v : VoiceNo, inSet set v = true ↔ inSet p.slots[n].voices v = true ∧ p.voices[v].state ≠ .scheduled) ∧
      ∀ (v : VoiceNo) (x : Voice), x = p.voices[v] →
        q.voices[v] = { reachedBy x (max x.fadeOutRate (rateOf ms)) (rateOf ms) with successor := none } := by
  have hwise := Pool.fade_voiceWise (.faster (rateOf ms)) (fun _ _ => True)
    (g := fun p v => p.fade (.faster (rateOf ms)) v) fun p v => (if_pos trivial).symm
  have hagree := Pool.discard_setsAgree hp fun _ => true
  have hdiscarded (v : VoiceNo) : (p.discard fun _ => true).voices[v] = { p.voices[v] with successor := none } := by
    rw [Pool.discard_voice]
    cases p.voices[v].successor <;> rfl
  subst hq
  refine ⟨(p.stop ms).dropPending_order.trans (hwise.eachVoice_order _),
    (p.stop ms).dropPending_grant.trans (hwise.eachVoice_grant _), fun n => ?_, fun v x hx => ?_⟩
  · have hslot := hwise.eachVoice_slot hagree n
    refine ⟨(p.stop ms).slots[n].voices, ?_, fun v => ?_⟩
    · rw [Pool.dropPending, mapEach_get, Pool.stop, hslot.same]
      rfl
    · rw [Pool.stop, hslot.voices, hdiscarded]
      simp only [true_and, Pool.discard_slots, ne_eq]
  · subst hx
    rw [Pool.dropPending_voices, Pool.stop, hwise.eachVoice_voice, hdiscarded, if_pos trivial, reachedBy_successor]
    rfl

/-- R120: a group stop. -/
theorem Pool.groupStop_fades {p q : Pool} {group : Nat} {override : Option Nat} (hp : p.setsAgree)
    (hq : q = p.groupStop group (match override with | some f => .exactly (rateOf f) | none => .own)) :
    q.order = p.order ∧ q.grant = p.grant ∧
      (∀ n : SlotNo, ∃ set, q.slots[n] = { p.slots[n] with voices := set } ∧
        ∀ v : VoiceNo, inSet set v = true ↔
          inSet p.slots[n].voices v = true ∧ ¬ (p.voices[v].choke = group ∧ p.voices[v].state = .scheduled)) ∧
      ∀ (v : VoiceNo) (x : Voice) (rate : Nat), x = p.voices[v] →
        (∀ f, override = some f → rate = rateOf f) → (override = none → rate = x.fadeOutRate) →
        q.voices[v] =
          { (if x.choke = group then reachedBy x rate rate else x) with
            successor := x.successor.filter fun r => decide (r.choke ≠ group) } := by
  obtain ⟨⟨horder, hgrant⟩, hslots, hvoices⟩ :=
    Pool.fadeThenDiscard (reaches := fun _ x => x.choke = group) hp (fun _ _ => rfl) hq
  refine ⟨horder, hgrant, fun n => (hslots n).exists_set, fun v x rate hx hsome hnone => ?_⟩
  subst hx
  rw [hvoices]
  cases override with
  | some f => simp only [FadeRate.forVoice, FadeRate.forFading, hsome f rfl, not_decide_eq]
  | none => simp only [FadeRate.forVoice, FadeRate.forFading, hnone rfl, not_decide_eq]

theorem Voice.sounding_iff (x : Voice) :
    x.sounding = true ↔ x.state = .scheduled ∨ x.state = .running ∨ x.state = .draining := by
  simp [Voice.sounding, or_assoc]

/-- The rate of a second fade matters to a FADING voice alone. -/
theorem reachedBy_again {x : Voice} (h : x.state ≠ .fading) (first again other : Nat) :
    reachedBy x first again = reachedBy x first other := by
  unfold reachedBy
  split
  · rfl
  · rfl
  · rfl
  · rfl
  · next hfading => exact absurd hfading h

theorem decide_not_slot (m : SlotNo) :
    (fun r : VoiceRequest => !decide (r.slot = m)) = fun r => decide (r.slot ≠ m) :=
  funext fun _ => (decide_not ..).symm

/-- R100: a RESTART. -/
theorem Pool.restartSlot_fades {p q : Pool} {m : SlotNo} (hp : p.setsAgree) (hq : q = p.restartSlot m) :
    q.order = p.order ∧ q.grant = p.grant ∧
      (∀ n : SlotNo, ∃ set, q.slots[n] = { p.slots[n] with voices := set } ∧
        ∀ v : VoiceNo, inSet set v = true ↔
          inSet p.slots[n].voices v = true ∧ ¬ (n = m ∧ p.voices[v].state = .scheduled)) ∧
      ∀ (v : VoiceNo) (x : Voice), x = p.voices[v] →
        q.voices[v] =
          { (if x.owner = some m ∧ x.state ≠ .fading then reachedBy x (max x.fadeOutRate 6144) 0 else x) with
            successor := x.successor.filter fun r => decide (r.slot ≠ m) } := by
  have howner (v : VoiceNo) : inSet p.slots[m].voices v = true ↔ p.voices[v].owner = some m := hp.1 m v
  obtain ⟨⟨horder, hgrant⟩, hslots, hvoices⟩ :=
    Pool.fadeThenDiscard (rate := .faster stealRate)
      (reaches := fun v _ => (inSet p.slots[m].voices v && p.voices[v].sounding) = true) hp (fun _ _ => rfl) hq
  refine ⟨horder, hgrant, fun n => ((hslots n).congr fun v hv => ?_).exists_set, fun v x hx => ?_⟩
  · have hn : p.voices[v].owner = some n := (hp.1 n v).1 hv
    rw [Bool.and_eq_true, howner, Voice.sounding_iff, hn, Option.some_inj]
    exact ⟨fun ⟨⟨hm, _⟩, hstate⟩ => ⟨hm, hstate⟩, fun ⟨hm, hstate⟩ => ⟨⟨hm, .inl hstate⟩, hstate⟩⟩
  · subst hx
    have hreaches : (inSet p.slots[m].voices v && p.voices[v].sounding) = true ↔
        p.voices[v].owner = some m ∧ p.voices[v].state ≠ .fading := by
      rw [Bool.and_eq_true, howner, Voice.sounding_iff]
      refine and_congr_right fun hm => ?_
      have hfree : p.voices[v].state ≠ .free := fun h => by
        rw [(hp.2 v).1 h] at hm
        cases hm
      cases hstate : p.voices[v].state <;> simp_all
    rw [hvoices, decide_not_slot]
    by_cases h : p.voices[v].owner = some m ∧ p.voices[v].state ≠ .fading
    · rw [if_pos (hreaches.2 h), if_pos h, reachedBy_again h.2 _ _ 0]
      rfl
    · rw [if_neg fun hr => h (hreaches.1 hr), if_neg h]

/-- R113: a choke. -/
theorem Pool.choke_fades {p q : Pool} {chosen : VoiceNo} {r : VoiceRequest} (hp : p.setsAgree)
    (hq : q = p.choke chosen r) (hgroup : r.choke ≠ 0) :
    q.order = p.order ∧ q.grant = p.grant ∧
        (∀ n : SlotNo, ∃ set, q.slots[n] = { p.slots[n] with voices := set } ∧
          ∀ v : VoiceNo, inSet set v = true ↔
            inSet p.slots[n].voices v = true ∧
              ¬ (v ≠ chosen ∧ p.voices[v].choke = r.choke ∧ p.voices[v].state = .scheduled)) ∧
        ∀ (v : VoiceNo) (x : Voice), x = p.voices[v] →
          (v = chosen → q.voices[v] = x) ∧
          (v ≠ chosen →
            q.voices[v] =
              { (if x.choke = r.choke ∧ x.state ≠ .fading then reachedBy x x.fadeOutRate 0 else x) with
                successor := x.successor.filter fun w => decide (w.choke ≠ r.choke) }) := by
  have hwise := Pool.choke_voiceWise chosen r.choke
  rw [Pool.choke, if_neg hgroup] at hq
  subst hq
  refine ⟨hwise.eachVoice_order p, hwise.eachVoice_grant p, fun n => ?_, fun v x hx => ?_⟩
  · refine ((hwise.eachVoice_slot hp n).congr fun v _ => ?_).exists_set
    rw [and_assoc]
  · subst hx
    rw [mapEach_get, hwise.eachVoice_voice]
    refine ⟨fun he => ?_, fun hne => ?_⟩
    · rw [if_neg fun h => h.1 he, if_neg fun h => h.1 he]
    · simp only [ne_eq, hne, not_false_eq_true, true_and]
      rw [Voice.discard_eq]
      simp only [not_decide_eq]
      split
      · rw [reachedBy_keeps_successor]
      · rfl

/-! ## A CUT, slot by slot (R95, R96) -/

/-- The voices and successors of one slot are cut. -/
structure CutsSlot (p q : Pool) (n : SlotNo) (rate : Nat) : Prop where
  order : q.order = p.order
  grant : q.grant = p.grant
  slot : ∃ set, q.slots[n] = { p.slots[n] with pending := none, voices := set } ∧
    ∀ v : VoiceNo, inSet set v = true ↔ inSet p.slots[n].voices v = true ∧ p.voices[v].state ≠ .scheduled
  others : ∀ m : SlotNo, m ≠ n → q.slots[m] = p.slots[m]
  own : ∀ v : VoiceNo, p.voices[v].owner = some n →
    q.voices[v] =
      { reachedBy p.voices[v] rate rate with
        successor := p.voices[v].successor.filter fun r => decide (r.slot ≠ n) }
  other : ∀ v : VoiceNo, p.voices[v].owner ≠ some n →
    q.voices[v] =
      { p.voices[v] with successor := p.voices[v].successor.filter fun r => decide (r.slot ≠ n) }

/-- A slot that loses no voice stays as it is. -/
theorem SlotLoses.eq {x y : Slot} {lost : VoiceNo → Prop} (h : SlotLoses x y lost)
    (hl : ∀ v, inSet x.voices v = true → ¬ lost v) : y = x := by
  have hvoices : y.voices = x.voices := by
    apply BitVec.eq_of_getLsbD_eq
    intro i hi
    have hv := h.voices ⟨i, hi⟩
    rw [Bool.eq_iff_iff]
    exact hv.trans (and_iff_left_of_imp (hl ⟨i, hi⟩))
  rw [h.same, hvoices]

theorem Pool.cutSlot_cuts {p : Pool} (hp : p.setsAgree) (n : SlotNo) (ms : Nat) :
    CutsSlot p (p.cutSlot n ms) n (rateOf ms) := by
  have howner (v : VoiceNo) : inSet p.slots[n].voices v = true ↔ p.voices[v].owner = some n := hp.1 n v
  have hreach : PoolReach p (p.setSlot n fun x => { x with pending := none }) :=
    .setSlot p n _ ⟨rfl, fun _ h => by simp at h, id, id⟩
  obtain ⟨⟨horder, hgrant⟩, hslots, hvoices⟩ :=
    Pool.fadeThenDiscard (rate := .exactly (rateOf ms)) (q := p.cutSlot n ms)
      (reaches := fun v _ => inSet p.slots[n].voices v = true) (hreach.setsAgree hp) (fun _ _ => rfl) rfl
  simp only [Pool.setSlot_voices, decide_not_slot, FadeRate.forVoice, FadeRate.forFading] at hvoices hslots
  refine ⟨horder, hgrant, ?slot, fun m hm => ?others, fun v hv => ?own, fun v hv => ?other⟩
  case slot =>
    have hslot := hslots n
    simp only [Pool.setSlot_slots, update_get_self] at hslot
    refine ⟨_, hslot.same, fun v => (hslot.voices v).trans (and_congr_right fun hv => ?_)⟩
    exact ⟨fun h hs => h ⟨hv, hs⟩, fun h hs => h hs.2⟩
  case others =>
    have hslot := hslots m
    simp only [Pool.setSlot_slots, update_get_other _ (Ne.symm hm)] at hslot
    refine hslot.eq fun v hv hlost => hm ?_
    have h1 : p.voices[v].owner = some m := (hp.1 m v).1 hv
    have h2 : p.voices[v].owner = some n := (howner v).1 hlost.1
    exact Option.some_inj.1 (h1.symm.trans h2)
  case own => rw [hvoices, if_pos ((howner v).2 hv)]
  case other => rw [hvoices, if_neg fun h => hv ((howner v).1 h)]

/-- The rate of a CUT at a slot (R96). -/
def Slot.cutRate (x : Slot) (override : Option Nat) : Nat :=
  match x.config with
  | none => 0
  | some c => rateOf (c.cutMs override)

/-- A CUT at one slot, found or not. -/
theorem Pool.cutIfFound_cases {p : Pool} (hp : p.setsAgree) (code : Byte) (override : Option Nat) (n : SlotNo) :
    (cutFinds p code n = true ∧ CutsSlot p (p.cutIfFound code override n) n (p.slots[n].cutRate override)) ∨
      (cutFinds p code n = false ∧ p.cutIfFound code override n = p) := by
  unfold Pool.cutIfFound cutFinds Slot.cutRate
  split
  · next hconfig => exact .inr ⟨by rw [hconfig]; rfl, rfl⟩
  · next c hconfig =>
    rw [hconfig]
    by_cases hfound : c.codeAgrees code = true
    · rw [if_pos hfound]
      exact .inl ⟨hfound, Pool.cutSlot_cuts hp n _⟩
    · rw [if_neg hfound]
      exact .inr ⟨by simpa [SlotConfig.codeAgrees] using hfound, rfl⟩

/-- What one CUT after another leaves of a pool: a voice whose own slot they do not find loses its successors of the
slots they find. -/
theorem Pool.cutIfFound_reach (p : Pool) (code : Byte) (override : Option Nat) (n : SlotNo) :
    PoolReach p (p.cutIfFound code override n) := by
  unfold Pool.cutIfFound
  split
  · exact .rfl'
  · split
    · exact Pool.cutSlot_reach p n _
    · exact .rfl'

section cut

variable (code : Byte) (override : Option Nat)

/-- The CUT goes through these slots. -/
def Pool.cutSlots (l : List SlotNo) (p : Pool) : Pool :=
  l.foldl (Pool.cutIfFound code override) p

variable {code override} {p : Pool}

theorem Pool.cutSlots_setsAgree (hp : p.setsAgree) (l : List SlotNo) : (p.cutSlots code override l).setsAgree :=
  (PoolReach.foldl _ (fun p n => p.cutIfFound_reach code override n) p l).setsAgree hp

theorem Pool.cutIfFound_config (hp : p.setsAgree) (n m : SlotNo) :
    (p.cutIfFound code override n).slots[m].config = p.slots[m].config := by
  rcases Pool.cutIfFound_cases hp code override n with ⟨-, hcut⟩ | ⟨-, hsame⟩
  · by_cases hm : m = n
    · subst hm
      obtain ⟨set, hslot, -⟩ := hcut.slot
      rw [hslot]
    · rw [hcut.others m hm]
  · rw [hsame]

theorem cutFinds_congr {p q : Pool} {m : SlotNo} (h : q.slots[m].config = p.slots[m].config) :
    cutFinds q code m = cutFinds p code m := by
  unfold cutFinds
  rw [h]

theorem Slot.cutRate_congr {x y : Slot} (h : y.config = x.config) : y.cutRate override = x.cutRate override := by
  unfold Slot.cutRate
  rw [h]

theorem Pool.cutSlots_config (hp : p.setsAgree) (l : List SlotNo) (m : SlotNo) :
    (p.cutSlots code override l).slots[m].config = p.slots[m].config := by
  induction l generalizing p with
  | nil => rfl
  | cons n l ih =>
    exact (ih ((p.cutIfFound_reach code override n).setsAgree hp)).trans (Pool.cutIfFound_config hp n m)

theorem Pool.cutSlots_order (hp : p.setsAgree) (l : List SlotNo) :
    (p.cutSlots code override l).order = p.order ∧ (p.cutSlots code override l).grant = p.grant := by
  induction l generalizing p with
  | nil => exact ⟨rfl, rfl⟩
  | cons n l ih =>
    obtain ⟨horder, hgrant⟩ := ih ((p.cutIfFound_reach code override n).setsAgree hp)
    rcases Pool.cutIfFound_cases hp code override n with ⟨-, hcut⟩ | ⟨-, hsame⟩
    · exact ⟨horder.trans hcut.order, hgrant.trans hcut.grant⟩
    · exact ⟨horder.trans (by rw [hsame]), hgrant.trans (by rw [hsame])⟩

theorem Pool.cutSlots_slot (hp : p.setsAgree) {l : List SlotNo} {m : SlotNo} (hm : m ∉ l) :
    (p.cutSlots code override l).slots[m] = p.slots[m] := by
  induction l generalizing p with
  | nil => rfl
  | cons n l ih =>
    obtain ⟨hne, hl⟩ := not_or.1 (List.mem_cons.not.1 hm)
    refine (ih ((p.cutIfFound_reach code override n).setsAgree hp) hl).trans ?_
    rcases Pool.cutIfFound_cases hp code override n with ⟨-, hcut⟩ | ⟨-, hsame⟩
    · exact hcut.others m hne
    · rw [hsame]

/-- The slots of `l` that a CUT finds. -/
def cutAmong (p : Pool) (code : Byte) (l : List SlotNo) (n : SlotNo) : Bool :=
  decide (n ∈ l) && cutFinds p code n

/-- A voice with its successor if `f` picks it, and without otherwise. -/
def Voice.keeping (x : Voice) (f : VoiceRequest → Bool) : Voice :=
  { x with successor := x.successor.filter f }

theorem Voice.keeping_all {x : Voice} {f : VoiceRequest → Bool} (h : ∀ r, f r = true) : x.keeping f = x := by
  cases x
  rename Option VoiceRequest => successor
  cases successor with
  | none => rfl
  | some r => simp [Voice.keeping, Option.filter, h r]

theorem Voice.keeping_keeping (x : Voice) (f g : VoiceRequest → Bool) :
    (x.keeping f).keeping g = x.keeping fun r => f r && g r := by
  simp only [Voice.keeping, Option.filter_filter]

theorem reachedBy_keeping (x : Voice) (first again : Nat) (f : VoiceRequest → Bool) :
    reachedBy (x.keeping f) first again = (reachedBy x first again).keeping f := by
  rw [Voice.keeping, reachedBy_successor, Voice.keeping, reachedBy_keeps_successor]

/-- A voice that a fade reaches keeps its owner or loses it. -/
theorem reachedBy_owner (x : Voice) (first again : Nat) :
    (reachedBy x first again).owner = x.owner ∨ (reachedBy x first again).owner = none := by
  unfold reachedBy
  split
  · exact .inl rfl
  · exact .inr rfl
  · exact .inl rfl
  · exact .inl rfl
  · exact .inl rfl

/-- A voice whose own slot is not found loses successors alone. -/
theorem Pool.cutSlots_voice (hp : p.setsAgree) {l : List SlotNo} {v : VoiceNo}
    (h : ∀ n ∈ l, p.voices[v].owner = some n → cutFinds p code n = false) :
    (p.cutSlots code override l).voices[v] = p.voices[v].keeping fun r => !cutAmong p code l r.slot := by
  induction l generalizing p with
  | nil => exact (Voice.keeping_all fun r => by simp [cutAmong]).symm
  | cons n l ih =>
    obtain ⟨hn, hl⟩ := List.forall_mem_cons.1 h
    have hagree := (p.cutIfFound_reach code override n).setsAgree hp
    have hfinds (m : SlotNo) : cutFinds (p.cutIfFound code override n) code m = cutFinds p code m :=
      cutFinds_congr (Pool.cutIfFound_config hp n m)
    have hstep : (p.cutIfFound code override n).voices[v] =
        p.voices[v].keeping fun r => !(decide (r.slot = n) && cutFinds p code n) := by
      rcases Pool.cutIfFound_cases hp code override n with ⟨hfound, hcut⟩ | ⟨hnot, hsame⟩
      · rw [hcut.other v fun howner => by rw [hn howner] at hfound; cases hfound]
        simp only [hfound, Bool.and_true, ← decide_not_slot]
        rfl
      · rw [hsame, Voice.keeping_all fun r => by simp [hnot]]
    refine (ih hagree fun m hm howner => ?_).trans ?_
    · rw [hfinds]
      rw [hstep] at howner
      exact hl m hm howner
    · rw [hstep, Voice.keeping_keeping]
      congr 1
      funext r
      by_cases hr : r.slot = n
      · simp only [cutAmong, hfinds, hr, List.mem_cons, true_or, decide_true, Bool.true_and]
        cases cutFinds p code n <;> simp
      · simp [cutAmong, hfinds, hr]

/-- A CUT, seen from one slot: the slots before it, the slot, the slots after it. -/
theorem Pool.cut_split (p : Pool) (code : Byte) (override : Option Nat) (n : SlotNo) :
    ∃ before after, List.finRange 48 = before ++ n :: after ∧ n ∉ before ∧ n ∉ after ∧
      p.cut code override =
        ((p.cutSlots code override before).cutIfFound code override n).cutSlots code override after := by
  obtain ⟨before, after, hsplit⟩ := List.append_of_mem (List.mem_finRange n)
  have hnodup := List.nodup_finRange 48
  rw [hsplit, List.nodup_append, List.nodup_cons] at hnodup
  obtain ⟨-, ⟨hafter, -⟩, hbefore⟩ := hnodup
  refine ⟨before, after, hsplit, fun h => hbefore n h n List.mem_cons_self rfl, hafter, ?_⟩
  rw [Pool.cut, hsplit, List.foldl_append, List.foldl_cons]
  rfl

/-- R96: what a CUT makes of slot `n`. -/
theorem Pool.cut_slot (hp : p.setsAgree) (n : SlotNo) :
    ∃ set,
      (p.cut code override).slots[n] =
          { p.slots[n] with
            pending := if cutFinds p code n then none else p.slots[n].pending, voices := set } ∧
        ∀ v : VoiceNo, inSet set v = true ↔
          inSet p.slots[n].voices v = true ∧ ¬ (cutFinds p code n = true ∧ p.voices[v].state = .scheduled) := by
  obtain ⟨before, after, -, hbefore, hafter, hcut⟩ := p.cut_split code override n
  have hagree : (p.cutSlots code override before).setsAgree := Pool.cutSlots_setsAgree hp before
  have hslot : (p.cutSlots code override before).slots[n] = p.slots[n] := Pool.cutSlots_slot hp hbefore
  have hstate (v : VoiceNo) (hv : inSet p.slots[n].voices v = true) :
      (p.cutSlots code override before).voices[v].state = p.voices[v].state := by
    have howner : p.voices[v].owner = some n := (hp.1 n v).1 hv
    rw [Pool.cutSlots_voice hp fun m hm hv => ?_]
    · rfl
    · rw [howner, Option.some_inj] at hv
      exact absurd (hv ▸ hm) hbefore
  have hfinds : cutFinds (p.cutSlots code override before) code n = cutFinds p code n :=
    cutFinds_congr (Pool.cutSlots_config hp before n)
  rw [hcut, Pool.cutSlots_slot ((Pool.cutIfFound_reach _ code override n).setsAgree hagree) hafter]
  rcases Pool.cutIfFound_cases hagree code override n with ⟨hfound, hcuts⟩ | ⟨hnot, hsame⟩
  · rw [hfinds] at hfound
    obtain ⟨set, hset, hin⟩ := hcuts.slot
    refine ⟨set, by rw [hset, hslot, hfound]; rfl, fun v => (hin v).trans ?_⟩
    rw [hslot, hfound]
    exact and_congr_right fun hv => by rw [hstate v hv]; simp
  · rw [hfinds] at hnot
    exact ⟨p.slots[n].voices, by rw [hsame, hslot, hnot]; rfl, fun v => by simp [hnot]⟩

/-- R96: what a CUT makes of a voice whose own slot it finds. -/
theorem Pool.cut_own (hp : p.setsAgree) {v : VoiceNo} {n : SlotNo} (howner : p.voices[v].owner = some n)
    (hfound : cutFinds p code n = true) :
    (p.cut code override).voices[v] =
      (reachedBy p.voices[v] (p.slots[n].cutRate override) (p.slots[n].cutRate override)).keeping
        fun r => !cutFinds p code r.slot := by
  obtain ⟨before, after, hsplit, hbefore, hafter, hcut⟩ := p.cut_split code override n
  have hagree : (p.cutSlots code override before).setsAgree := Pool.cutSlots_setsAgree hp before
  have hvoice : (p.cutSlots code override before).voices[v] =
      p.voices[v].keeping fun r => !cutAmong p code before r.slot := by
    refine Pool.cutSlots_voice hp fun m hm hv => ?_
    rw [howner, Option.some_inj] at hv
    exact absurd (hv ▸ hm) hbefore
  have hfinds (m : SlotNo) : cutFinds (p.cutSlots code override before) code m = cutFinds p code m :=
    cutFinds_congr (Pool.cutSlots_config hp before m)
  have hrate : ((p.cutSlots code override before).slots[n]).cutRate override = p.slots[n].cutRate override :=
    Slot.cutRate_congr (Pool.cutSlots_config hp before n)
  rcases Pool.cutIfFound_cases hagree code override n with ⟨-, hcuts⟩ | ⟨hnot, -⟩
  · have hown : ((p.cutSlots code override before).cutIfFound code override n).voices[v] =
        ((reachedBy p.voices[v] (p.slots[n].cutRate override) (p.slots[n].cutRate override)).keeping
          fun r => !cutAmong p code before r.slot).keeping fun r => decide (r.slot ≠ n) := by
      rw [hcuts.own v (by rw [hvoice]; exact howner), hrate, hvoice, reachedBy_keeping]
      simp only [Voice.keeping, reachedBy_keeps_successor]
    have hafterFinds (m : SlotNo) :
        cutFinds ((p.cutSlots code override before).cutIfFound code override n) code m = cutFinds p code m :=
      (cutFinds_congr (Pool.cutIfFound_config hagree n m)).trans (hfinds m)
    rw [hcut, Pool.cutSlots_voice ((Pool.cutIfFound_reach _ code override n).setsAgree hagree) fun m hm hv => ?_]
    · rw [hown, Voice.keeping_keeping, Voice.keeping_keeping]
      refine congrArg (Voice.keeping _) (funext fun r => ?_)
      have hmem : r.slot ∈ before ∨ r.slot = n ∨ r.slot ∈ after := by
        rw [← List.mem_cons, ← List.mem_append, ← hsplit]
        exact List.mem_finRange r.slot
      simp only [cutAmong, hafterFinds]
      rcases hmem with hr | rfl | hr
      · have hne : r.slot ≠ n := fun e => hbefore (e ▸ hr)
        cases cutFinds p code r.slot <;> simp [hr, hne]
      · simp [hfound]
      · have hne : r.slot ≠ n := fun e => hafter (e ▸ hr)
        cases cutFinds p code r.slot <;> simp [hr, hne]
    · rw [hown] at hv
      rcases reachedBy_owner p.voices[v] (p.slots[n].cutRate override) (p.slots[n].cutRate override) with hsame | hnone
      · have he : some n = some m := howner.symm.trans (hsame.symm.trans hv)
        exact absurd (Option.some_inj.1 he ▸ hm) hafter
      · have he : none = some m := hnone.symm.trans hv
        cases he
  · rw [hfinds, hfound] at hnot
    cases hnot

theorem Pool.cut_order (hp : p.setsAgree) :
    (p.cut code override).order = p.order ∧ (p.cut code override).grant = p.grant := by
  unfold Pool.cut
  exact Pool.cutSlots_order hp _

/-- R96: a voice whose own slot the CUT does not find. -/
theorem Pool.cut_other (hp : p.setsAgree) {v : VoiceNo}
    (h : ∀ n, p.voices[v].owner = some n → cutFinds p code n = false) :
    (p.cut code override).voices[v] = p.voices[v].keeping fun r => !cutFinds p code r.slot := by
  unfold Pool.cut
  refine (Pool.cutSlots_voice hp fun n _ hn => h n hn).trans ?_
  simp only [cutAmong, List.mem_finRange, decide_true, Bool.true_and]

end cut

/-- Settles O36: a STOP, a group stop, a RESTART and a choke go through the voices one by one, a CUT through the
slots. -/
theorem fadesReachVoices : Obligations.FadesReachVoices := by
  intro p q hp
  refine ⟨fun ms hq => Pool.stop_fades hp hq, fun group override hq => Pool.groupStop_fades hp hq,
    fun code override hq => ?_, fun m hq => Pool.restartSlot_fades hp hq, fun chosen r hq =>
      ⟨fun h0 => ?_, fun hgroup =>
      Pool.choke_fades hp hq hgroup⟩⟩
  · rw [hq]
    obtain ⟨horder, hgrant⟩ := Pool.cut_order (code := code) (override := override) hp
    refine ⟨horder, hgrant, fun n => Pool.cut_slot hp n, fun v x hx => ?_⟩
    subst hx
    refine ⟨fun n c play rate howner hfound hconfig haction hsome hnone => ?_, fun h => Pool.cut_other hp h⟩
    have hrate : p.slots[n].cutRate override = rate := by
      simp only [Slot.cutRate, SlotConfig.cutMs, hconfig, haction]
      cases override with
      | some f => exact (hsome f rfl).symm
      | none => exact (hnone rfl).symm
    rw [Pool.cut_own hp howner hfound, hrate, Voice.keeping, reachedBy_keeps_successor]
  · rw [hq, Pool.choke, if_pos h0]

end Sys2Proof.Machine
end

section
/-!
The Mixer and the Fetch Engine at their instants: the sample period and what the outputs send (O38), the envelope tick
(O39), the start and the ends of voices (O33, O34), and the fetch reads (O40, O41).
-/

namespace Sys2Proof.Machine

/-! ## What the outputs send (R157) -/

theorem serialHalf_get (slot : BitVec 24) {i : Nat} (hi : i < 32) :
    (serialHalf slot)[i]? = some (if i < 24 then slot.getLsbD (23 - i) else false) := by
  unfold serialHalf
  by_cases h : i < 24
  · rw [List.getElem?_append_left (by simpa using h), List.getElem?_map, List.getElem?_range h, if_pos h]
    simp only [Option.map_some, BitVec.getMsbD, h, decide_true, Bool.true_and]
  · rw [List.getElem?_append_right (by simpa using h), if_neg h]
    simp only [List.length_map, List.length_range, List.getElem?_replicate]
    rw [if_pos (by omega)]

theorem serialHalf_length (slot : BitVec 24) : (serialHalf slot).length = 32 := by
  simp [serialHalf]

theorem serialChannel_length (high : Bool) (air house : BitVec 24) : (serialChannel high air house).length = 32 := by
  simp [serialChannel, serialHalf_length]

theorem serialChannel_get (high : Bool) (air house : BitVec 24) {i : Nat} (hi : i < 32) {bit : BitVec 24 → Bool}
    (hbit : ∀ slot, bit slot = if i < 24 then slot.getLsbD (23 - i) else false) :
    (serialChannel high air house)[i]? = some { wordClockHigh := high, air := bit air, house := bit house } := by
  rw [serialChannel, List.getElem?_zipWith, serialHalf_get air hi, serialHalf_get house hi, hbit, hbit]

theorem OutputSlots.serial_length (o : OutputSlots) : o.serial.length = 64 := by
  simp [OutputSlots.serial, serialChannel_length]

theorem OutputSlots.serial_get (o : OutputSlots) {i : Nat} (hi : i < 32) {bit : BitVec 24 → Bool}
    (hbit : ∀ slot, bit slot = if i < 24 then slot.getLsbD (23 - i) else false) :
    o.serial[i]? = some { wordClockHigh := false, air := bit o.airLeft, house := bit o.houseLeft } ∧
      o.serial[32 + i]? = some { wordClockHigh := true, air := bit o.airRight, house := bit o.houseRight } := by
  constructor
  · rw [OutputSlots.serial, List.getElem?_append_left (by rw [serialChannel_length]; exact hi),
      serialChannel_get _ _ _ hi hbit]
  · rw [OutputSlots.serial, List.getElem?_append_right (by rw [serialChannel_length]; omega), serialChannel_length,
      Nat.add_sub_cancel_left, serialChannel_get _ _ _ hi hbit]

theorem State.serialNow_eq (s : State) : s.mixer.out.serial[s.clock % 512 / 8]? = some s.serialNow := by
  have hlt : s.clock % 512 / 8 < s.mixer.out.serial.length := by
    rw [OutputSlots.serial_length]
    omega
  rw [State.serialNow, sampleClocks, bitClocks, List.getElem?_eq_getElem hlt]
  rfl

/-! ## The frames of a sample period (R115) -/

theorem State.readingFor_iff (s : State) (v : VoiceNo) :
    s.readingFor v = false ↔ (s.fetch.all fun r => decide (r.voice ≠ v)) = true := by
  unfold State.readingFor
  cases s.fetch <;> simp

theorem State.dataEnded_iff (s : State) (v : VoiceNo) :
    s.dataEnded v = true ↔
      s.pool.voices[v].exhausted = true ∧ s.pool.voices[v].fifo = [] ∧
        (s.fetch.all fun r => decide (r.voice ≠ v)) = true := by
  rw [← State.readingFor_iff]
  simp [State.dataEnded, and_assoc]

theorem State.needsFrame_iff (s : State) (v : VoiceNo) : s.needsFrame v = true ↔ NeedsFrame s v := by
  unfold State.needsFrame State.endsHere Voice.playing NeedsFrame
  rw [← State.dataEnded_iff]
  cases s.pool.voices[v].state <;> simp

theorem List.isEmpty_eq_decide {α : Type} [DecidableEq α] (l : List α) : l.isEmpty = decide (l = []) := by
  cases l <;> simp

/-- R115: what a sample period makes of a voice. -/
theorem State.mixPeriod_voice (s : State) (v : VoiceNo) :
    (NeedsFrame s v →
      s.mixPeriod.pool.voices[v] =
        { s.pool.voices[v] with
          fifo := s.pool.voices[v].fifo.tail, underrun := decide (s.pool.voices[v].fifo = []) }) ∧
    (¬ NeedsFrame s v → s.mixPeriod.pool.voices[v] = s.pool.voices[v]) := by
  rw [State.mixPeriod, mapEach_get]
  refine ⟨fun h => ?_, fun h => ?_⟩
  · rw [if_pos ((s.needsFrame_iff v).2 h), Voice.takeFrame, List.isEmpty_eq_decide]
  · rw [if_neg fun hn => h ((s.needsFrame_iff v).1 hn)]

/-! ## The sums and the clamps (R152 to R156) -/

/-- Sums channel by channel are the sums of the channels. -/
theorem foldl_addChannels (f : VoiceNo → Int × Int × Int × Int) (l : List VoiceNo) (a : Int × Int × Int × Int) :
    l.foldl (fun acc v => addChannels acc (f v)) a =
      (a.1 + (l.map fun v => (f v).1).sum, a.2.1 + (l.map fun v => (f v).2.1).sum,
        a.2.2.1 + (l.map fun v => (f v).2.2.1).sum, a.2.2.2 + (l.map fun v => (f v).2.2.2).sum) := by
  induction l generalizing a with
  | nil => simp
  | cons v l ih =>
    rw [List.foldl_cons, ih]
    simp [addChannels, add_assoc]

/-- R153, R155: the four contributions of a voice. -/
theorem State.contributions_eq (s : State) (v : VoiceNo) :
    s.contributions v =
      (voiceGives s Frame.left Voice.airSend s.mixer.air.current v,
        voiceGives s Frame.right Voice.airSend s.mixer.air.current v,
        voiceGives s Frame.left Voice.houseSend s.mixer.house.current v,
        voiceGives s Frame.right Voice.houseSend s.mixer.house.current v) := by
  have hframe : s.frameOfVoice v = if NeedsFrame s v then s.pool.voices[v].fifo.head? else none :=
    if_congr (s.needsFrame_iff v) rfl rfl
  unfold State.contributions voiceGives
  rw [← hframe]
  cases s.frameOfVoice v <;> rfl

theorem State.busSums_eq (s : State) :
    s.busSums =
      (channelSum s Frame.left Voice.airSend s.mixer.air.current,
        channelSum s Frame.right Voice.airSend s.mixer.air.current,
        channelSum s Frame.left Voice.houseSend s.mixer.house.current,
        channelSum s Frame.right Voice.houseSend s.mixer.house.current) := by
  rw [State.busSums, foldl_addChannels]
  simp only [State.contributions_eq, zero_add, channelSum]

theorem clampSample_toInt (x : Int) : (clampSample x).toInt = max (-32768) (min 32767 x) := by
  unfold clampSample clamp
  rw [BitVec.toInt_ofInt_eq_self (by decide) (by omega) (by omega)]

theorem clamps_iff (x : Int) : clamps x = true ↔ OutOfRange x := by
  simp [clamps, OutOfRange]

theorem State.outputsLive_iff (s : State) :
    s.outputsLive = true ↔ s.loader.loaded = true ∧ s.loader.mode ≠ .service := by
  simp [State.outputsLive]

theorem ErrorRecord.get_bumpTimes {e : ErrorRecord} (h : e.inRange) (c d : ErrorCount) (n : Nat) :
    (e.bumpTimes c n).get d = if d = c then min 65535 (e.get c + n) else e.get d := by
  induction n with
  | zero =>
    split
    · next hd =>
      subst hd
      exact (Nat.min_eq_right (h d)).symm
    · rfl
  | succ n ih =>
    rw [ErrorRecord.bumpTimes, ErrorRecord.get_bump]
    by_cases hd : d = c
    · subst hd
      rw [if_pos rfl] at ih ⊢
      rw [if_pos rfl, ih]
      omega
    · rw [if_neg hd] at ih ⊢
      rw [if_neg (Ne.symm hd), ih]

/-- R156: the buses that clamp. -/
theorem State.clampCount_eq (s : State) {al ar hl hr : Int} (h : s.busSums = (al, ar, hl, hr)) :
    s.clampCount =
      if s.loader.loaded = true ∧ s.loader.mode ≠ .service then
        (if OutOfRange al ∨ OutOfRange ar then 1 else 0) + (if OutOfRange hl ∨ OutOfRange hr then 1 else 0)
      else 0 := by
  have hbus (x y : Int) : (clamps x || clamps y) = true ↔ OutOfRange x ∨ OutOfRange y := by
    rw [Bool.or_eq_true, clamps_iff, clamps_iff]
  unfold State.clampCount
  rw [h]
  exact if_congr s.outputsLive_iff
    (congrArg₂ (· + ·) (if_congr (hbus al ar) rfl rfl) (if_congr (hbus hl hr) rfl rfl)) rfl

/-- R115: the episodes that begin. -/
theorem State.newUnderruns_eq (s : State) :
    s.newUnderruns =
      (List.finRange 12).countP fun v =>
        decide (NeedsFrame s v ∧ s.pool.voices[v].fifo = [] ∧ s.pool.voices[v].underrun = false) := by
  refine List.countP_congr fun v _ => ?_
  rw [decide_eq_true_eq, ← State.needsFrame_iff]
  simp [State.underrunBegins, and_assoc]

/-- Settles O38. -/
theorem samplePeriodMixed : Obligations.SamplePeriodMixed := by
  refine ⟨fun o i bit hi hbit => ⟨o.serial_length, o.serial_get hi hbit⟩, fun s => s.serialNow_eq, ?_⟩
  intro s t hlive hbegin hnext hcounts
  have hexec : exec (.samplePeriod t) s = .next (State.mixPeriod { s with clock := t }) := by
    have hbegins : State.sampleBegins { s with clock := t } = true := by
      simp [State.sampleBegins, State.periodBegins, sampleClocks, hbegin, hnext]
    show Host.Outcome.next (s.onEvent t _) = _
    rw [hlive.onEvent, if_pos hbegins]
  refine ⟨_, _, _, hexec, fun v x hx => ?_, fun al ar hl hr hal har hhl hhr => ?_⟩
  · subst hx
    exact State.mixPeriod_voice { s with clock := t } v
  · have hsums : State.busSums { s with clock := t } = (al, ar, hl, hr) := by
      rw [hal, har, hhl, hhr]
      exact State.busSums_eq _
    have hlive := State.outputsLive_iff { s with clock := t }
    refine ⟨fun hloaded hmode => ?_, fun hsilent => ?_, fun c => ?_⟩
    · rw [State.mixNow, if_pos (hlive.2 ⟨hloaded, hmode⟩), hsums]
      exact ⟨clampSample_toInt _, clampSample_toInt _, clampSample_toInt _, clampSample_toInt _⟩
    · rw [State.mixNow, if_neg fun h => ?_]
      · rfl
      · obtain ⟨hloaded, hmode⟩ := hlive.1 h
        rcases hsilent with h | h
        · rw [h] at hloaded; cases hloaded
        · exact hmode h
    · have hrange : s.errors.inRange := hcounts.errors
      rw [ErrorRecord.get_bumpTimes (hrange.bumpTimes _ _), ErrorRecord.get_bumpTimes hrange,
        ErrorRecord.get_bumpTimes hrange, State.newUnderruns_eq, State.clampCount_eq _ hsums]
      by_cases hu : c = .underruns
      · subst hu
        rfl
      · rw [if_neg hu, if_neg hu]
        by_cases hc : c = .outputClamps
        · subst hc
          have hold : s.errors.get .outputClamps ≤ 65535 := hrange _
          by_cases hsound : s.loader.loaded = true ∧ s.loader.mode ≠ .service
          · simp [hsound, Nat.add_assoc]
          · simp only [hsound, hu, and_false, reduceIte, Nat.add_zero]
            exact Nat.min_eq_right hold
        · rw [if_neg hc, if_neg fun h => hc h.1]

end Sys2Proof.Machine
end

section
/-!
Voices at their instants: the envelope tick (O39), the start and the ends of voices (O33, O34), and the fetch reads
(O40, O41).
-/

namespace Sys2Proof.Machine

/-! ## The envelope tick (R145 to R150) -/

theorem State.sampleBegins_at {s : State} {t : Nat} (hbegin : t % 512 = 0) (hnext : s.mixer.nextSample ≤ t / 512) :
    State.sampleBegins { s with clock := t } = true := by
  simp [State.sampleBegins, State.periodBegins, sampleClocks, hbegin, hnext]

theorem foldl_max_le_iff {α : Type} (f : α → Nat) (l : List α) (a d : Nat) :
    l.foldl (fun top u => max top (f u)) a ≤ d ↔ a ≤ d ∧ ∀ u ∈ l, f u ≤ d := by
  induction l generalizing a with
  | nil => simp
  | cons u l ih => rw [List.foldl_cons, ih, max_le_iff, List.forall_mem_cons, and_assoc]

theorem Pool.push_of {p : Pool} {u v : VoiceNo} (h : Pushes p u v) : p.push v u = p.voices[u].duckDepth := by
  obtain ⟨hne, hstate, hlower⟩ := h
  exact if_pos ⟨hne, by simpa [Voice.ducks] using hstate, hlower⟩

theorem Pool.push_of_not {p : Pool} {u v : VoiceNo} (h : ¬ Pushes p u v) : p.push v u = 0 := by
  refine if_neg fun ⟨hne, hducks, hlower⟩ => h ⟨hne, ?_, hlower⟩
  simpa [Voice.ducks] using hducks

/-- R147: the duck target is the largest depth that is pushed, in fine steps. -/
theorem Pool.duckTarget_eq {p : Pool} {v : VoiceNo} {depth : Nat}
    (htop : ∀ u, Pushes p u v → p.voices[u].duckDepth ≤ depth)
    (hreached : depth = 0 ∨ ∃ u, Pushes p u v ∧ p.voices[u].duckDepth = depth) : p.duckTarget v = depth * 256 := by
  refine congrArg (· * 256) ?_
  refine le_antisymm ((foldl_max_le_iff _ _ _ _).2 ⟨Nat.zero_le _, fun u _ => ?_⟩) ?_
  · by_cases h : Pushes p u v
    · exact (Pool.push_of h).trans_le (htop u h)
    · exact (Pool.push_of_not h).trans_le (Nat.zero_le _)
  · rcases hreached with rfl | ⟨u, hpush, rfl⟩
    · exact Nat.zero_le _
    · rw [← Pool.push_of hpush]
      exact ((foldl_max_le_iff _ _ _ _).1 le_rfl).2 u (List.mem_finRange u)

/-- R148: the three cases of a duck step. -/
theorem duckStep_eq {attack release duck target next : Nat} (hrise : duck < target → next = min target (duck + attack))
    (hfall : target < duck → next = max target (duck - release)) (hstay : duck = target → next = duck) :
    duckStep attack release duck target = next := by
  unfold duckStep
  split
  · next h => exact (hrise h).symm
  · next h =>
    split
    · next h' => exact (hfall h').symm
    · next h' => exact (hstay (by omega)).symm

/-- R150. -/
theorem Master.step_moves (m : Master) :
    m.step.target = m.target ∧ (m.current = m.target → m.step.current = m.current) ∧
      (m.current < m.target → m.step.current = m.current + 1) ∧
      (m.target < m.current → m.step.current + 1 = m.current) := by
  unfold Master.step
  split
  · next h => exact ⟨rfl, fun e => absurd e h.ne, fun _ => rfl, fun e => absurd e h.asymm⟩
  · next h =>
    split
    · next h' => exact ⟨rfl, fun e => absurd e h'.ne', fun e => absurd e h, fun _ => Nat.sub_add_cancel (by omega)⟩
    · next h' => exact ⟨rfl, fun _ => rfl, fun e => absurd e h, fun e => absurd e h'⟩

/-- R145: the envelope and the report of silence in each state of a voice. -/
theorem Voice.envelopeStep_eq (x : Voice) :
    (x.state = .free ∨ x.state = .scheduled → x.envelopeStep = x.envelope) ∧
      (x.state = .running ∨ x.state = .draining → x.envelopeStep = x.envelope - x.rate) ∧
      (x.state = .fading → x.envelopeStep = min 30720 (x.envelope + x.rate)) := by
  unfold Voice.envelopeStep
  cases x.state <;> simp [stepDown, stepUp, fullRange]

/-- Settles O39. -/
theorem envelopeTickSteps : Obligations.EnvelopeTickSteps := by
  intro s t hlive hbegin htick hsample
  have hbegins : State.periodBegins { s with clock := t } milliClocks s.mixer.nextTick = true ∧
      State.sampleBegins { s with clock := t } = true := by
    refine ⟨?_, State.sampleBegins_at (by omega) hsample⟩
    simp [State.periodBegins, milliClocks, hbegin, htick]
  have hexec : exec (.envelopeTick t) s = .next (State.tick { s with clock := t }) := by
    show Host.Outcome.next (s.onEvent t _) = _
    rw [hlive.onEvent, if_pos hbegins]
  refine ⟨_, _, _, hexec, fun m m' hm => ?_, fun v x hx => ?_⟩
  · rcases hm with ⟨rfl, rfl⟩ | ⟨rfl, rfl⟩
    · exact Master.step_moves _
    · exact Master.step_moves _
  · rw [mapEach_get, ← hx]
    obtain ⟨hstill, hsound, hfade⟩ := x.envelopeStep_eq
    refine ⟨fun hfree => ?_, fun hfree depth htop hreached duck hrise hfall hstay => ?_⟩
    · simp [Pool.tickVoice, hfree, hstill (.inl hfree)]
    · have hduck := duckStep_eq hrise hfall hstay
      have htarget := Pool.duckTarget_eq htop hreached
      refine ⟨fun h => ?_, fun h => ?_, fun h => ?_⟩
      · simp [Pool.tickVoice, h, hstill (.inr h), htarget, hduck]
      · have hnot : x.state ≠ .fading := by rcases h with h | h <;> simp [h]
        simp [Pool.tickVoice, hfree, hnot, hsound h, htarget, hduck]
      · simp [Pool.tickVoice, h, hfade h, htarget, hduck, fullRange]

/-! ## Start and end of a voice (R114, R117, R122, R123) -/

/-- Settles O33. -/
theorem voiceStarts : Obligations.VoiceStarts := by
  intro s t v x hlive hbegin hnext hx hscheduled
  have hbegins := State.sampleBegins_at hbegin hnext
  have hexec : exec (.voiceStart t v) s = .next (_ : State) := congrArg Host.Outcome.next (hlive.onEvent _)
  subst hx
  refine ⟨fun hcome => ?_, fun hwait => ?_⟩
  · refine hexec.trans (congrArg _ ((if_pos ⟨hbegins, hscheduled, decide_eq_true hcome⟩).trans ?_))
    have hlate : State.startsLate { s with clock := t } s.pool.voices[v] = true ↔
        512 ≤ t ∧ 0 ≤ (stationTimeAt (t - 512) - s.pool.voices[v].startTime).toInt := by
      rw [State.startsLate, Bool.and_eq_true]
      exact and_congr decide_eq_true_iff decide_eq_true_iff
    exact congrArg (fun e => { s with clock := t, pool := s.pool.setVoice v Voice.start, errors := e })
      (if_congr hlate rfl rfl)
  · refine hexec.trans (congrArg _ (if_neg fun ⟨_, _, hcome⟩ => ?_))
    exact absurd (of_decide_eq_true hcome) (not_le.2 hwait)

theorem State.dataEnded_of {s : State} {v : VoiceNo} {t : Nat} (hexhausted : s.pool.voices[v].exhausted = true)
    (hfifo : s.pool.voices[v].fifo = []) (hread : ∀ r, s.fetch = some r → r.voice ≠ v) :
    State.dataEnded { s with clock := t } v = true := by
  refine (State.dataEnded_iff _ v).2 ⟨hexhausted, hfifo, ?_⟩
  simpa [Option.all_eq_true] using hread

theorem Pool.silence_eq {p q : Pool} {clips : ClipTable} {v : VoiceNo}
    (hfree : p.voices[v].successor = none → q = p.free v)
    (hhand : ∀ r, p.voices[v].successor = some r → q = p.allocate clips v r) : p.silence clips v = q := by
  unfold Pool.silence
  split
  · next h => exact (hfree h).symm
  · next h => exact (hhand _ h).symm

/-- Settles O34. -/
theorem voicesEnd : Obligations.VoicesEnd := by
  intro s t v x hlive hx
  subst hx
  refine ⟨fun hbegin hnext hstate hexhausted hfifo hread after hafter => ?_,
    fun hstate pool hfree hhand => ⟨fun hsilent => ?_, fun hbegin hnext hexhausted hfifo hread => ?_⟩⟩
  · have hexec : exec (.voiceNaturalEnd t v) s =
        .next (after.raiseEndCode s.pool.voices[v].endCode s.pool.voices[v].endRoute) := by
      rw [hafter]
      exact congrArg Host.Outcome.next ((hlive.onEvent _).trans
        (if_pos ⟨State.sampleBegins_at hbegin hnext, hstate, State.dataEnded_of hexhausted hfifo hread⟩))
    rw [hexec]
    refine ⟨fun hnone => ?_, fun c hcode hroute => ?_, fun c hcode hroute => ?_⟩
    · rw [hnone]; rfl
    · rw [hcode, hroute, hafter]; rfl
    · rw [hcode, hroute]; rfl
  · rw [← Pool.silence_eq hfree hhand]
    exact congrArg Host.Outcome.next ((hlive.onEvent _).trans (if_pos ⟨hstate, hsilent⟩))
  · rw [← Pool.silence_eq hfree hhand]
    exact congrArg Host.Outcome.next ((hlive.onEvent _).trans
      (if_pos ⟨State.sampleBegins_at hbegin hnext, hstate, State.dataEnded_of hexhausted hfifo hread⟩))

/-! ## Fetch reads (R133 to R135) -/

theorem State.requestsRefill_iff {s : State} {t : Nat} {g : Option Grant} (hfetch : s.fetch = none) (v : VoiceNo) :
    State.requestsRefill { s with clock := t, pool := { s.pool with grant := g } } v = true ↔ Requests s v := by
  have hflight : State.framesInFlight { s with clock := t, pool := { s.pool with grant := g } } v = 0 := by
    rw [State.framesInFlight, hfetch]
  rw [State.requestsRefill, hflight]
  simp [WantsFrames, and_assoc, or_assoc]

theorem readLimit_eq {c : Clip} {looping : Bool} {limit : Nat} (hfull : looping = false → limit = c.frames)
    (hloop : looping = true → ∃ l, c.loop = some l ∧ limit = l.last) : readLimit c looping = limit := by
  cases looping with
  | false =>
    rw [hfull rfl, readLimit]
    intro l _ h; cases h
  | true =>
    obtain ⟨l, hl, rfl⟩ := hloop rfl
    simp only [readLimit, hl]

theorem Channels.count_eq (c : Channels) : 2 * c.count = if c = .mono then 2 else 4 := by
  cases c <;> rfl

/-- R134: what the issue of a read makes of the voice that gets it. -/
theorem Voice.advanceCursor_eq {x : Voice} {c : Clip} {limit size : Nat} (hlimit : readLimit c x.loop = limit) :
    (x.cursor + size ≠ limit → x.advanceCursor c size = { x with cursor := x.cursor + size }) ∧
    (x.cursor + size = limit → ∀ l, x.loop = true → c.loop = some l →
      x.advanceCursor c size = { x with cursor := l.first }) ∧
    (x.cursor + size = limit → x.loop = false →
      x.advanceCursor c size =
        { x with
          cursor := limit, exhausted := true, state := if x.state = .running then .draining else x.state }) := by
  unfold Voice.advanceCursor
  rw [hlimit]
  refine ⟨fun h => if_neg h, fun h l hloop hl => ?_, fun h hloop => ?_⟩
  · rw [if_pos h, if_pos hloop, loopStart, hl]
  · rw [if_pos h, if_neg (by rw [hloop]; decide), h]

/-- R133: the arbiter takes the requesting voice with the fewest frames, the lowest-numbered among equals. -/
theorem State.refillChoice_first {s : State} {v : VoiceNo} (hv : s.requestsRefill v = true)
    (hfirst : ∀ u, s.requestsRefill u = true →
      s.pool.voices[v].fifo.length < s.pool.voices[u].fifo.length ∨
        s.pool.voices[v].fifo.length = s.pool.voices[u].fifo.length ∧ v ≤ u) : s.refillChoice = some v := by
  obtain ⟨before, after, hsplit, hbefore⟩ := finRange_split v
  rw [State.refillChoice_eq, hsplit]
  refine firstBest_eq hv (fun u hu hok => ?_) fun u _ hok => ?_
  · rcases hfirst u hok with hlt | ⟨-, hle⟩
    · exact hlt
    · exact absurd (hbefore u hu) (not_lt.2 hle)
  · rcases hfirst u hok with hlt | ⟨heq, -⟩
    · exact not_lt.2 hlt.le
    · exact not_lt.2 heq.le

theorem State.refillChoice_none {s : State} (h : ∀ v, s.requestsRefill v = false) : s.refillChoice = none := by
  rw [State.refillChoice_eq]
  exact firstBest_none (fun u _ => h u) none

theorem State.refill_eq {s : State} {v : VoiceNo} {clip : Clip} {size width : Nat}
    (hclip : s.clips.clip s.pool.voices[v].clip = some clip) (hsize : s.pool.voices[v].readSize clip = size)
    (hwidth : 2 * clip.channels.count = width) :
    s.refill v =
      { s with
        fetch :=
          some
            { voice := v, generation := s.pool.voices[v].generation, size := size
              address := clip.address + width * s.pool.voices[v].cursor, channels := clip.channels
              dueAt := s.clock + (24 + 2 * (width * size)) }
        pool := { s.pool with voices := s.pool.voices.set v (s.pool.voices[v].advanceCursor clip size) } } := by
  have hbytes : size * 2 * clip.channels.count = width * size := by
    rw [← hwidth]; ring
  rw [State.refill, hclip]
  simp only [State.issueRead, State.readFor, hsize, Clip.frameAddress, hwidth, hbytes, readClocks]
  rw [Pool.setVoice, update, hsize]

theorem State.liveAt.fetchReadIssue {s : State} {t : Nat} (hlive : s.liveAt t) (hmode : s.loader.mode = .online)
    (hfetch : s.fetch = none) (hflash : s.flash.op = none) :
    exec (.fetchReadIssue t) s = .next (State.issueNext { s with clock := t }) := by
  refine congrArg Host.Outcome.next ((hlive.onEvent _).trans (if_pos ⟨hmode, ?_, ?_⟩))
  · exact Option.isNone_iff_eq_none.2 hfetch
  · simp [Flash.busy, hflash]

theorem State.grantStands_iff {s : State} {t : Nat} (hfetch : s.fetch = none) (g : Grant) :
    State.grantStands { s with clock := t, pool := { s.pool with grant := none } } g = true ↔
      Requests s g.voice ∧ g.generation = s.pool.voices[g.voice].generation := by
  rw [State.grantStands, Bool.and_eq_true, State.requestsRefill_iff hfetch, decide_eq_true_iff]
  exact and_congr_right fun _ => eq_comm

/-- R133: the voice that the next read goes to. -/
theorem State.issueNext_refill {s : State} {t : Nat} {v : VoiceNo} (hfetch : s.fetch = none) (hv : Requests s v)
    (hchosen : (s.pool.grant = none ∧
        ∀ u, Requests s u →
          s.pool.voices[v].fifo.length < s.pool.voices[u].fifo.length ∨
            s.pool.voices[v].fifo.length = s.pool.voices[u].fifo.length ∧ v ≤ u) ∨
      ∃ g, s.pool.grant = some g ∧ g.voice = v ∧ g.generation = s.pool.voices[v].generation) :
    State.issueNext { s with clock := t } =
      State.refill { s with clock := t, pool := { s.pool with grant := none } } v := by
  have hreq := State.requestsRefill_iff (t := t) (g := s.pool.grant) hfetch
  unfold State.issueNext
  rcases hchosen with ⟨hgrant, hfirst⟩ | ⟨g, hgrant, rfl, hgeneration⟩
  · have hkept : { s.pool with grant := none } = s.pool := by rw [← hgrant]
    rw [State.refillChoice_first ((hreq v).2 hv) fun u hu => hfirst u ((hreq u).1 hu), hgrant, hkept]
  · rw [hgrant]
    exact if_pos ((State.grantStands_iff hfetch g).2 ⟨hv, hgeneration⟩)

/-- R133, R134: a grant whose voice no longer stands for it gets the first frames of the clip it had. -/
theorem State.issueNext_stale {s : State} {t : Nat} {g : Grant} {clip : Clip} (hfetch : s.fetch = none)
    (hgrant : s.pool.grant = some g)
    (hgone : ¬ (Requests s g.voice ∧ g.generation = s.pool.voices[g.voice].generation))
    (hclip : s.clips.clip g.clip = some clip) :
    State.issueNext { s with clock := t } =
      { s with clock := t, fetch := some (g.read clip t), pool := { s.pool with grant := none } } := by
  unfold State.issueNext
  rw [hgrant]
  refine (if_neg fun h => hgone ((State.grantStands_iff hfetch g).1 h)).trans ?_
  rw [hclip]

/-- Settles O40. -/
theorem fetchReadIssued : Obligations.FetchReadIssued := by
  intro s t hlive hmode hfetch hflash
  rw [hlive.fetchReadIssue hmode hfetch hflash]
  refine ⟨fun hgrant hnone => ?_, fun v x clip limit size width hv hchosen hx hclip hfull hloop hsize hwidth => ?_,
    fun g clip limit size width hgrant hgone hclip hfull hloop hsize hwidth => ?_⟩
  · have hquiet : State.refillChoice { s with clock := t } = none :=
      State.refillChoice_none fun v =>
        Bool.eq_false_iff.2 fun h => hnone v ((State.requestsRefill_iff (g := s.pool.grant) hfetch v).1 h)
    unfold State.issueNext
    rw [hgrant, hquiet]
  · subst hx hsize hwidth
    have hlimit := readLimit_eq hfull hloop
    have hsize : s.pool.voices[v].readSize clip = min 32 (limit - s.pool.voices[v].cursor) :=
      congrArg (fun l => min 32 (l - s.pool.voices[v].cursor)) hlimit
    refine ⟨_, congrArg _ ((State.issueNext_refill hfetch hv hchosen).trans ?_), Voice.advanceCursor_eq hlimit⟩
    exact State.refill_eq hclip hsize clip.channels.count_eq
  · subst hsize hwidth
    rw [State.issueNext_stale hfetch hgrant hgone hclip, Grant.read, readLimit_eq hfull hloop]
    have hbytes : min 32 limit * 2 * clip.channels.count =
        (if clip.channels = .mono then 2 else 4) * min 32 limit := by
      rw [← clip.channels.count_eq]; ring
    rw [hbytes, readClocks]

/-! ## The frames of a read (R127, R135) -/

theorem framesOf_mono_get {lo hi : Byte} : ∀ {bs : List Byte} {i : Nat},
    bs[2 * i]? = some lo → bs[2 * i + 1]? = some hi →
    (framesOf .mono bs)[i]? = some (.mono (sampleOf lo hi))
  | [], _, hlo, _ => by simp at hlo
  | [_], _, _, hhi => by simp at hhi
  | lo' :: hi' :: rest, 0, hlo, hhi => by
    cases hlo
    cases hhi
    rfl
  | _ :: _ :: rest, i + 1, hlo, hhi => framesOf_mono_get (bs := rest) (i := i) hlo hhi

theorem framesOf_stereo_get {ll lh rl rh : Byte} : ∀ {bs : List Byte} {i : Nat}, bs[4 * i]? = some ll →
    bs[4 * i + 1]? = some lh → bs[4 * i + 2]? = some rl → bs[4 * i + 3]? = some rh →
    (framesOf .stereo bs)[i]? = some (.stereo (sampleOf ll lh) (sampleOf rl rh))
  | [], _, hll, _, _, _ => by simp at hll
  | [_], _, _, _, _, hrh | [_, _], _, _, _, _, hrh | [_, _, _], _, _, _, _, hrh => by
    simp only [List.getElem?_eq_some_iff, List.length_cons, List.length_nil] at hrh
    obtain ⟨hlt, -⟩ := hrh
    omega
  | _ :: _ :: _ :: _ :: rest, 0, hll, hlh, hrl, hrh => by
    cases hll
    cases hlh
    cases hrl
    cases hrh
    rfl
  | _ :: _ :: _ :: _ :: rest, i + 1, hll, hlh, hrl, hrh => framesOf_stereo_get (bs := rest) (i := i) hll hlh hrl hrh

/-- R127: the frames of a run of the flash, sample by sample. -/
theorem framesOf_readRun_get {m : List Host.Cell} (hm : Memory.wf m) (channels : Channels) (address : Nat)
    {size i : Nat}
    (hi : i < size) {word : Nat → Sample} (hword : ∀ a, word a = Memory.read m (a + 1) ++ Memory.read m a) :
    (framesOf channels (Memory.readRun m address (size * 2 * channels.count)))[i]? =
      some
        (match channels with
        | .mono => .mono (word (address + 2 * i))
        | .stereo => .stereo (word (address + 4 * i)) (word (address + 4 * i + 2))) := by
  have hbyte : ∀ k, k < size * 2 * channels.count →
      (Memory.readRun m address (size * 2 * channels.count))[k]? = some (Memory.read m (address + k)) :=
    fun k hk => Memory.readRun_get hm address hk
  cases channels with
  | mono =>
    simp only [Channels.count] at hbyte ⊢
    rw [framesOf_mono_get (hbyte _ (by omega)) (hbyte _ (by omega)), hword]
    rfl
  | stereo =>
    simp only [Channels.count] at hbyte ⊢
    rw [framesOf_stereo_get (hbyte _ (by omega)) (hbyte _ (by omega)) (hbyte _ (by omega)) (hbyte _ (by omega)), hword,
      hword]
    rfl

theorem Pool.current_iff (p : Pool) (r : FetchRead) :
    p.current r = true ↔ p.voices[r.voice].state ≠ .free ∧ p.voices[r.voice].generation = r.generation := by
  simp [Pool.current]

theorem State.liveAt.fetchReadComplete {s : State} {t : Nat} {r : FetchRead} (hlive : s.liveAt t)
    (hfetch : s.fetch = some r)
    (hdue : r.dueAt ≤ t) (hfits : s.pool.current r = true → r.address + r.bytes ≤ flashSize) :
    exec (.fetchReadComplete t) s = .next (State.finishRead { s with clock := t } r) := by
  have hended : State.readEnded { s with clock := t } = some r := by
    simp only [State.readEnded, hfetch]
    exact if_pos ⟨hlive.running, hdue⟩
  show execFetchReadComplete t s = _
  rw [execFetchReadComplete, hlive.advance, hended]
  exact if_neg fun ⟨hcurrent, hpast⟩ => absurd (hfits hcurrent) (not_le.2 hpast)

/-- Settles O41. -/
theorem fetchReadCompletes : Obligations.FetchReadCompletes := by
  intro s t r hlive hfetch hdue hwf
  refine ⟨fun hstate hgeneration hfits => ?_, fun hstale => ?_⟩
  · have hbytes : r.bytes = r.size * (if r.channels = .mono then 2 else 4) := by
      rw [FetchRead.bytes, Nat.mul_assoc, r.channels.count_eq]
    have hcurrent := (s.pool.current_iff r).2 ⟨hstate, hgeneration⟩
    refine ⟨framesOf r.channels (Memory.readRun s.flash.mem r.address r.bytes), ?_,
      framesOf_length _ _ _ (Memory.readRun_length _ _ _), fun i hi word hword =>
        framesOf_readRun_get hwf r.channels r.address hi hword⟩
    rw [hlive.fetchReadComplete hfetch hdue fun _ => hbytes ▸ hfits]
    exact congrArg _ (if_pos hcurrent)
  · have hnot : ¬ s.pool.current r = true := fun h => by
      obtain ⟨hstate, hgeneration⟩ := (s.pool.current_iff r).1 h
      exact hstale.elim hstate fun hother => hother hgeneration
    rw [hlive.fetchReadComplete hfetch hdue fun h => absurd h hnot]
    exact congrArg _ (if_neg hnot)

end Sys2Proof.Machine
end

section
/-!
The Input Scanner (O42, O43) and the Lamp Driver (O44).
-/

namespace Sys2Proof.Machine

/-! ## What handing an action on leaves of the Input Scanner -/

/-- The records of the Input Scanner are as before. -/
structure ScannerKept (s u : State) : Prop where
  inputs : u.inputs = s.inputs
  nextScan : u.nextScan = s.nextScan

theorem ScannerKept.refl (s : State) : ScannerKept s s :=
  ⟨rfl, rfl⟩

theorem ScannerKept.trans {s u w : State} (h : ScannerKept s u) (k : ScannerKept u w) : ScannerKept s w :=
  ⟨k.inputs.trans h.inputs, k.nextScan.trans h.nextScan⟩

theorem ScannerKept.foldl {α : Type} (f : State → α → State) (h : ∀ s a, ScannerKept s (f s a)) (s : State)
    (l : List α) :
    ScannerKept s (l.foldl f s) := by
  induction l generalizing s with
  | nil => exact .refl s
  | cons a l ih => exact (h s a).trans (ih _)

theorem State.requestFrame_scanner (s : State) (r : FrameRequest) : ScannerKept s (s.requestFrame r) := by
  unfold State.requestFrame
  split
  · exact ⟨rfl, rfl⟩
  · exact .refl s

theorem State.act_scanner (s : State) (n : SlotNo) (fire : StationTime) (seat : Option Seat) :
    ScannerKept s (s.act n fire seat) := by
  unfold State.act
  split
  · exact .refl s
  · next c _ =>
    unfold State.runAction
    cases c.action with
    | play c => exact ⟨rfl, rfl⟩
    | stopGroup group override => exact ⟨rfl, rfl⟩
    | lamp o => exact ⟨rfl, rfl⟩
    | emit code singleTry seatThrough =>
      exact .trans (u := { s with pool := s.pool.setSlot n _ }) ⟨rfl, rfl⟩ (State.requestFrame_scanner _ _)

theorem State.takeTrigger_scanner (s : State) (t : Trigger) : ScannerKept s (s.takeTrigger t) := by
  unfold State.takeTrigger
  split
  · refine ScannerKept.foldl _ (fun s n => ?_) s _
    unfold State.slotTake
    split
    · exact ⟨rfl, rfl⟩
    · exact s.act_scanner n _ _
  · exact .refl s

theorem State.handOutput_scanner (fire : StationTime) (s : State) (o : RoundOutput) :
    ScannerKept s (s.handOutput fire o) := by
  unfold State.handOutput
  split
  · exact ⟨rfl, rfl⟩
  · split
    · exact .refl s
    · exact s.takeTrigger_scanner _

theorem State.earlyPress_scanner (s : State) (seat : Seat) (press : StationTime) :
    ScannerKept s (s.earlyPress seat press) := by
  have hpressed (p : Vector (Option StationTime) 16) : ScannerKept s
    (State.count { s with penalties := p } .earlyPresses) :=
    ⟨rfl, rfl⟩
  exact ((hpressed _).trans (State.handOutput_scanner _ _ _)).trans ⟨rfl, rfl⟩

theorem State.buzzPress_scanner (s : State) (seat : Seat) (press : StationTime) :
    ScannerKept s (s.buzzPress seat press) := by
  unfold State.buzzPress
  split
  · exact .refl s
  · split
    · exact s.earlyPress_scanner seat press
    · split
      · exact .refl s
      · split
        · exact s.requestFrame_scanner _
        · exact .refl s

theorem State.fireAction_scanner (s : State) (a : InputAction) : ScannerKept s (s.fireAction a) := by
  unfold State.fireAction
  cases a with
  | none => exact .refl s
  | buzz seat => exact s.buzzPress_scanner _ _
  | localCode code => exact s.takeTrigger_scanner _
  | go | cut | judge | stop => exact s.requestFrame_scanner _

/-! ## The scan of the eight records (R160) -/

theorem State.scanInput_record (closed : Byte) (s : State) (i j : Fin 8) :
    (s.scanInput closed i).inputs[j] =
      if i = j then (s.inputs[i].scan (lineLevel closed i) s.now).1 else s.inputs[j] := by
  rw [State.scanInput, (State.fireAction_scanner _ _).inputs]
  exact update_get s.inputs i j fun _ => (s.inputs[i].scan (lineLevel closed i) s.now).1

theorem State.scanInput_clock (closed : Byte) (s : State) (i : Fin 8) : (s.scanInput closed i).clock = s.clock :=
  (State.fireAction_work _ _).clock

theorem State.scanInput_nextScan (closed : Byte) (s : State) (i : Fin 8) :
    (s.scanInput closed i).nextScan = s.nextScan :=
  (State.fireAction_scanner _ _).nextScan

theorem State.scanInputs_kept (closed : Byte) (l : List (Fin 8)) (s : State) :
    (l.foldl (State.scanInput closed) s).clock = s.clock ∧
      (l.foldl (State.scanInput closed) s).nextScan = s.nextScan := by
  induction l generalizing s with
  | nil => exact ⟨rfl, rfl⟩
  | cons i l ih =>
    obtain ⟨hclock, hnext⟩ := ih (s.scanInput closed i)
    exact ⟨hclock.trans (s.scanInput_clock closed i), hnext.trans (s.scanInput_nextScan closed i)⟩

/-- Each input that is taken once takes its own step, in whatever order. -/
theorem State.scanInputs_record (closed : Byte) {l : List (Fin 8)} (hl : l.Nodup) (s : State) (j : Fin 8) :
    (l.foldl (State.scanInput closed) s).inputs[j] =
      if j ∈ l then (s.inputs[j].scan (lineLevel closed j) s.now).1 else s.inputs[j] := by
  induction l generalizing s with
  | nil => rfl
  | cons i l ih =>
    obtain ⟨hi, hl⟩ := List.nodup_cons.1 hl
    have hnow : (s.scanInput closed i).now = s.now := congrArg stationTimeAt (s.scanInput_clock closed i)
    rw [List.foldl_cons, ih hl, hnow, State.scanInput_record]
    by_cases hj : i = j
    · subst hj
      rw [if_neg hi, if_pos rfl, if_pos List.mem_cons_self]
    · rw [if_neg hj]
      exact if_congr (by simp [Ne.symm hj]) rfl rfl

theorem scanOrder_nodup (order : List (Fin 8)) : (scanOrder order).Nodup := by
  refine List.Nodup.append order.nodup_dedup ((List.nodup_finRange 8).filter _) fun i hi hother => ?_
  have hnot := (List.mem_filter.1 hother).2
  exact of_decide_eq_true hnot (List.mem_dedup.1 hi)

theorem mem_scanOrder (order : List (Fin 8)) (i : Fin 8) : i ∈ scanOrder order := by
  rw [scanOrder, List.mem_append, List.mem_dedup, List.mem_filter]
  by_cases h : i ∈ order
  · exact .inl h
  · exact .inr ⟨List.mem_finRange i, decide_eq_true h⟩

/-! ## One record at a scan (R160 to R163) -/

theorem InputConfig.longInUse_iff (c : InputConfig) : c.longInUse = true ↔ LongInUse c := by
  simp [InputConfig.longInUse]

theorem Input.longReached_eq (x : Input) (c : InputConfig) (now : StationTime) :
    x.longReached c now =
      x.pressTime.any fun p => decide (now = p + BitVec.ofNat 32 (c.longTime * 10 * 1000)) := by
  unfold Input.longReached
  cases x.pressTime <;> rfl

section scan

variable {x : Input} {c : InputConfig} {was level : Contact} {now : StationTime}

theorem Input.scan_unconfigured (h : x.config = none) : x.scan level now = (x, .none) := by
  rw [Input.scan, h]

theorem Input.scan_first (hc : x.config = some c) (h : x.level = none) : x.scan level now = (x.adopt level, .none) := by
  simp [Input.scan, hc, h]

theorem Input.scan_later (hc : x.config = some c) (h : x.level = some was) :
    x.scan level now = (x.debounceStep c level).1.holdStep c (x.debounceStep c level).2 now := by
  simp [Input.scan, hc, h]

/-- No change is taken: the level is the same, or its run is still shorter than the debounce time. -/
theorem Input.debounceStep_quiet {run : Nat} (h : x.level = some was) (hsame : was = level → run = 0)
    (hother : was ≠ level → run = x.run + 1) (hquiet : was = level ∨ x.run + 1 < c.debounce) :
    x.debounceStep c level = ({ x with run := run }, .none) := by
  by_cases heq : was = level
  · rw [Input.debounceStep, if_pos (by rw [h, heq]), hsame heq]
  · have hne : x.level ≠ some level := by
      rw [h]
      exact fun e => heq (Option.some.inj e)
    rw [Input.debounceStep, if_neg hne, if_neg (not_le.2 (hquiet.resolve_left heq)), hother heq]

theorem Input.debounceStep_change (h : x.level = some was) (hne : was ≠ level) (hrun : c.debounce ≤ x.run + 1) :
    x.debounceStep c level = ({ x with level := some level, run := 0 }, Change.to level) := by
  have hne : x.level ≠ some level := by
    rw [h]
    exact fun e => hne (Option.some.inj e)
  rw [Input.debounceStep, if_neg hne, if_pos hrun]

/-- R163: a hold that has lasted the long time is spent, and fires. -/
theorem Input.holdStep_quiet (x : Input) (c : InputConfig) (now : StationTime) :
    x.holdStep c .none now =
      if LongInUse c ∧ x.hold = .waiting ∧
          (x.pressTime.any fun p => decide (now = p + BitVec.ofNat 32 (c.longTime * 10 * 1000))) = true then
        ({ x with hold := .spent }, c.long)
      else (x, .none) := by
  rw [← Input.longReached_eq]
  exact if_congr (and_congr c.longInUse_iff Iff.rfl) rfl rfl

theorem Input.holdStep_press (x : Input) (c : InputConfig) (now : StationTime) :
    x.holdStep c .press now =
      ({ x with pressTime := some now, hold := if LongInUse c then .waiting else x.hold },
        if LongInUse c then .none else c.short) := by
  have h := c.longInUse_iff
  by_cases hlong : LongInUse c
  · simp only [Input.holdStep, h.2 hlong, if_true, if_pos hlong]
  · simp only [Input.holdStep, Bool.eq_false_iff.2 fun e => hlong (h.1 e), if_neg hlong]
    rfl

theorem Input.holdStep_release (x : Input) (c : InputConfig) (now : StationTime) :
    x.holdStep c .release now =
      ({ x with hold := .none }, if LongInUse c ∧ x.hold = .waiting then c.short else .none) :=
  congrArg (Prod.mk _) (if_congr (and_congr c.longInUse_iff Iff.rfl) rfl rfl)

end scan

theorem State.liveAt.inputScan {s : State} {t : Nat} (hlive : s.liveAt t) (hbegin : t % 24576 = 0)
    (hnext : s.nextScan ≤ t / 24576) (closed : Byte) (order : List (Fin 8)) :
    exec (.inputScan t closed order) s = .next
      ((scanOrder order).foldl (State.scanInput closed) { s with clock := t, nextScan := t / 24576 + 1 }) := by
  refine congrArg Host.Outcome.next ((hlive.onEvent _).trans (if_pos ?_))
  simp [State.periodBegins, milliClocks, hbegin, hnext]

/-- Settles O42. -/
theorem inputRecordsScanned : Obligations.InputRecordsScanned := by
  intro s t closed order hlive hbegin hnext
  obtain ⟨hclock, hnextScan⟩ :=
    State.scanInputs_kept closed (scanOrder order) { s with clock := t, nextScan := t / 24576 + 1 }
  refine ⟨_, hlive.inputScan hbegin hnext closed order, hclock, hnextScan, fun i x level hx hlevel => ?_⟩
  have hrecord : ((scanOrder order).foldl (State.scanInput closed)
      { s with clock := t, nextScan := t / 24576 + 1 }).inputs[i] = (x.scan level (stationTimeAt t)).1 := by
    rw [State.scanInputs_record closed (scanOrder_nodup order), if_pos (mem_scanOrder order i), hx, hlevel]
    rfl
  rw [hrecord]
  refine ⟨fun hnone => by rw [Input.scan_unconfigured hnone], fun c hc => ⟨fun hfirst => ?_, fun was hwas => ?_⟩⟩
  · rw [Input.scan_first hc hfirst, Input.adopt]
  · rw [Input.scan_later hc hwas]
    refine ⟨fun run hold hsame hother hhold hquiet => ?_, fun hne hrun => ?_⟩
    · rw [Input.debounceStep_quiet hwas hsame hother hquiet, Input.holdStep_quiet, hhold]
      split
      · rfl
      · rfl
    · rw [Input.debounceStep_change hwas hne hrun]
      refine ⟨fun hclosed => ?_, fun hopen => ?_⟩
      · subst hclosed
        exact congrArg Prod.fst (Input.holdStep_press _ c _)
      · subst hopen
        exact congrArg Prod.fst (Input.holdStep_release _ c _)

/-- Settles O43. -/
theorem inputActionsFired : Obligations.InputActionsFired := by
  intro s t closed hlive hbegin hnext
  refine ⟨fun order hnodup => ?_, fun u i x level hx hlevel => ?_, fun u => ?_⟩
  · rw [hlive.inputScan hbegin hnext closed order, scanOrder, hnodup.dedup]
  · refine ⟨(x.scan level u.now).1, (x.scan level u.now).2, ?_, fun hnone => ?_, fun c was hc hwas => ?_⟩
    · rw [hx, hlevel]; rfl
    · cases hc : x.config with
      | none => rw [Input.scan_unconfigured hc]
      | some c =>
        have hfirst : x.level = none := hnone.resolve_left (by rw [hc]; nofun)
        rw [Input.scan_first hc hfirst]
    · rw [Input.scan_later hc hwas]
      refine ⟨fun hopen hclosed hrun => ?_, fun hclosed hopen hrun => ?_, fun hquiet => ?_⟩
      · subst hopen hclosed
        rw [Input.debounceStep_change (level := .closed) hwas (by decide) hrun]
        exact congrArg Prod.snd (Input.holdStep_press _ c _)
      · subst hopen hclosed
        rw [Input.debounceStep_change (level := .open) hwas (by decide) hrun]
        exact congrArg Prod.snd (Input.holdStep_release _ c _)
      · rw [Input.debounceStep_quiet (run := if was = level then 0 else x.run + 1) hwas (fun h => if_pos h)
          (fun h => if_neg h) hquiet, Input.holdStep_quiet]
        refine ⟨fun hlong hwaiting hreached => ?_, fun hnot => ?_⟩
        · rw [if_pos ⟨hlong, hwaiting, by simpa [Option.any_eq_true] using hreached⟩]
        · refine congrArg Prod.snd (if_neg fun ⟨hlong, hwaiting, hreached⟩ => ?_)
          obtain ⟨p, hp, hnow⟩ := (Option.any_eq_true _ _).1 hreached
          rcases hnot with h | h | h
          · exact h hlong
          · exact h hwaiting
          · exact h p hp (of_decide_eq_true hnow)
  · refine ⟨rfl, fun seat => rfl, fun code seat once => ?_, fun code => rfl, fun code => rfl,
      fun verb code payload mode hverb hmode hpayload => ?_, rfl⟩
    · cases seat <;> rfl
    · have hsubject : verbByte verb = code := by
        simp only [List.mem_cons, Prod.mk.injEq, List.not_mem_nil, or_false] at hverb
        rcases hverb with ⟨rfl, rfl⟩ | ⟨rfl, rfl⟩ | ⟨rfl, rfl⟩ | ⟨rfl, rfl⟩ | ⟨rfl, rfl⟩ <;> rfl
      have hbytes : judgePayload u.station.armPreset verb = payload := by
        simp only [List.mem_cons, Prod.mk.injEq, List.not_mem_nil, or_false] at hmode
        rw [hpayload]
        cases verb with
        | arm =>
          rcases hmode with ⟨h, rfl⟩ | ⟨h, rfl⟩
          · simp only [judgePayload, armBytes, h]; rfl
          · simp only [judgePayload, armBytes, h]; rfl
        | openBuzzers | right | wrong | void => rfl
      rw [← hsubject, ← hbytes]
      rfl

end Sys2Proof.Machine
end

section
/-!
The Lamp Driver (O44): what the lamp lines show, the patterns of the rows, the row of each seat, and the end of a CUE
lamp's duration.
-/

namespace Sys2Proof.Machine

/-! ## The row of a seat (R57, R168) -/

theorem State.hosts_iff (s : State) (seat : Seat) :
    s.hosts seat = true ↔
      ∃ (i : Fin 8) (c : InputConfig), s.inputs[i].config = some c ∧ (c.short = .buzz seat ∨ c.long = .buzz seat) := by
  have hone (x : Input) : (match x.config with
      | none => false
      | some c => c.short.buzzes seat || c.long.buzzes seat) = true ↔
        ∃ c, x.config = some c ∧ (c.short = .buzz seat ∨ c.long = .buzz seat) := by
    cases x.config <;> simp [InputAction.buzzes]
  rw [State.hosts, List.any_eq_true]
  constructor
  · rintro ⟨x, hx, h⟩
    obtain ⟨i, hi, rfl⟩ := Vector.mem_iff_getElem.1 (Vector.mem_toList_iff.1 hx)
    exact ⟨⟨i, hi⟩, (hone _).1 h⟩
  · rintro ⟨i, h⟩
    exact ⟨s.inputs[i], Vector.mem_toList_iff.2 (Vector.getElem_mem i.isLt), (hone _).2 h⟩

theorem State.penalised_iff (s : State) (seat : Seat) :
    s.penalised seat = true ↔ ∃ e, s.penalties[seat] = some e ∧ (s.now - e).toInt < 0 := by
  unfold State.penalised
  cases s.penalties[seat] <;> simp [reached]

theorem penalisedHere_iff (s : State) (seat : Seat) :
    (s.hosts seat && s.penalised seat) = true ↔ PenalisedHere s seat := by
  rw [Bool.and_eq_true, State.hosts_iff, State.penalised_iff, PenalisedHere]

/-- R168: the row the model works out is the first of the table that applies. -/
theorem RowOf.eq_seatRow {s : State} {seat : Seat} {row : SeatRow} (h : RowOf s seat row) : row = s.seatRow seat := by
  unfold State.seatRow
  by_cases hpen : PenalisedHere s seat
  · rw [if_pos ((penalisedHere_iff s seat).2 hpen)]
    exact h.penalised hpen
  · rw [if_neg (mt (penalisedHere_iff s seat).1 hpen), Round.seatRow]
    split
    · next hidle => exact h.idle hpen hidle
    · next hidle =>
      obtain ⟨hsync, hstate⟩ := not_or.1 hidle
      have hsync : s.round.synced = true := Bool.not_eq_false _ ▸ hsync
      have hrest (hturn : s.round.state = .locked ∨ s.round.state = .expired) (hwinner : s.round.winner ≠ some seat) :
          row = if seat ∈ s.round.order then .listed else .notListed := by
        split
        · next hmem => exact h.listed hpen hsync hturn hwinner hmem
        · next hmem => exact h.notListed hpen hsync hturn hwinner hmem
      split
      · next e => exact absurd e hstate
      · next e => exact h.ready hpen hsync e
      · next e =>
        cases hin : inSet s.round.eligible seat
        · exact h.openOut hpen hsync e (.inl hin)
        · cases hex : inSet s.round.excluded seat
          · exact h.openIn hpen hsync e hin hex
          · exact h.openOut hpen hsync e (.inr hex)
      · next e =>
        split
        · next hw => exact (h.winner hpen hsync hw).1 e
        · next hw => exact hrest (.inl e) hw
      · next e =>
        split
        · next hw => exact (h.winner hpen hsync hw).2 e
        · next hw => exact hrest (.inr e) hw

/-! ## Patterns and levels (R166 to R169) -/

/-- R168: the pattern of each row. -/
theorem SeatRow.pattern_eq {dim : Nat} {row : SeatRow} {p : LampPattern}
    (h : (row, p) ∈
      [(SeatRow.penalised, { kind := PatternKind.blink, level := 255, periodMs := 60, duty := 50 }),
        (.idle, { kind := .off, level := 0, periodMs := 0, duty := 0 }),
        (.ready, { kind := .steady, level := dim, periodMs := 0, duty := 0 }),
        (.openIn, { kind := .steady, level := 255, periodMs := 0, duty := 0 }),
        (.openOut, { kind := .off, level := 0, periodMs := 0, duty := 0 }),
        (.winnerLocked, { kind := .blink, level := 255, periodMs := 250, duty := 50 }),
        (.winnerExpired, { kind := .blink, level := 255, periodMs := 100, duty := 50 }),
        (.listed, { kind := .steady, level := dim, periodMs := 0, duty := 0 }),
        (.notListed, { kind := .off, level := 0, periodMs := 0, duty := 0 })]) : row.pattern dim = p := by
  cases row <;> simp at h <;> exact h.symm

theorem Lamp.inForce_eq {l : Lamp} {dim : Nat} {p : LampPattern} (hcue : l.assign = .cue → p = l.pattern)
    (hseat : ∀ seat, l.assign = .seat seat → l.row.pattern dim = p) : l.inForce dim = p := by
  unfold Lamp.inForce
  split
  · next h => exact (hcue h).symm
  · next seat h => exact hseat seat h

theorem LampPattern.levelAt_eq (p : LampPattern) (count : Nat) :
    (p.kind = .off → p.levelAt count = 0) ∧ (p.kind = .steady → p.levelAt count = p.level) ∧
      (p.kind = .blink → count % p.periodMs < p.periodMs * p.duty / 100 → p.levelAt count = p.level) ∧
      (p.kind = .blink → p.periodMs * p.duty / 100 ≤ count % p.periodMs → p.levelAt count = 0) := by
  unfold LampPattern.levelAt LampPattern.onTime
  refine ⟨fun h => by rw [h], fun h => by rw [h], fun h hon => ?_, fun h hoff => ?_⟩
  · rw [h]; exact if_pos hon
  · rw [h]; exact if_neg (not_lt.2 hoff)

theorem State.liveAt.lampPeriod {s : State} {t : Nat} (hlive : s.liveAt t) (hbegin : t % 24576 = 0)
    (hnext : s.nextLampPeriod ≤ t / 24576) :
    exec (.lampPeriod t) s = .next (State.beginLampPeriod { s with clock := t } (t / 24576)) := by
  refine congrArg Host.Outcome.next ((hlive.onEvent _).trans (if_pos ?_))
  simp [State.periodBegins, milliClocks, hbegin, hnext]

/-- R169: what working the seat patterns out again makes of a SEAT lamp. -/
theorem Lamp.takeRow_eq (l : Lamp) (row : SeatRow) {again : Bool} {anew : Prop} (phase : Nat)
    (h : again = true ↔ anew) :
    (row ≠ l.row ∨ anew → l.takeRow row again phase = { l with row := row, phaseStart := phase }) ∧
      (row = l.row → ¬ anew → l.takeRow row again phase = l) := by
  refine ⟨fun hnew => if_pos (hnew.imp id h.2), fun hsame hold => if_neg ?_⟩
  exact not_or.2 ⟨not_not.2 hsame, mt h.1 hold⟩

theorem State.refreshedLamp_cue {s : State} {i : Fin 8} {again : Option Seat} (h : s.lamps[i].assign = .cue) :
    (s.refreshSeatLamps again).lamps[i] = s.lamps[i] := by
  rw [State.refreshSeatLamps, mapEach_get, h]

theorem State.refreshedLamp_seat {s : State} {i : Fin 8} {again : Option Seat} {seat : Seat}
    (h : s.lamps[i].assign = .seat seat) :
    (s.refreshSeatLamps again).lamps[i] =
      s.lamps[i].takeRow (s.seatRow seat) (decide (again = some seat) && decide (s.seatRow seat = .penalised))
        s.lampPhase := by
  rw [State.refreshSeatLamps, mapEach_get, h]

theorem Lamp.durationOver_iff {l : Lamp} (hcue : l.assign = .cue) (now : StationTime) :
    l.durationOver now = true ↔ ∃ e, l.durationEnd = some e ∧ 0 ≤ (now - e).toInt := by
  unfold Lamp.durationOver
  cases l.durationEnd <;> simp [hcue, reached]

theorem State.liveAt.cueLampDurationEnd {s : State} {t : Nat} (hlive : s.liveAt t) (lamp : Fin 8) :
    exec (.cueLampDurationEnd t lamp) s = .next
      (if s.lamps[lamp].durationOver (stationTimeAt t) then
        { s with clock := t, lamps := update s.lamps lamp fun l => l.goDark ((t + 24575) / 24576) }
      else { s with clock := t }) :=
  congrArg Host.Outcome.next (hlive.onEvent _)

/-- Settles O44. -/
theorem lampsShow : Obligations.LampsShow := by
  refine ⟨fun lamp period level hlevel => ?_, fun s t hlive =>
    ⟨fun hbegin hnext => ?_, fun again => ?_, fun lamp hcue => ⟨fun e hend hreached => ?_, fun hnot => ?_⟩⟩⟩
  · obtain ⟨hle, hge⟩ := onClocks_within lamp.val period hlevel
    refine ⟨onClocks lamp.val period level, fun h => ?_, fun h => ?_, hle, hge, fun s hperiod hshown => ?_⟩
    · rw [h, onClocks_zero]
    · rw [h, onClocks_full]
    · rw [← hperiod, ← hshown]; rfl
  · refine ⟨_, hlive.lampPeriod hbegin hnext, fun i l p hl hcue hseat => ?_⟩
    have hforce : l.inForce s.station.dimLevel = p := Lamp.inForce_eq hcue fun seat h => SeatRow.pattern_eq
      (hseat seat h)
    refine ⟨p.levelAt (t / 24576 - l.phaseStart), ?_, p.levelAt_eq _⟩
    rw [mapEach_get, ← hl, Lamp.levelIn, hforce]
  · refine ⟨(s.refreshSeatLamps again).lamps, rfl, fun i l hl => ⟨fun hcue => ?_, fun seat row hseat hrow => ?_⟩⟩
    · rw [State.refreshedLamp_cue (hl ▸ hcue), ← hl]
    · rw [State.refreshedLamp_seat (hl ▸ hseat), ← hl, ← hrow.eq_seatRow]
      exact Lamp.takeRow_eq l row _ (by simp)
  · rw [hlive.cueLampDurationEnd lamp, if_pos ((Lamp.durationOver_iff hcue _).2 ⟨e, hend, hreached⟩)]
    rfl
  · rw [hlive.cueLampDurationEnd lamp, if_neg fun h => ?_]
    obtain ⟨e, hend, hreached⟩ := (Lamp.durationOver_iff hcue _).1 h
    exact absurd hreached (not_le.2 (hnot e hend))

end Sys2Proof.Machine
end

section
/-!
The payloads of the TELLs (O54).
-/

namespace Sys2Proof.Machine

/-! ## Bytes and sets -/

theorem wordBytes_eq (n : Nat) : wordBytes n = [byteOf (n / 256), byteOf n] := by
  have hhigh : hiByte (BitVec.ofNat 16 n) = byteOf (n / 256) := by
    refine BitVec.eq_of_toNat_eq ?_
    simp only [hiByte, byteOf, BitVec.extractLsb'_toNat, BitVec.toNat_ofNat, Nat.shiftRight_eq_div_pow]
    omega
  have hlow : loByte (BitVec.ofNat 16 n) = byteOf n := by
    refine BitVec.eq_of_toNat_eq ?_
    simp only [loByte, byteOf, BitVec.extractLsb'_toNat, BitVec.toNat_ofNat, Nat.shiftRight_eq_div_pow]
    omega
  rw [wordBytes, hhigh, hlow]

theorem wordBytes_toNat {w : Nat} (x : BitVec w) : wordBytes x.toNat = [x.extractLsb' 8 8, x.extractLsb' 0 8] := by
  have hhigh : byteOf (x.toNat / 256) = x.extractLsb' 8 8 := by
    refine BitVec.eq_of_toNat_eq ?_
    rw [byteOf, BitVec.extractLsb'_toNat, BitVec.toNat_ofNat, Nat.shiftRight_eq_div_pow]
  have hlow : byteOf x.toNat = x.extractLsb' 0 8 := by
    refine BitVec.eq_of_toNat_eq ?_
    rw [byteOf, BitVec.extractLsb'_toNat, BitVec.toNat_ofNat, Nat.shiftRight_zero]
  rw [wordBytes_eq, hhigh, hlow]

theorem inSet_foldl_single (f : VoiceNo → Bool) (l : List VoiceNo) (set : VoiceSet) (u : VoiceNo) :
    inSet (l.foldl (fun set v => if f v then set ||| single 12 v else set) set) u =
      (inSet set u || (decide (u ∈ l) && f u)) := by
  induction l generalizing set with
  | nil => simp
  | cons v l ih =>
    rw [List.foldl_cons, ih]
    by_cases huv : u = v
    · subst huv
      cases hf : f u <;> simp [inSet_or_single]
    · cases hf : f v <;> simp [inSet_or_single, huv, Ne.symm huv]

theorem Pool.inSet_voicesWhere (p : Pool) (f : Voice → Bool) (u : VoiceNo) :
    inSet (p.voicesWhere f) u = f p.voices[u] := by
  rw [Pool.voicesWhere, inSet_foldl_single fun v => f p.voices[v], inSet_zero, Bool.false_or,
    decide_eq_true (List.mem_finRange u), Bool.true_and]

/-- Counting the voices of a list counts their numbers. -/
theorem Vector.countP_eq_finRange {α : Type} {n : Nat} (xs : Vector α n) (f : α → Bool) :
    xs.toList.countP f = (List.finRange n).countP fun i => f xs[i] := by
  have hlist : xs.toList = (List.finRange n).map fun i => xs[i] := by
    refine List.ext_getElem (by simp) fun i h₁ h₂ => ?_
    simp
  rw [hlist, List.countP_map]
  rfl

/-! ## Each answer (R49) -/

theorem remainingTenths_eq {now : StationTime} {windowEnd : Option StationTime} {remaining : Byte}
    (hnone : windowEnd = none → remaining = 0)
    (hsome : ∀ e d, windowEnd = some e → d = (e - now).toInt →
      (d ≤ 0 → remaining = 0) ∧ (0 < d → (remaining.toNat : Int) = min 255 ⌈(d / 100000 : ℚ)⌉)) :
    byteOf (remainingTenths now windowEnd) = remaining := by
  cases windowEnd with
  | none => exact (hnone rfl).symm
  | some e =>
    obtain ⟨hpast, hahead⟩ := hsome e (ageMicros e now) rfl rfl
    simp only [remainingTenths]
    by_cases h : ageMicros e now ≤ 0
    · rw [if_pos h, hpast h]
      rfl
    · rw [if_neg h]
      have hround : ⌈(ageMicros e now / 100000 : ℚ)⌉ = -(-ageMicros e now / 100000) :=
        Rat.ceil_intCast_div_natCast (ageMicros e now) 100000
      have hbyte := hahead (not_le.1 h)
      rw [hround] at hbyte
      refine BitVec.eq_of_toNat_eq ?_
      rw [byteOf, BitVec.toNat_ofNat]
      omega

theorem roundState_or_mode {state : RoundState} {mode : ReboundMode} {a b : Byte}
    (ha : (state, a) ∈ [(RoundState.idle, (0 : Byte)), (.ready, 1), (.open, 2), (.locked, 3), (.expired, 4)])
    (hb : (mode, b) ∈ [(ReboundMode.queue, (0 : Byte)), (.reopen, 16)]) :
    roundStateCode state ||| (reboundByte mode <<< 4) = a ||| b := by
  have hstate : roundStateCode state = a := by
    cases state <;> simp at ha <;> exact ha.symm
  have hmode : reboundByte mode <<< 4 = b := by
    cases mode <;> simp at hb <;> rw [hb] <;> rfl
  rw [hstate, hmode]

theorem lineStateByte_eq {l : LineState} {a : Byte}
    (h : (l, a) ∈ [(LineState.active, (0 : Byte)), (.warning, 1), (.passive, 2), (.off, 3)]) : lineStateByte l = a := by
  cases l <;> simp at h <;> exact h.symm

theorem seatByteOr_eq {winner : Option Seat} {seat : Byte} (hnone : winner = none → seat = 0xFF)
    (hsome : ∀ k, winner = some k → seat = BitVec.ofNat 8 k.val) : seatByteOr winner = seat := by
  cases winner with
  | none => exact (hnone rfl).symm
  | some k => exact (hsome k rfl).symm

theorem Slot.playConfig_iff (x : Slot) (p : PlayConfig) :
    x.playConfig = some p ↔ ∃ c, x.config = some c ∧ c.action = .play p := by
  unfold Slot.playConfig
  cases x.config with
  | none => simp
  | some c =>
    cases h : c.action <;> simp [h]

theorem Slot.playConfig_isSome (x : Slot) :
    x.playConfig.isSome = true ↔ ∃ c p, x.config = some c ∧ c.action = .play p := by
  rw [Option.isSome_iff_exists, exists_comm]
  exact exists_congr fun p => x.playConfig_iff p

theorem PlayConfig.choose_none (c : PlayConfig) (cycle : Nat) :
    c.choose cycle none = if c.selection = .cycle then cycle else 0 := by
  unfold PlayConfig.choose
  cases c.selection <;> rfl

theorem Slot.nextClip_eq {x : Slot} {next : Byte}
    (hplay : ∀ c p, x.config = some c → c.action = .play p →
      p.clipList[if p.selection = .cycle then x.cycle else 0]? = some next)
    (hnone : (∀ c p, x.config = some c → c.action ≠ .play p) → next = 0xFF) : x.nextClip = next := by
  unfold Slot.nextClip
  cases h : x.playConfig with
  | none =>
    refine (hnone fun c p hc hp => ?_).symm
    rw [(x.playConfig_iff p).2 ⟨c, hc, hp⟩] at h
    cases h
  | some p =>
    obtain ⟨c, hc, hp⟩ := (x.playConfig_iff p).1 h
    simp only [PlayConfig.entryClip, PlayConfig.choose_none, hplay c p hc hp]
    rfl

theorem flagBit_get (b : Bool) (bit i : Nat) (hbit : bit < 8) :
    (flagBit b bit).getLsbD i = (b && decide (bit = i)) := by
  cases b
  · simp [flagBit]
  · simp only [flagBit, if_true, BitVec.getLsbD_twoPow, Bool.true_and]
    simp [hbit]

/-- A byte below 16 is made of its four low bits. -/
theorem flags_eq {flags : Byte} (h : flags.toNat < 16) :
    flagBit (flags.getLsbD 0) 0 ||| flagBit (flags.getLsbD 1) 1 ||| flagBit (flags.getLsbD 2) 2 |||
      flagBit (flags.getLsbD 3) 3 = flags := by
  refine BitVec.eq_of_getLsbD_eq fun i hi => ?_
  have hhigh : 4 ≤ i → flags.getLsbD i = false := fun hi' =>
    Nat.testBit_lt_two_pow (lt_of_lt_of_le h (Nat.pow_le_pow_right (by decide) hi' : 2 ^ 4 ≤ 2 ^ i))
  simp only [BitVec.getLsbD_or, flagBit_get _ _ _ (by decide : 0 < 8), flagBit_get _ _ _ (by decide : 1 < 8),
    flagBit_get _ _ _ (by decide : 2 < 8), flagBit_get _ _ _ (by decide : 3 < 8)]
  by_cases hlow : 4 ≤ i
  · rw [hhigh hlow, decide_eq_false (by omega), decide_eq_false (by omega), decide_eq_false (by omega),
      decide_eq_false (by omega)]
    simp
  · interval_cases i <;> simp

theorem slotFlags_eq {x : Slot} {flags : Byte} (henabled : flags.getLsbD 0 = x.enabled)
    (hheld : flags.getLsbD 1 = x.held)
    (hpending : flags.getLsbD 2 = x.pending.isSome)
    (hplay : flags.getLsbD 3 = true ↔ ∃ c p, x.config = some c ∧ c.action = .play p) (hlow : flags.toNat < 16) :
    flagBit x.enabled 0 ||| flagBit x.held 1 ||| flagBit x.pending.isSome 2 ||| flagBit x.playConfig.isSome 3 =
      flags := by
  have hplays : flags.getLsbD 3 = x.playConfig.isSome := by
    rw [Bool.eq_iff_iff, hplay, Slot.playConfig_isSome]
  rw [← henabled, ← hheld, ← hpending, ← hplays]
  exact flags_eq hlow

theorem List.take_three_drop {α : Type} {l : List α} {k : Nat} (h : k + 2 < l.length) :
    (l.drop k).take 3 = [l[k], l[k + 1], l[k + 2]] := by
  rw [List.drop_eq_getElem_cons (by omega), List.drop_eq_getElem_cons (by omega), List.drop_eq_getElem_cons h]
  rfl

theorem ErrorRecord.group_eq (e : ErrorRecord) (g : Fin 6) :
    e.group g.val = [e.counts[3 * g.val], e.counts[3 * g.val + 1], e.counts[3 * g.val + 2]] := by
  have hlength : e.counts.toList.length = 18 := by simp
  rw [ErrorRecord.group, List.take_three_drop (by omega)]
  simp

/-- Settles O54. -/
theorem tellsBuilt : Obligations.TellsBuilt := by
  intro s arg
  refine ⟨fun state mode seat remaining hstate hmode hnone hsome hclosed hopen => ?_, fun state hstate => ?_,
    ⟨(s.pool.voicesWhere Voice.inUse).setWidth 16,
      (s.pool.voicesWhere fun x => decide (x.state = .running)).setWidth 16, fun v => ?_, fun i hi => ?_, ?_⟩,
    fun n x flags next harg hx henabled hheld hpending hplay hlow hnext hnoplay => ?_, fun g hg => ?_⟩
  · show s.roundAnswer = _
    rw [State.roundAnswer, roundState_or_mode hstate hmode, seatByteOr_eq hnone hsome, remainingTenths_eq hclosed hopen]
    rfl
  · show s.lineAnswer = _
    rw [State.lineAnswer, lineStateByte_eq hstate, wordBytes_toNat, wordBytes_toNat]
    rfl
  · have hbit (set : VoiceSet) : (set.setWidth 16).getLsbD v = inSet set v := by
      rw [BitVec.getLsbD_setWidth, decide_eq_true (by omega), Bool.true_and, inSet]
    rw [hbit, hbit, Pool.inSet_voicesWhere, Pool.inSet_voicesWhere]
    exact ⟨rfl, rfl⟩
  · have hbit (set : VoiceSet) : (set.setWidth 16).getLsbD i = false := by
      rw [BitVec.getLsbD_setWidth, BitVec.getLsbD_of_ge _ _ hi, Bool.and_false]
    exact ⟨hbit _, hbit _⟩
  · show s.voicesAnswer = _
    rw [State.voicesAnswer, Vector.countP_eq_finRange]
    rfl
  · have hslot : Fin.ofNat 48 arg.toNat = n := by
      refine Fin.ext ?_
      rw [harg, Fin.val_ofNat, BitVec.toNat_ofNat]
      omega
    show s.slotAnswer (Fin.ofNat 48 arg.toNat) = _
    simp only [State.slotAnswer, hslot, ← hx, slotFlags_eq henabled hheld hpending hplay hlow, wordBytes_eq,
      Slot.nextClip_eq hnext hnoplay]
    rw [harg]
    rfl
  · have hgroup : arg &&& 0x7F = BitVec.ofNat 8 g.val := by
      refine BitVec.eq_of_toNat_eq ?_
      rw [hg, BitVec.toNat_ofNat]
      omega
    show s.errorsAnswer arg = _
    rw [State.errorsAnswer, hg, hgroup, ErrorRecord.group_eq]
    simp only [List.flatMap_cons, List.flatMap_nil, wordBytes_eq]
    rfl

end Sys2Proof.Machine
end

section
/-!
Triggers at the slots, and the four actions of a slot (O58, O59).
-/

namespace Sys2Proof.Machine

/-! ## Which slots a trigger matches (R87) -/

theorem SourceFilter.admits_iff (f : SourceFilter) (source : Source) :
    f.admits source = true ↔ (f = .line → ∃ k, source = .line k) ∧ (f = .local → source = .local) := by
  cases f <;> cases source <;> simp [SourceFilter.admits]

theorem SlotAction.passesOwn_iff (a : SlotAction) (source : Source) (own : BitVec 4) :
    a.passesOwn source own = true ↔ (∃ code once through, a = .emit code once through) ∧ source = .line own := by
  cases a <;> simp [SlotAction.passesOwn]

theorem Slot.matchesTrigger_iff (x : Slot) (t : Trigger) (own : BitVec 4) :
    x.matchesTrigger t own = true ↔
      x.enabled = true ∧
        ∃ c, x.config = some c ∧ t.code &&& c.mask = c.code &&& c.mask ∧
          (c.filter = .line → ∃ k, t.source = .line k) ∧ (c.filter = .local → t.source = .local) ∧
          ((∃ code once through, c.action = .emit code once through) → t.source ≠ .line own) := by
  unfold Slot.matchesTrigger
  cases x.config with
  | none => simp
  | some c =>
    have hown : (!c.action.passesOwn t.source own) = true ↔
        ((∃ code once through, c.action = .emit code once through) → t.source ≠ .line own) := by
      rw [Bool.not_eq_true', ← Bool.not_eq_true, SlotAction.passesOwn_iff, not_and]
    simp only [Bool.and_eq_true, SlotConfig.codeAgrees, decide_eq_true_iff, SourceFilter.admits_iff, hown,
      Option.some.injEq, exists_eq_left', and_assoc]

theorem State.mem_matching (s : State) (t : Trigger) (n : SlotNo) :
    n ∈ s.matching t ↔
      s.pool.slots[n].enabled = true ∧
        ∃ c, s.pool.slots[n].config = some c ∧ t.code &&& c.mask = c.code &&& c.mask ∧
          (c.filter = .line → ∃ k, t.source = .line k) ∧ (c.filter = .local → t.source = .local) ∧
          ((∃ code once through, c.action = .emit code once through) → t.source ≠ .line s.station.number) := by
  rw [State.matching, List.mem_filter, Slot.matchesTrigger_iff]
  exact and_iff_right (List.mem_finRange n)

/-- The slots of an ascending list are those of the trigger when they have the same members (R88). -/
theorem State.matching_eq {s : State} {t : Trigger} {slots : List SlotNo} (hsorted : slots.Pairwise (· < ·))
    (hmem : ∀ n, n ∈ slots ↔ n ∈ s.matching t) : s.matching t = slots := by
  have hmatching : (s.matching t).Pairwise (· < ·) := (List.pairwise_lt_finRange 48).filter _
  refine List.Perm.eq_of_pairwise (fun a b _ _ hab hba => absurd hab hba.asymm) hmatching hsorted ?_
  exact (List.perm_ext_iff_of_nodup (hmatching.imp fun h => h.ne) (hsorted.imp fun h => h.ne)).2 fun n => (hmem n).symm

/-! ## The hold stage (R88, R89) -/

theorem State.act_configured {s : State} {n : SlotNo} {c : SlotConfig} (h : s.pool.slots[n].config = some c)
    (fire : StationTime) (seat : Option Seat) :
    s.act n fire seat =
      State.runAction { s with pool := s.pool.setSlot n fun x => { x with fires := min 65535 (x.fires + 1) } } n
        c.action
        fire seat := by
  rw [State.act, h]

/-- Settles O58. -/
theorem triggersTaken : Obligations.TriggersTaken := by
  intro s t
  refine ⟨fun hmode => if_neg hmode, fun hmode slots hsorted hmem => ?_, fun n x hx => ⟨fun hheld hnone => ?_,
    fun w hheld hsome => ?_, fun c hfree hconfig => ?_⟩⟩
  · rw [State.takeTrigger, if_pos hmode,
      State.matching_eq hsorted fun n => (hmem n).trans (s.mem_matching t n).symm]
  · subst hx
    rw [State.slotTake, if_pos hheld, Pool.setSlot, update, hnone]
    rfl
  · subst hx
    rw [State.slotTake, if_pos hheld, Pool.setSlot, update, hsome]
    rfl
  · subst hx
    rw [State.slotTake, if_neg (by rw [hfree]; decide), State.act_configured hconfig]
    rfl

/-! ## PLAY (R98 to R101) -/

theorem Vector.any_toList_iff {α : Type} {n : Nat} (xs : Vector α n) (f : α → Bool) :
    xs.toList.any f = true ↔ ∃ i : Fin n, f xs[i] = true := by
  rw [List.any_eq_true]
  constructor
  · rintro ⟨x, hx, h⟩
    obtain ⟨i, hi, rfl⟩ := Vector.mem_iff_getElem.1 (Vector.mem_toList_iff.1 hx)
    exact ⟨⟨i, hi⟩, h⟩
  · rintro ⟨i, h⟩
    exact ⟨xs[i], Vector.mem_toList_iff.2 (Vector.getElem_mem i.isLt), h⟩

/-- R100: the slot is under way, for IGNORE. -/
theorem Pool.underWay_iff (p : Pool) (n : SlotNo) : (p.slotSounds n || p.successorNames n) = true ↔ UnderWay p n := by
  rw [Bool.or_eq_true, UnderWay]
  refine or_congr ?_ ?_
  · simp [Pool.slotSounds, Voice.sounding_iff]
  · rw [Pool.successorNames, Vector.any_toList_iff]
    simp [Option.any_eq_true]

/-- R98: the entry that a fire chooses, and the cycle index after it. -/
theorem PlayConfig.choose_eq {p : PlayConfig} {now entry cycle : Nat} {seat : Option Seat}
    (hfixed : p.selection = .fixed → entry = 0 ∧ cycle = now)
    (hcycle : p.selection = .cycle → entry = now ∧ cycle = if now + 1 = p.clipList.length then 0 else now + 1)
    (hseat : p.selection = .seat →
      entry = (match seat with | none => 0 | some k => k.val % p.clipList.length) ∧ cycle = now) :
    p.choose now seat = entry ∧ p.nextCycle now = cycle := by
  unfold PlayConfig.choose PlayConfig.nextCycle
  cases h : p.selection with
  | fixed =>
    obtain ⟨rfl, rfl⟩ := hfixed h
    exact ⟨rfl, rfl⟩
  | cycle =>
    obtain ⟨rfl, rfl⟩ := hcycle h
    exact ⟨rfl, rfl⟩
  | seat =>
    obtain ⟨rfl, rfl⟩ := hseat h
    exact ⟨rfl, rfl⟩

/-- A PLAY, once its clip is chosen and its cycle index moved (R98 to R100). -/
theorem State.runPlay_eq {s : State} {n : SlotNo} {p : PlayConfig} {entry cycle : Nat} {clip : Byte} {moved : Pool}
    {r : VoiceRequest} {fire : StationTime} {seat : Option Seat}
    (hchoose : p.choose s.pool.slots[n].cycle seat = entry ∧ p.nextCycle s.pool.slots[n].cycle = cycle)
    (hclip : p.clipList[entry]? = some clip)
    (hmoved : moved = { s.pool with slots := s.pool.slots.set n { s.pool.slots[n] with cycle := cycle } })
    (hr : r = p.request n clip fire seat) :
    s.runAction n (.play p) fire seat =
      if (s.clips.clip clip).isNone then { s with pool := moved, errors := s.errors.bump .badClipRefusals }
      else
        { s with
          pool := (moved.retrigger s.clips n p.retrigger r).1
          errors := (moved.retrigger s.clips n p.retrigger r).2.counted s.errors } := by
  obtain ⟨hentry, hcycle⟩ := hchoose
  have hplay : s.pool.play s.clips n p fire seat =
      if (s.clips.clip clip).isNone then (moved, .badClip) else moved.retrigger s.clips n p.retrigger r := by
    have hentryClip : p.entryClip entry = clip := by rw [PlayConfig.entryClip, hclip]; rfl
    simp only [Pool.play, hentry, hentryClip, Pool.setSlot, update, hcycle]
    rw [hmoved, hr]
  rw [State.runAction, hplay]
  split
  · rfl
  · rfl

/-- R101, R109: the request settled, or a counted refusal. -/
theorem Pool.request_settled {p q : Pool} {clips : ClipTable} {r : VoiceRequest} (h : p.settle clips r = some q) :
    p.request clips r = (q, .settled) := by
  rw [Pool.request, h]

theorem Pool.request_refused {p : Pool} {clips : ClipTable} {r : VoiceRequest} (h : p.settle clips r = none) :
    p.request clips r = (p, .noVoice) := by
  rw [Pool.request, h]

/-- R100: where the policy lets the request through, RESTART having silenced the slot before. -/
theorem Pool.retrigger_request {p before : Pool} {clips : ClipTable} {n : SlotNo} {policy : Retrigger}
    {r : VoiceRequest}
    (hrestart : policy = .restart → before = p.restartSlot n) (hother : policy ≠ .restart → before = p)
    (hthrough : policy ≠ .ignore ∨ ¬ UnderWay p n) : p.retrigger clips n policy r = before.request clips r := by
  unfold Pool.retrigger
  cases policy with
  | ignore =>
    rw [hother nofun]
    exact if_neg (mt (p.underWay_iff n).1 (hthrough.resolve_left fun h => h rfl))
  | restart => rw [hrestart rfl]
  | layer => rw [hother nofun]

/-! ## STOPGROUP, LAMP and EMIT (R102 to R104) -/

/-- Settles O59. -/
theorem actionsTaken : Obligations.ActionsTaken := by
  intro s n x fire seat hx
  subst hx
  refine ⟨fun p entry cycle clip moved before r hfixed hcycle hseat hclip hmoved hr hrestart hother => ?_,
    fun group => ⟨rfl, fun time => rfl⟩, fun o l hl => ⟨fun k hseat => ?_, fun hcue => ?_⟩,
    fun code once through => ?_⟩
  · have hplay := State.runPlay_eq (PlayConfig.choose_eq hfixed hcycle hseat) hclip hmoved hr
    have hunder : UnderWay moved n ↔ UnderWay s.pool n := by
      rw [hmoved, UnderWay, UnderWay]
      simp
    rw [hplay]
    refine ⟨fun hnone => ?_, fun hpresent => ⟨fun hignore hway => ?_, fun hthrough => ⟨fun q hq => ?_, fun hq => ?_⟩⟩⟩
    · rw [hnone]; rfl
    · rw [if_neg (by simpa using hpresent), hignore, Pool.retrigger,
        if_pos ((moved.underWay_iff n).2 (hunder.2 hway))]
      rfl
    · rw [if_neg (by simpa using hpresent),
        Pool.retrigger_request hrestart hother (hthrough.imp id fun h => mt hunder.1 h), Pool.request_settled hq]
      rfl
    · rw [if_neg (by simpa using hpresent),
        Pool.retrigger_request hrestart hother (hthrough.imp id fun h => mt hunder.1 h), Pool.request_refused hq]
      rfl
  · have hsame : s.lamps.set o.lamp.val s.lamps[o.lamp] = s.lamps := Vector.set_getElem_self _
    show s.lampAction o = s
    rw [State.lampAction, update, ← hl, hseat, hl, hsame]
  · show s.lampAction o = _
    rw [State.lampAction, update, ← hl, hcue]
    rfl
  · cases through <;> cases seat <;> rfl

end Sys2Proof.Machine
end

section
/-!
The Frame Dispatcher: frames judged by their class (O52), ASKs and TELLs (O53), ADJUSTs (O55).
-/

namespace Sys2Proof.Machine

/-! ## The judgment by class (R29, R32) -/

section
variable (s : State) {f : LineFrame} (hsender : f.sender ≠ 0)
include hsender

theorem State.dispatchFrame_stop (hcls : f.cls = 0) : s.dispatchFrame f = s.deliver f (judgeStop f.payload) := by
  simp only [State.dispatchFrame, State.judge, if_neg hsender, hcls]
  rfl

theorem State.dispatchFrame_buzz (hcls : f.cls = 1) :
    s.dispatchFrame f = s.deliver f (judgeBuzz f.subject f.payload) := by
  simp only [State.dispatchFrame, State.judge, if_neg hsender, hcls]
  rfl

theorem State.dispatchFrame_cut (hcls : f.cls = 3) :
    s.dispatchFrame f = s.deliver f (judgeCut f.subject f.payload) := by
  simp only [State.dispatchFrame, State.judge, if_neg hsender, hcls]
  rfl

theorem State.dispatchFrame_go (hcls : f.cls = 4) : s.dispatchFrame f = s.deliver f (judgeGo f.subject f.payload) := by
  simp only [State.dispatchFrame, State.judge, if_neg hsender, hcls]
  rfl

theorem State.dispatchFrame_adjust (hcls : f.cls = 5) :
    s.dispatchFrame f = s.deliver f (s.station.ifAddressed f.subject (s.judgeAdjust f.payload)) := by
  simp only [State.dispatchFrame, State.judge, if_neg hsender, hcls]
  rfl

theorem State.dispatchFrame_ask (hcls : f.cls = 6) :
    s.dispatchFrame f =
      s.deliver f (s.station.ifAddressed f.subject (s.judgeAsk (decide (f.subject = 0)) f.payload)) := by
  simp only [State.dispatchFrame, State.judge, if_neg hsender, hcls]
  rfl

theorem State.dispatchFrame_tell (hcls : f.cls = 7) :
    s.dispatchFrame f = s.deliver f (judgeTell f.subject f.payload) := by
  simp only [State.dispatchFrame, State.judge, if_neg hsender, hcls]
  rfl

end

theorem State.judge_bad (s : State) {f : LineFrame} (h : f.sender = 0 ∨ 8 ≤ f.cls.toNat) : s.judge f = .bad := by
  unfold State.judge
  split
  · rfl
  · next hsender =>
    have hcls := h.resolve_left hsender
    generalize f.cls.toNat = n at hcls
    match n, hcls with
    | _ + 8, _ => rfl

theorem StationConfig.ifAddressed_none (c : StationConfig) {target : Byte} (h : 16 ≤ target.toNat) (d : Delivery) :
    c.ifAddressed target d = .bad := by
  rw [StationConfig.ifAddressed, StationConfig.addressed, if_pos h]

theorem StationConfig.ifAddressed_other (c : StationConfig) {target : Byte} (hzero : target ≠ 0)
    (hrange : target.toNat < 16) (hother : target.toNat ≠ c.number.toNat) (d : Delivery) :
    c.ifAddressed target d = .aside := by
  rw [StationConfig.ifAddressed, StationConfig.addressed, if_neg (not_le.2 hrange), decide_eq_false hzero,
    decide_eq_false hother]
  rfl

theorem StationConfig.ifAddressed_here (c : StationConfig) {target : Byte}
    (h : target = 0 ∨ target.toNat = c.number.toNat) (d : Delivery) : c.ifAddressed target d = d := by
  have hrange : target.toNat < 16 := by
    have hnumber := c.number.isLt
    rcases h with rfl | h
    · decide
    · omega
  have hhere : (decide (target = 0) || decide (target.toNat = c.number.toNat)) = true := by simpa using h
  rw [StationConfig.ifAddressed, StationConfig.addressed, if_neg (not_le.2 hrange), hhere]

/-! ## The payloads of STOP, BUZZ, JUDGE, CUT and GO (R30, R31) -/

theorem judgeStop_long : ∀ {p : List Byte}, 2 ≤ p.length → judgeStop p = .bad
  | _ :: _ :: _, _ => rfl
  | [], h | [_], h => absurd h (by simp)

theorem judgeCut_long (subject : Byte) : ∀ {p : List Byte}, 2 ≤ p.length → judgeCut subject p = .bad
  | _ :: _ :: _, _ => rfl
  | [], h | [_], h => absurd h (by simp)

theorem judgeGo_long (subject : Byte) : ∀ {p : List Byte}, 2 ≤ p.length → judgeGo subject p = .bad
  | _ :: _ :: _, _ => rfl
  | [], h | [_], h => absurd h (by simp)

theorem seatOf_none {b : Byte} (h : 16 ≤ b.toNat) : seatOf b = none :=
  dif_neg (not_lt.2 h)

theorem judgeGo_noSeat (subject : Byte) {x : Byte} (h : 16 ≤ x.toNat) : judgeGo subject [x] = .bad := by
  rw [judgeGo, seatOf_none h]

theorem judgeGo_seat (subject : Byte) (seat : Seat) :
    judgeGo subject [BitVec.ofNat 8 seat.val] = .go subject (some seat) := by
  rw [judgeGo, seatOf_some.2 rfl]

theorem judgeBuzz_bad {subject : Byte} {p : List Byte} (h : p ≠ [] ∨ 16 ≤ subject.toNat) :
    judgeBuzz subject p = .bad := by
  cases p with
  | nil =>
    rw [judgeBuzz, seatOf_none (h.resolve_left fun hne => hne rfl)]
  | cons b p => rfl

theorem armOf_none {p : List Byte} (h : p.length ≠ 5 ∨ ∃ mode, p.head? = some mode ∧ 2 ≤ mode.toNat) :
    armOf p = none := by
  unfold armOf
  split
  · next mode window penalty hi lo =>
    obtain ⟨mode', hhead, hmode⟩ := h.resolve_left fun hlen => hlen rfl
    cases hhead
    have hbad : reboundOf mode = none := by
      rw [reboundOf, if_neg (by rintro rfl; exact absurd hmode (by decide)),
        if_neg (by rintro rfl; exact absurd hmode (by decide))]
    rw [hbad]
    rfl
  · rfl

theorem verbOf_none {b : Byte} (h : 5 ≤ b.toNat) : verbOf b = none := by
  unfold verbOf
  generalize b.toNat = n at h
  match n, h with
  | _ + 5, _ => rfl

theorem judgeVerdict_bad {subject : Byte} {p : List Byte}
    (h : 5 ≤ subject.toNat ∨ (subject ≠ 0 ∧ p ≠ []) ∨
      (subject = 0 ∧ (p.length ≠ 5 ∨ ∃ mode, p.head? = some mode ∧ 2 ≤ mode.toNat))) : judgeVerdict subject p =
        .bad := by
  unfold judgeVerdict
  rcases h with h | ⟨hsubject, hp⟩ | ⟨rfl, h⟩
  · rw [verbOf_none h]
  · obtain ⟨b, rest, rfl⟩ := List.exists_cons_of_ne_nil hp
    cases hverb : verbOf subject with
    | none => rfl
    | some v =>
      cases v with
      | arm =>
        have hzero := verbOf_some.1 hverb
        simp at hzero
        exact absurd hzero hsubject
      | openBuzzers | right | wrong | void => rfl
  · have hverb : verbOf 0 = some .arm := rfl
    simp only [hverb, armOf_none h]

/-- Settles O52. -/
theorem framesJudged : Obligations.FramesJudged := by
  intro s f bad hbad
  subst hbad
  refine ⟨fun h => by rw [State.dispatchFrame, s.judge_bad h]; rfl, fun hsender =>
    ⟨fun hcls => ?_, fun hcls h => ?_, fun hcls h => ?_, fun hcls => ?_, fun hcls fire hfire => ?_, fun hcls => ?_⟩⟩
  · rw [s.dispatchFrame_stop hsender hcls]
    refine ⟨fun h => by rw [h]; rfl, fun x h => by rw [h]; rfl, fun h => by rw [judgeStop_long h]; rfl⟩
  · rw [s.dispatchFrame_buzz hsender hcls, judgeBuzz_bad h]
    rfl
  · rw [s.dispatchFrame_verdict hsender hcls rfl rfl, judgeVerdict_bad h]
    rfl
  · rw [s.dispatchFrame_cut hsender hcls]
    refine ⟨fun h => by rw [h]; rfl, fun x h => by rw [h]; rfl, fun h => by rw [judgeCut_long _ h]; rfl⟩
  · rw [s.dispatchFrame_go hsender hcls]
    subst hfire
    refine ⟨fun h => by rw [h]; rfl, fun seat h => by rw [h, judgeGo_seat]; rfl, ?_⟩
    rintro (h | ⟨x, hx, h⟩)
    · rw [judgeGo_long _ h]; rfl
    · rw [hx, judgeGo_noSeat _ h]; rfl
  · have hdispatch : ∃ d, s.dispatchFrame f = s.deliver f (s.station.ifAddressed f.subject d) := by
      rcases hcls with hcls | hcls
      · exact ⟨_, s.dispatchFrame_adjust hsender hcls⟩
      · exact ⟨_, s.dispatchFrame_ask hsender hcls⟩
    obtain ⟨d, hd⟩ := hdispatch
    rw [hd]
    refine ⟨fun h => ?_, fun hzero hrange hother => ?_⟩
    · rw [StationConfig.ifAddressed_none _ h]; rfl
    · rw [StationConfig.ifAddressed_other _ hzero hrange hother]; rfl

/-! ## ASK (R34) -/

theorem State.judgeAsk_good (s : State) {toAll : Bool} {topic arg : Byte}
    (h : topic = 0 ∨ topic = 1 ∨ topic = 2 ∨ (topic = 3 ∧ arg.toNat < 48) ∨ (topic = 4 ∧ (arg &&& 0x7F).toNat < 6))
    (htaken : ¬ (topic = 0 ∧ toAll = true ∧ s.round.synced = false)) : s.judgeAsk toAll [topic, arg] =
      .ask topic arg := by
  rcases h with rfl | rfl | rfl | ⟨rfl, h⟩ | ⟨rfl, h⟩
  · refine if_neg fun hboth => htaken ⟨rfl, ?_⟩
    simpa using hboth
  · rfl
  · rfl
  · exact if_pos h
  · exact if_pos h

theorem State.judgeAsk_aside (s : State) (arg : Byte) (h : s.round.synced = false) :
    s.judgeAsk true [0, arg] = .aside := by
  refine if_pos ?_
  rw [h]
  rfl

theorem State.judgeAsk_bad (s : State) (toAll : Bool) {topic arg : Byte}
    (h : 5 ≤ topic.toNat ∨ (topic = 3 ∧ 48 ≤ arg.toNat) ∨ (topic = 4 ∧ 6 ≤ (arg &&& 0x7F).toNat)) :
    s.judgeAsk toAll [topic, arg] = .bad := by
  rcases h with h | ⟨rfl, h⟩ | ⟨rfl, h⟩
  · unfold State.judgeAsk
    dsimp only
    generalize topic.toNat = n at h
    match n, h with
    | _ + 5, _ => rfl
  · exact if_neg (not_lt.2 h)
  · exact if_neg (not_lt.2 h)

theorem State.judgeAsk_length (s : State) (toAll : Bool) {p : List Byte} (h : p.length ≠ 2) :
    s.judgeAsk toAll p = .bad := by
  unfold State.judgeAsk
  split
  · exact absurd rfl h
  · rfl

/-! ## TELL (R35, R194) -/

theorem judgeAnswer_length {p : List Byte} (h : p.length ≠ 8) : judgeAnswer p = .bad := by
  unfold judgeAnswer
  split
  · exact absurd rfl h
  · rfl

theorem judgeTell_bad {subject : Byte} {p : List Byte}
    (h : 5 ≤ subject.toNat ∨ (subject = 0 ∧ p.length ≠ 8) ∨ ((subject = 1 ∨ subject = 4) ∧ p = [])) :
    judgeTell subject p = .bad := by
  rcases h with h | ⟨rfl, h⟩ | ⟨rfl | rfl, rfl⟩
  · unfold judgeTell
    generalize subject.toNat = n at h
    match n, h with
    | _ + 5, _ => rfl
  · exact judgeAnswer_length h
  · rfl
  · rfl

/-- What a TELL whose meaning reaches nobody does, good or bad. -/
theorem State.deliver_nobody (s : State) (f : LineFrame) (p : Prop) [Decidable p] :
    s.deliver f (if p then .nobody else .bad) = if p then s else { s with errors := s.errors.bump .badFrames } := by
  split
  · rfl
  · rfl

theorem roundStateOf_some {n : Nat} {state : RoundState} :
    roundStateOf n = some state ↔ n = (roundStateCode state).toNat := by
  unfold roundStateOf
  match n with
  | 0 | 1 | 2 | 3 | 4 => cases state <;> decide
  | n + 5 => cases state <;> simp [roundStateCode]

theorem roundStateOf_table {b : Byte} {state : RoundState}
    (h : (b, state) ∈ [((0 : Byte), RoundState.idle), (1, .ready), (2, .open), (3, .locked), (4, .expired)]) :
    roundStateOf b.toNat = some state := by
  simp only [List.mem_cons, Prod.mk.injEq, List.not_mem_nil, or_false] at h
  rcases h with ⟨rfl, rfl⟩ | ⟨rfl, rfl⟩ | ⟨rfl, rfl⟩ | ⟨rfl, rfl⟩ | ⟨rfl, rfl⟩ <;> rfl

theorem answerWinner_eq {state : RoundState} {seat : Option Seat} {b : Byte}
    (hturn : state = .locked ∨ state = .expired → ∃ k : Seat, seat = some k ∧ b = BitVec.ofNat 8 k.val)
    (hnone : state ≠ .locked → state ≠ .expired → seat = none ∧ b = 0xFF) : answerWinner state b = some seat := by
  cases state with
  | locked | expired =>
    obtain ⟨k, rfl, hb⟩ := hturn (by simp)
    rw [answerWinner, seatOf_some.2 hb]
    rfl
  | _ =>
    obtain ⟨rfl, rfl⟩ := hnone nofun nofun
    rfl

theorem judgeAnswer_taken {number code winner count hi lo remaining penalty : Byte} {state : RoundState}
    {seat : Option Seat} (hstate : roundStateOf (code &&& 0x0F).toNat = some state)
    (hwinner : answerWinner state winner = some seat) (hallowed : winnerAllowed seat (hi ++ lo) = true)
    (hcount : count.toNat ≤ 16) :
    judgeAnswer [number, code, winner, count, hi, lo, remaining, penalty] =
      .answer
        { number := number, state := state, rebound := if code.getLsbD 4 then .reopen else .queue, winner := seat
          excluded := hi ++ lo, remaining := remaining.toNat, penalty := penalty.toNat } := by
  simp only [judgeAnswer, hstate, hwinner]
  exact if_pos ⟨hallowed, hcount⟩

/-- R35: a TELL ROUND is bad for its state code, its count, a missing or excluded winner, or a winner that it
may not name. -/
theorem judgeAnswer_refused {number code winner count hi lo remaining penalty : Byte}
    (h : 5 ≤ (code &&& 0x0F).toNat ∨ 16 < count.toNat ∨ (3 ≤ (code &&& 0x0F).toNat ∧ 16 ≤ winner.toNat) ∨
      (3 ≤ (code &&& 0x0F).toNat ∧ ∃ k : Seat, winner = BitVec.ofNat 8 k.val ∧ inSet (hi ++ lo) k = true) ∨
      ((code &&& 0x0F).toNat < 3 ∧ winner ≠ 0xFF)) :
    judgeAnswer [number, code, winner, count, hi, lo, remaining, penalty] = .bad := by
  unfold judgeAnswer
  dsimp only
  generalize (code &&& 0x0F).toNat = n at h
  cases hstate : roundStateOf n with
  | none => rfl
  | some state =>
    have hcode := roundStateOf_some.1 hstate
    cases hwinner : answerWinner state winner with
    | none => simp only [hwinner]
    | some seat =>
      simp only [hwinner]
      refine if_neg fun ⟨hallowed, hcount⟩ => ?_
      rcases h with h | h | ⟨h, hrange⟩ | ⟨h, k, hk, hin⟩ | ⟨h, hne⟩
      · cases state <;> simp [roundStateCode] at hcode <;> omega
      · omega
      · cases state with
        | locked | expired => simp [answerWinner, seatOf_none hrange] at hwinner
        | _ => simp [roundStateCode] at hcode; omega
      · cases state with
        | locked | expired =>
          simp only [answerWinner, seatOf_some.2 hk, Option.map_some, Option.some.injEq] at hwinner
          subst hwinner
          simp [winnerAllowed, word16, hin] at hallowed
        | _ => simp [roundStateCode] at hcode; omega
      · cases state with
        | locked | expired => simp [roundStateCode] at hcode; omega
        | _ => rw [answerWinner, if_neg hne] at hwinner; cases hwinner

/-- R77: a TELL ROUND is adopted while unsynced, and only from another station. -/
theorem State.takeAnswer_aside {s : State} {sender : BitVec 4} (h : s.round.synced = true ∨ sender = s.station.number)
    (a : RoundAnswer) (sof : StationTime) : s.takeAnswer a sender sof = s := by
  refine if_neg fun ⟨hsync, hother⟩ => ?_
  rcases h with h | h
  · rw [h] at hsync; cases hsync
  · exact hother h

/-- Settles O53. -/
theorem asksAndTellsTaken : Obligations.AsksAndTellsTaken := by
  intro s f hsender bad hbad
  subst hbad
  refine ⟨fun hcls haddressed => ?_, fun hcls => ?_⟩
  · rw [s.dispatchFrame_ask hsender hcls, StationConfig.ifAddressed_here _ haddressed]
    refine ⟨fun topic arg hp => ?_, fun hlength => by rw [s.judgeAsk_length _ hlength]; rfl⟩
    rw [hp]
    refine ⟨fun hgood htaken => ?_, fun htopic hall hsync => ?_, fun h => by rw [s.judgeAsk_bad _ h]; rfl⟩
    · rw [s.judgeAsk_good hgood (by simpa using htaken)]
      rfl
    · rw [htopic, decide_eq_true hall, s.judgeAsk_aside arg hsync]
      rfl
  · rw [s.dispatchFrame_tell hsender hcls]
    refine ⟨fun first rest hp => ⟨fun hsubject => ?_, fun hsubject => ?_⟩, fun hsubject => ?_, fun hsubject => ?_,
      fun h => by rw [judgeTell_bad h]; rfl,
      fun number code winner count hi lo remaining penalty hsubject hp =>
        ⟨fun state seat hstate hturn hnone hcount => ?_,
        fun h => ?_⟩⟩
    · rw [hsubject, hp]
      refine (s.deliver_nobody f _).trans (if_congr ?_ rfl rfl)
      simp
    · rw [hsubject, hp]
      refine (s.deliver_nobody f _).trans (if_congr ?_ rfl rfl)
      simp
    · rw [hsubject]
      exact s.deliver_nobody f _
    · rw [hsubject]
      exact s.deliver_nobody f _
    · have hwinner : answerWinner state winner = some seat :=
        answerWinner_eq (fun h => (hturn h).imp fun k ⟨hk, hb, _⟩ => ⟨hk, hb⟩) hnone
      have hallowed : winnerAllowed seat (hi ++ lo) = true := by
        by_cases h : state = .locked ∨ state = .expired
        · obtain ⟨k, rfl, -, hout⟩ := hturn h
          rw [winnerAllowed, hout]
          rfl
        · obtain ⟨hlocked, hexpired⟩ := not_or.1 h
          rw [(hnone hlocked hexpired).1]
          rfl
      have hjudged : judgeTell f.subject f.payload = _ :=
        (by rw [hsubject, hp]; rfl : _ = judgeAnswer _).trans
          (judgeAnswer_taken (roundStateOf_table hstate) hwinner hallowed hcount)
      rw [hjudged]
      refine ⟨fun h => State.takeAnswer_aside h _ _, fun hsync hother => (if_pos ⟨hsync, hother⟩).trans ?_⟩
      have hwindow : (if state = .locked ∧ remaining.toNat ≠ 0 then
            some (afterMs (s.fireTime f.sof) (remaining.toNat * 100)) else none) =
          if state = .locked ∧ remaining ≠ 0 then some (afterMs (s.fireTime f.sof) (remaining.toNat * 100)) else none :=
        if_congr (and_congr_right fun _ => not_congr (BitVec.toNat_inj (y := 0))) rfl rfl
      rw [RoundAnswer.adopted, hwindow]
      rfl
    · rw [hsubject, hp]
      exact congrArg (s.deliver f) (judgeAnswer_refused h)

/-! ## ADJUST (R33) -/

theorem slotOf_some {b : Byte} {n : SlotNo} : slotOf b = some n ↔ b = BitVec.ofNat 8 n.val := by
  revert n b
  decide

theorem slotOf_none {b : Byte} (h : 48 ≤ b.toNat) : slotOf b = none :=
  dif_neg (not_lt.2 h)

theorem judgeSlot_of (n : SlotNo) (d : SlotNo → Delivery) : judgeSlot (BitVec.ofNat 8 n.val) d = d n := by
  rw [judgeSlot, slotOf_some.2 rfl]

theorem judgeSlot_bad {b : Byte} (h : 48 ≤ b.toNat) (d : SlotNo → Delivery) : judgeSlot b d = .bad := by
  rw [judgeSlot, slotOf_none h]

theorem State.judgeAdjust_two (s : State) {op a : Byte} (h : 5 ≤ op.toNat ∨ 48 ≤ a.toNat) :
    s.judgeAdjust [op, a] = .bad := by
  unfold State.judgeAdjust
  dsimp only
  rcases h with h | h
  · generalize op.toNat = k at h
    match k, h with
    | _ + 5, _ => rfl
  · simp only [judgeSlot_bad h]
    split <;> rfl

theorem State.judgeAdjust_three (s : State) {op a b : Byte} (h : op ≠ 6 ∨ 2 ≤ a.toNat ∨ 120 < b.toNat) :
    s.judgeAdjust [op, a, b] = .bad := by
  unfold State.judgeAdjust
  dsimp only
  split
  · next hgood =>
    obtain ⟨hop, hrange⟩ := hgood
    have hbus : 2 ≤ a.toNat := (h.resolve_left fun hne => hne hop).resolve_right (not_lt.2 hrange)
    generalize a.toNat = k at hbus
    match k, hbus with
    | _ + 2, _ => rfl
  · rfl

theorem State.judgeAdjust_four (s : State) {op a b c : Byte} (h : op ≠ 5 ∨ 48 ≤ a.toNat) :
    s.judgeAdjust [op, a, b, c] = .bad := by
  unfold State.judgeAdjust
  dsimp only
  split
  · next hop => exact judgeSlot_bad (h.resolve_left fun hne => hne hop) _
  · rfl

theorem State.judgeAdjust_length (s : State) {p : List Byte} (h : p.length < 2 ∨ 4 < p.length) :
    s.judgeAdjust p = .bad := by
  unfold State.judgeAdjust
  split
  · simp at h
  · simp at h
  · simp at h
  · rfl

/-- R33: a SWAP is good for an entry of the clip list of a PLAY slot and a present clip. -/
theorem State.judgeAdjust_swap (s : State) (n : SlotNo) (entry clip : Byte) :
    s.judgeAdjust [5, BitVec.ofNat 8 n.val, entry, clip] =
      if s.swapFits n entry clip then .swap n entry.toNat clip else .bad :=
  judgeSlot_of n fun n => if s.swapFits n entry clip then .swap n entry.toNat clip else .bad

theorem State.swapFits_iff {s : State} {n : SlotNo} {c : SlotConfig} {p : PlayConfig}
    (hc : s.pool.slots[n].config = some c) (hp : c.action = .play p) (entry clip : Byte) :
    s.swapFits n entry clip = true ↔
      entry.toNat < 4 ∧ entry.toNat < p.clipList.length ∧ (s.clips.clip clip).isSome = true := by
  rw [State.swapFits, (Slot.playConfig_iff _ p).2 ⟨c, hc, hp⟩]
  simp [and_assoc]

theorem State.swapFits_notPlay {s : State} {n : SlotNo}
    (h : ∀ c p, s.pool.slots[n].config = some c → c.action ≠ .play p) (entry clip : Byte) :
    s.swapFits n entry clip = false := by
  have hnone : s.pool.slots[n].playConfig = none := by
    refine Option.eq_none_iff_forall_ne_some.2 fun p hp => ?_
    obtain ⟨c, hc, hplay⟩ := (Slot.playConfig_iff _ p).1 hp
    exact h c p hc hplay
  rw [State.swapFits, hnone]

/-- R91: what a RELEASE does to a slot in each state of its hold. -/
theorem State.releaseSlot_eq (s : State) (n : SlotNo) (fire : StationTime) :
    (s.pool.slots[n].held = false → s.releaseSlot n fire = s) ∧
      (s.pool.slots[n].held = true → s.pool.slots[n].pending = none →
        s.releaseSlot n fire = { s with pool := s.pool.setSlot n fun x => { x with held := false, pending := none } }) ∧
      ∀ w, s.pool.slots[n].held = true → s.pool.slots[n].pending = some w →
        s.releaseSlot n fire =
          State.act { s with pool := s.pool.setSlot n fun x => { x with held := false, pending := none } } n fire
            w.seat := by
  unfold State.releaseSlot
  refine ⟨fun hfree => if_neg (by rw [hfree]; decide), fun hheld hnone => ?_, fun w hheld hsome => ?_⟩
  · rw [if_pos hheld, hnone]
  · rw [if_pos hheld, hsome]

/-- Settles O55. -/
theorem adjustsTaken : Obligations.AdjustsTaken := by
  intro s f n x hsender hcls haddressed hx put bad hput hbad
  subst hx hbad
  rw [s.dispatchFrame_adjust hsender hcls, StationConfig.ifAddressed_here _ haddressed]
  have hslot (d : SlotNo → Delivery) := judgeSlot_of n d
  obtain ⟨hfree, hheld, hpending⟩ := s.releaseSlot_eq n (s.fireTime f.sof)
  refine ⟨fun hp => ?_, fun hp => ?_, fun hp => ?_, fun hp => ?_, fun hp => ?_, fun entry clip c p hp hc hplay => ?_,
    fun entry clip hp hplay => ?_, fun steps hsteps => ⟨fun hp => ?_, fun hp => ?_⟩, fun op a b c =>
      ⟨fun hp h => ?_, fun hp h => ?_, fun hp h => ?_, fun h => ?_⟩⟩
  · rw [hp, hput]
    exact congrArg (s.deliver f) (hslot .hold)
  · rw [hp, show s.judgeAdjust [1, BitVec.ofNat 8 n.val] = .release n from hslot .release]
    refine ⟨hfree, fun h hnone => (hheld h hnone).trans ?_, fun w h hsome => (hpending w h hsome).trans ?_⟩
    · rw [hput, Pool.setSlot, update, hnone]
    · rw [hput]
      rfl
  · rw [hp, hput]
    exact congrArg (s.deliver f) (hslot .enable)
  · rw [hp, hput]
    exact congrArg (s.deliver f) (hslot .disable)
  · rw [hp, hput]
    exact congrArg (s.deliver f) (hslot .clearLost)
  · rw [hp, s.judgeAdjust_swap]
    have hfits := State.swapFits_iff hc hplay entry clip
    refine ⟨fun hfour hlen hclip => ?_, fun hwrong => ?_⟩
    · rw [if_pos (hfits.2 ⟨hfour, hlen, hclip⟩), hput]
      show s.swapSlot n entry.toNat clip = _
      rw [State.swapSlot, Pool.setSlot, update, hc, Option.map_some, SlotConfig.swap, hplay]
    · rw [if_neg fun h => ?_]
      · rfl
      · obtain ⟨hfour, hlen, hclip⟩ := hfits.1 h
        rcases hwrong with hwrong | hwrong | hwrong
        · omega
        · omega
        · rw [hwrong] at hclip; cases hclip
  · rw [hp, s.judgeAdjust_swap, if_neg (by rw [State.swapFits_notPlay hplay]; decide)]
    rfl
  · rw [hp]
    exact congrArg (s.deliver f) (if_pos ⟨rfl, hsteps⟩)
  · rw [hp]
    exact congrArg (s.deliver f) (if_pos ⟨rfl, hsteps⟩)
  · rw [hp, s.judgeAdjust_two h]
    rfl
  · rw [hp, s.judgeAdjust_three h]
    rfl
  · rw [hp, s.judgeAdjust_four h]
    rfl
  · rw [s.judgeAdjust_length h]
    rfl

end Sys2Proof.Machine
end

section
/-!
The round played: ARM, BUZZ, WRONG and local presses (O57).
-/

namespace Sys2Proof.Machine

/-! ## What each change of the record hands on -/

/-- Who is still eligible for a rebound by REOPEN (R68). -/
theorem eligible_ne_zero_iff (eligible excluded : SeatSet) :
    eligible &&& ~~~excluded ≠ 0 ↔ ∃ k : Seat, inSet eligible k = true ∧ inSet excluded k = false := by
  constructor
  · intro h
    by_contra hnone
    refine h (BitVec.eq_of_getLsbD_eq fun i hi => ?_)
    have hk : ¬ (eligible.getLsbD i = true ∧ excluded.getLsbD i = false) := fun hk => hnone ⟨⟨i, hi⟩, hk⟩
    simp only [BitVec.getLsbD_and, BitVec.getLsbD_not, hi, decide_true, Bool.true_and]
    cases he : eligible.getLsbD i <;> cases hx : excluded.getLsbD i <;> simp_all
  · rintro ⟨k, hin, hout⟩ h
    have hbit : (eligible &&& ~~~excluded).getLsbD k = false := by
      rw [h]
      exact BitVec.getLsbD_zero
    rw [inSet] at hin hout
    rw [BitVec.getLsbD_and, BitVec.getLsbD_not, hin, hout, decide_eq_true k.isLt] at hbit
    cases hbit

theorem Round.validBuzz_iff (r : Round) (seat : Seat) : r.validBuzz seat = true ↔ ValidBuzz r seat := by
  simp [Round.validBuzz, ValidBuzz, and_assoc, or_assoc]

theorem Round.excludeWinner_eq {r : Round} {w : Seat} (h : r.winner = some w) :
    r.excludeWinner =
      { r with
        excluded := r.excluded ||| BitVec.twoPow 16 w, order := r.order.filter (fun k => decide (k ≠ w)), winner := none
        windowEnd := none } := by
  rw [Round.excludeWinner, h]
  rfl

/-- R67: a rebound by QUEUE gives the turn to the next of the list. -/
theorem Round.reboundStep_queue {r : Round} {next : Seat} {rest : List Seat} (hmode : r.rebound = .queue)
    (horder : r.order = next :: rest) (fire : StationTime) (before : List RoundOutput) :
    r.reboundStep fire before =
      { round := { r with state := .locked, winner := some next, windowEnd := r.turnEnd fire }
        outputs := before ++ [.event .win (some next)] } := by
  unfold Round.reboundStep
  rw [hmode, horder]

/-- R68: any other rebound reopens the round or ends it. -/
theorem Round.reboundStep_reopen {r : Round} (h : r.rebound = .reopen ∨ r.order = []) (fire : StationTime)
    (before : List RoundOutput) : r.reboundStep fire before = r.reopen before := by
  unfold Round.reboundStep
  rcases h with h | h
  · rw [h]
  · rw [h]
    cases r.rebound <;> rfl

section
variable (s : State) (fire : StationTime)

theorem State.applyRound_withdraw_event (r : Round) (e : RoundEvent) (seat : Option Seat) :
    s.applyRound { round := r, outputs := [.withdraw, .event e seat] } fire =
      State.refreshSeatLamps (raised (withdrawn { s with round := r }) e.codeIndex e.seatFlag seat fire) none := by
  simp only [State.applyRound, List.foldl_cons, List.foldl_nil, State.handOutput_event, State.handOutput_withdraw]

theorem State.applyRound_two_events (r : Round) (d e : RoundEvent) (k l : Option Seat) :
    s.applyRound { round := r, outputs := [.event d k, .event e l] } fire =
      State.refreshSeatLamps
        (raised (raised { s with round := r } d.codeIndex d.seatFlag k fire) e.codeIndex e.seatFlag l fire) none := by
  simp only [State.applyRound, List.foldl_cons, List.foldl_nil, State.handOutput_event]

theorem State.applyRound_two_events_withdraw (r : Round) (d e : RoundEvent) (k l : Option Seat) :
    s.applyRound { round := r, outputs := [.event d k, .event e l, .withdraw] } fire =
      State.refreshSeatLamps
        (withdrawn
          (raised (raised { s with round := r } d.codeIndex d.seatFlag k fire) e.codeIndex e.seatFlag l fire))
            none := by
  simp only [State.applyRound, List.foldl_cons, List.foldl_nil, State.handOutput_event, State.handOutput_withdraw]

end

/-- R66: the winner is excluded and leaves the list, WRONG is raised, and the round rebounds. -/
theorem Round.wrong_of_turn {r : Round} {w : Seat} {order : List Seat} {excluded : SeatSet}
    (hturn : r.state = .locked ∨ r.state = .expired) (hwinner : r.winner = some w)
    (horder : order = r.order.filter (fun k => decide (k ≠ w)))
      (hexcluded : excluded = r.excluded ||| BitVec.twoPow 16 w)
    (fire : StationTime) :
    r.wrong fire =
      Round.reboundStep { r with excluded := excluded, order := order, winner := none, windowEnd := none } fire
        [.event .wrong (some w)] := by
  rw [Round.wrong, if_pos (r.hasTurn_iff.2 hturn), Round.excludeWinner_eq hwinner, hwinner, horder, hexcluded]

theorem Round.wrong_ignored {r : Round} (h : ¬ (r.state = .locked ∨ r.state = .expired)) (fire : StationTime) :
    r.wrong fire = r.ignore :=
  if_neg (mt r.hasTurn_iff.1 h)

theorem reboundOf_eq {mode : Byte} {rebound : ReboundMode}
    (h : (mode = 0 ∧ rebound = .queue) ∨ (mode = 1 ∧ rebound = .reopen)) : reboundOf mode = some rebound := by
  rcases h with ⟨rfl, rfl⟩ | ⟨rfl, rfl⟩ <;> rfl

theorem judgeBuzz_seat (seat : Seat) : judgeBuzz (BitVec.ofNat 8 seat.val) [] = .buzz seat := by
  rw [judgeBuzz, seatOf_some.2 rfl]

/-! ## Local presses (R73, R74) -/

theorem State.earlyPress_eq (s : State) (seat : Seat) (press : StationTime) :
    s.earlyPress seat press =
      State.refreshSeatLamps
        (raised
          { s with
            penalties := s.penalties.set seat (some (afterMs press s.round.penaltyMs))
            errors := s.errors.bump .earlyPresses }
          9 none (some seat) press)
        (if s.penalised seat = true then some seat else none) := by
  unfold State.earlyPress
  exact congrArg (fun u => State.refreshSeatLamps u _) (State.handOutput_event press _ .penalty (some seat))

section
variable {s : State} {seat : Seat} {press : StationTime}

theorem State.buzzPress_unsynced (h : s.round.synced = false) : s.buzzPress seat press = s :=
  if_pos h

theorem State.buzzPress_ready (hsync : s.round.synced = true) (hstate : s.round.state = .ready) :
    s.buzzPress seat press = s.earlyPress seat press := by
  rw [State.buzzPress, if_neg (by rw [hsync]; decide), if_pos hstate]

theorem State.buzzPress_valid (hsync : s.round.synced = true) (hstate : s.round.state ≠ .ready)
    (hfree : s.penalised seat = false) (hvalid : ValidBuzz s.round seat) :
    s.buzzPress seat press =
      s.requestFrame
        { cls := 1, subject := BitVec.ofNat 8 seat.val, content := .fixed [], late := false, singleTry := false } := by
  rw [State.buzzPress, if_neg (by rw [hsync]; decide), if_neg hstate, if_neg (by rw [hfree]; decide),
    if_pos ((s.round.validBuzz_iff seat).2 hvalid)]
  rfl

theorem State.buzzPress_nothing (hsync : s.round.synced = true) (hstate : s.round.state ≠ .ready)
    (h : s.penalised seat = true ∨ ¬ ValidBuzz s.round seat) : s.buzzPress seat press = s := by
  rw [State.buzzPress, if_neg (by rw [hsync]; decide), if_neg hstate]
  split
  · rfl
  · next hfree =>
    exact if_neg (mt (s.round.validBuzz_iff seat).1 (h.resolve_left hfree))

end

/-- Settles O57. -/
theorem roundPlayed : Obligations.RoundPlayed := by
  intro s f fire hsender hfire
  obtain rfl : fire = s.fireTime f.sof := hfire
  refine ⟨fun mode window penalty hi lo rebound hcls hsubject hpayload hmode => ?arm,
    fun seat hcls hpayload hsubject => ?buzz,
    fun w order excluded hcls hsubject hpayload hturn hwinner horder hexcluded => ?wrong,
    fun hcls hsubject hpayload hlocked hexpired => ?ignored,
    fun seat press => ⟨State.buzzPress_unsynced, fun hsync hready => ?early, fun hsync hother =>
      ⟨State.buzzPress_valid hsync hother, State.buzzPress_nothing hsync hother⟩⟩⟩
  case arm =>
    have hverdict : judgeVerdict 0 [mode, window, penalty, hi, lo] =
        .arm { rebound := rebound, window := window.toNat, penalty := penalty.toNat, eligible := hi ++ lo } := by
      have hverb : verbOf 0 = some .arm := rfl
      simp only [judgeVerdict, hverb, armOf, reboundOf_eq hmode]
      rfl
    rw [s.dispatchFrame_verdict hsender hcls hsubject hpayload, hverdict]
    exact State.applyRound_withdraw_event { s with penalties := Vector.replicate 16 none } _ _ .armed none
  case buzz =>
    rw [s.dispatchFrame_buzz hsender hcls, hpayload, hsubject, judgeBuzz_seat]
    refine ⟨fun hvalid hopen => ?_, fun hvalid hother => ?_, fun hnot => ?_⟩
    · refine (if_pos ((s.round.validBuzz_iff seat).2 hvalid)).trans ?_
      rw [Round.buzz, if_pos hopen]
      exact s.applyRound_event _ .win _ _
    · refine (if_pos ((s.round.validBuzz_iff seat).2 hvalid)).trans ?_
      rw [Round.buzz, if_neg hother]
      exact s.applyRound_event _ .late _ _
    · exact if_neg (mt (s.round.validBuzz_iff seat).1 hnot)
  case wrong =>
    rw [s.dispatchFrame_verdict hsender hcls hsubject hpayload]
    have hwrong : s.deliver f (judgeVerdict 3 []) =
        s.applyRound
          (Round.reboundStep { s.round with excluded := excluded, order := order, winner := none, windowEnd := none }
            (s.fireTime f.sof) [.event .wrong (some w)]) (s.fireTime f.sof) := by
      rw [← Round.wrong_of_turn hturn hwinner horder hexcluded]
      rfl
    rw [hwrong]
    refine ⟨fun next rest hqueue hnext => ?_, fun hreopen => ?_⟩
    · rw [Round.reboundStep_queue (r := { s.round with
        excluded := excluded, order := order, winner := none, windowEnd := none }) hqueue hnext]
      exact s.applyRound_two_events _ _ .wrong .win _ _
    · rw [Round.reboundStep_reopen (r := { s.round with
        excluded := excluded, order := order, winner := none, windowEnd := none }) hreopen]
      refine ⟨fun hleft => ?_, fun hnone => ?_⟩
      · rw [Round.reopen, if_pos ((eligible_ne_zero_iff _ _).2 hleft)]
        exact s.applyRound_two_events _ _ .wrong .opened _ _
      · rw [Round.reopen, if_neg fun hleft => ?_]
        · exact s.applyRound_two_events_withdraw _ _ .wrong .allout _ _
        · obtain ⟨k, hin, hout⟩ := (eligible_ne_zero_iff _ _).1 hleft
          exact Bool.noConfusion ((hnone k hin).symm.trans hout)
  case ignored =>
    rw [s.dispatchFrame_verdict hsender hcls hsubject hpayload]
    show s.applyRound (s.round.wrong _) _ = _
    rw [Round.wrong_ignored (not_or.2 ⟨hlocked, hexpired⟩), State.applyRound_ignore]
  case early =>
    rw [State.buzzPress_ready hsync hready, State.earlyPress_eq]
    rfl

end Sys2Proof.Machine
end

section
/-!
The cue line at its instants (O21 to O23, O26 to O31): the line state after a change of the counts, what an
attempt's end makes of the Send Queue, then the commands of the line.
-/

namespace Sys2Proof.Machine

/-! ## The line state (R21, R22) -/

theorem LinePort.refresh_eq (l : LinePort) : l.refresh = { l with lineState := stateAfter l l.tec l.recCount } := by
  unfold LinePort.refresh stateAfter lineStateOf
  by_cases hjoined : l.joined = true
  · by_cases hoff : l.lineState = .off
    · rw [if_neg fun h => h.2 hoff, if_pos (.inr hoff)]
    · rw [if_pos ⟨hjoined, hoff⟩, if_neg (not_or.2 ⟨by rw [hjoined]; decide, hoff⟩)]
  · rw [if_neg fun h => hjoined h.1, if_pos (.inl (Bool.not_eq_true _ ▸ hjoined))]

theorem stateAfter_off {l : LinePort} (h : l.lineState = .off) (tec recCount : Nat) :
    stateAfter l tec recCount = .off := by
  rw [stateAfter, if_pos (.inr h), h]

/-- R21: the count of a receive error. -/
theorem LinePort.receiveError_eq {l : LinePort} {n : Nat}
    (hn : n = if l.lineState = .off then l.recCount else min 255 (l.recCount + 1)) :
    l.receiveError = { l with recCount := n, lineState := stateAfter l l.tec n } := by
  unfold LinePort.receiveError
  by_cases hoff : l.lineState = .off
  · rw [if_pos hoff] at hn ⊢
    rw [hn, stateAfter_off hoff, ← hoff]
  · rw [if_neg hoff] at hn ⊢
    rw [hn, LinePort.refresh_eq]
    rfl

/-- R13, R21: the count of a completed frame of another station. -/
theorem LinePort.receiveGood_eq {l : LinePort} {n : Nat}
    (hn : n = if l.lineState = .off then l.recCount else l.recCount - 1) :
    l.receiveGood = { l with recCount := n, lineState := stateAfter l l.tec n } := by
  unfold LinePort.receiveGood
  by_cases hoff : l.lineState = .off
  · rw [if_pos hoff] at hn ⊢
    rw [hn, stateAfter_off hoff, ← hoff]
  · rw [if_neg hoff] at hn ⊢
    rw [hn, LinePort.refresh_eq]
    rfl

theorem LinePort.sendGood_eq (l : LinePort) :
    l.sendGood = { l with tec := l.tec - 1, lineState := stateAfter l (l.tec - 1) l.recCount } :=
  LinePort.refresh_eq _

theorem LinePort.sendError_of_le {l : LinePort} (h : l.tec ≤ 251) :
    l.sendError = { l with tec := l.tec + 4, lineState := stateAfter l (l.tec + 4) l.recCount } := by
  have hstay : l.goesOff = false := decide_eq_false (by omega)
  rw [LinePort.sendError, hstay]
  exact LinePort.refresh_eq _

theorem LinePort.goesOff_of_le {l : LinePort} (h : 252 ≤ l.tec) : l.goesOff = true :=
  decide_eq_true (by omega)

/-! ## The end of an attempt (R43 to R45) -/

theorem map_notFlying {q : List Entry} (h : flying q = none) {f : Entry → Entry} :
    (q.map fun e => if e.state = .inFlight then f e else e) = q := by
  refine (List.map_congr_left fun e he => ?_).trans (List.map_id q)
  have hnot : e.state ≠ .inFlight := by simpa using List.find?_eq_none.1 h e he
  rw [if_neg hnot, id]

/-- R45. -/
theorem State.attemptFailed_eq (s : State) (a : Attempt) :
    s.attemptFailed a =
      { s with
        queue := (afterFailure s.queue s.errors s.now a).1, errors := (afterFailure s.queue s.errors s.now a).2 } := by
  have hfly : (s.queue.find? fun x => decide (x.state = .inFlight)) = flying s.queue := rfl
  unfold State.attemptFailed afterFailure flyingStale landFlying
  rw [hfly]
  cases h : flying s.queue with
  | none => simp [map_notFlying h]
  | some x =>
    dsimp only
    split
    · rfl
    · split
      · next hsingle => rw [if_pos hsingle.1]; rfl
      · next hsingle =>
        rw [if_neg fun hs => hsingle ⟨hs, rfl⟩]
        simp only [Bool.or_false]

/-- R44. -/
theorem State.attemptReturned_eq (s : State) (a : Attempt) :
    s.attemptReturned a =
      { s with
        queue := (afterReturn s.queue s.errors s.now a).1, errors := (afterReturn s.queue s.errors s.now a).2 } := by
  have hfly : (s.queue.find? fun x => decide (x.state = .inFlight)) = flying s.queue := rfl
  unfold State.attemptReturned afterReturn flyingStale landFlying
  rw [hfly]
  cases h : flying s.queue with
  | none => simp [map_notFlying h]
  | some x =>
    dsimp only
    split
    · rfl
    · rfl

theorem State.endAttempt_failed (s : State) (a : Attempt) :
    s.endAttempt a .failed =
      { s with
        queue := (afterFailure s.queue s.errors s.now a).1, errors := (afterFailure s.queue s.errors s.now a).2
        line :=
          { s.line with
            attempt := none, holdoffOwed := true
            drive := if s.line.drive = Drive.frame then Drive.released else s.line.drive } } :=
  State.attemptFailed_eq _ _

theorem State.endAttempt_abandoned (s : State) (a : Attempt) :
    s.endAttempt a .abandoned =
      { s with
        queue := (afterReturn s.queue s.errors s.now a).1, errors := (afterReturn s.queue s.errors s.now a).2
        line :=
          { s.line with
            attempt := none, holdoffOwed := true
            drive := if s.line.drive = Drive.frame then Drive.released else s.line.drive } } :=
  State.attemptReturned_eq _ _

theorem State.endAttempt_lost (s : State) (a : Attempt) :
    s.endAttempt a .lost =
      { s with
        queue := (afterReturn s.queue s.errors s.now a).1, errors := (afterReturn s.queue s.errors s.now a).2
        line :=
          { s.line with
            attempt := none, holdoffOwed := false
            drive := if s.line.drive = Drive.frame then Drive.released else s.line.drive } } :=
  State.attemptReturned_eq _ _

/-- R17, R18, R21: a transmit error that does not enter OFF. -/
theorem State.transmitError_failed {s : State} (h : s.line.tec ≤ 251) (a : Attempt) (spoil : Bool) :
    s.transmitError a spoil =
      { s with
        queue := (afterFailure s.queue s.errors s.now a).1, errors := (afterFailure s.queue s.errors s.now a).2
        line :=
          failedLine s.line s.line.recessiveRun
            (if spoil then .spoil else if s.line.drive = .frame then .released else s.line.drive) } := by
  have hstay : s.line.goesOff = false := decide_eq_false (by omega)
  unfold State.transmitError
  rw [hstay, LinePort.sendError_of_le h]
  simp only [Bool.false_eq_true, if_false, and_true, State.endAttempt_failed, ErrorRecord.bumpIf_false]
  cases spoil <;> rfl

/-- R23: a transmit error that enters OFF. -/
theorem State.transmitError_off {s : State} (h : 252 ≤ s.line.tec) (a : Attempt) (spoil : Bool) :
    s.transmitError a spoil =
      { s with
        queue := (afterReturn s.queue (s.errors.bump .lineOffEntries) s.now a).1
        errors := (afterReturn s.queue (s.errors.bump .lineOffEntries) s.now a).2
        line := offLine s.line s.line.recessiveRun } := by
  have hoff := LinePort.goesOff_of_le h
  unfold State.transmitError LinePort.sendError
  simp only [hoff, if_true, Bool.true_eq_false, and_false, if_false, State.endAttempt_abandoned,
    ErrorRecord.bumpIf_true]
  rfl

/-! ## Quiet gaps (R5, R24, R182) -/

theorem LinePort.countGap_eq (l : LinePort) :
    l.countGap =
      { l with
        tec := if l.lineState = .off ∧ 96 ≤ l.recCount + 1 then 0 else l.tec
        recCount := if l.lineState = .off then (if 96 ≤ l.recCount + 1 then 0 else l.recCount + 1) else l.recCount
        lineState := if l.lineState = .off ∧ 96 ≤ l.recCount + 1 then .active else l.lineState } := by
  unfold LinePort.countGap
  by_cases hoff : l.lineState = .off
  · by_cases hlast : 96 ≤ l.recCount + 1
    · simp only [hoff, hlast, and_self, if_true]
    · simp only [hoff, hlast, and_false, if_true, if_false]
  · simp only [hoff, false_and, if_false]

theorem State.requestFrame_empty {s : State} (hmode : s.loader.mode = .online) (hqueue : s.queue = [])
    (r : FrameRequest) :
    s.requestFrame r = if s.station.shadow then s else { s with queue := [s.newEntry r] } := by
  unfold State.requestFrame
  cases hshadow : s.station.shadow with
  | true => simp
  | false =>
    rw [if_pos ⟨hmode, rfl⟩, hqueue]
    rfl

theorem State.join_eq {s : State} (hqueue : s.queue = []) :
    s.join =
      { s with
        line := { s.line with listening := true, joined := true }
        loader := { s.loader with mode := .online }
        queue :=
          if s.station.shadow then []
          else
            [{ key := makeKey 6 0 s.station.number, content := .fixed [0, 0], enqueued := s.now
               lateLimit := none, singleTry := false, state := .waiting, reported := none, portCleared := false }]
                 } := by
  have hentry : s.newEntry { cls := 6, subject := 0, content := .fixed [0, 0], late := false, singleTry := false } =
      { key := makeKey 6 0 s.station.number, content := .fixed [0, 0], enqueued := s.now
        lateLimit := none, singleTry := false, state := .waiting, reported := none, portCleared := false } := by
    rw [State.newEntry, if_neg nofun]
  unfold State.join
  cases hshadow : s.station.shadow with
  | true => rw [if_pos rfl, if_pos rfl, ← hqueue]
  | false =>
    refine (State.requestFrame_empty ?_ ?_ _).trans ((if_neg ?_).trans ?_)
    · rfl
    · exact hqueue
    · simp [hshadow]
    · rw [← hentry]
      rfl

/-- Settles O21. -/
theorem quietGapCounted : Obligations.QuietGapCounted := by
  intro s t hlive hrate
  have hexec : exec (.quietGap t) s = .next (State.takeGap { s with clock := t }) :=
    congrArg Host.Outcome.next (hlive.onEvent _)
  rw [hexec]
  refine ⟨fun hmode hloaded hoff hqueue => congrArg _ ?_, fun hnot => congrArg _ ?_⟩
  · have hgap : s.line.countGap = s.line := if_neg hoff
    refine (if_pos hrate).trans ((if_pos ⟨hmode, hloaded⟩).trans ?_)
    refine (State.join_eq ?_).trans ?_
    · exact hqueue
    · rw [hgap]
      rfl
  · refine (if_pos hrate).trans ((if_neg hnot).trans ?_)
    rw [LinePort.countGap_eq]

/-! ## Attempts begun and edges followed (R6, R12, R14, R15) -/

theorem State.mayDrive_iff (s : State) : s.mayDrive = true ↔ mayAckNow s := by
  simp [State.mayDrive, mayAckNow, and_assoc]

theorem Contends.offered_eq {s : State} {run : Nat} {e : Entry} (h : Contends s run e) (t : Nat) :
    State.offered { s with clock := t } = some e := by
  have hmay : State.maySend { s with clock := t } = true :=
    (State.mayDrive_iff s).2 ⟨h.joined, h.online, h.sends.1, h.sends.2⟩
  exact (if_pos ⟨hmay, Option.isNone_iff_eq_none.2 h.idle.2⟩).trans h.offered

/-- R14. -/
theorem State.contends_iff (s : State) (t run : Nat) :
    State.contends { s with clock := t } run = true ↔ ∃ e, Contends s run e := by
  have hrequired : s.line.requiredRun =
      13 + (if s.line.holdoffOwed then s.line.holdoff else 0) + (if s.line.lineState = .passive then 8 else 0) := rfl
  unfold State.contends
  simp only [Bool.and_eq_true, decide_eq_true_iff, Option.isNone_iff_eq_none]
  constructor
  · rintro ⟨⟨⟨⟨⟨hmay, hoffer⟩, hattempt⟩, hrun⟩, hlow⟩, hhigh⟩
    obtain ⟨hjoined, honline, hshadow, hoff⟩ := (State.mayDrive_iff s).1 hmay
    obtain ⟨e, he⟩ := Option.isSome_iff_exists.1 hoffer
    unfold State.offered at he
    split at he
    · next hidle =>
      exact ⟨e, hjoined, honline, ⟨hshadow, hoff⟩, ⟨hattempt, Option.isNone_iff_eq_none.1 hidle.2⟩, he,
        hrequired ▸ hrun, hlow, hhigh⟩
    · cases he
  · rintro ⟨e, h⟩
    obtain ⟨hlow, hhigh⟩ := h.counted
    refine ⟨⟨⟨⟨⟨?_, ?_⟩, h.idle.1⟩, hrequired ▸ h.required⟩, hlow⟩, hhigh⟩
    · exact (State.mayDrive_iff s).2 ⟨h.joined, h.online, h.sends.1, h.sends.2⟩
    · rw [h.offered_eq t]
      rfl

theorem State.endFollowed_eq {s u : State} {old : Option Followed}
    (hwindow : ∀ f, old = some f → f.inWindow = true → u = s.completeFrame f)
    (hother : (∀ f, old = some f → f.inWindow = false) → u = s) : s.endFollowed old = u := by
  unfold State.endFollowed
  cases old with
  | none => exact (hother nofun).symm
  | some f =>
    cases h : f.inWindow with
    | true => simpa [h] using (hwindow f rfl h).symm
    | false => simpa [h] using (hother fun g hg => by cases hg; exact h).symm

theorem State.newAttempt_eq (s : State) (t : Nat) (e : Entry) :
    State.newAttempt { s with clock := t } e =
      { key := e.key, payload := payloadAt s t e, check := checkOf (frameHead e.key (payloadAt s t e))
        singleTry := e.singleTry
        tellArg := (match e.content with | .fixed _ => none | .tell arg => some arg)
        portCleared :=
          e.portCleared &&
            decide
              (errorsGroup e.key (match e.content with | .fixed _ => none | .tell arg => some arg) = e.reported) &&
            (match e.content with | .fixed _ => false | .tell arg => arg.msb) } := by
  unfold State.newAttempt State.entryPayload Entry.tellArg payloadAt
  cases e.content <;> rfl

/-- R12, R15: the attempt of the offered entry, and the completion of a frame in its ack window. -/
theorem State.beginAttempt_eq {s u : State} {t run : Nat} {e : Entry} (h : Contends s run e)
    (hwindow : ∀ f, s.line.followed = some f → f.inWindow = true → u = (attempting s t e).completeFrame f)
    (hother : (∀ f, s.line.followed = some f → f.inWindow = false) → u = attempting s t e) :
    State.beginAttempt { s with clock := t } = u := by
  unfold State.beginAttempt
  rw [h.offered_eq t]
  dsimp only
  rw [State.newAttempt_eq]
  exact State.endFollowed_eq hwindow hother

/-- Settles O22. -/
theorem attemptBegins : Obligations.AttemptBegins := by
  intro s t run hlive
  have hexec : exec (.attemptStart t run) s = .next (_ : State) := congrArg Host.Outcome.next (hlive.onEvent _)
  have hcontends := s.contends_iff t run
  refine ⟨fun e u he hwindow hother => ?_, fun hnone => ?_⟩
  · refine hexec.trans (congrArg _ ((if_pos (hcontends.2 ⟨e, he⟩)).trans ?_))
    exact State.beginAttempt_eq he hwindow hother
  · exact hexec.trans (congrArg _ (if_neg fun h => by obtain ⟨e, he⟩ := hcontends.1 h; exact hnone e he))

theorem LinePort.releaseAck_follow (l : LinePort) (sof : StationTime) :
    l.releaseAck.follow sof =
      { l with
        followed := some { sof := sof, chars := [] }, recessiveRun := 0
        drive := if l.drive = .ack then .released else l.drive } := by
  unfold LinePort.releaseAck LinePort.follow
  split
  · rfl
  · rfl

/-- Settles O23. -/
theorem sofEdgeFollowed : Obligations.SofEdgeFollowed := by
  intro s t run hlive hlisten hquiet hattempt
  have hexec : exec (.sofEdge t run) s = .next
      (if State.contends { s with clock := t } run then State.beginAttempt { s with clock := t }
       else State.followEdge { s with clock := t }) :=
    congrArg Host.Outcome.next
      ((hlive.onEvent _).trans (if_pos ⟨hlisten, hquiet, Option.isNone_iff_eq_none.2 hattempt⟩))
  have hcontends := s.contends_iff t run
  refine ⟨fun e u he hwindow hother => ?_, fun hnone after hafter => ?_⟩
  · refine hexec.trans (congrArg _ ((if_pos (hcontends.2 ⟨e, he⟩)).trans ?_))
    exact State.beginAttempt_eq he hwindow hother
  · have hnot : ¬ State.contends { s with clock := t } run = true := fun h => by
      obtain ⟨e, he⟩ := hcontends.1 h
      exact hnone e he
    have hfollow : State.followEdge { s with clock := t } = after.endFollowed s.line.followed := by
      rw [hafter]
      unfold State.followEdge
      rw [LinePort.releaseAck_follow]
      rfl
    rw [hexec, if_neg hnot, hfollow]
    refine ⟨fun f hf hin => congrArg _ ?_, fun hout => congrArg _ ?_⟩
    · rw [hf]
      exact if_pos hin
    · exact State.endFollowed_eq (fun f hf hin => absurd hin (by rw [hout f hf]; decide)) fun _ => rfl

end Sys2Proof.Machine
end

section
/-!
The ends of spoils, attempts and frames on the cue line (O26 to O30), and the times that station time reaches (O31).
-/

namespace Sys2Proof.Machine

/-! ## Spoils (R10 to R12, R18) -/

theorem LinePort.releaseAck_eq (l : LinePort) :
    l.releaseAck = { l with drive := if l.drive = .ack then .released else l.drive } := by
  unfold LinePort.releaseAck
  split
  · rfl
  · rfl

theorem State.seeSpoil_idle {s : State} (h : s.line.attempt = none) :
    s.seeSpoil =
      { s with
        errors := s.errors.bump .spoilsSeen
        line :=
          { s.line with
            followed := none, recessiveRun := 0
            drive := if s.line.drive = .ack then .released else s.line.drive } } := by
  unfold State.seeSpoil
  rw [h, LinePort.releaseAck_eq]

theorem State.seeSpoil_sending {s : State} {a : Attempt} (h : s.line.attempt = some a) :
    s.seeSpoil =
      State.transmitError
        { s with
          errors := s.errors.bump .spoilsSeen
          line :=
            { s.line with
              followed := none, recessiveRun := 0
              drive := if s.line.drive = .ack then .released else s.line.drive } }
        a false := by
  unfold State.seeSpoil
  rw [h, LinePort.releaseAck_eq]

/-- Settles O26. -/
theorem spoilsTaken : Obligations.SpoilsTaken := by
  intro s t hlive
  refine ⟨fun hspoil => congrArg Host.Outcome.next ((hlive.onEvent _).trans (if_pos hspoil)),
    fun f hf hattempt hin => congrArg Host.Outcome.next ((hlive.onEvent _).trans ?_), fun hlisten hattempt => ?_,
    fun a q hlisten hattempt => ⟨fun hlow hq => ?_, fun hhigh hq => ?_⟩⟩
  · rw [hattempt, hf]
    refine (if_pos hin).trans ?_
    rw [LinePort.releaseAck_eq]
  · refine congrArg Host.Outcome.next ((hlive.onEvent _).trans ((if_pos hlisten).trans ?_))
    exact State.seeSpoil_idle hattempt
  · refine congrArg Host.Outcome.next ((hlive.onEvent _).trans ((if_pos hlisten).trans ?_))
    refine (State.seeSpoil_sending ?_).trans ((State.transmitError_failed ?_ a false).trans ?_)
    · exact hattempt
    · exact hlow
    have hdrive : (if (if s.line.drive = .ack then Drive.released else s.line.drive) = .frame then Drive.released
          else if s.line.drive = .ack then Drive.released else s.line.drive) =
        if s.line.drive = .ack ∨ s.line.drive = .frame then Drive.released else s.line.drive := by
      cases s.line.drive <;> rfl
    rw [hq, ← hdrive]
    rfl
  · refine congrArg Host.Outcome.next ((hlive.onEvent _).trans ((if_pos hlisten).trans ?_))
    refine (State.seeSpoil_sending ?_).trans ((State.transmitError_off ?_ a false).trans ?_)
    · exact hattempt
    · exact hhigh
    · rw [hq]
      rfl

/-! ## Lost arbitration and transmit errors (R16 to R18) -/

/-- Settles O27. -/
theorem arbitrationLost : Obligations.ArbitrationLost := by
  intro s t bit a f hlive hattempt hf hlength hbit q hq
  refine congrArg Host.Outcome.next ((hlive.onEvent _).trans ?_)
  rw [hattempt, hf]
  refine (if_pos ⟨hlength, hbit⟩).trans ((State.endAttempt_lost _ a).trans ?_)
  rw [hq]
  rfl

theorem State.windowAttempt_eq {s : State} {a : Attempt} {f : Followed} {t : Nat} (ha : s.line.attempt = some a)
    (hf : s.line.followed = some f) (hin : f.inWindow = true) :
    State.windowAttempt { s with clock := t } = some (a, f) := by
  unfold State.windowAttempt
  rw [ha, hf]
  exact if_pos hin

theorem LinePort.missAck_eq (l : LinePort) (h : l.tec < 128 → l.tec ≤ 251) :
    l.missAck =
      { l with
        tec := if l.tec < 128 then l.tec + 4 else l.tec
        lineState := if l.tec < 128 then stateAfter l (l.tec + 4) l.recCount else l.lineState } := by
  unfold LinePort.missAck
  split
  · next hlow => exact LinePort.sendError_of_le (h hlow)
  · rfl

/-- Settles O28. -/
theorem transmitErrors : Obligations.TransmitErrors := by
  intro s t a f hlive hattempt hf
  refine ⟨fun run hout => ?_, fun hin => ?_⟩
  · have hexec : exec (.bitError t run) s = .next
        (State.transmitError { s with clock := t, line := { s.line with recessiveRun := run } } a s.maySpoil) := by
      refine congrArg Host.Outcome.next ((hlive.onEvent _).trans ?_)
      rw [hattempt, hf]
      exact if_neg (by rw [hout]; decide)
    refine ⟨fun hlow q hq => hexec.trans (congrArg _ ?_), fun hhigh q hq => hexec.trans (congrArg _ ?_)⟩
    · refine (State.transmitError_failed ?_ a _).trans ?_
      · exact hlow
      · rw [hq]
        rfl
    · refine (State.transmitError_off ?_ a _).trans ?_
      · exact hhigh
      · rw [hq]
        rfl
  · have hwindow := State.windowAttempt_eq (t := t) hattempt hf hin
    have hexec : exec (.ownFrameSpoiled t) s = .next
        (State.transmitError { s with clock := t, line := { s.line with recessiveRun := 0 } } a false) := by
      refine congrArg Host.Outcome.next ((hlive.onEvent _).trans ?_)
      rw [hwindow]
    refine ⟨fun hlow q hq => hexec.trans (congrArg _ ?_), fun hhigh q hq => hexec.trans (congrArg _ ?_), fun q hq => ?_⟩
    · refine (State.transmitError_failed ?_ a _).trans ?_
      · exact hlow
      · rw [hq]
        rfl
    · refine (State.transmitError_off ?_ a _).trans ?_
      · exact hhigh
      · rw [hq]
        rfl
    · refine congrArg Host.Outcome.next ((hlive.onEvent _).trans ?_)
      rw [hwindow]
      refine (State.endAttempt_failed _ a).trans ?_
      rw [LinePort.missAck_eq _ fun h => by omega, hq]
      rfl

/-! ## Completed frames (R13, R19) -/

theorem State.handsOn_iff (s : State) : s.handsOn = true ↔ s.line.joined = true ∧ s.loader.mode ≠ .service := by
  simp [State.handsOn]

theorem ErrorRecord.mapGroup_count (e : ErrorRecord) (g : Nat) (f : Nat → Nat → Nat) (i : Fin 18) :
    (e.mapGroup g f).counts[i] = if i.val / 3 = g then f (i.val % 3) e.counts[i] else e.counts[i] :=
  mapEach_get _ _ _

theorem reportedCount_eq (payload : List Byte) (i : Nat) :
    reportedCount payload i = (payload[1 + 2 * i]?.getD 0).toNat * 256 + (payload[2 + 2 * i]?.getD 0).toNat := by
  rw [reportedCount, word16, BitVec.toNat_append, ← Nat.shiftLeft_add_eq_or_of_lt (BitVec.isLt _), Nat.shiftLeft_eq]

/-- R43, R50: the counts after the own frame has completed. -/
theorem ErrorRecord.afterTell_eq {e errors : ErrorRecord} {a : Attempt}
    (hother : (∀ arg, a.tellArg = some arg → ¬ (keyClass a.key = 7 ∧ keySubject a.key = 4 ∧ arg.msb = true)) →
      errors = e)
    (hclear : ∀ arg, a.tellArg = some arg → keyClass a.key = 7 → keySubject a.key = 4 → arg.msb = true →
      ∀ (i : Fin 18) (hi lo : Byte), hi = a.payload[1 + 2 * (i.val % 3)]?.getD 0 →
        lo = a.payload[2 + 2 * (i.val % 3)]?.getD 0 →
        errors.counts[i] =
          if i.val / 3 = (arg &&& 0x7F).toNat then
            (if a.portCleared then 0 else e.counts[i] - (hi.toNat * 256 + lo.toNat))
          else e.counts[i]) : e.afterTell a = errors := by
  unfold ErrorRecord.afterTell
  cases harg : a.tellArg with
  | none => exact (hother fun arg h => by rw [harg] at h; cases h).symm
  | some arg =>
    dsimp only
    split
    · next hcarries =>
      obtain ⟨hclass, hsubject, hmsb⟩ := hcarries
      have hcount := hclear arg harg hclass hsubject hmsb
      have hcounts : (e.mapGroup (arg &&& 0x7F).toNat fun i n =>
          if a.portCleared then 0 else n - reportedCount a.payload i).counts = errors.counts := by
        refine Vector.ext fun i hi => ?_
        show (e.mapGroup _ _).counts[(⟨i, hi⟩ : Fin 18)] = errors.counts[(⟨i, hi⟩ : Fin 18)]
        rw [ErrorRecord.mapGroup_count, hcount ⟨i, hi⟩ _ _ rfl rfl, reportedCount_eq]
      exact congrArg ErrorRecord.mk hcounts
    · next hcarries =>
      refine (hother fun arg' h => ?_).symm
      rw [harg] at h
      cases h
      exact hcarries

/-- Settles O29. -/
theorem ownFrameCompletes : Obligations.OwnFrameCompletes := by
  intro s t a f hlive hattempt hf hin errors after hother hclear hafter
  have hexec : exec (.ownFrameComplete t) s = .next
      (if s.handsOn then after.dispatchFrame (frameOf a.key a.payload f.sof) else after) := by
    refine congrArg Host.Outcome.next ((hlive.onEvent _).trans ?_)
    rw [State.windowAttempt_eq hattempt hf hin]
    dsimp only
    have hended : State.endAttempt
        { s with
          clock := t
          line := { s.line.sendGood with framesSent := s.line.sendGood.framesSent + 1, followed := none } }
        a .completed = after := by
      rw [hafter, ← ErrorRecord.afterTell_eq hother hclear, LinePort.sendGood_eq]
      rfl
    rw [hended]
    rfl
  have hhands := s.handsOn_iff
  rw [hexec]
  exact ⟨fun hjoined hmode => congrArg _ (if_pos (hhands.2 ⟨hjoined, hmode⟩)),
    fun hnot => congrArg _ (if_neg (mt hhands.1 hnot))⟩

/-- Settles O30. -/
theorem frameCompletes : Obligations.FrameCompletes := by
  intro s t f hlive hattempt hf hin n after hn hafter
  have hexec : exec (.frameComplete t) s = .next
      (if s.handsOn then after.dispatchFrame (frameOf f.key f.payload f.sof) else after) := by
    refine congrArg Host.Outcome.next ((hlive.onEvent _).trans ?_)
    rw [hattempt, hf]
    have hgood : LinePort.receiveGood { s.line.releaseAck with followed := none } =
        { s.line with
          recCount := n, lineState := stateAfter s.line s.line.tec n, followed := none
          drive := if s.line.drive = .ack then .released else s.line.drive } := by
      rw [LinePort.releaseAck_eq]
      exact LinePort.receiveGood_eq hn
    refine (if_pos hin).trans ?_
    rw [State.completeFrame, hgood, hafter, State.handsOn, LinePort.releaseAck_eq]
    rfl
  have hhands := s.handsOn_iff
  rw [hexec]
  exact ⟨fun hjoined hmode => congrArg _ (if_pos (hhands.2 ⟨hjoined, hmode⟩)),
    fun hnot => congrArg _ (if_neg (mt hhands.1 hnot))⟩

/-! ## Times reached (R46, R57, R71) -/

theorem State.dropDue_iff (s : State) (key : Key) (t : Nat) :
    State.dropDue { s with clock := t } key = true ↔
      ∃ e ∈ s.queue, ∃ ms, e.key = key ∧ e.state = .waiting ∧ e.lateLimit = some ms ∧
        (ms * 1000 : Int) ≤ (stationTimeAt t - e.enqueued).toInt := by
  have hstale (e : Entry) : e.stale (stationTimeAt t) = true ↔
      ∃ ms, e.lateLimit = some ms ∧ (ms * 1000 : Int) ≤ (stationTimeAt t - e.enqueued).toInt := by
    unfold Entry.stale
    cases e.lateLimit <;> simp [ageReached, ageMicros]
  rw [State.dropDue, List.any_eq_true]
  refine exists_congr fun e => and_congr_right fun _ => ?_
  rw [Bool.and_eq_true, Bool.and_eq_true, decide_eq_true_iff, decide_eq_true_iff]
  refine (and_congr_right fun _ => hstale e).trans ?_
  simp only [and_assoc, exists_and_left]

theorem Round.expire_eq (r : Round) :
    r.expire = { round := { r with state := .expired, windowEnd := none }, outputs := [.event .timeout r.winner] } :=
  rfl

theorem raised_none {s : State} {index : Fin 10} (h : s.station.eventCode[index] = none) (flag : Option (Fin 5))
    (seat : Option Seat) (fire : StationTime) : raised s index flag seat fire = s := by
  rw [raised, h]

theorem raised_some {s : State} {index : Fin 10} {code : Byte} (h : s.station.eventCode[index] = some code)
    (flag : Option (Fin 5)) (k : Seat) (fire : StationTime) :
    raised s index flag (some k) fire =
      s.takeTrigger
        { code := if flag.any fun i => s.station.addSeat[i] then code + BitVec.ofNat 8 k.val else code
          source := .local, seat := some k, fireTime := fire } := by
  rw [raised, h]

/-- Settles O31. -/
theorem timesReached : Obligations.TimesReached := by
  intro s t hlive
  refine ⟨fun key e ms he hkey hwaiting hlimit hage => ?_, fun key hnot => ?_, fun seat e hend hreached => ?_,
    fun seat hnot => ?_, fun e after hlocked hend hreached hafter => ?_, fun hnot => ?_⟩
  · refine congrArg Host.Outcome.next ((hlive.onEvent _).trans (if_pos ?_))
    exact (s.dropDue_iff key t).2 ⟨e, he, ms, hkey, hwaiting, hlimit, hage⟩
  · refine congrArg Host.Outcome.next ((hlive.onEvent _).trans (if_neg fun h => ?_))
    obtain ⟨e, he, ms, hkey, hwaiting, hlimit, hage⟩ := (s.dropDue_iff key t).1 h
    exact absurd hage (not_le.2 (hnot e he ms hkey hwaiting hlimit))
  · refine congrArg Host.Outcome.next ((hlive.onEvent _).trans ?_)
    rw [hend]
    exact if_pos (decide_eq_true hreached)
  · refine congrArg Host.Outcome.next ((hlive.onEvent _).trans ?_)
    cases hend : s.penalties[seat] with
    | none => rfl
    | some e => exact if_neg fun h => absurd (of_decide_eq_true h) (not_le.2 (hnot e hend))
  · have hexec : exec (.windowExpiry t) s = .next
        (State.refreshSeatLamps (raised after 4 (some 2) s.round.winner e) none) := by
      refine congrArg Host.Outcome.next ((hlive.onEvent _).trans ?_)
      rw [hend]
      refine (if_pos ⟨hlocked, decide_eq_true hreached⟩).trans ?_
      rw [hafter, Round.expire_eq]
      exact State.applyRound_event _ _ .timeout _ _
    have hstation : after.station = s.station := by rw [hafter]
    rw [hexec]
    refine ⟨fun hcode => ?_, fun c w hcode hwinner => ?_⟩
    · rw [raised_none (by rw [hstation]; exact hcode)]
    · rw [hwinner, raised_some (code := c) (by rw [hstation]; exact hcode), hstation]
      rfl
  · refine congrArg Host.Outcome.next ((hlive.onEvent _).trans ?_)
    cases hend : s.round.windowEnd with
    | none => rfl
    | some e => exact if_neg fun ⟨hlocked, h⟩ => absurd (of_decide_eq_true h) (not_le.2 (hnot e hlocked hend))

end Sys2Proof.Machine
end

section
/-!
Characters on the cue line: the count of R5, the faults of a character, what a station takes of a frame (O24, O25).
-/

namespace Sys2Proof.Machine

/-! ## Bit times (R3, R5) -/

theorem runAfter_eq (run : Nat) (bits : List Level) : runAfter run bits = bits.foldl countLevel run := by
  unfold runAfter
  congr 1
  funext n b
  cases b <;> rfl

theorem charBits_eq (c : LineChar) :
    charBits c =
      c.start :: (([0, 1, 2, 3, 4, 5, 6, 7].map fun i => levelOf (c.data.getMsbD i)) ++
        [levelOf c.parity, c.stop]) := by
  have hlevel (b : Bool) : (if b then Level.recessive else .dominant) = levelOf b := by cases b <;> rfl
  simp only [charBits, hlevel]
  rfl

/-- R3, R5: the eleven bit times of a character. -/
theorem runAfter_charBits (run : Nat) (c : LineChar) : runAfter run (charBits c) = countTime run c := by
  rw [runAfter_eq, charBits_eq, List.foldl_cons, List.foldl_append, List.foldl_map]
  rfl

theorem runAfter_append (run : Nat) (a b : List Level) : runAfter run (a ++ b) = runAfter (runAfter run a) b := by
  rw [runAfter, List.foldl_append]
  rfl

theorem countChar_dominant {c : LineChar} (h : c.start = .dominant) (run : Nat) :
    countChar run c = runAfter run (charBits c) := by
  rw [countChar, h, runAfter_charBits]

theorem Followed.closingRun_eq {f : Followed} {last : Byte} (h : f.chars.getLast? = some last) :
    f.closingRun = runAfter 0 (charBits (goodChar last)) := by
  rw [Followed.closingRun, h]
  exact countChar_dominant rfl 0

/-! ## Faults (R4, R8) -/

theorem evenParity_iff (b : Byte) (p : Bool) :
    p ≠ evenParity b ↔ ((List.range 8).countP (fun i => b.getLsbD i) + if p then 1 else 0) % 2 = 1 := by
  revert b p
  decide

section charFault
variable {taken : List Byte} {c : LineChar}

theorem charFault_noStart (h : c.start = .recessive) : charFault taken c = some .framingErrors :=
  if_pos h

theorem charFault_parity (hstart : c.start = .dominant) (h : c.parity ≠ evenParity c.data) :
    charFault taken c = some .parityErrors := by
  rw [charFault, if_neg (by rw [hstart]; decide), if_pos h]

theorem charFault_stop (hstart : c.start = .dominant) (hparity : ¬ c.parity ≠ evenParity c.data)
    (h : c.stop = .dominant) : charFault taken c = some .framingErrors := by
  rw [charFault, if_neg (by rw [hstart]; decide), if_neg hparity, if_pos h]

/-- A character whose own bits are good is judged by its place (R4, R8). -/
theorem charFault_place (hstart : c.start = .dominant) (hparity : ¬ c.parity ≠ evenParity c.data)
    (hstop : c.stop = .recessive) :
    charFault taken c =
      if taken.length = 2 ∧ 8 < c.data.toNat then some .framingErrors
      else if taken[2]?.map (fun len => len.toNat + 4) = some taken.length then
        (if word16 (taken.getLast?.getD 0) c.data = checkOf taken.dropLast then none else some .checkErrors)
      else none := by
  rw [charFault, if_neg (by rw [hstart]; decide), if_neg hparity, if_neg (by rw [hstop]; decide)]

/-- A receiver finds no fault but at a character with its start bit. -/
theorem start_of_charFault (h : charFault taken c = none) : c.start = .dominant := by
  cases hstart : c.start with
  | dominant => rfl
  | recessive =>
    rw [charFault_noStart hstart] at h
    cases h

end charFault

/-- R8: the check register, bit by bit. -/
theorem checkByte_eq (reg : BitVec 16) (b : Byte) :
    checkByte reg b =
      (List.range 8).foldl
        (fun (reg : BitVec 16) i => if reg.msb = b.getLsbD (7 - i) then reg <<< 1 else (reg <<< 1) ^^^ 0x1021#16)
          reg := by
  have hbit (r : BitVec 16) (x : Bool) :
      checkBit r x = if r.msb = x then r <<< 1 else (r <<< 1) ^^^ 0x1021#16 := by
    unfold checkBit
    cases x <;> cases r.msb <;> rfl
  unfold checkByte
  simp only [hbit]
  rfl

/-! ## The Line Port hears a character (R4, R5) -/

theorem LinePort.hear_body {l : LinePort} {c : LineChar} (h : l.followed.filter Followed.inWindow = none) :
    l.hear c = { l with recessiveRun := l.bodyRun c } := by
  rw [LinePort.hear, h]

theorem LinePort.bodyRun_eq {l : LinePort} {c : LineChar} (h : l.followed = none ∨ l.attempt.isSome = true) :
    l.bodyRun c = if c.start = .dominant then runAfter l.recessiveRun (charBits c) else l.recessiveRun := by
  have hnot : ¬ (l.followed.isSome = true ∧ l.attempt.isNone = true) := by
    rintro ⟨hf, ha⟩
    rcases h with h | h
    · rw [h] at hf; cases hf
    · rw [Option.isNone_iff_eq_none] at ha
      rw [ha] at h; cases h
  unfold LinePort.bodyRun
  by_cases hstart : c.start = .dominant
  · rw [if_pos (.inl hstart), if_pos hstart, countChar_dominant hstart]
  · rw [if_neg (not_or.2 ⟨hstart, hnot⟩), if_neg hstart]

/-- On a frame being received the missing start bit counts as well. -/
theorem LinePort.bodyRun_receiving {l : LinePort} {c : LineChar} {f : Followed} (hf : l.followed = some f)
    (ha : l.attempt = none) :
    l.bodyRun c = if c.start = .dominant then runAfter l.recessiveRun (charBits c) else l.recessiveRun + 1 := by
  unfold LinePort.bodyRun
  rw [if_pos (.inr ⟨by rw [hf]; rfl, by rw [ha]; rfl⟩)]
  split
  · next h => exact countChar_dominant h _
  · next h =>
    have hrec : c.start = .recessive := by cases hs : c.start <;> simp_all
    rw [countChar, hrec]

theorem filter_notWindow {f : Followed} (h : f.inWindow = false) : (some f).filter Followed.inWindow = none := by
  simp [h]

theorem State.takeChar_idle {s : State} (hrate : s.line.bitRate.isSome) (hf : s.line.followed = none) (c : LineChar) :
    s.takeChar c =
      { s with
        line :=
          { s.line with
            recessiveRun :=
              if c.start = .dominant then runAfter s.line.recessiveRun (charBits c) else s.line.recessiveRun } } := by
  have hhear := LinePort.hear_body (l := s.line) (c := c) (by rw [hf]; rfl)
  refine (if_pos hrate).trans ?_
  rw [hhear, LinePort.bodyRun_eq (.inl hf)]
  dsimp only
  rw [hf]

/-- A character of another station's frame, outside its ack window (R4). -/
theorem State.takeChar_receiving {s : State} {f : Followed} (hrate : s.line.bitRate.isSome)
    (hf : s.line.followed = some f)
    (ha : s.line.attempt = none) (hout : f.inWindow = false) (c : LineChar) :
    s.takeChar c =
      State.receiveChar
        { s with
          line :=
            { s.line with
              recessiveRun :=
                if c.start = .dominant then runAfter s.line.recessiveRun (charBits c)
                else s.line.recessiveRun + 1 } } f c := by
  have hhear := LinePort.hear_body (l := s.line) (c := c) (by rw [hf]; exact filter_notWindow hout)
  refine (if_pos hrate).trans ?_
  rw [hhear, LinePort.bodyRun_receiving hf ha]
  dsimp only
  rw [hf, ha]

/-- A character on the own frame, outside its ack window (R17). -/
theorem State.takeChar_sending {s : State} {f : Followed} {a : Attempt} (hrate : s.line.bitRate.isSome)
    (hf : s.line.followed = some f) (ha : s.line.attempt = some a) (hout : f.inWindow = false) (c : LineChar) :
    s.takeChar c =
      State.sendChar
        { s with
          line :=
            { s.line with
              recessiveRun :=
                if c.start = .dominant then runAfter s.line.recessiveRun (charBits c) else s.line.recessiveRun } } a f
                  c := by
  have hhear := LinePort.hear_body (l := s.line) (c := c) (by rw [hf]; exact filter_notWindow hout)
  refine (if_pos hrate).trans ?_
  rw [hhear, LinePort.bodyRun_eq (.inr (by rw [ha]; rfl))]
  dsimp only
  rw [hf, ha]

/-- R12: the character time of an ack window is heard, and nothing more. -/
theorem State.takeChar_window {s : State} {f : Followed} {last : Byte} {run : Nat} {c : LineChar}
    (hrate : s.line.bitRate.isSome) (hf : s.line.followed = some f) (hin : f.inWindow = true)
    (hlast : f.chars.getLast? = some last)
    (hown : ∀ a, s.line.attempt = some a → f.chars = frameChars a.key a.payload a.check)
    (hrun : run = runAfter 0 (charBits (goodChar last) ++ charBits c)) :
    s.takeChar c =
      { s with
        line :=
          { (if s.line.recessiveRun < 13 ∧ 13 ≤ run then s.line.countGap else s.line) with recessiveRun := run } } := by
  have hcount : countTime f.closingRun c = run := by
    rw [hrun, runAfter_append, Followed.closingRun_eq hlast, runAfter_charBits, runAfter_charBits]
  have hhear : s.line.hear c =
      { (if s.line.recessiveRun < 13 ∧ 13 ≤ run then s.line.countGap else s.line) with recessiveRun := run } := by
    have hfilter : s.line.followed.filter Followed.inWindow = some f := by
      rw [hf]
      simp [hin]
    rw [LinePort.hear, hfilter]
    dsimp only
    rw [hcount]
  have hgap (l : LinePort) : l.countGap.followed = l.followed ∧ l.countGap.attempt = l.attempt := by
    rw [LinePort.countGap_eq]
    exact ⟨rfl, rfl⟩
  have hsame : (s.line.hear c).followed = some f ∧ (s.line.hear c).attempt = s.line.attempt := by
    rw [hhear]
    split
    · exact ⟨(hgap _).1.trans hf, (hgap _).2⟩
    · exact ⟨hf, rfl⟩
  rw [← hhear]
  refine (if_pos hrate).trans ?_
  dsimp only
  rw [hsame.1, hsame.2]
  cases ha : s.line.attempt with
  | none => exact if_pos hin
  | some a =>
    dsimp only
    have hend : (frameChars a.key a.payload a.check)[f.chars.length]? = none := by
      rw [hown a ha]
      exact List.getElem?_eq_none le_rfl
    rw [State.sendChar, hend]

theorem State.liveAt.characterReceived {s : State} {t : Nat} (hlive : s.liveAt t) (c : LineChar) :
    exec (.characterReceived t c) s = .next (State.takeChar { s with clock := t } c) :=
  congrArg Host.Outcome.next (hlive.onEvent _)

/-- R4, R12: a receiver takes a good character, and acks after the last. -/
theorem State.receiveChar_good {s : State} {f : Followed} {c : LineChar} (hout : f.inWindow = false)
    (hgood : charFault f.chars c = none) :
    s.receiveChar f c =
      { s with
        line :=
          { s.line with
            followed := some { f with chars := f.chars ++ [c.data] }
            drive :=
              if Followed.inWindow { f with chars := f.chars ++ [c.data] } && s.mayAck then .ack
              else s.line.drive } } := by
  rw [State.receiveChar, if_neg (by rw [hout]; decide), hgood]

theorem State.receiveChar_fault {s : State} {f : Followed} {c : LineChar} {kind : ErrorCount}
    (hout : f.inWindow = false)
    (hfault : charFault f.chars c = some kind) : s.receiveChar f c = s.receiveError kind := by
  rw [State.receiveChar, if_neg (by rw [hout]; decide), hfault]

/-- R24: the quiet gap that an ack window may bring while OFF. -/
theorem LinePort.countGap_notOff {l : LinePort} (h : l.lineState ≠ .off) : l.countGap = l :=
  if_neg h

/-- Settles O24. -/
theorem characterTaken : Obligations.CharacterTaken := by
  intro s t c hlive hrate
  rw [hlive.characterReceived c]
  refine ⟨fun hf => congrArg _ (State.takeChar_idle ?_ ?_ c), fun f hf ha hout hgood => ?receiving,
    fun f a b hf ha hout hb => ?sending, fun f last run hf hin hlast hown hrun => ?window⟩
  · exact hrate
  · exact hf
  case receiving =>
    have hstart := start_of_charFault hgood
    have hack : (Followed.inWindow { f with chars := f.chars ++ [c.data] } && State.mayAck s) = true ↔
        Followed.inWindow { f with chars := f.chars ++ [c.data] } = true ∧ mayAckNow s := by
      rw [Bool.and_eq_true]
      exact and_congr_right fun _ => s.mayDrive_iff
    have htaken := State.takeChar_receiving (s := { s with clock := t }) hrate hf ha hout c
    rw [htaken, State.receiveChar_good hout hgood, if_pos hstart]
    exact ⟨_, rfl, fun h => if_pos (hack.2 h), fun h => if_neg (mt hack.1 h)⟩
  case sending =>
    have htaken := State.takeChar_sending (s := { s with clock := t }) hrate hf ha hout c
    rw [htaken]
    refine ⟨fun hsame => congrArg _ ?_, fun hother => congrArg _ ?_⟩
    · rw [State.sendChar, hb]
      refine (if_pos hsame).trans ?_
      have hstart : (goodChar b).start = .dominant := rfl
      rw [hsame, if_pos hstart]
    · rw [State.sendChar, hb]
      exact if_neg hother
  case window =>
    have htaken := State.takeChar_window (s := { s with clock := t }) hrate hf hin hlast hown hrun
    rw [htaken]
    refine ⟨fun hquiet => congrArg _ ?_, fun hoff hlow hhigh => congrArg _ ?_⟩
    · by_cases hstate : s.line.lineState = .off
      · have hnogap : ¬ (s.line.recessiveRun < 13 ∧ 13 ≤ run) := fun ⟨hlow, hhigh⟩ => by
          rcases hquiet with h | h | h
          · exact h hstate
          · exact absurd hlow (not_lt.2 h)
          · exact absurd hhigh (not_le.2 h)
        rw [if_neg hnogap]
      · rw [LinePort.countGap_notOff hstate, ite_self]
    · rw [if_pos ⟨hlow, hhigh⟩, LinePort.countGap_eq]
      simp only [hoff, true_and, if_true]

theorem State.maySpoil_iff (s : State) : s.maySpoil = true ↔ mayAckNow s ∧ s.line.lineState ≠ .passive := by
  rw [State.maySpoil, Bool.and_eq_true, State.mayDrive_iff, decide_eq_true_iff]

/-- R9, R21: what a receive error makes of the counts, the frame and the drive. -/
theorem State.receiveError_eq {s : State} {kind : ErrorCount} {n : Nat}
    (hn : n = if s.line.lineState = .off then s.line.recCount else min 255 (s.line.recCount + 1)) :
    s.receiveError kind =
      { s with
        errors := s.errors.bump kind
        line :=
          { s.line with
            followed := none, recCount := n, lineState := stateAfter s.line s.line.tec n
            drive := if s.maySpoil then .spoil else s.line.drive } } := by
  rw [State.receiveError, LinePort.receiveError_eq hn]

/-- Settles O25. -/
theorem receiveErrorSpoils : Obligations.ReceiveErrorSpoils := by
  refine ⟨fun taken c ones hones => ?faults, ⟨rfl, fun head b => ?check⟩,
    fun s t c f kind hlive hrate hf ha hout hfault n hn => ?taken⟩
  case faults =>
    have hparity := evenParity_iff c.data c.parity
    rw [← hones] at hparity
    refine ⟨charFault_noStart, fun hstart hodd => charFault_parity hstart (hparity.2 hodd), fun hstart heven hstop =>
      ?_,
      fun hstart heven hstop => ?_⟩
    · exact charFault_stop hstart (fun h => by have := hparity.1 h; omega) hstop
    · have hplace := charFault_place (taken := taken) hstart (fun h => by have := hparity.1 h; omega) hstop
      rw [hplace]
      refine ⟨fun hshort => ?_, fun htwo => ?_, fun len hlen => ⟨fun hother => ?_, fun head high hsplit hlast => ?_⟩⟩
      · rw [if_neg fun h => by omega, List.getElem?_eq_none (by omega)]
        rfl
      · rw [List.getElem?_eq_none (by omega)]
        simp only [htwo, true_and]
        rfl
      · have hlong : 2 < taken.length := (List.getElem?_eq_some_iff.1 hlen).1
        rw [if_neg fun h => by omega, hlen, Option.map_some, if_neg fun h => hother (Option.some.inj h).symm]
      · have hlong : 2 < taken.length := (List.getElem?_eq_some_iff.1 hlen).1
        rw [if_neg fun h => by omega, hlen, Option.map_some, if_pos (congrArg some hlast.symm), hsplit]
        simp [word16]
  case check =>
    rw [checkOf, List.foldl_append, List.foldl_cons, List.foldl_nil, checkByte_eq]
    rfl
  case taken =>
    rw [hlive.characterReceived c]
    have hspoil := s.maySpoil_iff
    have htaken := State.takeChar_receiving (s := { s with clock := t }) hrate hf ha hout c
    rw [htaken, State.receiveChar_fault hout hfault, State.receiveError_eq (n := n)]
    · exact ⟨_, rfl, fun h => if_pos (hspoil.2 h), fun h => if_neg (mt hspoil.1 h)⟩
    · exact hn

end Sys2Proof.Machine
end

section
/-!
The service port: how a packet is judged, refused, discarded and carried out, how it is assembled, and how its answer
leaves (O45, O46, O47, O49, O51).
-/

namespace Sys2Proof.Machine

/-! ## A whole packet (R185, R186, R187) -/

/-- The station at instant `t`, its port in HUNT, where a packet is taken. -/
def State.atHunt (s : State) (t : Nat) : State :=
  { s with clock := t, service := s.service.hunting }

theorem State.wholePacket_eq {s : State} {t : Nat} {payload : List Byte} (hlen : payload.length ≤ 70) (cmd : Byte) :
    State.wholePacket { s with clock := t } cmd payload = (s.atHunt t).takePacket cmd payload true :=
  if_neg (Nat.not_lt.2 hlen)

/-- R187: a packet that the port has no room for is discarded. -/
theorem State.takePacket_full {s : State} (hfull : ¬ s.service.hasRoom) (t : Nat) (cmd : Byte) (payload : List Byte)
    (sumOk : Bool) : (s.atHunt t).takePacket cmd payload sumOk = s.atHunt t :=
  if_pos (by
    rw [← Bool.not_eq_false]
    exact fun h => hfull ((State.portFull_eq_false_iff _).1 h))

/-- R186, R187: a packet that is refused is answered with its status. -/
theorem State.takePacket_refused {s : State} (hroom : s.service.hasRoom) {cmd : Byte} {payload : List Byte}
    {sumOk : Bool} {status : PacketStatus} (hjudged : s.judgePacket cmd payload sumOk = .refuse status) (t : Nat) :
    (s.atHunt t).takePacket cmd payload sumOk =
      { s with clock := t, service := s.service.answered t (cmd ||| 0x80) status [] } := by
  have hfull : (s.atHunt t).portFull = false := (State.portFull_eq_false_iff _).2 hroom
  have hjudged : (s.atHunt t).judgePacket cmd payload sumOk = .refuse status := hjudged
  rw [State.takePacket, hfull, hjudged]
  exact State.respond_eq _ _ _ _

theorem State.takePacket_carriedOut {s : State} (hroom : s.service.hasRoom) {cmd : Byte} {payload : List Byte}
    {sumOk : Bool} {c : ServiceCommand} (hjudged : s.judgePacket cmd payload sumOk = .carryOut c) (t : Nat) :
    (s.atHunt t).takePacket cmd payload sumOk = (s.atHunt t).carryOut cmd c := by
  have hfull : (s.atHunt t).portFull = false := (State.portFull_eq_false_iff _).2 hroom
  have hjudged : (s.atHunt t).judgePacket cmd payload sumOk = .carryOut c := hjudged
  rw [State.takePacket, hfull, hjudged]
  rfl

/-! ## The five steps of the judgment (R186) -/

section judgment
variable {s : State} {cmd : Byte} {payload : List Byte}

theorem State.judgePacket_unknown (h : knownCommand cmd = false) :
    s.judgePacket cmd payload true = .refuse .unknown := by
  rw [State.judgePacket, if_neg nofun, if_pos h]

theorem State.judgePacket_gate (hknown : knownCommand cmd = true) {status : PacketStatus} (hgate : s.gate cmd = status)
    (hstatus : status ≠ .ok) : s.judgePacket cmd payload true = .refuse status := by
  subst hgate
  rw [State.judgePacket, if_neg nofun, if_neg (by rw [hknown]; nofun), if_pos hstatus]

/-- A packet that has passed the gate is judged by its arguments. -/
theorem State.judgePacket_badArg (hknown : knownCommand cmd = true) (hgate : s.gate cmd = .ok)
    (hargs : commandOf cmd payload = none) : s.judgePacket cmd payload true = .refuse .badArg := by
  rw [State.judgePacket, if_neg nofun, if_neg (by rw [hknown]; nofun), if_neg (not_not.2 hgate), hargs]

theorem State.judgePacket_good (hknown : knownCommand cmd = true) (hgate : s.gate cmd = .ok) {c : ServiceCommand}
    (hargs : commandOf cmd payload = some c) : s.judgePacket cmd payload true = .carryOut c := by
  rw [State.judgePacket, if_neg nofun, if_neg (by rw [hknown]; nofun), if_neg (not_not.2 hgate), hargs]

theorem knownCommand_of_range (hlow : 1 ≤ cmd.toNat) (hhigh : cmd.toNat ≤ 7) : knownCommand cmd = true := by
  simp [knownCommand, hlow, hhigh]

theorem State.gate_busy (hprogress : s.service.inProgress ≠ .none) (hcmd : cmd ≠ 1) : s.gate cmd = .busy :=
  if_pos ⟨hprogress, fun h => hcmd (BitVec.eq_of_toNat_eq h)⟩

theorem State.gate_enter (hprogress : s.service.inProgress = .none) (hmode : s.loader.mode = .loading) :
    s.gate 2 = .busy := by
  rw [State.gate, if_neg fun h => h.1 hprogress]
  exact if_pos hmode

/-- Step 4 of R186 for the commands of the flash. -/
theorem State.gate_flash (hprogress : s.service.inProgress = .none) (hmode : s.loader.mode ≠ .service)
    (hcmd : cmd = 3 ∨ cmd = 4 ∨ cmd = 5) : s.gate cmd = .notService := by
  rw [State.gate, if_neg fun h => h.1 hprogress]
  rcases hcmd with rfl | rfl | rfl <;> exact if_neg hmode

/-- Steps 3 and 4 of R186 let a packet pass. -/
theorem State.gate_ok (hprogress : s.service.inProgress = .none ∨ cmd = 1) (henter : cmd = 2 → s.loader.mode ≠ .loading)
    (hflash : cmd = 3 ∨ cmd = 4 ∨ cmd = 5 → s.loader.mode = .service) : s.gate cmd = .ok := by
  have hfree : ¬ (s.service.inProgress ≠ .none ∧ cmd.toNat ≠ 1) := fun ⟨hbusy, hother⟩ =>
    hprogress.elim hbusy fun h => hother (by rw [h]; rfl)
  rw [State.gate, if_neg hfree]
  split
  · next h => exact if_neg (henter (BitVec.eq_of_toNat_eq h))
  · next h => exact if_pos (hflash (.inl (BitVec.eq_of_toNat_eq h)))
  · next h => exact if_pos (hflash (.inr (.inl (BitVec.eq_of_toNat_eq h))))
  · next h => exact if_pos (hflash (.inr (.inr (BitVec.eq_of_toNat_eq h))))
  · rfl

end judgment

/-! ## The arguments (11.4) -/

theorem addressOf_addressBytes (a : BitVec 24) :
    addressOf (a.extractLsb' 16 8) (a.extractLsb' 8 8) (a.extractLsb' 0 8) = a.toNat := by
  have ha := a.isLt
  simp only [addressOf, BitVec.extractLsb'_toNat, Nat.shiftRight_eq_div_pow]
  omega

theorem commandOf_erase (a : BitVec 24) :
    commandOf 3 (addressBytes a) = if a.toNat % 4096 = 0 then some (.erase a.toNat) else none := by
  show eraseArgs (addressBytes a) = _
  simp only [eraseArgs, addressBytes, addressOf_addressBytes, sectorSize]

theorem commandOf_program (a : BitVec 24) (data : List Byte) :
    commandOf 4 (addressBytes a ++ data) =
      if 1 ≤ data.length ∧ data.length ≤ 64 ∧ a.toNat % 256 + data.length ≤ 256 then some (.program a.toNat data)
      else none := by
  show programArgs (addressBytes a ++ data) = _
  simp only [programArgs, addressBytes, List.cons_append, List.nil_append, addressOf_addressBytes, pageSize]

theorem commandOf_read (a : BitVec 24) (count : Byte) :
    commandOf 5 (addressBytes a ++ [count]) =
      if 1 ≤ count.toNat ∧ count.toNat ≤ 64 ∧ a.toNat + count.toNat ≤ 16777216 then some (.read a.toNat count.toNat)
      else none := by
  show readArgs (addressBytes a ++ [count]) = _
  simp only [readArgs, addressBytes, List.cons_append, List.nil_append, addressOf_addressBytes, flashSize]

theorem commandOf_errors (arg : Byte) :
    commandOf 6 [arg] = if (arg &&& 0x7F).toNat < 6 then some (.errors arg) else none :=
  rfl

/-- A payload of a length that is not its command's. -/
theorem commandOf_badLength {cmd : Byte} {payload : List Byte}
    (h : ((cmd = 1 ∨ cmd = 2 ∨ cmd = 7) ∧ payload ≠ []) ∨ (cmd = 3 ∧ payload.length ≠ 3) ∨
      (cmd = 4 ∧ (payload.length < 4 ∨ 67 < payload.length)) ∨ (cmd = 5 ∧ payload.length ≠ 4) ∨
      (cmd = 6 ∧ payload.length ≠ 1)) : commandOf cmd payload = none := by
  rcases h with ⟨rfl | rfl | rfl, hne⟩ | ⟨rfl, hne⟩ | ⟨rfl, hne⟩ | ⟨rfl, hne⟩ | ⟨rfl, hne⟩
  · exact if_neg hne
  · exact if_neg hne
  · exact if_neg hne
  · show eraseArgs payload = none
    unfold eraseArgs
    split
    · exact absurd rfl hne
    · rfl
  · show programArgs payload = none
    unfold programArgs
    split
    · refine if_neg fun ⟨hlow, hhigh, _⟩ => ?_
      simp only [List.length_cons] at hne
      omega
    · rfl
  · show readArgs payload = none
    unfold readArgs
    split
    · exact absurd rfl hne
    · rfl
  · show errorsArgs payload = none
    unfold errorsArgs
    split
    · exact absurd rfl hne
    · rfl

/-! ## Refused, discarded, carried out (R186 to R190) -/

section whole
variable {s : State} {t : Nat} {cmd : Byte} {payload : List Byte}

theorem State.liveAt.refusedPacket (hlive : s.liveAt t) (hlen : payload.length ≤ 70) (hroom : s.service.hasRoom)
    {status : PacketStatus} (hjudged : s.judgePacket cmd payload true = .refuse status) :
    (Host.Outcome.next (s.onEvent t fun s => s.wholePacket cmd payload) : Host.Outcome State Fault Refusal) =
      .next { s with clock := t, service := s.service.answered t (cmd ||| 0x80) status [] } := by
  rw [hlive.onEvent, State.wholePacket_eq hlen, State.takePacket_refused hroom hjudged]

theorem State.liveAt.goodPacket (hlive : s.liveAt t) (hlen : payload.length ≤ 70) (hroom : s.service.hasRoom)
    {c : ServiceCommand} (hjudged : s.judgePacket cmd payload true = .carryOut c) :
    (Host.Outcome.next (s.onEvent t fun s => s.wholePacket cmd payload) : Host.Outcome State Fault Refusal) =
      .next ((s.atHunt t).carryOut cmd c) := by
  rw [hlive.onEvent, State.wholePacket_eq hlen, State.takePacket_carriedOut hroom hjudged]

theorem State.liveAt.discardedPacket (hlive : s.liveAt t) (hlen : payload.length ≤ 70) (hfull : ¬ s.service.hasRoom) :
    (Host.Outcome.next (s.onEvent t fun s => s.wholePacket cmd payload) : Host.Outcome State Fault Refusal) =
      .next (s.atHunt t) := by
  rw [hlive.onEvent, State.wholePacket_eq hlen, State.takePacket_full hfull]

/-- R185: a packet of more than 70 payload bytes is cut off at its length byte. -/
theorem State.liveAt.cutOffPacket (hlive : s.liveAt t) (hlen : 70 < payload.length) :
    (Host.Outcome.next (s.onEvent t fun s => s.wholePacket cmd payload) : Host.Outcome State Fault Refusal) =
      .next (s.atHunt t) := by
  rw [hlive.onEvent]
  exact congrArg Host.Outcome.next (if_pos hlen)

end whole

theorem addressBytes_append_length (a : BitVec 24) (data : List Byte) :
    (addressBytes a ++ data).length = 3 + data.length := by
  rw [List.length_append]
  rfl

/-- Settles O46. -/
theorem packetsRefused : Obligations.PacketsRefused := by
  intro s t addr data count arg hlive
  have hprogram : data.length ≤ 67 → (addressBytes addr ++ data).length ≤ 70 := fun h => by
    rw [addressBytes_append_length]; omega
  refine ⟨fun answer hanswer hroom => ⟨fun hbusy => ?_, fun hfree => ⟨fun hmode => ?_, fun hmode => ?_, fun hmode => ?_,
    fun harg => ?_⟩⟩, fun discarded hdiscarded => ⟨fun hlong => ?_, fun hfull => ?_⟩⟩
  · have hgate (cmd : Byte) (payload : List Byte) (hknown : knownCommand cmd = true) (hcmd : cmd ≠ 1) :
        s.judgePacket cmd payload true = .refuse .busy :=
      State.judgePacket_gate hknown (State.gate_busy hbusy hcmd) nofun
    simp only [hanswer]
    exact ⟨hlive.refusedPacket (by decide) hroom (hgate 2 _ rfl (by decide)),
      hlive.refusedPacket (by simp [addressBytes]) hroom (hgate 3 _ rfl (by decide)),
      fun h => hlive.refusedPacket (hprogram h) hroom (hgate 4 _ rfl (by decide)),
      hlive.refusedPacket (by simp [addressBytes]) hroom (hgate 5 _ rfl (by decide)),
      hlive.refusedPacket (by simp) hroom (hgate 6 _ rfl (by decide)),
      hlive.refusedPacket (by decide) hroom (hgate 7 _ rfl (by decide))⟩
  · rw [hanswer]
    exact hlive.refusedPacket (by decide) hroom (State.judgePacket_gate rfl (State.gate_enter hfree hmode) nofun)
  · have hgate (cmd : Byte) (payload : List Byte) (hknown : knownCommand cmd = true)
        (hcmd : cmd = 3 ∨ cmd = 4 ∨ cmd = 5) : s.judgePacket cmd payload true = .refuse .notService :=
      State.judgePacket_gate hknown (State.gate_flash hfree hmode hcmd) nofun
    simp only [hanswer]
    exact ⟨hlive.refusedPacket (by simp [addressBytes]) hroom (hgate 3 _ rfl (by decide)),
      fun h => hlive.refusedPacket (hprogram h) hroom (hgate 4 _ rfl (by decide)),
      hlive.refusedPacket (by simp [addressBytes]) hroom (hgate 5 _ rfl (by decide))⟩
  · have hbad (cmd : Byte) (payload : List Byte) (hknown : knownCommand cmd = true)
        (hargs : commandOf cmd payload = none) : s.judgePacket cmd payload true = .refuse .badArg :=
      State.judgePacket_badArg hknown (State.gate_ok (.inl hfree) (fun _ h => by rw [hmode] at h; cases h) fun _ =>
        hmode)
        hargs
    simp only [hanswer]
    refine ⟨fun h => hlive.refusedPacket (by simp [addressBytes]) hroom (hbad 3 _ rfl ?_),
      fun hlen h => hlive.refusedPacket (hprogram hlen) hroom (hbad 4 _ rfl ?_),
      fun h => hlive.refusedPacket (by simp [addressBytes]) hroom (hbad 5 _ rfl ?_)⟩
    · rw [commandOf_erase, if_neg h]
    · refine (commandOf_program addr data).trans (if_neg fun ⟨hone, hmost, hpage⟩ => ?_)
      rcases h with rfl | h | h
      · exact absurd hone (by decide)
      · omega
      · omega
    · refine (commandOf_read addr count).trans (if_neg fun ⟨hone, hmost, hend⟩ => ?_)
      rcases h with rfl | h | h
      · exact absurd hone (by decide)
      · omega
      · omega
  · rw [hanswer]
    refine hlive.refusedPacket (by simp) hroom (State.judgePacket_badArg rfl (State.gate_ok (.inl hfree) nofun ?_) ?_)
    · rintro (h | h | h) <;> exact absurd h (by decide)
    · exact if_neg (Nat.not_lt.2 harg)
  · rw [hdiscarded]
    exact hlive.cutOffPacket (by rw [addressBytes_append_length]; omega)
  · subst hdiscarded
    have hlong : 67 < data.length → exec (.program t addr data) s = .next (s.atHunt t) := fun h =>
      hlive.cutOffPacket (by rw [addressBytes_append_length]; omega)
    refine ⟨hlive.discardedPacket (by decide) hfull, hlive.discardedPacket (by decide) hfull,
      hlive.discardedPacket (by simp [addressBytes]) hfull, ?_, hlive.discardedPacket (by simp [addressBytes]) hfull,
      hlive.discardedPacket (by simp) hfull, hlive.discardedPacket (by decide) hfull⟩
    rcases Nat.lt_or_ge 67 data.length with h | h
    · exact hlong h
    · exact hlive.discardedPacket (hprogram h) hfull

/-! ## The flash commands start (R137, R190) -/

theorem foldl_max_eq {l : List ServiceRead} {m start : Nat} (hm : m ≤ start) (hl : ∀ r ∈ l, r.dueAt ≤ start)
    (hreached : start = m ∨ ∃ r ∈ l, start = r.dueAt) : l.foldl (fun n r => max n r.dueAt) m = start := by
  induction l generalizing m with
  | nil => exact (hreached.resolve_right fun ⟨_, h, _⟩ => List.not_mem_nil h).symm
  | cons x l ih =>
    have hx : x.dueAt ≤ start := hl x List.mem_cons_self
    refine ih (Nat.max_le.2 ⟨hm, hx⟩) (fun r hr => hl r (List.mem_cons_of_mem x hr)) ?_
    rcases hreached with rfl | ⟨r, hr, rfl⟩
    · exact .inl (Nat.max_eq_left hx).symm
    · rcases List.mem_cons.1 hr with rfl | hr
      · exact .inl (Nat.max_eq_right hm).symm
      · exact .inr ⟨r, hr, rfl⟩

/-- R137: a transfer starts when the fetch read in flight and the reads before it have ended. -/
theorem State.transferStart_eq {s : State} {start : Nat} (hclock : s.clock ≤ start)
    (hfetch : ∀ r, s.fetch = some r → r.dueAt ≤ start) (hreads : ∀ r ∈ s.service.reads, r.dueAt ≤ start)
    (hreached : start = s.clock ∨ (∃ r, s.fetch = some r ∧ start = r.dueAt) ∨ ∃ r ∈ s.service.reads, start = r.dueAt) :
    s.transferStart = start := by
  have hdue : (s.fetch.map FetchRead.dueAt).getD 0 ≤ start := by
    cases hf : s.fetch with
    | none => exact Nat.zero_le _
    | some r => exact hfetch r hf
  refine foldl_max_eq (Nat.max_le.2 ⟨hclock, hdue⟩) hreads ?_
  rcases hreached with rfl | ⟨r, hr, rfl⟩ | hread
  · exact .inl (Nat.max_eq_left hdue).symm
  · refine .inl ?_
    rw [hr]
    exact (Nat.max_eq_right hclock).symm
  · exact .inr hread

/-- Settles O49. -/
theorem flashCommandsStart : Obligations.FlashCommandsStart := by
  intro s t start addr hlive hroom hfree hmode htime hfetch hreads hreached
  have hstart : (s.atHunt t).transferStart = start := State.transferStart_eq htime hfetch hreads hreached
  have hgood (cmd : Byte) (payload : List Byte) (c : ServiceCommand) (hknown : knownCommand cmd = true)
      (hargs : commandOf cmd payload = some c) : s.judgePacket cmd payload true = .carryOut c :=
    State.judgePacket_good hknown (State.gate_ok (.inl hfree) (fun _ h => by rw [hmode] at h; cases h) fun _ => hmode)
      hargs
  refine ⟨fun halign => ?_, fun data hone hmost hpage => ?_, fun count hone hmost hend => ?_⟩
  · refine (hlive.goodPacket (by simp [addressBytes]) hroom
      (hgood 3 _ (.erase addr.toNat) rfl (by rw [commandOf_erase, if_pos halign]))).trans ?_
    simp only [State.carryOut, State.startJob, hstart]
    rfl
  · refine (hlive.goodPacket (by rw [addressBytes_append_length]; omega) hroom
      (hgood 4 _ (.program addr.toNat data) rfl
        (by rw [commandOf_program, if_pos ⟨hone, hmost, hpage⟩]))).trans ?_
    simp only [State.carryOut, State.startJob, hstart]
    rfl
  · refine (hlive.goodPacket (by simp [addressBytes]) hroom
      (hgood 5 _ (.read addr.toNat count.toNat) rfl (by rw [commandOf_read, if_pos ⟨hone, hmost, hend⟩]))).trans ?_
    simp only [State.carryOut, State.startRead, hstart]
    rfl

end Sys2Proof.Machine
end

section
/-!
STATUS, ERRORS and RESTART, and how a response leaves (O47, O51).
-/

namespace Sys2Proof.Machine

/-! ## STATUS, ERRORS, RESTART (R188, R191, R193) -/

theorem modeByte_eq {m : StationMode} {b : Byte}
    (h : (m, b) ∈ [(StationMode.loading, (0 : Byte)), (.online, 1), (.service, 2)]) : modeByte m = b := by
  cases m <;> simp at h <;> exact h.symm

theorem faultByte_eq {f : StartFault} {b : Byte}
    (h : (f, b) ∈ [(StartFault.none, (0 : Byte)), (.noRecord, 1), (.badSum, 2), (.badValue, 3)]) : faultByte f = b := by
  cases f <;> simp at h <;> exact h.symm

theorem causeByte_eq {c : ResetCause} {b : Byte}
    (h : (c, b) ∈ [(ResetCause.power, (0 : Byte)), (.line, 1), (.restart, 2)]) : causeByte c = b := by
  cases c <;> simp at h <;> exact h.symm

theorem inProgressByte_eq {p : InProgress} {b : Byte}
    (h : (p, b) ∈ [(InProgress.none, (0 : Byte)), (.erase, 1), (.program, 2)]) : inProgressByte p = b := by
  cases p <;> simp at h <;> exact h.symm

/-- The TELL of a key and argument reports this group and clears it (R48, R50). -/
theorem tellClears_iff {k : Key} {arg : Option Byte} {g : Nat} :
    (decide (errorsGroup k arg = some g) && arg.any fun x => x.msb) = true ↔
      keyClass k = 7 ∧ keySubject k = 4 ∧ ∃ x, arg = some x ∧ (x &&& 0x7F).toNat = g ∧ x.msb = true := by
  unfold errorsGroup
  cases arg with
  | none => simp
  | some x => simp only [Option.map_some, Option.any_some]; split <;> simp_all

theorem Attempt.reports_iff {a : Attempt} {g : Nat} :
    a.reports g = true ↔
      keyClass a.key = 7 ∧ keySubject a.key = 4 ∧
        ∃ taken, a.tellArg = some taken ∧ (taken &&& 0x7F).toNat = g ∧ taken.msb = true :=
  tellClears_iff

theorem Entry.tellArg_eq_some {e : Entry} {x : Byte} : e.tellArg = some x ↔ e.content = .tell x := by
  unfold Entry.tellArg
  cases e.content <;> simp

theorem Entry.retries_iff {e : Entry} {g : Nat} :
    e.retries g = true ↔
      e.state = .waiting ∧ e.reported = some g ∧ keyClass e.key = 7 ∧ keySubject e.key = 4 ∧
        ∃ taken, e.content = .tell taken ∧ (taken &&& 0x7F).toNat = g ∧ taken.msb = true := by
  rw [Entry.retries, Bool.and_assoc, Bool.and_eq_true, tellClears_iff]
  simp only [Bool.and_eq_true, decide_eq_true_eq, and_assoc, Entry.tellArg_eq_some]

theorem Attempt.noted_eq (a : Attempt) (g : Nat) :
    (if a.reports g then { a with portCleared := true } else a) =
      { a with portCleared := a.portCleared || a.reports g } := by
  cases h : a.reports g <;> simp

theorem Entry.noted_eq (e : Entry) (g : Nat) :
    (if e.retries g then { e with portCleared := true } else e) =
      { e with portCleared := e.portCleared || e.retries g } := by
  cases h : e.retries g <;> simp

/-- R193: the answer of ERRORS. -/
theorem State.errorsAnswer_eq (s : State) {arg : Byte} {g : Fin 6} (hg : (arg &&& 0x7F).toNat = g.val) {n0 n1 n2 : Nat}
    (h0 : n0 = s.errors.counts[3 * g.val]) (h1 : n1 = s.errors.counts[3 * g.val + 1])
    (h2 : n2 = s.errors.counts[3 * g.val + 2]) :
    s.errorsAnswer arg =
      [BitVec.ofNat 8 g.val, byteOf (n0 / 256), byteOf n0, byteOf (n1 / 256), byteOf n1, byteOf (n2 / 256),
        byteOf n2] := by
  have hgroup : arg &&& 0x7F = BitVec.ofNat 8 g.val := by rw [← hg, BitVec.ofNat_toNat, BitVec.setWidth_eq]
  rw [State.errorsAnswer, hg, hgroup, ErrorRecord.group_eq, h0, h1, h2]
  simp only [List.flatMap_cons, List.flatMap_nil, wordBytes_eq]
  rfl

/-- The packets that every station mode takes pass the gate when nothing is in progress. -/
theorem State.gate_anyMode {s : State} {cmd : Byte} (hprogress : s.service.inProgress = .none ∨ cmd = 1)
    (hcmd : cmd = 1 ∨ cmd = 6 ∨ cmd = 7) : s.gate cmd = .ok :=
  State.gate_ok hprogress (by rintro rfl; exact absurd hcmd (by decide))
    (by rintro (rfl | rfl | rfl) <;> exact absurd hcmd (by decide))

/-- The Line Port, whose attempt remembers that the port has cleared a group it reports (R193). -/
def LinePort.noteClear (l : LinePort) (g : Nat) : LinePort :=
  { l with attempt := l.attempt.map fun a => { a with portCleared := a.portCleared || a.reports g } }

theorem LinePort.noteClear_none {l : LinePort} (h : l.attempt = none) (g : Nat) : l.noteClear g = l := by
  cases l
  subst h
  rfl

theorem LinePort.noteClear_some {l : LinePort} {a : Attempt} (h : l.attempt = some a) (g : Nat) :
    l.noteClear g = { l with attempt := some { a with portCleared := a.portCleared || a.reports g } } := by
  simp only [LinePort.noteClear, h, Option.map_some]

/-- R193: what the clear of a group by the port changes. -/
theorem State.clearGroup_eq (s : State) (g : Nat) :
    s.clearGroup g =
      { s with
        errors := s.errors.mapGroup g fun _ _ => 0
        queue := s.queue.map fun e => { e with portCleared := e.portCleared || e.retries g }
        line := s.line.noteClear g } := by
  simp only [State.clearGroup, noteClear, LinePort.noteClear, Attempt.noted_eq, Entry.noted_eq]

theorem State.errorsClear_eq (s : State) {arg : Byte} (hclear : arg.msb = true) {g : Nat}
    (hg : (arg &&& 0x7F).toNat = g) : s.errorsClear arg = s.clearGroup g := by
  rw [State.errorsClear, if_pos hclear, hg]

/-- R193: ERRORS is carried out, and answered from the counts as they stood. -/
theorem State.liveAt.errorsTaken {s : State} {t : Nat} (hlive : s.liveAt t) (hroom : s.service.hasRoom)
    (hfree : s.service.inProgress = .none) {arg : Byte} (harg : (arg &&& 0x7F).toNat < 6) :
    exec (.errors t arg) s = .next
      (((s.atHunt t).errorsClear arg).respond 6 .ok ((s.atHunt t).errorsAnswer arg)) := by
  have hjudged : s.judgePacket 6 [arg] true = .carryOut (.errors arg) :=
    State.judgePacket_good rfl (State.gate_anyMode (.inl hfree) (.inr (.inl rfl)))
      (by rw [commandOf_errors, if_pos harg])
  exact hlive.goodPacket (by simp) hroom hjudged

/-- Settles O47. -/
theorem statusErrorsRestartAnswered : Obligations.StatusErrorsRestartAnswered := by
  intro s t arg hlive hroom
  refine ⟨fun mode loaded fault cause busy lineState hmode hloaded hfault hcause hbusy hline => ?_,
    fun hfree g n0 n1 n2 hg h0 h1 h2 => ?_, fun hfree => ?_⟩
  · have hpayload : (s.atHunt t).statusPayload =
        [mode, loaded, fault, cause, busy, byteOf (s.clips.dropped / 256), byteOf s.clips.dropped, lineState,
          byteOf s.line.tec, byteOf s.line.recCount] := by
      rw [← modeByte_eq hmode, hloaded, ← faultByte_eq hfault, ← causeByte_eq hcause, ← inProgressByte_eq hbusy,
        ← lineStateByte_eq hline, State.statusPayload, wordBytes_eq]
      rfl
    have hjudged : s.judgePacket 1 [] true = .carryOut .status :=
      State.judgePacket_good rfl (State.gate_anyMode (.inr rfl) (.inl rfl)) rfl
    rw [← hpayload]
    exact (hlive.goodPacket (by decide) hroom hjudged).trans (congrArg Host.Outcome.next (State.respond_eq _ _ _ _))
  · rw [hlive.errorsTaken hroom hfree (by omega), (s.atHunt t).errorsAnswer_eq hg h0 h1 h2, State.respond_eq]
    by_cases hclear : arg.msb = true
    · rw [(s.atHunt t).errorsClear_eq hclear hg, State.clearGroup_eq]
      refine ⟨s.errors.mapGroup g.val fun _ _ => 0, s.line.noteClear g.val,
        s.queue.map fun e => { e with portCleared := e.portCleared || e.retries g.val }, rfl,
        fun h => (by rw [hclear] at h; cases h), fun _ =>
          ⟨fun i => ?_, fun hnone => ?_, fun a ha => ⟨a.portCleared || a.reports g.val, ?_, ?_⟩, List.length_map _,
            fun i e he =>
        ⟨e.portCleared || e.retries g.val, ?_, ?_⟩⟩⟩
      · exact ErrorRecord.mapGroup_count _ _ _ _
      · exact LinePort.noteClear_none hnone _
      · exact LinePort.noteClear_some ha _
      · rw [Bool.or_eq_true, Attempt.reports_iff]
      · show (s.queue.map _)[i]? = _
        rw [List.getElem?_map, he, Option.map_some]
      · rw [Bool.or_eq_true, Entry.retries_iff]
    · rw [State.errorsClear, if_neg hclear]
      exact ⟨_, _, _, rfl, fun _ => ⟨rfl, rfl, rfl⟩, fun h => absurd h hclear⟩
  · have hjudged : s.judgePacket 7 [] true = .carryOut .restart :=
      State.judgePacket_good rfl (State.gate_anyMode (.inl hfree) (.inr (.inr rfl))) rfl
    exact (hlive.goodPacket (by decide) hroom hjudged).trans (congrArg Host.Outcome.next (State.respond_eq _ _ _ _))

/-! ## Responses on the wire (R184, R187, R191) -/

theorem packetStatusByte_eq {p : PacketStatus} {b : Byte}
    (h : (p, b) ∈
      [(PacketStatus.ok, (0 : Byte)), (.busy, 1), (.badSum, 2), (.badArg, 3), (.notService, 4), (.unknown, 5)]) :
    packetStatusByte p = b := by
  cases p <;> simp at h <;> exact h.symm

theorem foldl_add_eq_sum (l : List Byte) (b : Byte) : l.foldl (· + ·) b = b + l.sum := by
  induction l generalizing b with
  | nil => simp
  | cons x l ih => rw [List.foldl_cons, ih, List.sum_cons, BitVec.add_assoc]

theorem byteSum_eq (l : List Byte) : byteSum l = l.sum := by
  exact (foldl_add_eq_sum l 0).trans (BitVec.zero_add _)

theorem evenParity_eq (b : Byte) : evenParity b = decide ((List.range 8).countP b.getLsbD % 2 = 1) := by
  revert b
  decide

/-- R184: the eleven bit times of a character. -/
theorem portBits_get (b : Byte) {i : Nat} (hi : i < 11) :
    (portBits b)[i]? = some
      (if i = 0 then false
      else if i ≤ 8 then b.getLsbD (i - 1)
      else if i = 9 then decide ((List.range 8).countP b.getLsbD % 2 = 1)
      else true) := by
  rw [← evenParity_eq]
  interval_cases i <;> rfl

/-- The transmit line while a response goes out (R184, R187). -/
theorem State.transmitLine_sending {s : State} {r : Response} {rest : List Response} {start : Nat}
    (hanswers : s.service.answers = r :: rest) (hsending : s.service.sendingFrom = some start) {k i : Nat}
    (htime : (s.clock - start) * 3 / 320 = 11 * k + i) (hi : i < 11) :
    s.transmitLine = (((responseBytes r)[k]?.bind fun b => (portBits b)[i]?).getD true) := by
  simp only [State.transmitLine, hanswers, hsending, htime, Response.serial, serial_get _ _ hi]

theorem State.liveAt.responseSent {s : State} {t start : Nat} {r : Response} {rest : List Response}
    (hlive : s.liveAt t) (hanswers : s.service.answers = r :: rest) (hsending : s.service.sendingFrom = some start) :
    exec (.responseSent t) s = .next
      (if r.sentBy start t then
        if s.restarts r then State.resetTo { s with clock := t } .restart else State.dropResponse
          { s with clock := t } rest
      else { s with clock := t }) := by
  refine congrArg Host.Outcome.next ((hlive.onEvent _).trans ?_)
  simp only [hanswers, hsending]
  rfl

/-- Settles O51. -/
theorem responsesSent : Obligations.ResponsesSent := by
  refine ⟨fun s h => by simp only [State.transmitLine, h], fun s t start r rest hanswers hsending =>
    ⟨?_, fun hlive => ?_⟩⟩
  · intro status bytes k i hstatus hbytes htime hi
    have hwire : responseBytes r = bytes := by
      rw [hbytes, responseBytes, packetStatusByte_eq hstatus, byteSum_eq]
      rfl
    rw [State.transmitLine_sending hanswers hsending htime hi, hwire]
    refine ⟨fun b hb => ?_, fun hend => ?_⟩
    · rw [hb, Option.bind_some, portBits_get b hi, Option.getD_some]
    · rw [List.getElem?_eq_none hend]
      rfl
  · have hsent : r.sentBy start t = true ↔ 3 * start + 3520 * (5 + r.payload.length) ≤ 3 * t := by
      rw [Response.sentBy, responseBytes_length, decide_eq_true_eq]
    have hrestarts : s.restarts r = true ↔ s.service.restartPending = true ∧ r.command = 0x87 ∧ r.status = .ok := by
      simp only [State.restarts, Bool.and_eq_true, decide_eq_true_eq, and_assoc]
    rw [hlive.responseSent hanswers hsending]
    refine ⟨fun hearly => ?_, fun hdue => ⟨fun hpending hcommand hstatus => ?_, fun hother => ?_⟩⟩
    · rw [if_neg fun h => by have := hsent.1 h; omega]
    · rw [if_pos (hsent.2 hdue), if_pos (hrestarts.2 ⟨hpending, hcommand, hstatus⟩)]
      exact ⟨_, rfl, State.atReset_leaves true .released _ _ _ _, rfl, rfl, rfl, rfl,
        fun o ho hbegun => Flash.throughReset_begun ho hbegun⟩
    · rw [if_pos (hsent.2 hdue), if_neg fun h => hother (hrestarts.1 h)]
      rfl

end Sys2Proof.Machine
end

section
/-!
Packet assembly: what the receiver meets, what each character makes of the packet under way (O45).
-/

namespace Sys2Proof.Machine

/-! ## Characters as received (R184) -/

/-- The ones of eight data bits and of a ninth bit. -/
theorem countP_nine (f : Nat → Bool) :
    (List.range 9).countP f = (List.range 8).countP f + if f 8 then 1 else 0 := by
  rw [List.range_succ, List.countP_append, List.countP_singleton]

theorem countP_data (levels : BitVec 10) :
    (List.range 8).countP (levels.extractLsb' 0 8).getLsbD = (List.range 8).countP levels.getLsbD := by
  refine List.countP_congr fun i hi => ?_
  simp [List.mem_range.1 hi]

/-- R184: an odd count of ones, the parity bit with them, is a wrong parity. -/
theorem parity_wrong_iff (levels : BitVec 10) :
    levels.getLsbD 8 ≠ evenParity (levels.extractLsb' 0 8) ↔ (List.range 9).countP levels.getLsbD % 2 = 1 := by
  rw [evenParity_iff, countP_data, ← countP_nine]

theorem portFault_framing {levels : BitVec 10} (h : levels.getLsbD 9 = false) :
    portFault (PortChar.ofLevels levels) = some .framingErrors :=
  if_pos h

theorem portFault_parity {levels : BitVec 10} (hstop : levels.getLsbD 9 = true)
    (hodd : (List.range 9).countP levels.getLsbD % 2 = 1) :
    portFault (PortChar.ofLevels levels) = some .parityErrors := by
  rw [portFault, if_neg (by rw [PortChar.ofLevels, hstop]; nofun)]
  exact if_pos ((parity_wrong_iff levels).2 hodd)

theorem portFault_none {levels : BitVec 10} (hstop : levels.getLsbD 9 = true)
    (heven : (List.range 9).countP levels.getLsbD % 2 = 0) : portFault (PortChar.ofLevels levels) = none := by
  rw [portFault, if_neg (by rw [PortChar.ofLevels, hstop]; nofun)]
  exact if_neg fun h => by have := (parity_wrong_iff levels).1 h; omega

theorem ofLevels_data {levels : BitVec 10} {b : Byte} (h : ∀ i, i < 8 → levels.getLsbD i = b.getLsbD i) :
    (PortChar.ofLevels levels).data = b := by
  refine BitVec.eq_of_getLsbD_eq fun i hi => ?_
  simp [PortChar.ofLevels, hi, h i hi]

/-! ## The receiver (R184, R185) -/

/-- The station at instant `t` with a character taken, its receiver at `r`. -/
def State.tookChar (s : State) (t : Nat) (r : Receiver) : State :=
  { s with clock := t, service := { s.service with receiver := r } }

section receiver
variable {s : State} {t : Nat} {levels : BitVec 10}

theorem State.liveAt.character (hlive : s.liveAt t) (hreceiver : s.service.receiver = .receiving) :
    exec (.serviceCharacter t (.character levels)) s = .next
      ((s.tookChar t (PortChar.ofLevels levels).next).takePortChar (PortChar.ofLevels levels)) :=
  congrArg Host.Outcome.next ((hlive.onEvent _).trans (if_pos hreceiver))

/-- A good character goes to the packet under way, and the receiver seeks the next start bit. -/
theorem State.liveAt.goodCharacter (hlive : s.liveAt t) (hreceiver : s.service.receiver = .receiving) {b : Byte}
    (hdata : ∀ i, i < 8 → levels.getLsbD i = b.getLsbD i) (heven : (List.range 9).countP levels.getLsbD % 2 = 0)
    (hstop : levels.getLsbD 9 = true) :
    exec (.serviceCharacter t (.character levels)) s = .next ((s.tookChar t .seeking).takeByte b) := by
  have hnext : (PortChar.ofLevels levels).next = .seeking := if_pos hstop
  rw [hlive.character hreceiver, hnext, State.takePortChar, portFault_none hstop heven, ofLevels_data hdata]

/-- A faulty character is set aside in HUNT, and else ends its packet and is counted. -/
theorem State.liveAt.faultyCharacter (hlive : s.liveAt t) (hreceiver : s.service.receiver = .receiving)
    {kind : ErrorCount} (hfault : portFault (PortChar.ofLevels levels) = some kind) :
    exec (.serviceCharacter t (.character levels)) s = .next
      (if s.service.assembly = .hunt then s.tookChar t (PortChar.ofLevels levels).next
      else ((s.tookChar t (PortChar.ofLevels levels).next).assemble .hunt).count kind) := by
  rw [hlive.character hreceiver, State.takePortChar, hfault]
  rfl

end receiver

theorem State.gapOver_iff (s : State) : s.gapOver = true ↔ ∃ g, s.service.gapFrom = some g ∧
    g + 20 * 24576 ≤ s.clock := by
  unfold State.gapOver
  cases s.service.gapFrom with
  | none => simp
  | some g => simp only [decide_eq_true_eq, Option.some.injEq, exists_eq_left']; rfl

theorem State.liveAt.gapTimeout {s : State} {t : Nat} (hlive : s.liveAt t) :
    exec (.gapTimeout t) s = .next
      (if State.gapOver { s with clock := t } then
        { s with clock := t, service := { s.service.hunting with receiver := s.service.receiver } }
      else { s with clock := t }) :=
  congrArg Host.Outcome.next (hlive.onEvent _)

/-! ## The assembly states (R185) -/

section assembly
variable {s : State} {t : Nat}

theorem State.takeByte_start (h : s.service.assembly = .hunt) (b : Byte) :
    (s.tookChar t .seeking).takeByte b =
      if b = 0x5A then (s.tookChar t .seeking).assemble .command else s.tookChar t .seeking := by
  have h : (s.tookChar t .seeking).service.assembly = .hunt := h
  rw [State.takeByte, h]
  rfl

theorem State.takeByte_command (h : s.service.assembly = .command) (b : Byte) :
    (s.tookChar t .seeking).takeByte b = (s.tookChar t .seeking).assemble (.length b) := by
  have h : (s.tookChar t .seeking).service.assembly = .command := h
  rw [State.takeByte, h]

theorem State.takeByte_length {cmd : Byte} (h : s.service.assembly = .length cmd) (b : Byte) :
    (s.tookChar t .seeking).takeByte b =
      if 70 < b.toNat then s.atHunt t else (s.tookChar t .seeking).assemble (Assembly.awaiting cmd b.toNat []) := by
  have h : (s.tookChar t .seeking).service.assembly = .length cmd := h
  rw [State.takeByte, h]
  rfl

theorem State.takeByte_payload {cmd : Byte} {len : Nat} {got : List Byte}
    (h : s.service.assembly = .payload cmd len got)
    (b : Byte) :
    (s.tookChar t .seeking).takeByte b = (s.tookChar t .seeking).assemble (Assembly.awaiting cmd len (got ++ [b])) := by
  have h : (s.tookChar t .seeking).service.assembly = .payload cmd len got := h
  rw [State.takeByte, h]

theorem State.takeByte_check {cmd : Byte} {got : List Byte} (h : s.service.assembly = .check cmd got) (b : Byte) :
    (s.tookChar t .seeking).takeByte b = (s.atHunt t).takePacket cmd got (decide (packetCheck cmd got = b)) := by
  have h : (s.tookChar t .seeking).service.assembly = .check cmd got := h
  rw [State.takeByte, h]
  rfl

theorem Assembly.awaiting_more {cmd : Byte} {len : Nat} {got : List Byte} (h : got.length < len) :
    Assembly.awaiting cmd len got = .payload cmd len got :=
  if_neg (Nat.not_le.2 h)

theorem Assembly.awaiting_all {cmd : Byte} {len : Nat} {got : List Byte} (h : len ≤ got.length) :
    Assembly.awaiting cmd len got = .check cmd got :=
  if_pos h

theorem packetCheck_eq (cmd : Byte) (got : List Byte) : packetCheck cmd got = (cmd :: byteOf got.length :: got).sum :=
  byteSum_eq _

end assembly

/-- Settles O45. -/
theorem packetsAssembled : Obligations.PacketsAssembled := by
  rintro s t b levels c hlive rfl stand still hstand rfl
  refine ⟨fun h => ?_, fun h => ?_, fun h => ?_, fun h => ?_, fun h => ?_, fun hreceiver hdata heven hstop => ?_,
    fun hreceiver kind hkind receiver hnext => ?_, fun g hg hover => ?_, fun hrunning => ?_⟩
  · exact congrArg Host.Outcome.next ((hlive.onEvent _).trans (if_pos h))
  · exact congrArg Host.Outcome.next ((hlive.onEvent _).trans (if_neg h))
  · exact congrArg Host.Outcome.next ((hlive.onEvent _).trans (if_pos h))
  · exact congrArg Host.Outcome.next ((hlive.onEvent _).trans (if_neg h))
  · exact congrArg Host.Outcome.next ((hlive.onEvent _).trans (if_neg h))
  · have hstand (a : Assembly) (ha : a ≠ .hunt) : (s.tookChar t .seeking).assemble a = stand a := by
      rw [hstand, State.assemble, if_neg ha]
      rfl
    rw [hlive.goodCharacter hreceiver hdata heven hstop]
    refine ⟨fun h hb => ?_, fun h hb => ?_, fun h => ?_, fun cmd h =>
      ⟨fun hlong => ?_, fun hone hmost => ?_, fun hzero => ?_⟩,
      fun cmd len got h => ⟨fun hmore => ?_, fun hall => ?_⟩, fun cmd got h sum hsum => ?_⟩
    · rw [State.takeByte_start h, if_pos hb]
      exact congrArg Host.Outcome.next (hstand _ (by nofun))
    · rw [State.takeByte_start h, if_neg hb]
      rfl
    · rw [State.takeByte_command h]
      exact congrArg Host.Outcome.next (hstand _ (by nofun))
    · rw [State.takeByte_length h, if_pos hlong]
      rfl
    · rw [State.takeByte_length h, if_neg (Nat.not_lt.2 hmost), Assembly.awaiting_more hone]
      exact congrArg Host.Outcome.next (hstand _ (by nofun))
    · subst hzero
      rw [State.takeByte_length h, if_neg (by decide), Assembly.awaiting_all (by decide)]
      exact congrArg Host.Outcome.next (hstand _ (by nofun))
    · rw [State.takeByte_payload h, Assembly.awaiting_more (by simpa using hmore)]
      exact congrArg Host.Outcome.next (hstand _ (by nofun))
    · rw [State.takeByte_payload h, Assembly.awaiting_all (by simpa using hall.ge)]
      exact congrArg Host.Outcome.next (hstand _ (by nofun))
    · rw [State.takeByte_check h, packetCheck_eq, ← hsum]
      have hrefused (hroom : s.service.hasRoom) (hok : sum = b) {status : PacketStatus}
          (hjudged : s.judgePacket cmd got true = .refuse status) :
          (.next ((s.atHunt t).takePacket cmd got (decide (sum = b))) : Host.Outcome State Fault Refusal) =
            .next { s with clock := t, service := s.service.answered t (cmd ||| 0x80) status [] } := by
        rw [decide_eq_true hok, State.takePacket_refused hroom hjudged]
      have hwhole (hok : sum = b) (hlen : got.length ≤ 70) :
          (.next ((s.atHunt t).takePacket cmd got (decide (sum = b))) : Host.Outcome State Fault Refusal) =
            .next (s.onEvent t fun s => s.wholePacket cmd got) := by
        rw [decide_eq_true hok, hlive.onEvent, State.wholePacket_eq hlen]
      refine ⟨fun hroom hbad => ?_, fun hroom hok hunknown => ?_,
        fun hroom hok hlow hhigh => ⟨fun hbusy hcmd => ?_, fun hfree hmode hcmd => ?_, fun hfree hmode hcmd => ?_,
          fun hprogress henter hflash hlength => ?_⟩,
        fun hfull => ?_,
        fun hok => ⟨?_, ?_, fun a hcmd hgot => ?_, fun a data hcmd hgot hdata => ?_, fun a n hcmd hgot => ?_,
          fun arg hcmd hgot => ?_, ?_⟩⟩
      · rw [decide_eq_false hbad, State.takePacket_refused hroom rfl]
      · refine hrefused hroom hok (State.judgePacket_unknown ?_)
        rcases hunknown with rfl | hhigh
        · rfl
        · exact Bool.and_eq_false_iff.2 (.inr (decide_eq_false (by omega)))
      · exact hrefused hroom hok
          (State.judgePacket_gate (knownCommand_of_range hlow hhigh) (State.gate_busy hbusy hcmd) nofun)
      · exact hrefused hroom hok
          (State.judgePacket_gate (knownCommand_of_range hlow hhigh) (State.gate_flash hfree hmode hcmd) nofun)
      · subst hcmd
        exact hrefused hroom hok (State.judgePacket_gate rfl (State.gate_enter hfree hmode) nofun)
      · exact hrefused hroom hok (State.judgePacket_badArg (knownCommand_of_range hlow hhigh)
          (State.gate_ok hprogress henter hflash) (commandOf_badLength hlength))
      · rw [State.takePacket_full hfull]
        rfl
      · rintro rfl rfl
        exact hwhole hok (by decide)
      · rintro rfl rfl
        exact hwhole hok (by decide)
      · subst hcmd hgot
        exact hwhole hok (by simp [addressBytes])
      · subst hcmd hgot
        exact hwhole hok (by rw [addressBytes_append_length]; omega)
      · subst hcmd hgot
        exact hwhole hok (by simp [addressBytes])
      · subst hcmd hgot
        exact hwhole hok (by simp)
      · rintro rfl rfl
        exact hwhole hok (by decide)
  · have hfault : portFault (PortChar.ofLevels levels) = some kind := by
      rcases hkind with ⟨hlow, rfl⟩ | ⟨hhigh, hodd, rfl⟩
      · exact portFault_framing hlow
      · exact portFault_parity hhigh hodd
    have hreceiver' : (PortChar.ofLevels levels).next = receiver := by
      rw [hnext]
      rcases hkind with ⟨hlow, rfl⟩ | ⟨hhigh, -, rfl⟩
      · rw [if_pos rfl]; exact if_neg (by rw [PortChar.ofLevels, hlow]; nofun)
      · exact if_pos hhigh
    rw [hlive.faultyCharacter hreceiver hfault, hreceiver']
    refine ⟨fun h => ?_, fun h => ?_⟩
    · rw [if_pos h]
      rfl
    · rw [if_neg h]
      rfl
  · rw [hlive.gapTimeout, if_pos ((State.gapOver_iff { s with clock := t }).2 ⟨g, hg, hover⟩)]
  · rw [hlive.gapTimeout, if_neg fun h => ?_]
    obtain ⟨g, hg, hover⟩ := (State.gapOver_iff _).1 h
    exact absurd hover (not_le.2 (hrunning g hg))

end Sys2Proof.Machine
end

section
/-!
Entry to SERVICE by ENTER (O48): what it makes of the voices, the slots and the lamps.
-/

namespace Sys2Proof.Machine

/-! ## The Voice Pool enters SERVICE (R105, R125) -/

/-- Every voice that is not FREE becomes FREE, one by one. -/
theorem freeAll_voiceWise :
    VoiceWise (fun _ x => if x.state = .free then x else x.freed) (fun _ x => x.state ≠ .free)
      (fun p v => if p.voices[v].state = .free then p else p.free v) := by
  refine .of_cases fun p v => ?_
  by_cases hfree : p.voices[v].state = .free
  · refine .inr ⟨not_not.2 hfree, id, if_pos hfree, ?_⟩
    rw [if_pos hfree, Pool.setVoice_id]
  · exact .inl ⟨hfree, if_neg hfree, if_neg hfree⟩

section freeAll
variable (p : Pool)

theorem Pool.discardAll_voice (v : VoiceNo) :
    (p.discard fun _ => true).voices[v] = { p.voices[v] with successor := none } := by
  rw [Pool.discard_voice]
  cases p.voices[v].successor <;> rfl

theorem Pool.freeAll_order : p.freeAll.order = p.order :=
  freeAll_voiceWise.eachVoice_order _

/-- R125: a FREE voice loses its successor alone, any other becomes FREE besides. -/
theorem Pool.freeAll_voice (v : VoiceNo) :
    p.freeAll.voices[v] =
      if p.voices[v].state = .free then { p.voices[v] with successor := none }
      else { p.voices[v].freed with successor := none } := by
  rw [Pool.freeAll, freeAll_voiceWise.eachVoice_voice, Pool.discardAll_voice]
  rfl

/-- R84: with voice sets and owners in agreement, the sets are empty when every voice is FREE. -/
theorem Pool.freeAll_slot {p : Pool} (hp : p.setsAgree) (n : SlotNo) :
    p.freeAll.slots[n] = { p.slots[n] with voices := 0 } := by
  have hslot := freeAll_voiceWise.eachVoice_slot (Pool.discard_setsAgree hp fun _ => true) n
  have hempty : p.freeAll.slots[n].voices = 0 := by
    refine BitVec.eq_of_getLsbD_eq fun i hi => ?_
    refine Eq.trans (Bool.eq_false_iff.2 fun hin => ?_) (inSet_zero (⟨i, hi⟩ : VoiceNo)).symm
    obtain ⟨hmember, hkept⟩ := (hslot.voices ⟨i, hi⟩).1 hin
    rw [Pool.discardAll_voice] at hkept
    have howner : p.voices[(⟨i, hi⟩ : VoiceNo)].owner = none := (hp.2 _).1 (not_not.1 hkept)
    rw [(hp.1 n _).1 hmember] at howner
    cases howner
  rw [← hempty]
  exact hslot.same

/-- R105, R125: the Voice Pool after the entry to SERVICE. -/
theorem Pool.entersService {p : Pool} (hp : p.setsAgree) :
    ∃ q : Pool, { p.freeAll.dropPending with grant := none } = q ∧ q.order = p.order ∧ q.grant = none ∧
      (∀ n : SlotNo, q.slots[n] = { p.slots[n] with pending := none, voices := 0 }) ∧
      ∀ v : VoiceNo,
        (p.voices[v].state = .free → q.voices[v] = { p.voices[v] with successor := none }) ∧
        (p.voices[v].state ≠ .free →
          q.voices[v] =
            { p.voices[v] with
              state := .free, owner := none, fifo := [], exhausted := false, underrun := false, envelope := 30720
              target := 30720, silent := false, successor := none }) := by
  refine ⟨_, rfl, ?_, ?_, fun n => ?_, fun v => ?_⟩ <;> dsimp only
  · rw [Pool.dropPending_order, Pool.freeAll_order]
  · rw [Pool.dropPending, mapEach_get, Pool.freeAll_slot hp]
  · rw [Pool.dropPending_voices, Pool.freeAll_voice, Voice.freed_eq]
    exact ⟨fun h => if_pos h, fun h => if_neg h⟩

end freeAll

/-! ## The lamps enter SERVICE (R169, R173) -/

/-- Without penalties no seat of an idle round has a lit row (R168). -/
theorem State.seatRow_service {s : State} (hround : s.round.state = .idle)
    (hpenalties : s.penalties = Vector.replicate 16 none) (seat : Seat) : s.seatRow seat = .idle := by
  have hpenalised : s.penalised seat = false := by
    simp [State.penalised, hpenalties]
  rw [State.seatRow, hpenalised, Bool.and_false, if_neg nofun]
  exact if_pos (.inr hround)

theorem Lamp.takeRow_row (l : Lamp) (row : SeatRow) (again : Bool) (phase : Nat) :
    (l.takeRow row again phase).row = row := by
  unfold Lamp.takeRow
  split
  · rfl
  · next h => exact (not_not.1 (not_or.1 h).1).symm

theorem State.enterService_cueLamp {s : State} {i : Fin 8} (h : s.lamps[i].assign = .cue) :
    s.enterService.lamps[i] =
      { s.lamps[i] with pattern := LampPattern.dark, durationEnd := none, phaseStart := s.lampPhase } := by
  have hdark : s.darkenCueLamps.lamps[i] =
      { s.lamps[i] with pattern := LampPattern.dark, durationEnd := none, phaseStart := s.lampPhase } := by
    rw [State.darkenCueLamps, mapEach_get]
    generalize s.lamps[i] = l at h
    split
    · next hseat => rw [h] at hseat; cases hseat
    · rfl
  unfold State.enterService
  rw [State.leaveLine_eq]
  refine (State.refreshedLamp_cue ?_).trans hdark
  show s.darkenCueLamps.lamps[i].assign = .cue
  rw [hdark]
  exact h

theorem State.enterService_seatLamp {s : State} {i : Fin 8} {seat : Seat} (h : s.lamps[i].assign = .seat seat) :
    s.enterService.lamps[i].row = .idle := by
  have hdark : s.darkenCueLamps.lamps[i] = s.lamps[i] := by
    rw [State.darkenCueLamps, mapEach_get, h]
  unfold State.enterService
  rw [State.leaveLine_eq]
  unfold State.roundEntersService
  rw [State.refreshedLamp_seat (seat := seat) (hdark ▸ h), Lamp.takeRow_row]
  exact State.seatRow_service rfl rfl seat

/-! ## ENTER (R183, R189) -/

theorem State.liveAt.enterTaken {s : State} {t : Nat} (hlive : s.liveAt t) (hroom : s.service.hasRoom)
    (hfree : s.service.inProgress = .none) (hmode : s.loader.mode ≠ .loading) :
    exec (.enter t) s = .next
      ((if s.loader.mode = .online then (s.atHunt t).enterService else s.atHunt t).respond 2 .ok []) := by
  have hjudged : s.judgePacket 2 [] true = .carryOut .enter :=
    State.judgePacket_good rfl (State.gate_ok (.inl hfree) (fun _ => hmode)
      (by rintro (h | h | h) <;> exact absurd h (by decide))) rfl
  exact hlive.goodPacket (by decide) hroom hjudged

/-- Settles O48. -/
theorem serviceEntered : Obligations.ServiceEntered := by
  intro s t hlive hroom hfree
  refine ⟨fun hmode => ?_, fun hmode hagree => ?_⟩
  · rw [hlive.enterTaken hroom hfree (by rw [hmode]; nofun), if_neg (by rw [hmode]; nofun), State.respond_eq]
    rfl
  · obtain ⟨lamps, heq⟩ := (s.atHunt t).enterService_eq
    have hlamps : (s.atHunt t).enterService.lamps = lamps := congrArg State.lamps heq
    rw [hlive.enterTaken hroom hfree (by rw [hmode]; nofun), if_pos hmode, heq, State.respond_eq]
    obtain ⟨q, hq, horder, hgrant, hslots, hvoices⟩ := Pool.entersService hagree
    have hpool : { (s.atHunt t).pool.freeAll.dropPending with grant := none } = q := hq
    rw [hpool]
    refine ⟨q, lamps, rfl, horder, hgrant, hslots, fun v x hx => hx ▸ hvoices v, fun i => ?_⟩
    · rw [← hlamps]
      refine ⟨fun hcue => State.enterService_cueLamp (s := s.atHunt t) hcue, fun seat hseat => ?_⟩
      rw [State.enterService_seatLamp (s := s.atHunt t) hseat]
      rfl

end Sys2Proof.Machine
end
